-- ==== Sys2Proof/Word.lean ====
section
/-! DEFINITION. Words of the machine and their plainest arithmetic (spec/00_scope.md R5, R6). -/

namespace Sys2Proof

/-- One byte of memory, of a code slot or of a table (R6). -/
abbrev Byte := BitVec 8

/-- One 32-bit register (R93). -/
abbrev Word := BitVec 32

/-- A 64-bit operand, address or counter. -/
abbrev DWord := BitVec 64

/-- One bit per lane of a cohort; bit l names lane l (R98). -/
abbrev LaneMask := BitVec 32

/-- A field value of a vector register (R62). -/
abbrev VReg := BitVec 10

/-- A predicate register p0 to p63. -/
abbrev PReg := BitVec 6

/-- A lane-mask register; 12 to 15 are refused by the decoder. -/
abbrev MReg := BitVec 4

/-- A kernel argument register k0 to k127. -/
abbrev KReg := BitVec 7

/-- An accumulator tile a0 to a15. -/
abbrev Tile := BitVec 4

end Sys2Proof
end

