-- ==== Sys2Proof/Syntax.lean ====
section
/-! DEFINITION. The instructions of Rorad 1.0 and the indivisible acts of the other agents: one
constructor per row of spec/opcode_table.json. -/

namespace Sys2Proof

/-- The control fields of a word (R53): producer distance, tag allocate, wait mask. -/
structure Ctl where
  pd : BitVec 3
  ta : BitVec 4
  wm : BitVec 12
  deriving DecidableEq, Repr

/-- The guard of a full-form word (R61). -/
structure Guard where
  neg : Bool
  gp : PReg
  deriving DecidableEq, Repr

/-- What every guarded full-form word carries. -/
structure Hd where
  c : Ctl
  g : Guard
  deriving DecidableEq, Repr

/-- Signed (.s) or unsigned (.n) reading of an integer (R111). -/
inductive Sgn where
  | s | n
  deriving DecidableEq, Repr

/-- The three results of imad (R112). -/
inductive ImadMode where
  | plain | sat | wide
  deriving DecidableEq, Repr

/-- Conditions of icmp (R117). -/
inductive ICond where
  | eq | ne | lt | le | ltu | leu | bit | nbit
  deriving DecidableEq, Repr

/-- Modes of shfl (R124). -/
inductive ShflMode where
  | from | shift | rot | swap
  deriving DecidableEq, Repr

/-- Kinds of vote (R125). -/
inductive VoteKind where
  | every | some | same | mask | count | first
  deriving DecidableEq, Repr

/-- Operations of cred (R126). -/
inductive CredOp where
  | addS | minS | minN | maxS | maxN | andN | orN | xorN
  deriving DecidableEq, Repr

/-- The specials of R100. -/
inductive Special where
  | tid | laneid | cohort | team | grid | core | cluster | quad | depth | vf
  deriving DecidableEq, Repr

/-- Forms of mfromp (R128). -/
inductive MfrompMode where
  | set | or | andn
  deriving DecidableEq, Repr

/-- Forms of mset (R128). -/
inductive MsetOp where
  | mov | and | or | xor | andn | gang
  deriving DecidableEq, Repr

/-- Rounding of R86 (two bits). -/
inductive Rnd where
  | rn | rz | rm | rp
  deriving DecidableEq, Repr

/-- Rounding of R143, with the mode that only cvt names. -/
inductive Rnd5 where
  | rn | rz | rm | rp | rna
  deriving DecidableEq, Repr

/-- Conditions of fcmp (R162). -/
inductive FCond where
  | eq | ne | lt | le | gt | ge | num | nan
  deriving DecidableEq, Repr

/-- Operand types of fcmp (R162) and fclass (R164). -/
inductive FTy where
  | f32 | f64 | f16 | bf16
  deriving DecidableEq, Repr

/-- The type codes of R87. -/
inductive ElemTy where
  | s8 | s16 | s32 | s64 | n8 | n16 | n32 | n64
  | f16 | bf16 | f32 | f64 | e4m3 | e5m2 | e2m3 | e3m2 | e2m1 | dxb6
  deriving DecidableEq, Repr

/-- Block formats of ldmx and stmx (R173). -/
inductive MxFmt where
  | e4m3 | e5m2 | e3m2 | e2m3 | e2m1 | dxb6
  deriving DecidableEq, Repr

/-- Tile transfer formats of accld and accst (R187). -/
inductive AccFmt where
  | f32 | bf16 | f16
  deriving DecidableEq, Repr

/-- The memory qualifier's order (R65). -/
inductive MOrder where
  | relaxed | acquire | release | acqrel
  deriving DecidableEq, Repr

/-- The scopes of R14. -/
inductive Scope where
  | cohort | team | cluster | quad | device | domain | system
  deriving DecidableEq, Repr

/-- The full/empty sub-field of MQ (R65). -/
inductive FullEmpty where
  | none | fe | fec
  deriving DecidableEq, Repr

/-- The cache hint of MQ (R65). -/
inductive Hint where
  | normal | stream | keep
  deriving DecidableEq, Repr

/-- The memory qualifier (R65). -/
structure Mq where
  order : MOrder
  scope : Scope
  fresh : Bool
  fe : FullEmpty
  hint : Hint
  deriving DecidableEq, Repr

/-- The access sizes of R262. -/
inductive MSize where
  | n8 | s8 | n16 | s16 | n32 | n64 | n128
  deriving DecidableEq, Repr

/-- The types of atom and red (R264). -/
inductive AtomTy where
  | s32 | n32 | s64 | n64 | f32
  deriving DecidableEq, Repr

/-- Levels of prefetch (R267). -/
inductive PfLevel where
  | cluster | l2 | page
  deriving DecidableEq, Repr

/-- Operations of cachectl (R268). -/
inductive CacheOp where
  | l1inv | ccwb | ccinv | icinv | icall
  deriving DecidableEq, Repr

/-- Kinds of msend (R303). -/
inductive MsendKind where
  | c1 | c2a | c2w | c3
  deriving DecidableEq, Repr

/-- Forms of tlbinv (R349). -/
inductive TlbForm where
  | page | range | vf
  deriving DecidableEq, Repr

/-- Forms of kvx (R360). -/
inductive KvxForm where
  | addr | pages | last
  deriving DecidableEq, Repr

/-- Forms of bar.arrive (R373). -/
inductive ArriveForm where
  | one | many | pledge
  deriving DecidableEq, Repr

/-- Forms of csrw (R109). -/
inductive CsrwMode where
  | write | set | clr
  deriving DecidableEq, Repr

/-- The short opcodes of R88. -/
inductive ShortOp where
  | mov | iadd | isub | imul | iminS | imaxS | iminN | imaxN | iand | ior | ixor | ishl | ishr | isar
  | movI | iaddI | imulI | iandI | iorI | ixorI | ishlI | ishrI | isarI
  | fadd | fsub | fmul | fmin | fmax | hadd2F | hmul2F | hadd2B | hmul2B
  deriving DecidableEq, Repr

/-- One half of a paired word (R66). -/
structure Half where
  sop : ShortOp
  d : BitVec 8
  a : BitVec 8
  b : BitVec 8
  deriving DecidableEq, Repr

/-- Where a thread stands: package logical core, team slot, access slice or not, cohort, lane. -/
structure Tid where
  core : Nat
  slot : Nat
  access : Bool
  cohort : Nat
  lane : Nat
  deriving DecidableEq, Repr

/-- The actions of a wake record (R320). -/
inductive WakeAction where
  | resume | replay | kill
  deriving DecidableEq, Repr

/-- A wake record (R320), decoded; `action = none` is code 00 or a non-zero reserved bit. -/
structure WakeRec where
  seq : BitVec 32
  vf : Nat
  core : Nat
  cohort : Nat
  slot : Nat
  action : Option WakeAction
  deriving DecidableEq, Repr

/-- The head and arguments of a launch (R298, R305, R356), as the depositor gives them. -/
structure LaunchReq where
  handle : Nat
  shapeX : Nat
  shapeY : Nat
  shapeZ : Nat
  doneSem : Nat
  waitSem : Nat
  waitCount : Nat
  reserved : Bool
  args : List Byte
  deriving DecidableEq, Repr

/-- Who uses the management window, and the DataLen of the command slot, for the commands that have no operand of their
own for it (R408). -/
inductive Reader where
  | external (dataLen : Nat)
  | hostComplex (dataLen : Nat)
  deriving DecidableEq, Repr

/-- The external host uses the window. -/
def Reader.outside : Reader → Bool
  | .external _ => true
  | .hostComplex _ => false

def Reader.dataLen : Reader → Nat
  | .external n => n
  | .hostComplex n => n

/-- A destination of fabric traffic (R303): translated address, or partition-relative cluster and byte. -/
inductive Dest where
  | translated (va : Nat)
  | cluster (rel : Nat) (off : Nat)
  deriving DecidableEq, Repr

/-- The directory entry of R352, decoded; `reserved`: a bit of bytes 21:4 or of byte 0 is not 0. -/
structure DirEntry where
  key : DWord
  object : DWord
  twin : DWord
  version : BitVec 32
  node : Nat
  owner : Nat
  ownerVf : Nat
  sharers : Nat
  replicas : List Nat
  state : Nat
  mode : Nat
  locKind : Nat
  reserved : Bool
  deriving DecidableEq, Repr

/-- The engine kinds of the pre-emption granularity table (R336). -/
inductive Engine where
  | sector | ase | mau | tce | walker | banks | storeBuffers | hukotil
  deriving DecidableEq, Repr

/-- The tables that management command 0x0003 writes (R409). -/
inductive TableWriteReq where
  /-- A partition descriptor (R20): slices, network queues, L2 ways, home hub die, protection, EccMode. -/
  | partition (id : Nat) (slices netQueues : List Nat) (ways : BitVec 16) (homeHub : Nat) (isProtected : Bool) (eccMode : Nat)
  /-- The VF descriptor and its way mask (R210): assigned partition, mask. -/
  | vfDescriptor (vf : Nat) (partition : Nat) (wayMask : BitVec 16)
  /-- The address-space record (R342), as its 64 bytes. -/
  | addressSpace (vf : Nat) (bytes : List Byte)
  /-- The partition core map (R354). -/
  | coreMap (id : Nat) (quads : List Nat)
  /-- The mode of one bank (R197). -/
  | bankMode (cluster bank mode : Nat)
  /-- A launch-queue descriptor (R290). -/
  | queueDescriptor (vf queue : Nat) (enabled : Bool) (priority : Nat)
  /-- A work-port descriptor (R297). -/
  | portDescriptor (vf port : Nat) (enabled : Bool) (queue : Nat)
  /-- A roster entry (R300), as its 16 bytes. -/
  | roster (vf index : Nat) (bytes : List Byte)
  /-- A node-table entry (R351), as its 8 bytes. -/
  | node (hub index : Nat) (bytes : List Byte)
  /-- SelfNode (R351). -/
  | selfNode (hub index : Nat)
  /-- A shard-map entry of a namespace (R351). -/
  | shard (hub ns index node : Nat)
  /-- A trigger entry (R356), as its 128 bytes. -/
  | trigger (vf index : Nat) (bytes : List Byte)
  /-- A queue semaphore (R381). -/
  | semaphore (vf index : Nat) (value : BitVec 32)
  /-- A compartment-table entry, as its 8 bytes: Valid on the next entry, or Declassify (R364). -/
  | compartment (vf index : Nat) (entry : DWord)
  /-- The VF's debug grant (R412). -/
  | debugGrant (vf : Nat) (on : Bool)
  /-- The external-access flag (R409). -/
  | externalAccess (on : Bool)
  /-- The host complex creates a directory entry, or replaces one, in a shard of the hub die's node (R353). -/
  | directoryEntry (hub : Nat) (entry : DirEntry)
  /-- The host complex deletes a directory entry (R353). -/
  | directoryDelete (hub : Nat) (key : DWord)
  /-- The resident kernel writes the address of the host fault queue's ring (R319). -/
  | hostRing (addr : Nat)
  deriving DecidableEq, Repr

/-- SPDM requests of R420, as far as the rules give them operands. -/
inductive SpdmReq where
  | getVersion | getCapabilities | negotiateAlgorithms | getDigests
  | getCertificate (slot offset length : Nat)
  | challenge (slot : Nat)
  | getMeasurements (index : Option Nat) (signSlot : Option Nat)
  | setCertificate (slot : Nat) (keyPair : Nat) (chain : List Byte)
  /-- The responder's end of a signed exchange: it signs now (R419). -/
  | sign
  deriving DecidableEq, Repr

/-- A packet of the package network (R214): what it carries. -/
inductive Packet where
  /-- A store in flight, by its number. -/
  | store (id : Nat)
  /-- An access that has not been performed yet, by the number of its request. -/
  | access (id : Nat)
  /-- The fill of an instruction-cache line. -/
  | fetch (core vf line : Nat)
  /-- A box of a copy command. -/
  | box (cluster cmd box : Nat)
  /-- The written bytes of a cluster-cache line, on their way home. -/
  | line (cluster line : Nat)
  /-- The reply that carries a 64-byte line of home memory to an access that is performed in the cycle of its issue, a
  table walk or the fill of a data cache. -/
  | reply (line : Nat)
  /-- The stores that a relaunchable team's commit sends home from its slot. -/
  | commit (core slot : Nat)
  deriving DecidableEq, Repr

/-- The operations of R264. -/
inductive RmwOp where
  | add | sub | min | max | and | or | xor | exch | cas
  deriving DecidableEq, Repr

/-- What a peer asks of this device's memory (R420): a read, a write of up to 256 bytes, or a 64-bit atomic with its
operands, those of cas being the compared and the new value. -/
inductive PeerOp where
  | read
  | write (bytes : List Byte)
  | atomic (op : RmwOp) (sg : Sgn) (b b2 : DWord)
  deriving DecidableEq, Repr

/-- A page that travels with its poison map: bytes by offset, and the 64-byte lines that are poisoned (R218, R332). -/
structure PageImage where
  bytes : List (Nat × Byte)
  poison : List Nat
  deriving DecidableEq, Repr

/-- Where a soft error strikes (R220), or a packet whose tag fails (R214). -/
inductive SoftSite where
  | scratch (cluster line : Nat)
  | clusterCache (cluster line : Nat)
  | l1 (core line : Nat)
  | home (line : Nat)
  | tile (core sector : Nat) (tile : Tile) (row col : Nat) (bits : Word)
  | packet (p : Packet)
  deriving DecidableEq, Repr

/-- Where a work token comes from (R297, R299). -/
inductive TokenSource where
  | own
  | ownPcie
  | peer (roster : Nat)
  deriving DecidableEq, Repr

/-- One Rorad word (rows IADD to HALT), or one indivisible act of an agent (rows PD_EXPIRY to
STORE_PERFORMED). (DEDUCED, log 146.) -/
inductive Instr where
  -- integer words, R112 to R121
  | iadd (h : Hd) (ty : Sgn) (sat : Bool) (d a b : VReg)
  | isub (h : Hd) (ty : Sgn) (sat : Bool) (d a b : VReg)
  | imul (h : Hd) (ty : Sgn) (sat : Bool) (d a b : VReg)
  | imulhi (h : Hd) (ty : Sgn) (d a b : VReg)
  | imad (h : Hd) (ty : Sgn) (mode : ImadMode) (d a b c : VReg)
  | iadd64 (h : Hd) (ty : Sgn) (sat x32 : Bool) (d a b : VReg)
  | imin (h : Hd) (ty : Sgn) (d a b : VReg)
  | imax (h : Hd) (ty : Sgn) (d a b : VReg)
  | iabs (h : Hd) (sat : Bool) (d a : VReg)
  | ineg (h : Hd) (sat : Bool) (d a : VReg)
  | iand (h : Hd) (w64 nb : Bool) (d a b : VReg)
  | ior (h : Hd) (w64 nb : Bool) (d a b : VReg)
  | ixor (h : Hd) (w64 nb : Bool) (d a b : VReg)
  | inot (h : Hd) (w64 : Bool) (d a : VReg)
  | ishl (h : Hd) (w64 wrap : Bool) (d a b : VReg)
  | ishr (h : Hd) (w64 wrap : Bool) (d a b : VReg)
  | isar (h : Hd) (w64 wrap : Bool) (d a b : VReg)
  | irot (h : Hd) (w64 right : Bool) (d a b : VReg)
  | bfx (h : Hd) (signed : Bool) (d a b : VReg)
  | bfi (h : Hd) (d a b c : VReg)
  | popc (h : Hd) (w64 : Bool) (d a : VReg)
  | clz (h : Hd) (w64 : Bool) (d a : VReg)
  | ctz (h : Hd) (w64 : Bool) (d a : VReg)
  | brev (h : Hd) (w64 : Bool) (d a : VReg)
  | prmt (h : Hd) (d a b c : VReg)
  | icmp (h : Hd) (cond : ICond) (w64 : Bool) (d : PReg) (a b : VReg)
  | isel (h : Hd) (w64 : Bool) (d a b : VReg) (c : PReg)
  | mov (h : Hd) (w64 : Bool) (d a : VReg)
  | lea (h : Hd) (signed : Bool) (scale : BitVec 2) (d a b : VReg)
  | shfl (h : Hd) (mode : ShflMode) (d a b : VReg) (m : MReg)
  | vote (h : Hd) (kind : VoteKind) (inv : Bool) (d : BitVec 10) (a : PReg) (m : MReg)
  | cred (h : Hd) (op : CredOp) (d a : VReg) (m : MReg)
  | srd (h : Hd) (d : VReg) (sp : Special)
  -- I20 forms, R121, R124
  | iaddI (h : Hd) (d a : VReg) (imm : BitVec 20)
  | imulI (h : Hd) (d a : VReg) (imm : BitVec 20)
  | iminI (h : Hd) (d a : VReg) (imm : BitVec 20)
  | imaxI (h : Hd) (d a : VReg) (imm : BitVec 20)
  | iandI (h : Hd) (d a : VReg) (imm : BitVec 20)
  | iorI (h : Hd) (d a : VReg) (imm : BitVec 20)
  | ixorI (h : Hd) (d a : VReg) (imm : BitVec 20)
  | ishlI (h : Hd) (d a : VReg) (n : BitVec 8)
  | ishrI (h : Hd) (d a : VReg) (n : BitVec 8)
  | isarI (h : Hd) (d a : VReg) (n : BitVec 8)
  | irotI (h : Hd) (d a : VReg) (n : BitVec 8)
  | bfxI (h : Hd) (signed : Bool) (len pos : BitVec 8) (d a : VReg)
  | bfiI (h : Hd) (len pos : BitVec 8) (d a : VReg)
  | prmtI (h : Hd) (d a : VReg) (sel : BitVec 20)
  | leaI (h : Hd) (d a : VReg) (off : BitVec 20)
  | shflI (h : Hd) (mode : ShflMode) (n : BitVec 5) (m : MReg) (d a : VReg)
  | movi (c : Ctl) (w64 : Bool) (d : VReg) (imm : BitVec 39)
  -- predicates and lane masks, R127, R128
  | pand (h : Hd) (na nb : Bool) (d a b : PReg)
  | por (h : Hd) (na nb : Bool) (d a b : PReg)
  | pxor (h : Hd) (na nb : Bool) (d a b : PReg)
  | pnot (h : Hd) (d a : PReg)
  | pmov (h : Hd) (d a : PReg)
  | psetm (h : Hd) (inv : Bool) (d : PReg) (a : MReg)
  | mfromp (h : Hd) (mode : MfrompMode) (d : MReg) (a : PReg)
  | mset (h : Hd) (op : MsetOp) (d a b : MReg)
  | mget (h : Hd) (lt : Bool) (d : VReg) (a : MReg)
  -- control flow, R129 to R136
  | bra (h : Hd) (disp : BitVec 30)
  | brx (h : Hd) (a : VReg)
  | call (h : Hd) (disp : BitVec 30)
  | callx (h : Hd) (a : VReg)
  | ret (h : Hd)
  | exit (h : Hd)
  | yield (h : Hd)
  | nop (h : Hd)
  | mjoin (h : Hd) (d : MReg)
  | mleave (h : Hd) (d : MReg)
  | mwait (h : Hd) (a : MReg)
  | svc (h : Hd) (code : BitVec 10)
  | brk (h : Hd) (code : BitVec 10)
  -- floating point, R158 to R169
  | fadd (h : Hd) (rnd : Rnd) (ftz : Bool) (d a b : VReg)
  | fsub (h : Hd) (rnd : Rnd) (ftz : Bool) (d a b : VReg)
  | fmul (h : Hd) (rnd : Rnd) (ftz : Bool) (d a b : VReg)
  | ffma (h : Hd) (rnd : Rnd) (ftz : Bool) (d a b c : VReg)
  | fmin (h : Hd) (ftz : Bool) (d a b : VReg)
  | fmax (h : Hd) (ftz : Bool) (d a b : VReg)
  | fcmp (h : Hd) (cond : FCond) (ty : FTy) (ftz : Bool) (d : PReg) (a b : VReg)
  | fsel (h : Hd) (w64 : Bool) (d a b : VReg) (c : PReg)
  | frnd (h : Hd) (rnd : Rnd) (ftz : Bool) (d a : VReg)
  | fclass (h : Hd) (ty : FTy) (set : BitVec 10) (d : PReg) (a : VReg)
  | xins (h : Hd) (rnd : Rnd) (ftz : Bool) (d a b : VReg)
  | xget (h : Hd) (man : Bool) (d a : VReg)
  | frcp (h : Hd) (rnd : Rnd) (ftz : Bool) (d a : VReg)
  | frsq (h : Hd) (ftz : Bool) (d a : VReg)
  | fsqrt (h : Hd) (rnd : Rnd) (ftz : Bool) (d a : VReg)
  | fexp2 (h : Hd) (ftz : Bool) (d a : VReg)
  | flog2 (h : Hd) (ftz : Bool) (d a : VReg)
  | fsinp (h : Hd) (ftz : Bool) (d a : VReg)
  | fcosp (h : Hd) (ftz : Bool) (d a : VReg)
  | hadd2 (h : Hd) (bf : Bool) (rnd : Rnd) (d a b : VReg)
  | hmul2 (h : Hd) (bf : Bool) (rnd : Rnd) (d a b : VReg)
  | hfma2 (h : Hd) (bf : Bool) (rnd : Rnd) (d a b c : VReg)
  | dadd (h : Hd) (rnd : Rnd) (d a b : VReg)
  | dmul (h : Hd) (rnd : Rnd) (d a b : VReg)
  | dfma (h : Hd) (rnd : Rnd) (d a b c : VReg)
  | faddI (h : Hd) (d a : VReg) (imm : BitVec 20)
  | fmulI (h : Hd) (d a : VReg) (imm : BitVec 20)
  | fminI (h : Hd) (d a : VReg) (imm : BitVec 20)
  | fmaxI (h : Hd) (d a : VReg) (imm : BitVec 20)
  -- conversion and blocks, R170 to R174
  | cvt (h : Hd) (dst src : ElemTy) (rnd : Rnd5) (sat ftz : Bool) (d a : VReg)
  | qcvt (h : Hd) (dst src : ElemTy) (rnd : Rnd) (sat : Bool) (d a b : VReg)
  | dqcvt (h : Hd) (dst src : ElemTy) (rnd : Rnd) (sat : Bool) (d a b : VReg)
  | ldmx (h : Hd) (fmt : MxFmt) (mq : Mq) (d a b : VReg)
  | stmx (h : Hd) (fmt : MxFmt) (mq : Mq) (d a b : VReg)
  | pairedWord (c : Ctl) (h0 h1 : Half)
  -- matrix words, R175 to R189
  | mma (h : Hd) (fmt : ElemTy) (mx reuse : Bool) (t : Tile) (a b c : VReg)
  | acczero (h : Hd) (t : Tile)
  | accld (h : Hd) (fmt : AccFmt) (mq : Mq) (t : Tile) (a : VReg)
  | accst (h : Hd) (fmt : AccFmt) (mq : Mq) (t : Tile) (a : VReg)
  | accchk (h : Hd) (d : VReg) (t : Tile)
  -- memory words, R258 to R286
  | ld (h : Hd) (sz : MSize) (mq : Mq) (d a : VReg) (off : BitVec 10)
  | st (h : Hd) (sz : MSize) (mq : Mq) (d a : VReg) (off : BitVec 10)
  | ldg (h : Hd) (sz : MSize) (mq : Mq) (d : VReg) (k : KReg) (b : VReg)
  | stg (h : Hd) (sz : MSize) (mq : Mq) (d : VReg) (k : KReg) (b : VReg)
  | fence (h : Hd) (mq : Mq)
  | prefetch (h : Hd) (lvl : PfLevel) (a : VReg) (off : BitVec 10)
  | cachectl (h : Hd) (op : CacheOp) (a : VReg)
  | salloc (h : Hd) (quad dflt : Bool) (d a b : VReg)
  | sfree (h : Hd) (a : VReg)
  | srenew (h : Hd) (a b : VReg)
  | poison (h : Hd) (a : VReg)
  | winpub (h : Hd)
  | winacq (h : Hd)
  | tcommit (h : Hd)
  | tcopy (h : Hd) (bar : Bool) (d a b : VReg)
  | tcopyq (h : Hd) (bar : Bool) (d a b : VReg)
  | tmcast (h : Hd) (bar : Bool) (d a b : VReg)
  | tcancel (h : Hd) (a : VReg)
  | atomAdd (h : Hd) (ty : AtomTy) (mq : Mq) (d a b : VReg)
  | atomSub (h : Hd) (ty : AtomTy) (mq : Mq) (d a b : VReg)
  | atomMin (h : Hd) (ty : AtomTy) (mq : Mq) (d a b : VReg)
  | atomMax (h : Hd) (ty : AtomTy) (mq : Mq) (d a b : VReg)
  | atomAnd (h : Hd) (ty : AtomTy) (mq : Mq) (d a b : VReg)
  | atomOr (h : Hd) (ty : AtomTy) (mq : Mq) (d a b : VReg)
  | atomXor (h : Hd) (ty : AtomTy) (mq : Mq) (d a b : VReg)
  | atomExch (h : Hd) (ty : AtomTy) (mq : Mq) (d a b : VReg)
  | atomCas (h : Hd) (ty : AtomTy) (mq : Mq) (d a b : VReg)
  | redAdd (h : Hd) (ty : AtomTy) (mq : Mq) (a b : VReg)
  | redSub (h : Hd) (ty : AtomTy) (mq : Mq) (a b : VReg)
  | redMin (h : Hd) (ty : AtomTy) (mq : Mq) (a b : VReg)
  | redMax (h : Hd) (ty : AtomTy) (mq : Mq) (a b : VReg)
  | redAnd (h : Hd) (ty : AtomTy) (mq : Mq) (a b : VReg)
  | redOr (h : Hd) (ty : AtomTy) (mq : Mq) (a b : VReg)
  | redXor (h : Hd) (ty : AtomTy) (mq : Mq) (a b : VReg)
  -- queue words, R301 to R314
  | wpost (h : Hd) (a b : VReg)
  | qpush (h : Hd) (q : BitVec 3) (a : VReg)
  | qpop (h : Hd) (d : VReg) (q : BitVec 3)
  | fpush (h : Hd) (f : BitVec 4) (a : VReg)
  | fpop (h : Hd) (d : VReg) (f : BitVec 4)
  | msend (h : Hd) (kind : MsendKind) (a b c : VReg)
  | glaunch (h : Hd) (d a : VReg)
  | gwait (h : Hd) (d a : VReg)
  -- table words, R349 to R367
  | tlbinv (h : Hd) (form : TlbForm) (a b : VReg)
  | pgprobe (h : Hd) (d a : VReg)
  | kvx (h : Hd) (form : KvxForm) (d a b : VReg) (c : PReg)
  | winctl (h : Hd) (close : Bool) (a b : VReg)
  | gatectl (h : Hd) (close : Bool) (a b : VReg)
  -- counter words, R373 to R385
  | barInit (h : Hd) (a b : VReg)
  | barArrive (h : Hd) (leave : Bool) (form : ArriveForm) (d a b : VReg)
  | barExpect (h : Hd) (a b : VReg)
  | barWait (h : Hd) (reach : Bool) (a b : VReg)
  | barTry (h : Hd) (reach : Bool) (d a b : VReg)
  | barInval (h : Hd) (a : VReg)
  | semSig (h : Hd) (a b : VReg)
  | semWait (h : Hd) (a b : VReg)
  | rdclk (h : Hd) (us : Bool) (d : VReg)
  | rdperf (h : Hd) (d : VReg) (n : BitVec 3)
  -- system words, R108, R109, R413 to R415
  | csrr (h : Hd) (d : VReg) (n : BitVec 10)
  | csrw (h : Hd) (mode : CsrwMode) (n : BitVec 10) (a : VReg)
  | sread (h : Hd) (d a : VReg)
  | eret (h : Hd) (a : VReg)
  | halt (h : Hd)
  -- acts of issue, walkers and engines
  | pdExpiry (t : Tid)
  | overdue (t : Tid)
  | resultArrival (t : Tid) (tag : Nat)
  | icacheFill (core vf : Nat) (line : Nat)
  | pageWalkComplete (core vf : Nat) (va : Nat) (forFetch : Bool)
  | mauOpComplete (core sector : Nat)
  -- fabric arrivals: `vf` is the destination VF, or where an Ultra Ethernet peer sends, the JobID (R308)
  | workToken (vf port : Nat) (src : TokenSource) (aligned : Bool) (bytes : List Byte)
  | c1Landing (vf roster : Nat) (dest : DWord) (bytes : List Byte)
  | c2Signal (vf roster : Nat) (dest : DWord)
  | c2wWrite (vf roster : Nat) (dest : DWord) (value : DWord)
  | c3Atomic (vf roster : Nat) (dest : DWord) (value : DWord)
  | messageAck (id : Nat)
  -- launch and scheduling
  | queueRoomDeposit (vf queue : Nat)
  | teamBind (partition : Nat) (anyCore : Nat) (base : Nat)
  | bindRecordDispatch (core slot : Nat) (record : List Byte)
  | slotFree (core slot : Nat)
  | gridRetire (vf grid : Nat)
  | blockedCheck (partition : Nat)
  | donationTest (partition : Nat)
  -- records, wakes and replay
  | schedulerRecordClaim (partition : Nat)
  | hostRecordMove (partition : Nat)
  | wakeRecord (partition : Nat) (rec : WakeRec) (viaEret : Bool)
  | replay (core slot : Nat) (access : Bool) (cohort log : Nat) (lanes : LaneMask)
  -- remote page service
  | recordClaim (partition : Nat)
  | directoryEntryReceived (hub vf : Nat) (key : DWord) (entry : Option DirEntry)
  | directoryUpdate (hub : Nat) (entry : DirEntry)
  | directoryWaitTimeout (hub vf : Nat) (key : DWord)
  | frameWaitTimeout (hub vf : Nat) (key : DWord)
  | pageReceived (hub vf : Nat) (key : DWord) (version : BitVec 32) (page : List (Nat × Byte)) (poison : List Nat)
  | retryTimeout (hub vf : Nat) (key : DWord)
  | replicaTimeout (hub vf : Nat) (key : DWord)
  | declineTimeout (hub vf : Nat) (key : DWord)
  | remoteTimeout (partition : Nat) (seq : BitVec 32)
  | ownershipRequest (hub vf : Nat) (key : DWord) (requester requesterVf : Nat)
  | invalidate (hub vf : Nat) (key : DWord) (version : BitVec 32)
  | checkIn (hub : Nat) (key : DWord) (page : PageImage) (clean : Bool)
  | pinExpiry (vf : Nat) (page : Nat)
  | windowRekeyComplete (window : Nat)
  -- pre-emption
  | preemptStart (partition : Nat)
  | engineStopAck (partition : Nat) (engine : Engine) (unit : Nat)
  | clusterSave (partition cluster : Nat)
  | restore (partition vf : Nat)
  | tceDeadline (partition cluster : Nat)
  | deadlineMiss (partition : Nat) (engine : Engine) (unit : Nat)
  | preemptTimeout (partition : Nat)
  -- copy engine
  | tceCommandStart (cluster : Nat)
  | tceBoxComplete (cluster cmd box : Nat)
  -- consistency machinery
  | forcedPublish (cluster vf : Nat) (line : Nat)
  | publishAck (line : Nat)
  | storePerformed (id : Nat)
  -- cluster loops and homes
  | retnUpdate (cluster : Nat) (ns : BitVec 32) (tj : BitVec 16)
  | agingScan (cluster : Nat)
  | sweeperVisit (cluster line : Nat)
  | retentionLoss (cluster line : Nat)
  | bankModeDrainComplete (cluster bank : Nat)
  | reencryptComplete (leaf : Nat)
  | powerGrant (demand drawn : List (BitVec 32)) (hot : List Nat) (inlet : Nat)
  | frequencyLoop (island : Nat)
  | droopLoop (island : Nat) (millivolts : Nat)
  -- resets and start-up
  | powerOn
  | moduleReset
  | vfReset (vf : Nat)
  | almanacStep (passed : Bool) (altPassed : Bool)
  -- management window
  | stateRead (r : Reader) (target : DWord) (len : Nat)
  | inventoryRead (r : Reader)
  | tableWrite (r : Reader) (req : TableWriteReq)
  | wake (r : Reader) (partition : Nat) (rec : WakeRec)
  | shootDown (r : Reader) (vf : Nat) (va : Nat) (pages : Nat)
  | powerBudget (r : Reader) (watts : Nat)
  | unfreeze (r : Reader) (vf : Nat)
  | kill (r : Reader) (vf : Nat)
  | hallmarkLogRead (r : Reader) (first : Nat)
  | almanacRecordsClear (r : Reader)
  | coldReset (r : Reader)
  | spdm (r : Reader) (req : SpdmReq)
  -- deposits, host complex and other agents
  | launchDeposit (vf queue : Nat) (byScheduler : Bool) (req : LaunchReq)
  | hostFaultQueueConsume
  | hostComplexAccess (vf : Nat) (phys : Nat) (write : Option (List Byte)) (len : Nat)
  | openFrameAccess (phys : Nat) (write : Option (List Byte)) (len : Nat)
  | peerAccess (device : Nat) (phys : Nat) (op : PeerOp) (len : Nat) (sync : Bool)
  | directoryQuery (hub : Nat) (key : DWord) (node : Nat)
  | pageRequest (hub : Nat) (key : DWord) (node : Nat)
  | pageWriteBack (hub : Nat) (key : DWord) (page : PageImage)
  | storageErrorReport (hub vf : Nat) (key : DWord)
  | softError (site : SoftSite) (double : Bool)
  deriving DecidableEq, Repr

end Sys2Proof
end

