-- ==== Sys2Proof/Config.lean ====
section
/-! DEFINITION. What an implementation fixes and the free values of the model: constants without a body,
so that no proof can see a value of them. -/

namespace Sys2Proof.Config

/-- Free choice number `n` among `k` candidates: which of several enabled acts comes next, which victim,
which free identifier. Nothing constrains it (log 1). -/
opaque choose (n k : Nat) : Nat

/-- A free byte: draw `n`. -/
opaque freeByte (n : Nat) : BitVec 8

/-- A free 32-bit value: draw `n`. -/
opaque freeWord (n : Nat) : BitVec 32

/-- A free 64-bit value: draw `n`. -/
opaque freeDWord (n : Nat) : BitVec 64

/-- Which of the permitted ways of an L2 set line `line` is put in under mask `mask`, at draw `n` (R209 leaves the
replacement open). -/
opaque l2Way (n line mask : Nat) : Nat

/-- Nodes that the counter-tree cache of a slice can hold; R212 gives it no size. -/
opaque treeCacheNodes : Nat

/-- The set of the second-level TLB in which a page stands: R348 gives its ways and no index. -/
opaque tlbSet (page : Nat) : Nat

/-- What the security core signs or generates: key values and signatures are never values of the model
(R217, R418); byte `i` of signature `n`. -/
opaque signatureByte (n i : Nat) : BitVec 8

/-- Current in mA that an island draws at a clock in MHz; the spec names its uses and gives no value (R405). -/
opaque current (island mhz : Nat) : Nat

/-- The current in mA that a module budget in W buys (R405). -/
opaque budgetCurrent (watts : Nat) : Nat

/-- The cap in mA of an island above 100 °C, at draw `n` (R405). -/
opaque hotCap (n island : Nat) : Nat

/-- Energy in µJ of one microsecond at a drawn current in mA (R388). -/
opaque energyStep (island drawn : Nat) : Nat

/-- This device's UALink number, 0 to 1,023 (R193); the spec gives no register that holds it. -/
opaque device : Nat

/-- What a load from a peer's memory returns: byte `i` of draw `n` (R193: the peer's slice serves it). -/
opaque peerByte (n i : Nat) : BitVec 8

/-- Where an item begins in its class's state space, and how long it is: R410 gives each directory entry
these fields and no values. -/
opaque itemOffset (cls item : Nat) : Nat
opaque itemLength (cls item : Nat) : Nat

/-- Which byte of an item's cells stands at byte `o` of an item that the spec does not lay out (R410). -/
opaque itemCell (cls item o : Nat) : Nat

/-- Byte `i` of the management window's inventory that lists given directories and enabled units: R409 gives its
contents and no layout. -/
opaque inventoryByte (contents : List Nat) (i : Nat) : BitVec 8

/-- The table write that a table address and the bytes of the data buffer stand for; none where they name no entry: R409
lists the tables and gives no table address. -/
opaque tableWrite (target : DWord) (bytes : List (BitVec 8)) : Option TableWriteReq

/-- The SPDM request that a message in the data buffer is; none where it is not one of R420. The SPDM standard lays its
messages out, not this spec. -/
opaque spdmRequest (bytes : List (BitVec 8)) : Option SpdmReq

/-- Whether a UALink port reaches a device of the domain (R403 names the reach and gives no topology). -/
opaque portReaches (port device : Nat) : Bool

/-- Bytes of a class's state space (R413 names its end and gives no value). -/
opaque stateSpace (cls : Nat) : Nat

end Sys2Proof.Config
end

