-- ==== Sys2Proof/WellFormed.lean ====
section
/-! DEFINITION. Which terms of Instr are words of Rorad: the checks that need no machine state
(spec/03_encoding.md R56, R62, R67, R75; spec/04_opcode_map.md R84 to R90; each family's chapter).
A failing check is named; every name is a reason for the illegal-instruction fault of R75. -/

namespace Sys2Proof

/-- Why a word is not an instruction (R75), and why a fetched line gives none (R70). -/
inductive DecodeError where
  /-- OP or SOP is not assigned (R83, R88). -/
  | unassignedOpcode
  /-- TA is 12 to 14, or against R56 or R90. -/
  | badTag
  /-- An m register field above 11 (R62). -/
  | maskRegister
  /-- An odd register for a 64-bit operand, or a group register that is not aligned (R62, R262). -/
  | oddRegister
  /-- p63, or a value above 63, as a destination (R62). -/
  | predicateDestination
  /-- A modifier, type pair or rounding the instruction does not accept (R86, R87). -/
  | badModifier
  /-- A qualifier the instruction does not accept (R258). -/
  | badQualifier
  /-- A register named in a field the form leaves unused (R62). -/
  | unusedField
  /-- The two destinations of a paired word are equal (R67). -/
  | pairedDestination
  /-- A bank is read more than twice by a paired word (R67). -/
  | pairedBanks
  /-- A non-zero bit in an unused or reserved field (R8, R75). -/
  | reservedBits
  /-- Not a word of the instruction set at all: an act of another agent. -/
  | notAWord
  deriving DecidableEq, Repr

/-- How a word uses TA (R56, R90). -/
inductive TagUse where
  /-- Fixed latency: TA = 15. -/
  | none
  /-- A register result: TA = 0 to 11. -/
  | must
  /-- Variable latency, no register result: 0 to 11 or 15. -/
  | may
  deriving DecidableEq, Repr

/-- The pipes of R89. -/
inductive Pipe where
  | i | f | x | m | mau | paired
  deriving DecidableEq, Repr

/-- Header of a guarded word; paired words, movi and the agents' acts have none. -/
def Instr.hd? : Instr → Option Hd
  | .iadd h .. | .isub h .. | .imul h .. | .imulhi h .. | .imad h .. | .iadd64 h .. | .imin h ..
  | .imax h .. | .iabs h .. | .ineg h .. | .iand h .. | .ior h .. | .ixor h .. | .inot h ..
  | .ishl h .. | .ishr h .. | .isar h .. | .irot h .. | .bfx h .. | .bfi h .. | .popc h ..
  | .clz h .. | .ctz h .. | .brev h .. | .prmt h .. | .icmp h .. | .isel h .. | .mov h ..
  | .lea h .. | .shfl h .. | .vote h .. | .cred h .. | .srd h .. | .iaddI h .. | .imulI h ..
  | .iminI h .. | .imaxI h .. | .iandI h .. | .iorI h .. | .ixorI h .. | .ishlI h .. | .ishrI h ..
  | .isarI h .. | .irotI h .. | .bfxI h .. | .bfiI h .. | .prmtI h .. | .leaI h .. | .shflI h ..
  | .pand h .. | .por h .. | .pxor h .. | .pnot h .. | .pmov h .. | .psetm h .. | .mfromp h ..
  | .mset h .. | .mget h .. | .bra h .. | .brx h .. | .call h .. | .callx h .. | .ret h
  | .exit h | .yield h | .nop h | .mjoin h .. | .mleave h .. | .mwait h .. | .svc h .. | .brk h ..
  | .fadd h .. | .fsub h .. | .fmul h .. | .ffma h .. | .fmin h .. | .fmax h .. | .fcmp h ..
  | .fsel h .. | .frnd h .. | .fclass h .. | .xins h .. | .xget h .. | .frcp h .. | .frsq h ..
  | .fsqrt h .. | .fexp2 h .. | .flog2 h .. | .fsinp h .. | .fcosp h .. | .hadd2 h .. | .hmul2 h ..
  | .hfma2 h .. | .dadd h .. | .dmul h .. | .dfma h .. | .faddI h .. | .fmulI h .. | .fminI h ..
  | .fmaxI h .. | .cvt h .. | .qcvt h .. | .dqcvt h .. | .ldmx h .. | .stmx h .. | .mma h ..
  | .acczero h .. | .accld h .. | .accst h .. | .accchk h .. | .ld h .. | .st h .. | .ldg h ..
  | .stg h .. | .fence h .. | .prefetch h .. | .cachectl h .. | .salloc h .. | .sfree h ..
  | .srenew h .. | .poison h .. | .winpub h | .winacq h | .tcommit h | .tcopy h .. | .tcopyq h ..
  | .tmcast h .. | .tcancel h .. | .atomAdd h .. | .atomSub h .. | .atomMin h .. | .atomMax h ..
  | .atomAnd h .. | .atomOr h .. | .atomXor h .. | .atomExch h .. | .atomCas h .. | .redAdd h ..
  | .redSub h .. | .redMin h .. | .redMax h .. | .redAnd h .. | .redOr h .. | .redXor h ..
  | .wpost h .. | .qpush h .. | .qpop h .. | .fpush h .. | .fpop h .. | .msend h .. | .glaunch h ..
  | .gwait h .. | .tlbinv h .. | .pgprobe h .. | .kvx h .. | .winctl h .. | .gatectl h ..
  | .barInit h .. | .barArrive h .. | .barExpect h .. | .barWait h .. | .barTry h ..
  | .barInval h .. | .semSig h .. | .semWait h .. | .rdclk h .. | .rdperf h .. | .csrr h ..
  | .csrw h .. | .sread h .. | .eret h .. | .halt h => some h
  | .movi .. | .pairedWord .. | .pdExpiry .. | .overdue .. | .resultArrival .. | .icacheFill ..
  | .pageWalkComplete .. | .mauOpComplete .. | .workToken .. | .c1Landing .. | .c2Signal ..
  | .c2wWrite .. | .c3Atomic .. | .messageAck .. | .queueRoomDeposit .. | .teamBind ..
  | .bindRecordDispatch .. | .slotFree .. | .gridRetire .. | .blockedCheck .. | .donationTest ..
  | .schedulerRecordClaim .. | .hostRecordMove .. | .wakeRecord .. | .replay .. | .recordClaim ..
  | .directoryEntryReceived .. | .directoryUpdate .. | .directoryWaitTimeout ..
  | .frameWaitTimeout .. | .pageReceived .. | .retryTimeout .. | .replicaTimeout ..
  | .declineTimeout .. | .remoteTimeout .. | .ownershipRequest .. | .invalidate .. | .checkIn ..
  | .pinExpiry .. | .windowRekeyComplete .. | .preemptStart .. | .engineStopAck ..
  | .clusterSave .. | .restore .. | .tceDeadline .. | .deadlineMiss .. | .preemptTimeout ..
  | .tceCommandStart .. | .tceBoxComplete .. | .forcedPublish .. | .publishAck .. | .retnUpdate ..
  | .agingScan .. | .sweeperVisit .. | .retentionLoss .. | .bankModeDrainComplete ..
  | .reencryptComplete .. | .powerGrant .. | .frequencyLoop .. | .droopLoop .. | .powerOn
  | .moduleReset | .vfReset .. | .almanacStep .. | .stateRead .. | .inventoryRead ..
  | .tableWrite .. | .wake .. | .shootDown .. | .powerBudget .. | .unfreeze .. | .kill ..
  | .hallmarkLogRead .. | .almanacRecordsClear .. | .coldReset .. | .spdm .. | .launchDeposit ..
  | .hostFaultQueueConsume | .hostComplexAccess .. | .openFrameAccess .. | .peerAccess ..
  | .directoryQuery .. | .pageRequest .. | .pageWriteBack .. | .storageErrorReport ..
  | .softError .. | .storePerformed .. => none

/-- Control fields of a word. -/
def Instr.ctl? : Instr → Option Ctl
  | .movi c .. => some c
  | .pairedWord c .. => some c
  | i => i.hd?.map Hd.c

/-- Pipe and use of TA of a word (R89, R90). -/
def Instr.pipe : Instr → Pipe × TagUse
  | .fadd .. | .fsub .. | .fmul .. | .ffma .. | .fmin .. | .fmax .. | .fcmp .. | .fsel .. | .frnd ..
  | .fclass .. | .xins .. | .xget .. | .hadd2 .. | .hmul2 .. | .hfma2 .. | .faddI .. | .fmulI ..
  | .fminI .. | .fmaxI .. | .cvt .. => (.f, .none)
  | .frcp .. | .frsq .. | .fsqrt .. | .fexp2 .. | .flog2 .. | .fsinp .. | .fcosp .. | .dadd ..
  | .dmul .. | .dfma .. | .qcvt .. | .dqcvt .. => (.x, .must)
  | .accchk .. => (.mau, .must)
  | .mma .. | .acczero .. | .accld .. | .accst .. => (.mau, .may)
  | .ldmx .. | .ld .. | .ldg .. | .salloc .. | .tcopy .. | .tcopyq .. | .tmcast .. | .atomAdd ..
  | .atomSub .. | .atomMin .. | .atomMax .. | .atomAnd .. | .atomOr .. | .atomXor ..
  | .atomExch .. | .atomCas .. | .qpop .. | .fpop .. | .glaunch .. | .gwait .. | .pgprobe ..
  | .kvx .. | .barArrive .. | .barTry .. | .rdclk .. | .rdperf .. | .csrr .. | .sread .. => (.m, .must)
  | .stmx .. | .st .. | .stg .. | .fence .. | .prefetch .. | .cachectl .. | .sfree .. | .srenew ..
  | .poison .. | .winpub .. | .winacq .. | .tcommit .. | .tcancel .. | .redAdd .. | .redSub ..
  | .redMin .. | .redMax .. | .redAnd .. | .redOr .. | .redXor .. | .wpost .. | .qpush ..
  | .fpush .. | .msend .. | .tlbinv .. | .winctl .. | .gatectl .. | .barInit .. | .barExpect ..
  | .barWait .. | .barInval .. | .semSig .. | .semWait .. | .csrw .. | .eret .. | .halt .. => (.m, .may)
  | .pairedWord .. => (.paired, .none)
  | _ => (.i, .none)

/-- The latency of a fixed-class word (R55, R89). -/
def Instr.latency (i : Instr) : Nat :=
  match i.pipe.1 with
  | .f => 4
  | _ => 2

/-- R56, R90: which TA values the use admits. -/
def tagOk (u : TagUse) (ta : BitVec 4) : Bool :=
  match u with
  | .none => ta == 15#4
  | .must => ta.toNat < 12
  | .may => ta.toNat < 12 || ta == 15#4

/-- The field names an even register (R62). -/
def even (r : VReg) : Bool := r.toNat % 2 == 0

/-- The field names the first register of an aligned group of four. -/
def mult4 (r : VReg) : Bool := r.toNat % 4 == 0

/-- Pairs are even; single registers are free. -/
def evenIf (w64 : Bool) (r : VReg) : Bool := !w64 || even r

/-- m0 to m11 (R62). -/
def maskOk (m : MReg) : Bool := m.toNat < 12

/-- p0 to p62 as a destination (R62). -/
def predDst (p : PReg) : Bool := p.toNat < 63

/-- The width of a type code in bits (R138, R139). -/
def ElemTy.width : ElemTy → Nat
  | .s8 | .n8 | .e4m3 | .e5m2 => 8
  | .s16 | .n16 | .f16 | .bf16 => 16
  | .s32 | .n32 | .f32 => 32
  | .s64 | .n64 | .f64 => 64
  | .e2m3 | .e3m2 | .dxb6 => 6
  | .e2m1 => 4

/-- An integer type code (R138). -/
def ElemTy.isInt : ElemTy → Bool
  | .s8 | .s16 | .s32 | .s64 | .n8 | .n16 | .n32 | .n64 => true
  | _ => false

/-- R170: the pairs, roundings and .ftz that cvt accepts. -/
def cvtOk (dst src : ElemTy) (rnd : Rnd5) (ftz : Bool) : Bool :=
  dst != .dxb6 && src != .dxb6 && dst != src &&
  (!(dst.isInt && src.isInt) || (rnd == .rn && !ftz))

/-- R171: destinations of qcvt. -/
def qNarrow : ElemTy → Bool
  | .e4m3 | .e5m2 | .e3m2 | .e2m3 | .e2m1 | .dxb6 | .f16 | .bf16 | .s8 | .n8 | .s16 | .n16 => true
  | _ => false

/-- R171: sources of qcvt and destinations of dqcvt. -/
def qWide : ElemTy → Bool
  | .f32 | .f16 | .bf16 => true
  | _ => false

/-- R176: the formats of mma. -/
def mmaFmt : ElemTy → Bool
  | .f16 | .bf16 | .e4m3 | .e5m2 | .e3m2 | .e2m3 | .e2m1 | .dxb6 => true
  | _ => false

/-- R258, rows ld and ldg, or with `fe = false` ldmx and accld. -/
def loadMq (fe : Bool) (q : Mq) : Bool :=
  (q.order == .relaxed || q.order == .acquire) && (fe || q.fe == .none)

/-- R258, rows st, stg and accst, or with `fe = false` stmx. -/
def storeMq (fe : Bool) (q : Mq) : Bool :=
  (q.order == .relaxed || q.order == .release) && !q.fresh &&
  (q.fe == .none || (fe && q.fe == .fe))

/-- R258, row atom. -/
def atomMq (q : Mq) : Bool := !q.fresh && q.fe == .none && q.hint == .normal

/-- R258, row red. -/
def redMq (q : Mq) : Bool :=
  q.order == .relaxed && !q.fresh && q.fe == .none && (q.hint == .normal || q.hint == .stream)

/-- R258, row fence. -/
def fenceMq (q : Mq) : Bool :=
  q.order != .relaxed && !q.fresh && q.fe == .none && q.hint == .normal

/-- The type is 64 bits wide (R264). -/
def AtomTy.wide : AtomTy → Bool
  | .s64 | .n64 => true
  | _ => false

/-- R264: and, or, xor, exch and cas take the unsigned types. -/
def AtomTy.bitsTy : AtomTy → Bool
  | .n32 | .n64 => true
  | _ => false

/-- R262: alignment of the register group of an access. -/
def sizeReg (sz : MSize) (d : VReg) : Bool :=
  match sz with
  | .n64 => even d
  | .n128 => mult4 d
  | _ => true

/-- R262: sign extension is a load's. -/
def MSize.storable : MSize → Bool
  | .s8 | .s16 => false
  | _ => true

/-- The short opcode takes imm8 in B8 (R88). -/
def ShortOp.imm : ShortOp → Bool
  | .movI | .iaddI | .imulI | .iandI | .iorI | .ixorI | .ishlI | .ishrI | .isarI => true
  | _ => false

/-- The short opcode is an integer one, rows 0x00 and 0x10 (R310). -/
def ShortOp.integer : ShortOp → Bool
  | .fadd | .fsub | .fmul | .fmin | .fmax | .hadd2F | .hmul2F | .hadd2B | .hmul2B => false
  | _ => true

/-- The source registers a half reads (R66, R88). -/
def Half.sources (h : Half) : List (BitVec 8) :=
  match h.sop with
  | .movI => []
  | .mov => [h.a]
  | o => if o.imm then [h.a] else [h.a, h.b]

/-- R88: mov.n32 leaves B8 at 0 and mov# leaves A8 at 0. -/
def Half.unusedOk (h : Half) : Bool :=
  match h.sop with
  | .mov => h.b == 0#8
  | .movI => h.a == 0#8
  | _ => true

/-- How often bank `k` is read by the halves (R67). -/
def bankReads (k : Nat) (rs : List (BitVec 8)) : Nat :=
  (rs.filter (fun r => r.toNat % 4 == k)).length

/-- R67: no bank is read more than twice. -/
def banksOk (h0 h1 : Half) : Bool :=
  let rs := h0.sources ++ h1.sources
  bankReads 0 rs ≤ 2 && bankReads 1 rs ≤ 2 && bankReads 2 rs ≤ 2 && bankReads 3 rs ≤ 2

/-- The kind writes a predicate, so D is a p register (R125). -/
def VoteKind.toPred : VoteKind → Bool
  | .every | .some | .same => true
  | _ => false

/-- The control/status register numbers of R101. -/
def csrKnown (n : BitVec 10) : Bool :=
  n == 0x000#10 || n == 0x008#10 || n == 0x010#10 || n == 0x011#10 || n == 0x018#10 ||
  (0x20 ≤ n.toNat && n.toNat ≤ 0x27) || n == 0x030#10 || n == 0x040#10

/-- The first of the listed checks that fails names the refusal. -/
def firstFail : List (Bool × DecodeError) → Option DecodeError
  | [] => none
  | (true, _) :: t => firstFail t
  | (false, e) :: _ => some e

/-- The operand checks of one word; the tag check stands in `wfError`. -/
def Instr.checks : Instr → List (Bool × DecodeError)
  | .imad _ _ .wide d _ _ c => [(even d && even c, .oddRegister)]
  | .iadd64 _ _ _ x32 d a b => [(even d && even a && evenIf (!x32) b, .oddRegister)]
  | .iand _ w _ d a b | .ior _ w _ d a b | .ixor _ w _ d a b =>
    [(evenIf w d && evenIf w a && evenIf w b, .oddRegister)]
  | .inot _ w d a | .brev _ w d a | .mov _ w d a => [(evenIf w d && evenIf w a, .oddRegister)]
  | .ishl _ w _ d a _ | .ishr _ w _ d a _ | .isar _ w _ d a _ | .irot _ w _ d a _ =>
    [(evenIf w d && evenIf w a, .oddRegister)]
  | .popc _ w _ a | .clz _ w _ a | .ctz _ w _ a => [(evenIf w a, .oddRegister)]
  | .icmp _ _ w d a b => [(predDst d, .predicateDestination), (evenIf w a && evenIf w b, .oddRegister)]
  | .isel _ w d a b _ | .fsel _ w d a b _ =>
    [(evenIf w d && evenIf w a && evenIf w b, .oddRegister)]
  | .lea _ _ _ d a _ | .leaI _ d a _ => [(even d && even a, .oddRegister)]
  | .shfl _ _ _ _ _ m | .shflI _ _ _ m _ _ | .cred _ _ _ _ m => [(maskOk m, .maskRegister)]
  | .vote _ k _ d _ m =>
    [(!k.toPred || d.toNat < 63, .predicateDestination), (maskOk m, .maskRegister)]
  | .movi _ w d imm =>
    [(evenIf w d, .oddRegister), (w || imm.toNat < 2 ^ 32, .reservedBits)]
  | .pand _ _ _ d _ _ | .por _ _ _ d _ _ | .pxor _ _ _ d _ _ | .pnot _ d _ | .pmov _ d _ =>
    [(predDst d, .predicateDestination)]
  | .psetm _ _ d a => [(predDst d, .predicateDestination), (maskOk a, .maskRegister)]
  | .mfromp _ _ d _ | .mjoin _ d | .mleave _ d => [(maskOk d, .maskRegister)]
  | .mwait _ a | .mget _ _ _ a => [(maskOk a, .maskRegister)]
  | .mset _ op d a b =>
    [(maskOk d && maskOk a && maskOk b, .maskRegister),
     (match op with
      | .mov => b == 0#4
      | .gang => a == 0#4 && b == 0#4
      | _ => true, .unusedField)]
  | .brx _ a | .callx _ a => [(even a, .oddRegister)]
  | .fcmp _ _ ty ftz d a b =>
    [(predDst d, .predicateDestination), (evenIf (ty == .f64) a && evenIf (ty == .f64) b, .oddRegister),
     (!ftz || ty == .f32, .badModifier)]
  | .fclass _ ty _ d a => [(predDst d, .predicateDestination), (evenIf (ty == .f64) a, .oddRegister)]
  | .dadd _ _ d a b | .dmul _ _ d a b => [(even d && even a && even b, .oddRegister)]
  | .dfma _ _ d a b c => [(even d && even a && even b && even c, .oddRegister)]
  | .cvt _ dst src rnd _ ftz d a =>
    [(cvtOk dst src rnd ftz, .badModifier),
     (evenIf (dst.width == 64) d && evenIf (src.width == 64) a, .oddRegister)]
  | .qcvt _ dst src rnd sat _ _ _ =>
    [(qWide src && qNarrow dst && dst != src && (dst != .dxb6 || (rnd == .rn && !sat)), .badModifier)]
  | .dqcvt _ dst src _ _ _ _ _ => [(qNarrow src && qWide dst && dst != src, .badModifier)]
  | .ldmx _ fmt mq d a b =>
    [(loadMq false mq, .badQualifier), (even d && even a && even b, .oddRegister),
     (fmt != .dxb6 || b == 0#10, .unusedField)]
  | .stmx _ fmt mq _ a b =>
    [(storeMq false mq, .badQualifier), (even a && even b, .oddRegister),
     (fmt != .dxb6 || b == 0#10, .unusedField)]
  | .pairedWord _ h0 h1 =>
    [(h0.unusedOk && h1.unusedOk, .unusedField), (h0.d != h1.d, .pairedDestination),
     (banksOk h0 h1, .pairedBanks)]
  | .mma _ fmt mx _ _ a b c =>
    [(mmaFmt fmt && (!mx || (fmt != .f16 && fmt != .bf16 && fmt != .dxb6)), .badModifier),
     (mult4 a && even b, .oddRegister), (mx || fmt == .dxb6 || c == 0#10, .unusedField)]
  | .accld _ _ mq _ a => [(loadMq false mq, .badQualifier), (even a, .oddRegister)]
  | .accst _ _ mq _ a => [(storeMq true mq, .badQualifier), (even a, .oddRegister)]
  | .ld _ sz mq d a _ => [(loadMq true mq, .badQualifier), (sizeReg sz d && even a, .oddRegister)]
  | .st _ sz mq d a _ =>
    [(sz.storable, .badModifier), (storeMq true mq, .badQualifier), (sizeReg sz d && even a, .oddRegister)]
  | .ldg _ sz mq d k _ =>
    [(loadMq true mq, .badQualifier), (sizeReg sz d && k.toNat % 2 == 0, .oddRegister)]
  | .stg _ sz mq d k _ =>
    [(sz.storable, .badModifier), (storeMq true mq, .badQualifier),
     (sizeReg sz d && k.toNat % 2 == 0, .oddRegister)]
  | .fence _ mq => [(fenceMq mq, .badQualifier)]
  | .prefetch _ _ a _ | .sfree _ a | .srenew _ a _ | .poison _ a | .eret _ a | .barInit _ a _
  | .barExpect _ a _ | .barWait _ _ a _ | .barInval _ a | .barTry _ _ _ a _ | .glaunch _ _ a
  | .wpost _ a _ => [(even a, .oddRegister)]
  | .cachectl _ op a => [(even a, .oddRegister), (op != .icall || a == 0#10, .unusedField)]
  | .salloc _ _ dflt d _ b => [(even d, .oddRegister), (!dflt || b == 0#10, .unusedField)]
  | .tcopy _ bar _ a b | .tcopyq _ bar _ a b | .tmcast _ bar _ a b =>
    [(even a && even b, .oddRegister), (bar || b == 0#10, .unusedField)]
  | .atomAdd _ ty mq d a b | .atomMin _ ty mq d a b | .atomMax _ ty mq d a b =>
    [(atomMq mq, .badQualifier), (even a && evenIf ty.wide d && evenIf ty.wide b, .oddRegister)]
  | .atomSub _ ty mq d a b =>
    [(ty != .f32, .badModifier), (atomMq mq, .badQualifier),
     (even a && evenIf ty.wide d && evenIf ty.wide b, .oddRegister)]
  | .atomAnd _ ty mq d a b | .atomOr _ ty mq d a b | .atomXor _ ty mq d a b | .atomExch _ ty mq d a b =>
    [(ty.bitsTy, .badModifier), (atomMq mq, .badQualifier),
     (even a && evenIf ty.wide d && evenIf ty.wide b, .oddRegister)]
  | .atomCas _ ty mq d a b =>
    [(ty.bitsTy, .badModifier), (atomMq mq, .badQualifier),
     (even a && evenIf ty.wide d && even b && (!ty.wide || mult4 b), .oddRegister)]
  | .redAdd _ ty mq a b | .redMin _ ty mq a b | .redMax _ ty mq a b =>
    [(redMq mq, .badQualifier), (even a && evenIf ty.wide b, .oddRegister)]
  | .redSub _ ty mq a b =>
    [(ty != .f32, .badModifier), (redMq mq, .badQualifier), (even a && evenIf ty.wide b, .oddRegister)]
  | .redAnd _ ty mq a b | .redOr _ ty mq a b | .redXor _ ty mq a b =>
    [(ty.bitsTy, .badModifier), (redMq mq, .badQualifier), (even a && evenIf ty.wide b, .oddRegister)]
  | .fpush _ _ a => [(mult4 a, .oddRegister)]
  | .fpop _ d _ => [(mult4 d, .oddRegister)]
  | .msend _ kind a b _ =>
    [(even a && even b, .oddRegister), (kind != .c2a || a == 0#10, .unusedField)]
  | .tlbinv _ form a b =>
    [(even a, .oddRegister), (form != .vf || a == 0#10, .unusedField),
     (form == .range || b == 0#10, .unusedField)]
  | .pgprobe _ d a => [(mult4 d && even a, .oddRegister)]
  | .kvx _ form d a b c =>
    [(even d && even a, .oddRegister), (predDst c, .predicateDestination),
     (form == .addr || b == 0#10, .unusedField)]
  | .winctl _ close a _ | .gatectl _ close a _ =>
    [(even a, .oddRegister), (!close || a == 0#10, .unusedField)]
  | .barArrive _ _ form _ a b => [(even a, .oddRegister), (form != .one || b == 0#10, .unusedField)]
  | .rdclk _ us d => [(evenIf (!us) d, .oddRegister)]
  | .rdperf _ d _ => [(even d, .oddRegister)]
  | .csrr _ d n => [(csrKnown n, .badModifier), (evenIf (n == 0x40#10) d, .oddRegister)]
  | .csrw _ _ n _ => [(csrKnown n, .badModifier)]
  | .sread _ d a => [(even d && even a, .oddRegister)]
  | _ => []

/-- The first check a word fails, or none where it is an instruction (R75). -/
def wfError (i : Instr) : Option DecodeError :=
  match i.ctl? with
  | none => some .notAWord
  | some c => firstFail ((tagOk i.pipe.2 c.ta, .badTag) :: i.checks)

/-- The term is a word that the hardware does not refuse at decode. -/
abbrev wellFormed (i : Instr) : Prop := wfError i = none

end Sys2Proof
end

