-- ==== Sys2Proof/Decode.lean ====
section
/-! DEFINITION. Decoding and encoding of 80-bit words (spec/03_encoding.md R53 to R68,
spec/04_opcode_map.md R83 to R88, and the encoding line of every instruction's description).

`parseWord` reads a word's fields into a term; `decode` accepts the term only where it is well formed
and where encoding it gives the word back, so a non-zero bit in a field that the opcode does not use
(R62, R84) is refused. -/

namespace Sys2Proof

/-- The fields of a full-form word (R53, R60). -/
structure Fields where
  pd : BitVec 3
  ta : BitVec 4
  wm : BitVec 12
  op : BitVec 10
  gn : BitVec 1
  gp : BitVec 6
  d : BitVec 10
  a : BitVec 10
  b : BitVec 10
  c : BitVec 10
  m : BitVec 3
  deriving DecidableEq, Repr

/-- R60: the full form, FM = 0. -/
def Fields.pack (f : Fields) : BitVec 80 :=
  f.pd ++ f.ta ++ f.wm ++ (0#1) ++ f.op ++ f.gn ++ f.gp ++ f.d ++ f.a ++ f.b ++ f.c ++ f.m

/-- R60: the fields of a word, whatever its FM. -/
def Fields.unpack (w : BitVec 80) : Fields where
  pd := w.extractLsb' 77 3
  ta := w.extractLsb' 73 4
  wm := w.extractLsb' 61 12
  op := w.extractLsb' 50 10
  gn := w.extractLsb' 49 1
  gp := w.extractLsb' 43 6
  d := w.extractLsb' 33 10
  a := w.extractLsb' 23 10
  b := w.extractLsb' 13 10
  c := w.extractLsb' 3 10
  m := w.extractLsb' 0 3

/-- The header of the full form. -/
def Fields.hd (f : Fields) : Hd := ⟨⟨f.pd, f.ta, f.wm⟩, ⟨f.gn == 1#1, f.gp⟩⟩

/-- I20 = W[22:3] (R63). -/
def Fields.i20 (f : Fields) : BitVec 20 := f.b ++ f.c

/-- I30 = W[32:3] (R63). -/
def Fields.i30 (f : Fields) : BitVec 30 := f.a ++ f.b ++ f.c

/-- A Boolean as a one-bit field. -/
def bit (x : Bool) : BitVec 1 := if x then 1#1 else 0#1

/-- Bit `k` of a field. -/
def tb (x : BitVec n) (k : Nat) : Bool := x.getLsbD k

/-- A p field as a predicate number; R62 refuses 64 to 1023 (the upper bits must be 0). -/
def pOf (x : BitVec 10) : PReg := x.setWidth 6

/-- An m field. -/
def mOf (x : BitVec 10) : MReg := x.setWidth 4

/-! ### Sub-field codes -/

def Sgn.code : Sgn → Bool
  | .s => false
  | .n => true

def Sgn.of (b : Bool) : Sgn := if b then .n else .s

def ICond.code : ICond → BitVec 3
  | .eq => 0 | .ne => 1 | .lt => 2 | .le => 3 | .ltu => 4 | .leu => 5 | .bit => 6 | .nbit => 7

def ICond.of (m : BitVec 3) : ICond :=
  match m.toNat with
  | 0 => .eq | 1 => .ne | 2 => .lt | 3 => .le | 4 => .ltu | 5 => .leu | 6 => .bit | _ => .nbit

def ShflMode.code : ShflMode → BitVec 2
  | .from => 0 | .shift => 1 | .rot => 2 | .swap => 3

def ShflMode.of (m : BitVec 2) : ShflMode :=
  match m.toNat with
  | 0 => .from | 1 => .shift | 2 => .rot | _ => .swap

def VoteKind.code : VoteKind → BitVec 3
  | .every => 0 | .some => 1 | .same => 2 | .mask => 3 | .count => 4 | .first => 5

def VoteKind.of? (m : BitVec 3) : Option VoteKind :=
  match m.toNat with
  | 0 => Option.some .every | 1 => Option.some .some | 2 => Option.some .same | 3 => Option.some .mask | 4 => Option.some .count
  | 5 => Option.some .first | _ => Option.none

def CredOp.code : CredOp → BitVec 3
  | .addS => 0 | .minS => 1 | .minN => 2 | .maxS => 3 | .maxN => 4 | .andN => 5 | .orN => 6 | .xorN => 7

def CredOp.of (m : BitVec 3) : CredOp :=
  match m.toNat with
  | 0 => .addS | 1 => .minS | 2 => .minN | 3 => .maxS | 4 => .maxN | 5 => .andN | 6 => .orN | _ => .xorN

def Special.code : Special → BitVec 10
  | .tid => 0 | .laneid => 1 | .cohort => 2 | .team => 3 | .grid => 4 | .core => 5 | .cluster => 6
  | .quad => 7 | .depth => 8 | .vf => 9

def Special.of? (x : BitVec 10) : Option Special :=
  match x.toNat with
  | 0 => some .tid | 1 => some .laneid | 2 => some .cohort | 3 => some .team | 4 => some .grid
  | 5 => some .core | 6 => some .cluster | 7 => some .quad | 8 => some .depth | 9 => some .vf
  | _ => none

def MfrompMode.code : MfrompMode → BitVec 3
  | .set => 0 | .or => 1 | .andn => 2

def MfrompMode.of? (m : BitVec 3) : Option MfrompMode :=
  match m.toNat with
  | 0 => some .set | 1 => some .or | 2 => some .andn | _ => none

def MsetOp.code : MsetOp → BitVec 3
  | .mov => 0 | .and => 1 | .or => 2 | .xor => 3 | .andn => 4 | .gang => 5

def MsetOp.of? (m : BitVec 3) : Option MsetOp :=
  match m.toNat with
  | 0 => some .mov | 1 => some .and | 2 => some .or | 3 => some .xor | 4 => some .andn
  | 5 => some .gang | _ => none

def Rnd.code : Rnd → BitVec 2
  | .rn => 0 | .rz => 1 | .rm => 2 | .rp => 3

def Rnd.of (m : BitVec 2) : Rnd :=
  match m.toNat with
  | 0 => .rn | 1 => .rz | 2 => .rm | _ => .rp

def Rnd5.code : Rnd5 → BitVec 3
  | .rn => 0 | .rz => 1 | .rm => 2 | .rp => 3 | .rna => 4

def Rnd5.of? (m : BitVec 3) : Option Rnd5 :=
  match m.toNat with
  | 0 => some .rn | 1 => some .rz | 2 => some .rm | 3 => some .rp | 4 => some .rna | _ => none

def FCond.code : FCond → BitVec 3
  | .eq => 0 | .ne => 1 | .lt => 2 | .le => 3 | .gt => 4 | .ge => 5 | .num => 6 | .nan => 7

def FCond.of (m : BitVec 3) : FCond :=
  match m.toNat with
  | 0 => .eq | 1 => .ne | 2 => .lt | 3 => .le | 4 => .gt | 5 => .ge | 6 => .num | _ => .nan

/-- The type in C[1:0] of fcmp (R162). -/
def FTy.cmpCode : FTy → BitVec 2
  | .f32 => 0 | .f64 => 1 | .f16 => 2 | .bf16 => 3

def FTy.ofCmp (m : BitVec 2) : FTy :=
  match m.toNat with
  | 0 => .f32 | 1 => .f64 | 2 => .f16 | _ => .bf16

/-- The type in M of fclass (R164). -/
def FTy.classCode : FTy → BitVec 3
  | .f32 => 0 | .f16 => 1 | .bf16 => 2 | .f64 => 3

def FTy.ofClass? (m : BitVec 3) : Option FTy :=
  match m.toNat with
  | 0 => some .f32 | 1 => some .f16 | 2 => some .bf16 | 3 => some .f64 | _ => none

def ElemTy.code : ElemTy → BitVec 5
  | .s8 => 0 | .s16 => 1 | .s32 => 2 | .s64 => 3 | .n8 => 4 | .n16 => 5 | .n32 => 6 | .n64 => 7
  | .f16 => 8 | .bf16 => 9 | .f32 => 10 | .f64 => 11 | .e4m3 => 12 | .e5m2 => 13 | .e2m3 => 14
  | .e3m2 => 15 | .e2m1 => 16 | .dxb6 => 17

def ElemTy.of? (m : BitVec 5) : Option ElemTy :=
  match m.toNat with
  | 0 => some .s8 | 1 => some .s16 | 2 => some .s32 | 3 => some .s64 | 4 => some .n8 | 5 => some .n16
  | 6 => some .n32 | 7 => some .n64 | 8 => some .f16 | 9 => some .bf16 | 10 => some .f32
  | 11 => some .f64 | 12 => some .e4m3 | 13 => some .e5m2 | 14 => some .e2m3 | 15 => some .e3m2
  | 16 => some .e2m1 | 17 => some .dxb6 | _ => none

def MxFmt.code : MxFmt → BitVec 3
  | .e4m3 => 0 | .e5m2 => 1 | .e3m2 => 2 | .e2m3 => 3 | .e2m1 => 4 | .dxb6 => 5

def MxFmt.of? (m : BitVec 3) : Option MxFmt :=
  match m.toNat with
  | 0 => some .e4m3 | 1 => some .e5m2 | 2 => some .e3m2 | 3 => some .e2m3 | 4 => some .e2m1
  | 5 => some .dxb6 | _ => none

def AccFmt.code : AccFmt → BitVec 3
  | .f32 => 0 | .bf16 => 1 | .f16 => 2

def AccFmt.of? (m : BitVec 3) : Option AccFmt :=
  match m.toNat with
  | 0 => some .f32 | 1 => some .bf16 | 2 => some .f16 | _ => none

def MSize.code : MSize → BitVec 3
  | .n8 => 0 | .s8 => 1 | .n16 => 2 | .s16 => 3 | .n32 => 4 | .n64 => 5 | .n128 => 6

def MSize.of? (m : BitVec 3) : Option MSize :=
  match m.toNat with
  | 0 => some .n8 | 1 => some .s8 | 2 => some .n16 | 3 => some .s16 | 4 => some .n32
  | 5 => some .n64 | 6 => some .n128 | _ => none

def AtomTy.code : AtomTy → BitVec 3
  | .s32 => 0 | .n32 => 1 | .s64 => 2 | .n64 => 3 | .f32 => 4

def AtomTy.of? (m : BitVec 3) : Option AtomTy :=
  match m.toNat with
  | 0 => some .s32 | 1 => some .n32 | 2 => some .s64 | 3 => some .n64 | 4 => some .f32 | _ => none

def PfLevel.code : PfLevel → BitVec 3
  | .cluster => 0 | .l2 => 1 | .page => 2

def PfLevel.of? (m : BitVec 3) : Option PfLevel :=
  match m.toNat with
  | 0 => some .cluster | 1 => some .l2 | 2 => some .page | _ => none

def CacheOp.code : CacheOp → BitVec 3
  | .l1inv => 0 | .ccwb => 1 | .ccinv => 2 | .icinv => 3 | .icall => 4

def CacheOp.of? (m : BitVec 3) : Option CacheOp :=
  match m.toNat with
  | 0 => some .l1inv | 1 => some .ccwb | 2 => some .ccinv | 3 => some .icinv | 4 => some .icall
  | _ => none

def MsendKind.code : MsendKind → BitVec 3
  | .c1 => 0 | .c2a => 1 | .c2w => 2 | .c3 => 3

def MsendKind.of? (m : BitVec 3) : Option MsendKind :=
  match m.toNat with
  | 0 => some .c1 | 1 => some .c2a | 2 => some .c2w | 3 => some .c3 | _ => none

def TlbForm.code : TlbForm → BitVec 3
  | .page => 0 | .range => 1 | .vf => 2

def TlbForm.of? (m : BitVec 3) : Option TlbForm :=
  match m.toNat with
  | 0 => some .page | 1 => some .range | 2 => some .vf | _ => none

def KvxForm.code : KvxForm → BitVec 3
  | .addr => 0 | .pages => 1 | .last => 2

def KvxForm.of? (m : BitVec 3) : Option KvxForm :=
  match m.toNat with
  | 0 => some .addr | 1 => some .pages | 2 => some .last | _ => none

def ArriveForm.code : ArriveForm → BitVec 2
  | .one => 0 | .many => 1 | .pledge => 2

def ArriveForm.of? (m : BitVec 2) : Option ArriveForm :=
  match m.toNat with
  | 0 => some .one | 1 => some .many | 2 => some .pledge | _ => none

def CsrwMode.code : CsrwMode → BitVec 3
  | .write => 0 | .set => 1 | .clr => 2

def CsrwMode.of? (m : BitVec 3) : Option CsrwMode :=
  match m.toNat with
  | 0 => some .write | 1 => some .set | 2 => some .clr | _ => none

def ImadMode.code : ImadMode → BitVec 2
  | .plain => 0 | .sat => 1 | .wide => 2

def ImadMode.of? (m : BitVec 2) : Option ImadMode :=
  match m.toNat with
  | 0 => some .plain | 1 => some .sat | 2 => some .wide | _ => none

def MOrder.code : MOrder → BitVec 2
  | .relaxed => 0 | .acquire => 1 | .release => 2 | .acqrel => 3

def MOrder.of (m : BitVec 2) : MOrder :=
  match m.toNat with
  | 0 => .relaxed | 1 => .acquire | 2 => .release | _ => .acqrel

def Scope.code : Scope → BitVec 3
  | .cohort => 0 | .team => 1 | .cluster => 2 | .quad => 3 | .device => 4 | .domain => 5 | .system => 6

def Scope.of? (m : BitVec 3) : Option Scope :=
  match m.toNat with
  | 0 => some .cohort | 1 => some .team | 2 => some .cluster | 3 => some .quad | 4 => some .device
  | 5 => some .domain | 6 => some .system | _ => none

def FullEmpty.code : FullEmpty → BitVec 2
  | .none => 0 | .fe => 1 | .fec => 2

def FullEmpty.of? (m : BitVec 2) : Option FullEmpty :=
  match m.toNat with
  | 0 => Option.some .none | 1 => Option.some .fe | 2 => Option.some .fec | _ => Option.none

def Hint.code : Hint → BitVec 2
  | .normal => 0 | .stream => 1 | .keep => 2

def Hint.of? (m : BitVec 2) : Option Hint :=
  match m.toNat with
  | 0 => some .normal | 1 => some .stream | 2 => some .keep | _ => none

/-- MQ as the C field (R65). -/
def Mq.code (q : Mq) : BitVec 10 :=
  q.order.code ++ q.scope.code ++ bit q.fresh ++ q.fe.code ++ q.hint.code

/-- The C field as MQ; a reserved sub-field value gives none (R65). -/
def Mq.of? (c : BitVec 10) : Option Mq :=
  match Scope.of? (c.extractLsb' 5 3), FullEmpty.of? (c.extractLsb' 2 2), Hint.of? (c.extractLsb' 0 2) with
  | some s, some f, some h => some ⟨MOrder.of (c.extractLsb' 8 2), s, c.getLsbD 4, f, h⟩
  | _, _, _ => none

/-- The short-opcode grid of R88. -/
def ShortOp.code : ShortOp → BitVec 6
  | .mov => 0x00 | .iadd => 0x01 | .isub => 0x02 | .imul => 0x03 | .iminS => 0x04 | .imaxS => 0x05
  | .iminN => 0x06 | .imaxN => 0x07 | .iand => 0x08 | .ior => 0x09 | .ixor => 0x0A | .ishl => 0x0B
  | .ishr => 0x0C | .isar => 0x0D | .movI => 0x10 | .iaddI => 0x11 | .imulI => 0x13 | .iandI => 0x18
  | .iorI => 0x19 | .ixorI => 0x1A | .ishlI => 0x1B | .ishrI => 0x1C | .isarI => 0x1D
  | .fadd => 0x20 | .fsub => 0x21 | .fmul => 0x22 | .fmin => 0x23 | .fmax => 0x24 | .hadd2F => 0x25
  | .hmul2F => 0x26 | .hadd2B => 0x27 | .hmul2B => 0x28

def ShortOp.of? (x : BitVec 6) : Option ShortOp :=
  match x.toNat with
  | 0x00 => some .mov | 0x01 => some .iadd | 0x02 => some .isub | 0x03 => some .imul
  | 0x04 => some .iminS | 0x05 => some .imaxS | 0x06 => some .iminN | 0x07 => some .imaxN
  | 0x08 => some .iand | 0x09 => some .ior | 0x0A => some .ixor | 0x0B => some .ishl
  | 0x0C => some .ishr | 0x0D => some .isar | 0x10 => some .movI | 0x11 => some .iaddI
  | 0x13 => some .imulI | 0x18 => some .iandI | 0x19 => some .iorI | 0x1A => some .ixorI
  | 0x1B => some .ishlI | 0x1C => some .ishrI | 0x1D => some .isarI | 0x20 => some .fadd
  | 0x21 => some .fsub | 0x22 => some .fmul | 0x23 => some .fmin | 0x24 => some .fmax
  | 0x25 => some .hadd2F | 0x26 => some .hmul2F | 0x27 => some .hadd2B | 0x28 => some .hmul2B
  | _ => none

/-- One half as its 30 bits (R66). -/
def Half.pack (h : Half) : BitVec 30 := h.sop.code ++ h.d ++ h.a ++ h.b

/-- 30 bits as a half; an unassigned short opcode gives none. -/
def Half.unpack? (x : BitVec 30) : Option Half :=
  match ShortOp.of? (x.extractLsb' 24 6) with
  | some o => some ⟨o, x.extractLsb' 16 8, x.extractLsb' 8 8, x.extractLsb' 0 8⟩
  | none => none

/-- Opcodes 0x000 to 0x03F of R83; unassigned codes give none. -/
def parseInteger (f : Fields) : Option Instr :=
  match f.op.toNat with
  | 0x000 => some (.iadd f.hd (Sgn.of (tb f.m 0)) (tb f.m 1) f.d f.a f.b)
  | 0x001 => some (.isub f.hd (Sgn.of (tb f.m 0)) (tb f.m 1) f.d f.a f.b)
  | 0x002 => some (.imul f.hd (Sgn.of (tb f.m 0)) (tb f.m 1) f.d f.a f.b)
  | 0x003 => some (.imulhi f.hd (Sgn.of (tb f.m 0)) f.d f.a f.b)
  | 0x004 => (ImadMode.of? (f.m.extractLsb' 1 2)).map fun x => .imad f.hd (Sgn.of (tb f.m 0)) x f.d f.a f.b f.c
  | 0x005 => some (.iadd64 f.hd (Sgn.of (tb f.m 0)) (tb f.m 1) (tb f.m 2) f.d f.a f.b)
  | 0x006 => some (.imin f.hd (Sgn.of (tb f.m 0)) f.d f.a f.b)
  | 0x007 => some (.imax f.hd (Sgn.of (tb f.m 0)) f.d f.a f.b)
  | 0x008 => some (.iabs f.hd (tb f.m 1) f.d f.a)
  | 0x009 => some (.ineg f.hd (tb f.m 1) f.d f.a)
  | 0x00A => some (.iand f.hd (tb f.m 0) (tb f.m 1) f.d f.a f.b)
  | 0x00B => some (.ior f.hd (tb f.m 0) (tb f.m 1) f.d f.a f.b)
  | 0x00C => some (.ixor f.hd (tb f.m 0) (tb f.m 1) f.d f.a f.b)
  | 0x00D => some (.inot f.hd (tb f.m 0) f.d f.a)
  | 0x00E => some (.ishl f.hd (tb f.m 0) (tb f.m 1) f.d f.a f.b)
  | 0x00F => some (.ishr f.hd (tb f.m 0) (tb f.m 1) f.d f.a f.b)
  | 0x010 => some (.isar f.hd (tb f.m 0) (tb f.m 1) f.d f.a f.b)
  | 0x011 => some (.irot f.hd (tb f.m 0) (tb f.m 1) f.d f.a f.b)
  | 0x012 => some (.bfx f.hd (tb f.m 0) f.d f.a f.b)
  | 0x013 => some (.bfi f.hd f.d f.a f.b f.c)
  | 0x014 => some (.popc f.hd (tb f.m 0) f.d f.a)
  | 0x015 => some (.clz f.hd (tb f.m 0) f.d f.a)
  | 0x016 => some (.ctz f.hd (tb f.m 0) f.d f.a)
  | 0x017 => some (.brev f.hd (tb f.m 0) f.d f.a)
  | 0x018 => some (.prmt f.hd f.d f.a f.b f.c)
  | 0x019 => some (.icmp f.hd (ICond.of f.m) (tb f.c 0) (pOf f.d) f.a f.b)
  | 0x01A => some (.isel f.hd (tb f.m 0) f.d f.a f.b (pOf f.c))
  | 0x01B => some (.mov f.hd (tb f.m 0) f.d f.a)
  | 0x01C => some (.lea f.hd (tb f.m 2) (f.m.extractLsb' 0 2) f.d f.a f.b)
  | 0x01D => some (.shfl f.hd (ShflMode.of (f.m.extractLsb' 0 2)) f.d f.a f.b (mOf f.c))
  | 0x01E => (VoteKind.of? f.m).map fun x => .vote f.hd x (tb f.b 0) f.d (pOf f.a) (mOf f.c)
  | 0x01F => some (.cred f.hd (CredOp.of f.m) f.d f.a (mOf f.c))
  | 0x020 => (Special.of? f.a).map fun x => .srd f.hd f.d x
  | _ => none

/-- Opcodes 0x040 to 0x07E of R83; unassigned codes give none. -/
def parseImm (f : Fields) : Option Instr :=
  match f.op.toNat with
  | 0x040 => some (.iaddI f.hd f.d f.a f.i20)
  | 0x042 => some (.imulI f.hd f.d f.a f.i20)
  | 0x046 => some (.iminI f.hd f.d f.a f.i20)
  | 0x047 => some (.imaxI f.hd f.d f.a f.i20)
  | 0x04A => some (.iandI f.hd f.d f.a f.i20)
  | 0x04B => some (.iorI f.hd f.d f.a f.i20)
  | 0x04C => some (.ixorI f.hd f.d f.a f.i20)
  | 0x04E => some (.ishlI f.hd f.d f.a (f.c.setWidth 8))
  | 0x04F => some (.ishrI f.hd f.d f.a (f.c.setWidth 8))
  | 0x050 => some (.isarI f.hd f.d f.a (f.c.setWidth 8))
  | 0x051 => some (.irotI f.hd f.d f.a (f.c.setWidth 8))
  | 0x052 => some (.bfxI f.hd (tb f.b 6) (f.i20.extractLsb' 8 8) (f.i20.extractLsb' 0 8) f.d f.a)
  | 0x053 => some (.bfiI f.hd (f.i20.extractLsb' 8 8) (f.i20.extractLsb' 0 8) f.d f.a)
  | 0x058 => some (.prmtI f.hd f.d f.a f.i20)
  | 0x05C => some (.leaI f.hd f.d f.a f.i20)
  | 0x05D => some (.shflI f.hd (ShflMode.of (f.c.extractLsb' 5 2)) (f.c.extractLsb' 0 5) (f.i20.extractLsb' 7 4) f.d f.a)
  | _ => none

/-- Opcodes 0x080 to 0x09F of R83; unassigned codes give none. -/
def parseControl (f : Fields) : Option Instr :=
  match f.op.toNat with
  | 0x080 => some (.pand f.hd (tb f.m 0) (tb f.m 1) (pOf f.d) (pOf f.a) (pOf f.b))
  | 0x081 => some (.por f.hd (tb f.m 0) (tb f.m 1) (pOf f.d) (pOf f.a) (pOf f.b))
  | 0x082 => some (.pxor f.hd (tb f.m 0) (tb f.m 1) (pOf f.d) (pOf f.a) (pOf f.b))
  | 0x083 => some (.pnot f.hd (pOf f.d) (pOf f.a))
  | 0x084 => some (.pmov f.hd (pOf f.d) (pOf f.a))
  | 0x085 => some (.psetm f.hd (tb f.m 0) (pOf f.d) (mOf f.a))
  | 0x086 => (MfrompMode.of? f.m).map fun x => .mfromp f.hd x (mOf f.d) (pOf f.a)
  | 0x087 => (MsetOp.of? f.m).map fun x => .mset f.hd x (mOf f.d) (mOf f.a) (mOf f.b)
  | 0x088 => some (.mget f.hd (tb f.m 0) f.d (mOf f.a))
  | 0x090 => some (.bra f.hd f.i30)
  | 0x091 => some (.brx f.hd f.a)
  | 0x092 => some (.call f.hd f.i30)
  | 0x093 => some (.callx f.hd f.a)
  | 0x094 => some (.ret f.hd)
  | 0x095 => some (.exit f.hd)
  | 0x096 => some (.yield f.hd)
  | 0x097 => some (.nop f.hd)
  | 0x098 => some (.mjoin f.hd (mOf f.d))
  | 0x099 => some (.mleave f.hd (mOf f.d))
  | 0x09A => some (.mwait f.hd (mOf f.a))
  | 0x09B => some (.svc f.hd f.a)
  | 0x09C => some (.brk f.hd f.a)
  | _ => none

/-- Opcodes 0x100 to 0x17F of R83; unassigned codes give none. -/
def parseFloat (f : Fields) : Option Instr :=
  match f.op.toNat with
  | 0x100 => some (.fadd f.hd (Rnd.of (f.m.extractLsb' 0 2)) (tb f.m 2) f.d f.a f.b)
  | 0x101 => some (.fsub f.hd (Rnd.of (f.m.extractLsb' 0 2)) (tb f.m 2) f.d f.a f.b)
  | 0x102 => some (.fmul f.hd (Rnd.of (f.m.extractLsb' 0 2)) (tb f.m 2) f.d f.a f.b)
  | 0x103 => some (.ffma f.hd (Rnd.of (f.m.extractLsb' 0 2)) (tb f.m 2) f.d f.a f.b f.c)
  | 0x104 => some (.fmin f.hd (tb f.m 2) f.d f.a f.b)
  | 0x105 => some (.fmax f.hd (tb f.m 2) f.d f.a f.b)
  | 0x106 => some (.fcmp f.hd (FCond.of f.m) (FTy.ofCmp (f.c.extractLsb' 0 2)) (tb f.c 2) (pOf f.d) f.a f.b)
  | 0x107 => some (.fsel f.hd (tb f.m 0) f.d f.a f.b (pOf f.c))
  | 0x108 => some (.frnd f.hd (Rnd.of (f.m.extractLsb' 0 2)) (tb f.m 2) f.d f.a)
  | 0x109 => (FTy.ofClass? f.m).map fun x => .fclass f.hd x f.c (pOf f.d) f.a
  | 0x10A => some (.xins f.hd (Rnd.of (f.m.extractLsb' 0 2)) (tb f.m 2) f.d f.a f.b)
  | 0x10B => some (.xget f.hd (tb f.m 0) f.d f.a)
  | 0x110 => some (.frcp f.hd (Rnd.of (f.m.extractLsb' 0 2)) (tb f.m 2) f.d f.a)
  | 0x112 => some (.fsqrt f.hd (Rnd.of (f.m.extractLsb' 0 2)) (tb f.m 2) f.d f.a)
  | 0x111 => some (.frsq f.hd (tb f.m 2) f.d f.a)
  | 0x113 => some (.fexp2 f.hd (tb f.m 2) f.d f.a)
  | 0x114 => some (.flog2 f.hd (tb f.m 2) f.d f.a)
  | 0x115 => some (.fsinp f.hd (tb f.m 2) f.d f.a)
  | 0x116 => some (.fcosp f.hd (tb f.m 2) f.d f.a)
  | 0x120 => some (.hadd2 f.hd (tb f.m 2) (Rnd.of (f.m.extractLsb' 0 2)) f.d f.a f.b)
  | 0x121 => some (.hmul2 f.hd (tb f.m 2) (Rnd.of (f.m.extractLsb' 0 2)) f.d f.a f.b)
  | 0x122 => some (.hfma2 f.hd (tb f.m 2) (Rnd.of (f.m.extractLsb' 0 2)) f.d f.a f.b f.c)
  | 0x130 => some (.dadd f.hd (Rnd.of (f.m.extractLsb' 0 2)) f.d f.a f.b)
  | 0x131 => some (.dmul f.hd (Rnd.of (f.m.extractLsb' 0 2)) f.d f.a f.b)
  | 0x132 => some (.dfma f.hd (Rnd.of (f.m.extractLsb' 0 2)) f.d f.a f.b f.c)
  | 0x140 => some (.faddI f.hd f.d f.a f.i20)
  | 0x142 => some (.fmulI f.hd f.d f.a f.i20)
  | 0x144 => some (.fminI f.hd f.d f.a f.i20)
  | 0x145 => some (.fmaxI f.hd f.d f.a f.i20)
  | _ => none

/-- Opcodes 0x1C0 to 0x1FF of R83; unassigned codes give none. -/
def parseConvert (f : Fields) : Option Instr :=
  match f.op.toNat with
  | 0x1C0 => match ElemTy.of? (f.b.extractLsb' 5 5), ElemTy.of? (f.b.extractLsb' 0 5), Rnd5.of? f.m with
    | some x, some y, some z => some (.cvt f.hd x y z (tb f.c 0) (tb f.c 1) f.d f.a)
    | _, _, _ => none
  | 0x1C1 => match ElemTy.of? (f.c.extractLsb' 5 5), ElemTy.of? (f.c.extractLsb' 0 5) with
    | some x, some y => some (.qcvt f.hd x y (Rnd.of (f.m.extractLsb' 0 2)) (tb f.m 2) f.d f.a f.b)
    | _, _ => none
  | 0x1C2 => match ElemTy.of? (f.c.extractLsb' 5 5), ElemTy.of? (f.c.extractLsb' 0 5) with
    | some x, some y => some (.dqcvt f.hd x y (Rnd.of (f.m.extractLsb' 0 2)) (tb f.m 2) f.d f.a f.b)
    | _, _ => none
  | 0x1C3 => match MxFmt.of? f.m, Mq.of? f.c with
    | some x, some q => some (.ldmx f.hd x q f.d f.a f.b)
    | _, _ => none
  | 0x1C4 => match MxFmt.of? f.m, Mq.of? f.c with
    | some x, some q => some (.stmx f.hd x q f.d f.a f.b)
    | _, _ => none
  | _ => none

/-- Opcodes 0x200 to 0x21F of R83; unassigned codes give none. -/
def parseMatrix (f : Fields) : Option Instr :=
  match f.op.toNat with
  | 0x200 => (ElemTy.of? (f.d.extractLsb' 4 5)).map fun x => .mma f.hd x (tb f.d 9) (tb f.m 0) (f.d.extractLsb' 0 4) f.a f.b f.c
  | 0x201 => some (.acczero f.hd (mOf f.d))
  | 0x202 => match AccFmt.of? f.m, Mq.of? f.c with
    | some x, some q => some (.accld f.hd x q (mOf f.d) f.a)
    | _, _ => none
  | 0x203 => match AccFmt.of? f.m, Mq.of? f.c with
    | some x, some q => some (.accst f.hd x q (mOf f.d) f.a)
    | _, _ => none
  | 0x204 => some (.accchk f.hd f.d (mOf f.a))
  | _ => none

/-- Opcodes 0x240 to 0x25F of R83; unassigned codes give none. -/
def parseMemory (f : Fields) : Option Instr :=
  match f.op.toNat with
  | 0x240 => match MSize.of? f.m, Mq.of? f.c with
    | some x, some q => some (.ld f.hd x q f.d f.a f.b)
    | _, _ => none
  | 0x241 => match MSize.of? f.m, Mq.of? f.c with
    | some x, some q => some (.st f.hd x q f.d f.a f.b)
    | _, _ => none
  | 0x242 => match MSize.of? f.m, Mq.of? f.c with
    | some x, some q => some (.ldg f.hd x q f.d (f.a.setWidth 7) f.b)
    | _, _ => none
  | 0x243 => match MSize.of? f.m, Mq.of? f.c with
    | some x, some q => some (.stg f.hd x q f.d (f.a.setWidth 7) f.b)
    | _, _ => none
  | 0x244 => (Mq.of? f.c).map fun q => .fence f.hd q
  | 0x245 => (PfLevel.of? f.m).map fun x => .prefetch f.hd x f.a f.b
  | 0x246 => (CacheOp.of? f.m).map fun x => .cachectl f.hd x f.a
  | 0x247 => some (.salloc f.hd (tb f.m 0) (tb f.m 1) f.d f.a f.b)
  | 0x248 => some (.sfree f.hd f.a)
  | 0x249 => some (.srenew f.hd f.a f.b)
  | 0x24A => some (.poison f.hd f.a)
  | 0x24B => some (.winpub f.hd)
  | 0x24C => some (.winacq f.hd)
  | 0x24D => some (.tcommit f.hd)
  | 0x250 => some (.tcopy f.hd (tb f.m 0) f.d f.a f.b)
  | 0x251 => some (.tcopyq f.hd (tb f.m 0) f.d f.a f.b)
  | 0x252 => some (.tmcast f.hd (tb f.m 0) f.d f.a f.b)
  | 0x253 => some (.tcancel f.hd f.a)
  | _ => none

/-- Opcodes 0x260 to 0x27F of R83; unassigned codes give none. -/
def parseAtomic (f : Fields) : Option Instr :=
  match f.op.toNat with
  | 0x260 => match AtomTy.of? f.m, Mq.of? f.c with
    | some x, some q => some (.atomAdd f.hd x q f.d f.a f.b)
    | _, _ => none
  | 0x261 => match AtomTy.of? f.m, Mq.of? f.c with
    | some x, some q => some (.atomSub f.hd x q f.d f.a f.b)
    | _, _ => none
  | 0x262 => match AtomTy.of? f.m, Mq.of? f.c with
    | some x, some q => some (.atomMin f.hd x q f.d f.a f.b)
    | _, _ => none
  | 0x263 => match AtomTy.of? f.m, Mq.of? f.c with
    | some x, some q => some (.atomMax f.hd x q f.d f.a f.b)
    | _, _ => none
  | 0x264 => match AtomTy.of? f.m, Mq.of? f.c with
    | some x, some q => some (.atomAnd f.hd x q f.d f.a f.b)
    | _, _ => none
  | 0x265 => match AtomTy.of? f.m, Mq.of? f.c with
    | some x, some q => some (.atomOr f.hd x q f.d f.a f.b)
    | _, _ => none
  | 0x266 => match AtomTy.of? f.m, Mq.of? f.c with
    | some x, some q => some (.atomXor f.hd x q f.d f.a f.b)
    | _, _ => none
  | 0x267 => match AtomTy.of? f.m, Mq.of? f.c with
    | some x, some q => some (.atomExch f.hd x q f.d f.a f.b)
    | _, _ => none
  | 0x268 => match AtomTy.of? f.m, Mq.of? f.c with
    | some x, some q => some (.atomCas f.hd x q f.d f.a f.b)
    | _, _ => none
  | 0x270 => match AtomTy.of? f.m, Mq.of? f.c with
    | some x, some q => some (.redAdd f.hd x q f.a f.b)
    | _, _ => none
  | 0x271 => match AtomTy.of? f.m, Mq.of? f.c with
    | some x, some q => some (.redSub f.hd x q f.a f.b)
    | _, _ => none
  | 0x272 => match AtomTy.of? f.m, Mq.of? f.c with
    | some x, some q => some (.redMin f.hd x q f.a f.b)
    | _, _ => none
  | 0x273 => match AtomTy.of? f.m, Mq.of? f.c with
    | some x, some q => some (.redMax f.hd x q f.a f.b)
    | _, _ => none
  | 0x274 => match AtomTy.of? f.m, Mq.of? f.c with
    | some x, some q => some (.redAnd f.hd x q f.a f.b)
    | _, _ => none
  | 0x275 => match AtomTy.of? f.m, Mq.of? f.c with
    | some x, some q => some (.redOr f.hd x q f.a f.b)
    | _, _ => none
  | 0x276 => match AtomTy.of? f.m, Mq.of? f.c with
    | some x, some q => some (.redXor f.hd x q f.a f.b)
    | _, _ => none
  | _ => none

/-- Opcodes 0x300 to 0x31F of R83; unassigned codes give none. -/
def parseQueue (f : Fields) : Option Instr :=
  match f.op.toNat with
  | 0x300 => some (.wpost f.hd f.a f.b)
  | 0x301 => some (.qpush f.hd (f.d.setWidth 3) f.a)
  | 0x302 => some (.qpop f.hd f.d (f.a.setWidth 3))
  | 0x303 => some (.fpush f.hd (mOf f.d) f.a)
  | 0x304 => some (.fpop f.hd f.d (mOf f.a))
  | 0x305 => (MsendKind.of? f.m).map fun x => .msend f.hd x f.a f.b f.c
  | 0x306 => some (.glaunch f.hd f.d f.a)
  | 0x307 => some (.gwait f.hd f.d f.a)
  | _ => none

/-- Opcodes 0x340 to 0x35F of R83; unassigned codes give none. -/
def parseTable (f : Fields) : Option Instr :=
  match f.op.toNat with
  | 0x340 => (TlbForm.of? f.m).map fun x => .tlbinv f.hd x f.a f.b
  | 0x341 => some (.pgprobe f.hd f.d f.a)
  | 0x342 => (KvxForm.of? f.m).map fun x => .kvx f.hd x f.d f.a f.b (pOf f.c)
  | 0x343 => some (.winctl f.hd (tb f.m 0) f.a f.b)
  | 0x344 => some (.gatectl f.hd (tb f.m 0) f.a f.b)
  | _ => none

/-- Opcodes 0x380 to 0x39F of R83; unassigned codes give none. -/
def parseCounter (f : Fields) : Option Instr :=
  match f.op.toNat with
  | 0x380 => some (.barInit f.hd f.a f.b)
  | 0x381 => (ArriveForm.of? (f.m.extractLsb' 1 2)).map fun x => .barArrive f.hd (tb f.m 0) x f.d f.a f.b
  | 0x382 => some (.barExpect f.hd f.a f.b)
  | 0x383 => some (.barWait f.hd (tb f.m 0) f.a f.b)
  | 0x384 => some (.barTry f.hd (tb f.m 0) f.d f.a f.b)
  | 0x385 => some (.barInval f.hd f.a)
  | 0x386 => some (.semSig f.hd f.a f.b)
  | 0x387 => some (.semWait f.hd f.a f.b)
  | 0x388 => some (.rdclk f.hd (tb f.m 0) f.d)
  | 0x389 => some (.rdperf f.hd f.d (f.a.setWidth 3))
  | _ => none

/-- Opcodes 0x3C0 to 0x3DF of R83; unassigned codes give none. -/
def parseSystem (f : Fields) : Option Instr :=
  match f.op.toNat with
  | 0x3C0 => some (.csrr f.hd f.d f.a)
  | 0x3C1 => (CsrwMode.of? f.m).map fun x => .csrw f.hd x f.d f.a
  | 0x3C2 => some (.sread f.hd f.d f.a)
  | 0x3C3 => some (.eret f.hd f.a)
  | 0x3C4 => some (.halt f.hd)
  | _ => none

/-- The word movi, I40 (R64, R118): D is split over W[49:43] and W[2:0]; I40[39] selects 64 bits. -/
def parseMovi (f : Fields) : Option Instr :=
  some (.movi ⟨f.pd, f.ta, f.wm⟩ (tb f.d 9) (f.gn ++ f.gp ++ f.m)
    (f.d.extractLsb' 0 9 ++ f.a ++ f.b ++ f.c))

/-- A full-form word as a term (R83). -/
def parseFull (f : Fields) : Option Instr :=
  if f.op = 0x07F#10 then parseMovi f
  else match f.op.toNat / 0x40 with
  | 0 => parseInteger f
  | 1 => parseImm f
  | 2 => parseControl f
  | 4 | 5 => parseFloat f
  | 7 => parseConvert f
  | 8 => parseMatrix f
  | 9 => (parseMemory f).orElse fun _ => parseAtomic f
  | 12 => parseQueue f
  | 13 => parseTable f
  | 14 => parseCounter f
  | 15 => parseSystem f
  | _ => none

/-- A word as a term, before the checks of `wfError`: none where an opcode, a short opcode, a modifier
or a qualifier value is not assigned (R75). -/
def parseWord (w : BitVec 80) : Option Instr :=
  if w.getLsbD 60 then
    match Half.unpack? (w.extractLsb' 30 30), Half.unpack? (w.extractLsb' 0 30) with
    | some h0, some h1 =>
      some (.pairedWord ⟨w.extractLsb' 77 3, w.extractLsb' 73 4, w.extractLsb' 61 12⟩ h0 h1)
    | _, _ => none
  else parseFull (Fields.unpack w)

/-- The full-form fields of a word (the encoding line of its description); paired words and the acts of
other agents have none. -/
def Instr.fields? : Instr → Option Fields
  | .movi c w d imm => some
      ⟨c.pd, c.ta, c.wm, 0x07F#10, d.extractLsb' 9 1, d.extractLsb' 3 6, bit w ++ imm.extractLsb' 30 9,
        imm.extractLsb' 20 10, imm.extractLsb' 10 10, imm.extractLsb' 0 10, d.extractLsb' 0 3⟩
  | .iadd h ty sat d a b => some (word h 0x000#10 d a b 0#10 (0#1 ++ bit sat ++ bit ty.code))
  | .isub h ty sat d a b => some (word h 0x001#10 d a b 0#10 (0#1 ++ bit sat ++ bit ty.code))
  | .imul h ty sat d a b => some (word h 0x002#10 d a b 0#10 (0#1 ++ bit sat ++ bit ty.code))
  | .imulhi h ty d a b => some (word h 0x003#10 d a b 0#10 (0#2 ++ bit ty.code))
  | .imad h ty mode d a b c => some (word h 0x004#10 d a b c (mode.code ++ bit ty.code))
  | .iadd64 h ty sat x32 d a b => some (word h 0x005#10 d a b 0#10 (bit x32 ++ bit sat ++ bit ty.code))
  | .imin h ty d a b => some (word h 0x006#10 d a b 0#10 (0#2 ++ bit ty.code))
  | .imax h ty d a b => some (word h 0x007#10 d a b 0#10 (0#2 ++ bit ty.code))
  | .iabs h sat d a => some (word h 0x008#10 d a 0#10 0#10 (0#1 ++ bit sat ++ 0#1))
  | .ineg h sat d a => some (word h 0x009#10 d a 0#10 0#10 (0#1 ++ bit sat ++ 0#1))
  | .iand h w nb d a b => some (word h 0x00A#10 d a b 0#10 (0#1 ++ bit nb ++ bit w))
  | .ior h w nb d a b => some (word h 0x00B#10 d a b 0#10 (0#1 ++ bit nb ++ bit w))
  | .ixor h w nb d a b => some (word h 0x00C#10 d a b 0#10 (0#1 ++ bit nb ++ bit w))
  | .inot h w d a => some (word h 0x00D#10 d a 0#10 0#10 (0#2 ++ bit w))
  | .ishl h w x d a b => some (word h 0x00E#10 d a b 0#10 (0#1 ++ bit x ++ bit w))
  | .ishr h w x d a b => some (word h 0x00F#10 d a b 0#10 (0#1 ++ bit x ++ bit w))
  | .isar h w x d a b => some (word h 0x010#10 d a b 0#10 (0#1 ++ bit x ++ bit w))
  | .irot h w x d a b => some (word h 0x011#10 d a b 0#10 (0#1 ++ bit x ++ bit w))
  | .bfx h s d a b => some (word h 0x012#10 d a b 0#10 (0#2 ++ bit s))
  | .bfi h d a b c => some (word h 0x013#10 d a b c 0#3)
  | .popc h w d a => some (word h 0x014#10 d a 0#10 0#10 (0#2 ++ bit w))
  | .clz h w d a => some (word h 0x015#10 d a 0#10 0#10 (0#2 ++ bit w))
  | .ctz h w d a => some (word h 0x016#10 d a 0#10 0#10 (0#2 ++ bit w))
  | .brev h w d a => some (word h 0x017#10 d a 0#10 0#10 (0#2 ++ bit w))
  | .prmt h d a b c => some (word h 0x018#10 d a b c 0#3)
  | .icmp h cond w d a b => some (word h 0x019#10 ((d).setWidth 10) a b (0#9 ++ bit w) cond.code)
  | .isel h w d a b c => some (word h 0x01A#10 d a b ((c).setWidth 10) (0#2 ++ bit w))
  | .mov h w d a => some (word h 0x01B#10 d a 0#10 0#10 (0#2 ++ bit w))
  | .lea h s sc d a b => some (word h 0x01C#10 d a b 0#10 (bit s ++ sc))
  | .shfl h mode d a b mm => some (word h 0x01D#10 d a b ((mm).setWidth 10) (0#1 ++ mode.code))
  | .vote h kind inv d a mm => some (word h 0x01E#10 d ((a).setWidth 10) (0#9 ++ bit inv) ((mm).setWidth 10) kind.code)
  | .cred h op d a mm => some (word h 0x01F#10 d a 0#10 ((mm).setWidth 10) op.code)
  | .srd h d sp => some (word h 0x020#10 d sp.code 0#10 0#10 0#3)
  | .iaddI h d a imm => some (word h 0x040#10 d a (imm.extractLsb' 10 10) (imm.extractLsb' 0 10) 0#3)
  | .imulI h d a imm => some (word h 0x042#10 d a (imm.extractLsb' 10 10) (imm.extractLsb' 0 10) 0#3)
  | .iminI h d a imm => some (word h 0x046#10 d a (imm.extractLsb' 10 10) (imm.extractLsb' 0 10) 0#3)
  | .imaxI h d a imm => some (word h 0x047#10 d a (imm.extractLsb' 10 10) (imm.extractLsb' 0 10) 0#3)
  | .iandI h d a imm => some (word h 0x04A#10 d a (imm.extractLsb' 10 10) (imm.extractLsb' 0 10) 0#3)
  | .iorI h d a imm => some (word h 0x04B#10 d a (imm.extractLsb' 10 10) (imm.extractLsb' 0 10) 0#3)
  | .ixorI h d a imm => some (word h 0x04C#10 d a (imm.extractLsb' 10 10) (imm.extractLsb' 0 10) 0#3)
  | .ishlI h d a n => some (word h 0x04E#10 d a 0#10 (n.setWidth 10) 0#3)
  | .ishrI h d a n => some (word h 0x04F#10 d a 0#10 (n.setWidth 10) 0#3)
  | .isarI h d a n => some (word h 0x050#10 d a 0#10 (n.setWidth 10) 0#3)
  | .irotI h d a n => some (word h 0x051#10 d a 0#10 (n.setWidth 10) 0#3)
  | .bfxI h s len pos d a => some (word h 0x052#10 d a (0#3 ++ bit s ++ len.extractLsb' 2 6) (len.extractLsb' 0 2 ++ pos) 0#3)
  | .bfiI h len pos d a => some (word h 0x053#10 d a (0#4 ++ len.extractLsb' 2 6) (len.extractLsb' 0 2 ++ pos) 0#3)
  | .prmtI h d a imm => some (word h 0x058#10 d a (imm.extractLsb' 10 10) (imm.extractLsb' 0 10) 0#3)
  | .leaI h d a imm => some (word h 0x05C#10 d a (imm.extractLsb' 10 10) (imm.extractLsb' 0 10) 0#3)
  | .shflI h mode n mm d a => some (word h 0x05D#10 d a (0#9 ++ mm.extractLsb' 3 1) (mm.extractLsb' 0 3 ++ mode.code ++ n) 0#3)
  | .pand h na nb d a b => some (word h 0x080#10 ((d).setWidth 10) ((a).setWidth 10) ((b).setWidth 10) 0#10 (0#1 ++ bit nb ++ bit na))
  | .por h na nb d a b => some (word h 0x081#10 ((d).setWidth 10) ((a).setWidth 10) ((b).setWidth 10) 0#10 (0#1 ++ bit nb ++ bit na))
  | .pxor h na nb d a b => some (word h 0x082#10 ((d).setWidth 10) ((a).setWidth 10) ((b).setWidth 10) 0#10 (0#1 ++ bit nb ++ bit na))
  | .pnot h d a => some (word h 0x083#10 ((d).setWidth 10) ((a).setWidth 10) 0#10 0#10 0#3)
  | .pmov h d a => some (word h 0x084#10 ((d).setWidth 10) ((a).setWidth 10) 0#10 0#10 0#3)
  | .psetm h inv d a => some (word h 0x085#10 ((d).setWidth 10) ((a).setWidth 10) 0#10 0#10 (0#2 ++ bit inv))
  | .mfromp h mode d a => some (word h 0x086#10 ((d).setWidth 10) ((a).setWidth 10) 0#10 0#10 mode.code)
  | .mset h op d a b => some (word h 0x087#10 ((d).setWidth 10) ((a).setWidth 10) ((b).setWidth 10) 0#10 op.code)
  | .mget h lt d a => some (word h 0x088#10 d ((a).setWidth 10) 0#10 0#10 (0#2 ++ bit lt))
  | .bra h x => some (word h 0x090#10 0#10 (x.extractLsb' 20 10) (x.extractLsb' 10 10) (x.extractLsb' 0 10) 0#3)
  | .brx h a => some (word h 0x091#10 0#10 a 0#10 0#10 0#3)
  | .call h x => some (word h 0x092#10 0#10 (x.extractLsb' 20 10) (x.extractLsb' 10 10) (x.extractLsb' 0 10) 0#3)
  | .callx h a => some (word h 0x093#10 0#10 a 0#10 0#10 0#3)
  | .ret h => some (word h 0x094#10 0#10 0#10 0#10 0#10 0#3)
  | .exit h => some (word h 0x095#10 0#10 0#10 0#10 0#10 0#3)
  | .yield h => some (word h 0x096#10 0#10 0#10 0#10 0#10 0#3)
  | .nop h => some (word h 0x097#10 0#10 0#10 0#10 0#10 0#3)
  | .mjoin h d => some (word h 0x098#10 ((d).setWidth 10) 0#10 0#10 0#10 0#3)
  | .mleave h d => some (word h 0x099#10 ((d).setWidth 10) 0#10 0#10 0#10 0#3)
  | .mwait h a => some (word h 0x09A#10 0#10 ((a).setWidth 10) 0#10 0#10 0#3)
  | .svc h code => some (word h 0x09B#10 0#10 code 0#10 0#10 0#3)
  | .brk h code => some (word h 0x09C#10 0#10 code 0#10 0#10 0#3)
  | .fadd h rnd ftz d a b => some (word h 0x100#10 d a b 0#10 (bit ftz ++ rnd.code))
  | .fsub h rnd ftz d a b => some (word h 0x101#10 d a b 0#10 (bit ftz ++ rnd.code))
  | .fmul h rnd ftz d a b => some (word h 0x102#10 d a b 0#10 (bit ftz ++ rnd.code))
  | .ffma h rnd ftz d a b c => some (word h 0x103#10 d a b c (bit ftz ++ rnd.code))
  | .fmin h ftz d a b => some (word h 0x104#10 d a b 0#10 (bit ftz ++ 0#2))
  | .fmax h ftz d a b => some (word h 0x105#10 d a b 0#10 (bit ftz ++ 0#2))
  | .fcmp h cond ty ftz d a b => some (word h 0x106#10 ((d).setWidth 10) a b (0#7 ++ bit ftz ++ ty.cmpCode) cond.code)
  | .fsel h w d a b c => some (word h 0x107#10 d a b ((c).setWidth 10) (0#2 ++ bit w))
  | .frnd h rnd ftz d a => some (word h 0x108#10 d a 0#10 0#10 (bit ftz ++ rnd.code))
  | .fclass h ty set d a => some (word h 0x109#10 ((d).setWidth 10) a 0#10 set ty.classCode)
  | .xins h rnd ftz d a b => some (word h 0x10A#10 d a b 0#10 (bit ftz ++ rnd.code))
  | .xget h man d a => some (word h 0x10B#10 d a 0#10 0#10 (0#2 ++ bit man))
  | .frcp h rnd ftz d a => some (word h 0x110#10 d a 0#10 0#10 (bit ftz ++ rnd.code))
  | .fsqrt h rnd ftz d a => some (word h 0x112#10 d a 0#10 0#10 (bit ftz ++ rnd.code))
  | .frsq h ftz d a => some (word h 0x111#10 d a 0#10 0#10 (bit ftz ++ 0#2))
  | .fexp2 h ftz d a => some (word h 0x113#10 d a 0#10 0#10 (bit ftz ++ 0#2))
  | .flog2 h ftz d a => some (word h 0x114#10 d a 0#10 0#10 (bit ftz ++ 0#2))
  | .fsinp h ftz d a => some (word h 0x115#10 d a 0#10 0#10 (bit ftz ++ 0#2))
  | .fcosp h ftz d a => some (word h 0x116#10 d a 0#10 0#10 (bit ftz ++ 0#2))
  | .hadd2 h bf rnd d a b => some (word h 0x120#10 d a b 0#10 (bit bf ++ rnd.code))
  | .hmul2 h bf rnd d a b => some (word h 0x121#10 d a b 0#10 (bit bf ++ rnd.code))
  | .hfma2 h bf rnd d a b c => some (word h 0x122#10 d a b c (bit bf ++ rnd.code))
  | .dadd h rnd d a b => some (word h 0x130#10 d a b 0#10 (0#1 ++ rnd.code))
  | .dmul h rnd d a b => some (word h 0x131#10 d a b 0#10 (0#1 ++ rnd.code))
  | .dfma h rnd d a b c => some (word h 0x132#10 d a b c (0#1 ++ rnd.code))
  | .faddI h d a imm => some (word h 0x140#10 d a (imm.extractLsb' 10 10) (imm.extractLsb' 0 10) 0#3)
  | .fmulI h d a imm => some (word h 0x142#10 d a (imm.extractLsb' 10 10) (imm.extractLsb' 0 10) 0#3)
  | .fminI h d a imm => some (word h 0x144#10 d a (imm.extractLsb' 10 10) (imm.extractLsb' 0 10) 0#3)
  | .fmaxI h d a imm => some (word h 0x145#10 d a (imm.extractLsb' 10 10) (imm.extractLsb' 0 10) 0#3)
  | .cvt h dst src rnd sat ftz d a => some (word h 0x1C0#10 d a (dst.code ++ src.code) (0#8 ++ bit ftz ++ bit sat) rnd.code)
  | .qcvt h dst src rnd sat d a b => some (word h 0x1C1#10 d a b (dst.code ++ src.code) (bit sat ++ rnd.code))
  | .dqcvt h dst src rnd sat d a b => some (word h 0x1C2#10 d a b (dst.code ++ src.code) (bit sat ++ rnd.code))
  | .ldmx h fmt mq d a b => some (word h 0x1C3#10 d a b mq.code fmt.code)
  | .stmx h fmt mq d a b => some (word h 0x1C4#10 d a b mq.code fmt.code)
  | .mma h fmt mx reuse t a b c => some (word h 0x200#10 (bit mx ++ fmt.code ++ t) a b c (0#2 ++ bit reuse))
  | .acczero h t => some (word h 0x201#10 ((t).setWidth 10) 0#10 0#10 0#10 0#3)
  | .accld h fmt mq t a => some (word h 0x202#10 ((t).setWidth 10) a 0#10 mq.code fmt.code)
  | .accst h fmt mq t a => some (word h 0x203#10 ((t).setWidth 10) a 0#10 mq.code fmt.code)
  | .accchk h d t => some (word h 0x204#10 d ((t).setWidth 10) 0#10 0#10 0#3)
  | .ld h sz mq d a off => some (word h 0x240#10 d a off mq.code sz.code)
  | .st h sz mq d a off => some (word h 0x241#10 d a off mq.code sz.code)
  | .ldg h sz mq d k b => some (word h 0x242#10 d ((k).setWidth 10) b mq.code sz.code)
  | .stg h sz mq d k b => some (word h 0x243#10 d ((k).setWidth 10) b mq.code sz.code)
  | .fence h mq => some (word h 0x244#10 0#10 0#10 0#10 mq.code 0#3)
  | .prefetch h lvl a off => some (word h 0x245#10 0#10 a off 0#10 lvl.code)
  | .cachectl h op a => some (word h 0x246#10 0#10 a 0#10 0#10 op.code)
  | .salloc h quad dflt d a b => some (word h 0x247#10 d a b 0#10 (0#1 ++ bit dflt ++ bit quad))
  | .sfree h a => some (word h 0x248#10 0#10 a 0#10 0#10 0#3)
  | .srenew h a b => some (word h 0x249#10 0#10 a b 0#10 0#3)
  | .poison h a => some (word h 0x24A#10 0#10 a 0#10 0#10 0#3)
  | .winpub h => some (word h 0x24B#10 0#10 0#10 0#10 0#10 0#3)
  | .winacq h => some (word h 0x24C#10 0#10 0#10 0#10 0#10 0#3)
  | .tcommit h => some (word h 0x24D#10 0#10 0#10 0#10 0#10 0#3)
  | .tcopy h bar d a b => some (word h 0x250#10 d a b 0#10 (0#2 ++ bit bar))
  | .tcopyq h bar d a b => some (word h 0x251#10 d a b 0#10 (0#2 ++ bit bar))
  | .tmcast h bar d a b => some (word h 0x252#10 d a b 0#10 (0#2 ++ bit bar))
  | .tcancel h a => some (word h 0x253#10 0#10 a 0#10 0#10 0#3)
  | .atomAdd h ty mq d a b => some (word h 0x260#10 d a b mq.code ty.code)
  | .atomSub h ty mq d a b => some (word h 0x261#10 d a b mq.code ty.code)
  | .atomMin h ty mq d a b => some (word h 0x262#10 d a b mq.code ty.code)
  | .atomMax h ty mq d a b => some (word h 0x263#10 d a b mq.code ty.code)
  | .atomAnd h ty mq d a b => some (word h 0x264#10 d a b mq.code ty.code)
  | .atomOr h ty mq d a b => some (word h 0x265#10 d a b mq.code ty.code)
  | .atomXor h ty mq d a b => some (word h 0x266#10 d a b mq.code ty.code)
  | .atomExch h ty mq d a b => some (word h 0x267#10 d a b mq.code ty.code)
  | .atomCas h ty mq d a b => some (word h 0x268#10 d a b mq.code ty.code)
  | .redAdd h ty mq a b => some (word h 0x270#10 0#10 a b mq.code ty.code)
  | .redSub h ty mq a b => some (word h 0x271#10 0#10 a b mq.code ty.code)
  | .redMin h ty mq a b => some (word h 0x272#10 0#10 a b mq.code ty.code)
  | .redMax h ty mq a b => some (word h 0x273#10 0#10 a b mq.code ty.code)
  | .redAnd h ty mq a b => some (word h 0x274#10 0#10 a b mq.code ty.code)
  | .redOr h ty mq a b => some (word h 0x275#10 0#10 a b mq.code ty.code)
  | .redXor h ty mq a b => some (word h 0x276#10 0#10 a b mq.code ty.code)
  | .wpost h a b => some (word h 0x300#10 0#10 a b 0#10 0#3)
  | .qpush h q a => some (word h 0x301#10 ((q).setWidth 10) a 0#10 0#10 0#3)
  | .qpop h d q => some (word h 0x302#10 d ((q).setWidth 10) 0#10 0#10 0#3)
  | .fpush h q a => some (word h 0x303#10 ((q).setWidth 10) a 0#10 0#10 0#3)
  | .fpop h d q => some (word h 0x304#10 d ((q).setWidth 10) 0#10 0#10 0#3)
  | .msend h kind a b c => some (word h 0x305#10 0#10 a b c kind.code)
  | .glaunch h d a => some (word h 0x306#10 d a 0#10 0#10 0#3)
  | .gwait h d a => some (word h 0x307#10 d a 0#10 0#10 0#3)
  | .tlbinv h form a b => some (word h 0x340#10 0#10 a b 0#10 form.code)
  | .pgprobe h d a => some (word h 0x341#10 d a 0#10 0#10 0#3)
  | .kvx h form d a b c => some (word h 0x342#10 d a b ((c).setWidth 10) form.code)
  | .winctl h close a b => some (word h 0x343#10 0#10 a b 0#10 (0#2 ++ bit close))
  | .gatectl h close a b => some (word h 0x344#10 0#10 a b 0#10 (0#2 ++ bit close))
  | .barInit h a b => some (word h 0x380#10 0#10 a b 0#10 0#3)
  | .barArrive h leave form d a b => some (word h 0x381#10 d a b 0#10 (form.code ++ bit leave))
  | .barExpect h a b => some (word h 0x382#10 0#10 a b 0#10 0#3)
  | .barWait h reach a b => some (word h 0x383#10 0#10 a b 0#10 (0#2 ++ bit reach))
  | .barTry h reach d a b => some (word h 0x384#10 d a b 0#10 (0#2 ++ bit reach))
  | .barInval h a => some (word h 0x385#10 0#10 a 0#10 0#10 0#3)
  | .semSig h a b => some (word h 0x386#10 0#10 a b 0#10 0#3)
  | .semWait h a b => some (word h 0x387#10 0#10 a b 0#10 0#3)
  | .rdclk h us d => some (word h 0x388#10 d 0#10 0#10 0#10 (0#2 ++ bit us))
  | .rdperf h d n => some (word h 0x389#10 d ((n).setWidth 10) 0#10 0#10 0#3)
  | .csrr h d n => some (word h 0x3C0#10 d n 0#10 0#10 0#3)
  | .csrw h mode n a => some (word h 0x3C1#10 n a 0#10 0#10 mode.code)
  | .sread h d a => some (word h 0x3C2#10 d a 0#10 0#10 0#3)
  | .eret h a => some (word h 0x3C3#10 0#10 a 0#10 0#10 0#3)
  | .halt h => some (word h 0x3C4#10 0#10 0#10 0#10 0#10 0#3)
  | .pairedWord .. => none
  | .pdExpiry .. | .overdue .. | .resultArrival .. | .icacheFill .. | .pageWalkComplete ..
  | .mauOpComplete .. | .workToken .. | .c1Landing .. | .c2Signal .. | .c2wWrite ..
  | .c3Atomic .. | .messageAck .. | .queueRoomDeposit .. | .teamBind .. | .bindRecordDispatch ..
  | .slotFree .. | .gridRetire .. | .blockedCheck .. | .donationTest ..
  | .schedulerRecordClaim .. | .hostRecordMove .. | .wakeRecord .. | .replay .. | .recordClaim ..
  | .directoryEntryReceived .. | .directoryUpdate .. | .directoryWaitTimeout ..
  | .frameWaitTimeout .. | .pageReceived .. | .retryTimeout .. | .replicaTimeout ..
  | .declineTimeout .. | .remoteTimeout .. | .ownershipRequest .. | .invalidate .. | .checkIn ..
  | .pinExpiry .. | .windowRekeyComplete .. | .preemptStart .. | .engineStopAck ..
  | .clusterSave .. | .restore .. | .tceDeadline .. | .deadlineMiss .. | .preemptTimeout ..
  | .tceCommandStart .. | .tceBoxComplete .. | .forcedPublish .. | .publishAck ..
  | .retnUpdate .. | .agingScan .. | .sweeperVisit .. | .retentionLoss ..
  | .bankModeDrainComplete .. | .reencryptComplete .. | .powerGrant .. | .frequencyLoop ..
  | .droopLoop .. | .powerOn .. | .moduleReset .. | .vfReset .. | .almanacStep .. | .stateRead ..
  | .inventoryRead .. | .tableWrite .. | .wake .. | .shootDown .. | .powerBudget ..
  | .unfreeze .. | .kill .. | .hallmarkLogRead .. | .almanacRecordsClear .. | .coldReset ..
  | .spdm .. | .launchDeposit .. | .hostFaultQueueConsume .. | .hostComplexAccess ..
  | .openFrameAccess .. | .peerAccess .. | .directoryQuery .. | .pageRequest ..
  | .pageWriteBack .. | .storageErrorReport .. | .softError .. | .storePerformed .. => none
where
  /-- Header and operand fields as one word's fields. -/
  word (h : Hd) (op d a b c : BitVec 10) (m : BitVec 3) : Fields :=
    ⟨h.c.pd, h.c.ta, h.c.wm, op, bit h.g.neg, h.g.gp, d, a, b, c, m⟩

/-- The 80-bit word of a term (R53, R60, R66); none for the acts of other agents. -/
def encode (i : Instr) : Option (BitVec 80) :=
  match i with
  | .pairedWord c h0 h1 => some (c.pd ++ c.ta ++ c.wm ++ (1#1) ++ h0.pack ++ h1.pack)
  | i => i.fields?.map Fields.pack

/-- What a fetched word is, or why it is none (R75). -/
def decode (w : BitVec 80) : Except DecodeError Instr :=
  match parseWord w with
  | none => .error .unassignedOpcode
  | some i =>
    match wfError i with
    | some e => .error e
    | none => if encode i = some w then .ok i else .error .reservedBits

/-- A slot's ten bytes as a word, W[7:0] at the lowest address (R53). -/
def wordOfBytes : List (BitVec 8) → BitVec 80
  | [] => 0
  | b :: bs => b.setWidth 80 ||| (wordOfBytes bs <<< 8)

/-- The ten bytes of a word's slot (R53). -/
def bytesOfWord (w : BitVec 80) : List (BitVec 8) :=
  (List.range 10).map fun i => w.extractLsb' (8 * i) 8

/-- Decode the first slot of a byte string and give the rest; a shorter string is no word. -/
def decodeBytes (bs : List (BitVec 8)) : Except DecodeError (Instr × List (BitVec 8)) :=
  if bs.length < 10 then .error .unassignedOpcode
  else match decode (wordOfBytes (bs.take 10)) with
    | .ok i => .ok (i, bs.drop 10)
    | .error e => .error e

/-- The instruction the decoder reads from a word numbered as spec/opcode_table.json numbers bits. -/
def decodeTableWord (nbits w : Nat) : Option Instr :=
  if w < 2 ^ nbits ∧ nbits ≤ 80 then
    match decodeBytes (bytesOfWord (BitVec.ofNat 80 w)) with
    | .ok (i, _) => some i
    | .error _ => none
  else none

end Sys2Proof
end

