-- ==== Sys2Proof/Machine/Map.lean ====
section
/-! DEFINITION. Finite tables keyed by numbers, in one canonical form: keys strictly rise, one entry a
key. Every sparse table of the machine (registers, lines, entries, memory) is held this way, so equal
tables are equal data. -/

namespace Sys2Proof.Machine

/-- A table from numbers to values, keys strictly rising. -/
abbrev FMap (ν : Type) := List (Nat × ν)

/-- The entry under a key. -/
def FMap.find? {ν : Type} (m : FMap ν) (k : Nat) : Option ν :=
  match m with
  | [] => none
  | (k', v) :: t => if k' = k then some v else FMap.find? t k

/-- The entry under a key, or what an unlisted key reads as. -/
def FMap.getD {ν : Type} (m : FMap ν) (k : Nat) (d : ν) : ν := (FMap.find? m k).getD d

/-- Write an entry, replacing an earlier one. -/
def FMap.put {ν : Type} (m : FMap ν) (k : Nat) (v : ν) : FMap ν :=
  match m with
  | [] => [(k, v)]
  | (k', v') :: t =>
    if k' = k then (k, v) :: t
    else if k < k' then (k, v) :: (k', v') :: t
    else (k', v') :: FMap.put t k v

/-- Remove the entry of a key. -/
def FMap.del {ν : Type} (m : FMap ν) (k : Nat) : FMap ν :=
  match m with
  | [] => []
  | (k', v') :: t => if k' = k then FMap.del t k else (k', v') :: FMap.del t k

/-- Write an entry, or remove it where it holds what an unlisted key reads as. -/
def FMap.set {ν : Type} [DecidableEq ν] (m : FMap ν) (k : Nat) (v d : ν) : FMap ν :=
  if v = d then FMap.del m k else FMap.put m k v

/-- Change the entry of a key, if there is one. -/
def FMap.mod {ν : Type} (m : FMap ν) (k : Nat) (f : ν → ν) : FMap ν :=
  match FMap.find? m k with
  | some v => FMap.put m k (f v)
  | none => m

/-- Change every entry in place. -/
def FMap.mapV {ν : Type} (f : Nat → ν → ν) (m : FMap ν) : FMap ν :=
  m.map fun e => (e.1, f e.1 e.2)

/-- Remove the entries a test names. -/
def FMap.drop {ν : Type} (p : Nat → ν → Bool) (m : FMap ν) : FMap ν :=
  m.filter fun e => !p e.1 e.2

/-- The keys, rising. -/
def FMap.keys {ν : Type} (m : FMap ν) : List Nat := m.map Prod.fst

/-- The lowest number from `lo` on, of `n` candidates, that is no key. -/
def FMap.fresh {ν : Type} (m : FMap ν) (lo n : Nat) : Option Nat :=
  ((List.range n).map (lo + ·)).find? fun k => (FMap.find? m k).isNone

/-- Every key is above `k`. -/
def FMap.above {ν : Type} (k : Nat) (m : FMap ν) : Bool := m.all fun e => k < e.1

/-- The canonical form: keys strictly rise. -/
def FMap.sorted {ν : Type} : FMap ν → Bool
  | [] => true
  | (k, _) :: t => FMap.above k t && FMap.sorted t

end Sys2Proof.Machine
end

