-- ==== Sys2Proof/Machine/State.lean ====
section
/-! DEFINITION. Everything the spec gives the machine, as plain data, grouped by the unit that holds it
(spec/05_registers.md, spec/09_memories.md, spec/12_queues.md to spec/15_counters.md,
spec/18_platform.md R410, R411). Each `FMap` is keyed by the number its docstring gives. -/

namespace Sys2Proof.Machine

/-! ### Threads, cohorts, teams -/

/-- A result of a variable-latency word: register values, FSTAT flags, and the predicate of kvx. -/
structure Late where
  regs : List Word
  flags : BitVec 6
  pred : Option Bool
  deriving DecidableEq, Repr

/-- How far an allocated tag has come (R57, R95). -/
inductive TagStage where
  /-- The word has not been performed for this thread. -/
  | waiting
  /-- The result is known and on its way; RESULT_ARRIVAL delivers it. -/
  | performed (r : Late)
  /-- The result stands in the buffer since the given cycle. -/
  | arrived (cycle : Nat) (r : Late)
  deriving DecidableEq, Repr

/-- An allocated completion tag (R56, R57, R95). A free tag has no entry. -/
structure Tag where
  /-- Destination registers, in the order of the result. -/
  dests : List Nat
  /-- The predicate that kvx writes at commit (R360). -/
  pdest : Option Nat
  stage : TagStage
  /-- The acquire that takes effect at the commit: a copy command's status (R238). -/
  acquire : Bool
  /-- The opcode of the allocating word. -/
  op : Nat
  /-- The earliest core cycle in which the result can stand in the buffer (R108, R167). -/
  least : Nat
  deriving DecidableEq, Repr

/-- A fixed-latency result that is not visible yet (R55, R102). (DEDUCED, log 24.) -/
structure PendWrite where
  /-- The core cycle from which reads see it. -/
  due : Nat
  vs : List (Nat × Word)
  ps : List (Nat × Bool)
  flags : BitVec 6
  deriving DecidableEq, Repr

/-- One thread (R28, R30, R93 to R96, R102, R131 to R133). -/
structure Thread where
  /-- v registers; unlisted ones hold 0. -/
  v : FMap Word
  /-- p0 to p62; unlisted ones are false. -/
  p : FMap Bool
  /-- Allocated tags. -/
  tags : FMap Tag
  /-- FSTAT[5:0]. -/
  fstat : BitVec 6
  /-- The flags that joined FSTAT in this cycle (R110). -/
  fresh : BitVec 6
  /-- Word number of the next word (R71). -/
  pc : Nat
  exited : Bool
  /-- The exit word was issued while accesses are unfinished (R133). -/
  exitIssued : Bool
  /-- A precise event has parked the thread. -/
  parked : Bool
  /-- The PD count of the last word is still running (R54). -/
  pdRun : Bool
  /-- The earliest cycle at which the next word is offered (R54). -/
  readyAt : Nat
  /-- The cycle since which the thread has been ready without a break (R35). -/
  since : Option Nat
  overdue : Bool
  /-- Call-stack pointer: an offset in the private window (R132). -/
  sp : Nat
  /-- A due landing check: the transferring word's number and opcode (R131). -/
  landing : Option (Nat × Nat)
  /-- Fixed-latency results in flight, in issue order. -/
  pend : List PendWrite
  /-- Seq numbers of the events that stand against the thread (R324). -/
  events : List Nat
  deriving DecidableEq, Repr

/-- A thread that has just been given its registers (R30); `pc` is the entry word. -/
def Thread.launch (pc since : Nat) : Thread where
  v := []
  p := []
  tags := []
  fstat := 0
  fresh := 0
  pc := pc
  exited := false
  exitIssued := false
  parked := false
  pdRun := false
  readyAt := since
  since := some since
  overdue := false
  sp := 0x10000
  landing := none
  pend := []
  events := []

/-- The operands of one lane of a memory, queue, table or counter word, as they were read at issue
(R260). Which operand stands in which field is the word's own. -/
structure LaneOps where
  a : DWord
  b : DWord
  c : DWord
  data : List Word
  deriving DecidableEq, Repr

/-- An operand-log entry of a cohort (R260). -/
structure LogEntry where
  /-- Number of the word among those of its cohort that may need an entry, in issue order. -/
  age : Nat
  /-- The word: opcode, fields, M and MQ. -/
  instr : Instr
  /-- Word number of the word. -/
  pc : Nat
  /-- Operands of each lane of the word, by lane. -/
  ops : FMap LaneOps
  unfinished : LaneMask
  /-- The unfinished lanes that raised an event of their own; the others are logged behind (R232). -/
  own : LaneMask
  tag : Option Nat
  /-- The core cycle and CLK in which the word issued (R307). -/
  cycle : Nat
  clk : Nat
  deriving DecidableEq, Repr

/-- An operand queue of a cohort (R311, R312). -/
structure OpQueue where
  /-- Number of rows freed since binding. -/
  first : Nat
  /-- The rows held, oldest first, each of 32 words. -/
  rows : List (List Word)
  /-- The row number each lane pops next; unlisted lanes pop row 0. -/
  next : FMap Nat
  deriving DecidableEq, Repr

/-- An A latch: the row, the A field and the format that filled it (R180). -/
structure ALatch where
  row : List Word
  aField : Nat
  fmt : ElemTy
  deriving DecidableEq, Repr

/-- A lane-mask result in flight: the bits under `lanes` of register `reg` become those of `bits`. -/
structure MaskWrite where
  due : Nat
  reg : Nat
  lanes : LaneMask
  bits : Word
  deriving DecidableEq, Repr

/-- One cohort, of the execute slice or of the access slice (R31, R98, R180, R260, R311). -/
structure Cohort where
  /-- m0 to m11; unlisted ones hold 0. -/
  m : FMap Word
  /-- Lane-mask results not visible yet, in issue order (R89, R137). -/
  pendM : List MaskWrite
  urgency : Nat
  /-- Operand log, by index 0 to 15. -/
  log : FMap LogEntry
  /-- Number of the cohort's next word, by which the log knows it. -/
  logAge : Nat
  /-- Operand queues q0 to q7 (held with the execute cohort). -/
  queues : FMap OpQueue
  /-- A latches, by lane. -/
  latch : FMap ALatch
  deriving DecidableEq, Repr

/-- A live scratch allocation of a team (R270). -/
structure Alloc where
  quad : Bool
  /-- First byte within the cluster's memory. -/
  off : Nat
  bytes : Nat
  deriving DecidableEq, Repr

/-- A line of the kernel's scratch declaration list (R288). -/
structure ScratchDecl where
  bytes : Nat
  lifetime : Nat
  quad : Bool
  deriving DecidableEq, Repr

/-- One store held in a relaunchable team's store buffer (R48). -/
structure BufStore where
  tid : Tid
  phys : Nat
  /-- The VF under which the home holds the line. -/
  vf : Nat
  compartment : Nat
  isOpen : Bool
  bytes : List Byte
  /-- The tag of a release, which completes at the commit. -/
  tag : Option Nat
  deriving DecidableEq, Repr

/-- The kernel handle's fields that a team keeps (R82, R288). -/
structure Kernel where
  handle : Nat
  entry : Nat
  accessEntry : Nat
  regs : Nat
  preds : Nat
  args : Nat
  threads : Nat
  tiles : BitVec 16
  groupSize : Nat
  groupQuad : Bool
  relaunch : Bool
  system : Bool
  compartment : Nat
  scratchCluster : Nat
  scratchQuad : Nat
  fifoBanks : Nat
  align : Bool
  decls : List ScratchDecl
  place : List Nat
  deriving DecidableEq, Repr

/-- A resident team (R28 to R41, R48, R49, R97, R103, R295, R296). -/
structure Team where
  kern : Kernel
  vf : Nat
  partition : Nat
  grid : Nat
  /-- Linear team index. -/
  index : Nat
  depth : Nat
  baseSector : Nat
  /-- Private block b of R194. -/
  privBlock : Nat
  /-- Arguments as bytes, kept for a relaunch. -/
  argBytes : List Byte
  /-- k registers; unlisted ones hold 0. -/
  k : FMap Word
  /-- The team's stores still enter its store buffer (R48). -/
  relaunchable : Bool
  relaunches : Nat
  storeBuf : List BufStore
  /-- Offsets of the scratch reserves in the cluster's memory. -/
  resCluster : Nat
  resQuad : Nat
  allocs : List Alloc
  /-- Order of binding, for the donation of R51. -/
  bound : Nat
  deriving DecidableEq, Repr

/-- State of a slot-table entry (R295). -/
inductive SlotState where
  | free | binding | resident | draining
  deriving DecidableEq, Repr

/-- A bind record as dispatch reads it (R295). -/
structure BindRec where
  handle : Nat
  team : Nat
  grid : Nat
  depth : Nat
  baseSector : Nat
  restore : Bool
  relaunches : Nat
  vf : Nat
  privBlock : Nat
  scratchCluster : Nat
  scratchQuad : Nat
  argsLen : Nat
  argsAddr : Nat
  reservedOk : Bool
  deriving DecidableEq, Repr

/-- A slot-table entry (R295). -/
structure Slot where
  state : SlotState
  /-- The bind record last written. -/
  record : List Byte
  /-- A record that waits for the slot (R40). -/
  queued : Option (List Byte)
  deriving DecidableEq, Repr

/-! ### Sector, core -/

/-- A tile transfer or octet operation in a sector's MAU queue, with the operands read at issue (R182). -/
inductive MauOp where
  /-- One octet of an mma: rows and scales by lane, the B tile as it was read at issue, the byte of cluster memory where
  it begins (cluster × 2^23 + byte), and its 16-byte pieces that are still to be read (R222). -/
  | octet (tile : Nat) (fmt : ElemTy) (mx : Bool) (rows : FMap (List Word)) (scales : FMap Word) (bt : List Byte)
      (src : Nat) (due : BitVec 104)
  | zero (tile : Nat) (lanes : LaneMask)
  /-- accld rows that have been read, as FP32 words. -/
  | load (tile : Nat) (rows : FMap (List Word))
  /-- accst: its rows have left the tile. -/
  | store (tile : Nat)
  | check (tile : Nat)
  deriving DecidableEq, Repr

/-- One entry of the MAU queue: the operation, the team slot and cohorts that issued it, and the tags it
completes. -/
structure MauEntry where
  op : MauOp
  slot : Nat
  cohorts : List Nat
  instr : Instr
  /-- The threads whose tag completes with this entry, and the tag. -/
  tids : List Tid
  tag : Option Nat
  deriving DecidableEq, Repr

/-- An accumulator tile with its checksums and magnitude bounds (R99, R184). -/
structure TileState where
  /-- 32 rows of 32 FP32 words. -/
  rows : List (List Word)
  rho : List Word
  kappa : List Word
  sigma : List Word
  sigmac : List Word
  deriving DecidableEq, Repr

/-- Every element +0.0 with matching checksums (R99). -/
def TileState.zero : TileState where
  rows := List.replicate 32 (List.replicate 32 0)
  rho := List.replicate 32 0
  kappa := List.replicate 32 0
  sigma := List.replicate 32 0
  sigmac := List.replicate 32 0

/-- One sector (R33, R99, R167, R182, R386). -/
structure Sector where
  /-- Accumulator tiles; an unlisted tile is all +0.0. -/
  tiles : FMap TileState
  mau : List MauEntry
  abft : BitVec 32
  /-- Position log, newest first, at most 16. -/
  abftLog : List (BitVec 64)
  /-- The X pipe is occupied before this cycle (R167). -/
  xBusy : Nat
  /-- The sector has had its turn in this cycle. -/
  served : Bool
  deriving DecidableEq, Repr

/-- A line of a core's L1 data cache: 128 bytes of plaintext (R195). -/
structure L1Line where
  vf : Nat
  bytes : List Byte
  /-- A single-bit error that no read has corrected yet (R220). -/
  flip : Bool
  deriving DecidableEq, Repr

/-- A line of a core's instruction cache with its check result (R70). -/
structure ILine where
  vf : Nat
  bytes : List Byte
  intact : Bool
  /-- The compartments whose right to fetch the line has been checked (R76, R192). -/
  comps : List Nat
  deriving DecidableEq, Repr

/-- A TLB entry: VF, virtual page, and the leaf (R348). -/
structure TlbEntry where
  vf : Nat
  /-- Virtual page number; of a large page, its first. -/
  page : Nat
  large : Bool
  /-- The leaf's 128 bits. -/
  leaf : Nat
  /-- Physical address of the leaf. -/
  leafAddr : Nat
  /-- The walk passed a Remote entry, with its namespace. -/
  region : Option Nat
  deriving DecidableEq, Repr

/-- One core (R100, R105, R195, R269, R295, R348, R384). -/
structure Core where
  /-- Sector cycles since reset. -/
  cycle : Nat
  slots : FMap Slot
  /-- L1 lines, by physical line number (address / 128). -/
  l1 : FMap L1Line
  /-- Instruction-cache lines, by VF × 2^56 + line address / 64. -/
  icache : FMap ILine
  dtlb : List TlbEntry
  itlb : List TlbEntry
  /-- PERFSEL0 to PERFSEL7. -/
  perfSel : FMap Word
  /-- Performance counters 0 to 7, modulo 2^48. -/
  perf : FMap Nat
  /-- Counts that a write of PERFSELn cleared: the cycle and the count before it (R384, R110). -/
  perfOld : FMap (Nat × Nat)
  /-- The access stream engine has had its turn in this cycle. -/
  aseServed : Bool
  /-- The VF whose teams last ran on the core (R195, R269, R384). -/
  vf : Option Nat
  deriving DecidableEq, Repr

/-! ### Cluster -/

/-- The scopes at which the phases of a barrier are acquired (R238, R370). -/
structure BarScopes where
  /-- The widest scope of the arrivals and counts of the open phase. -/
  now : Scope
  /-- The epochs of completed phases whose scope is wider than a cluster, with it. -/
  past : List (Nat × Scope)
  deriving DecidableEq, Repr

/-- A scratch-mode line: 512 bytes and the record of R199. -/
structure ScrLine where
  bytes : List Byte
  barType : BitVec 32
  full : BitVec 32
  stamp : Nat
  lifetime : Nat
  written : Bool
  expired : Bool
  poison : Bool
  valid : Bool
  /-- CLK at the last write or restore, from which retn_low counts (R201). -/
  since : Nat
  /-- By granule, the scopes of its barrier's phases. -/
  scopes : FMap BarScopes
  /-- A single-bit error that no read has corrected yet (R220). -/
  flip : Bool
  deriving DecidableEq, Repr

/-- The writer record of a line (R234): the core, team slot and scope of the line's last release at cohort, team,
cluster or quad scope. -/
structure Writer where
  core : Nat
  slot : Nat
  vf : Nat
  scope : Scope
  /-- CLK when the record was made. -/
  born : Nat
  /-- The recorded cluster has performed the forced publish of this record. -/
  published : Bool
  deriving DecidableEq, Repr

/-- Who released the write that a byte of a home holds, as a reply to an acquire names it (R235). -/
structure Author where
  core : Nat
  slot : Nat
  vf : Nat
  deriving DecidableEq, Repr

/-- A cluster-cache line: 512 bytes, the written-byte mask, and a stamp (R206, R226). -/
structure CcLine where
  vf : Nat
  compartment : Nat
  bytes : List Byte
  /-- Written bytes not yet home, one bit a byte. -/
  dirty : BitVec 512
  /-- CLK at the last fill or write. -/
  stamp : Nat
  /-- It was allocated at the highest replacement priority: the hint .keep (R258). -/
  keep : Bool
  /-- A single-bit error that no read has corrected yet (R220). -/
  flip : Bool
  deriving DecidableEq, Repr

/-- One byte of the bank-mode table (R197). -/
structure BankMode where
  mode : Nat
  switching : Bool
  /-- The mode being drained to. -/
  next : Nat
  deriving DecidableEq, Repr

/-- A FIFO entry: 16 bytes as four words, stamped (R313). -/
structure FifoEntry where
  data : List Word
  /-- CLK from which RETN values count for it (R201). -/
  since : Nat
  /-- The µs of CLK at its push, less the time it has spent in a save area; in the save area its age. -/
  stamp : Nat
  deriving DecidableEq, Repr

/-- A FIFO-mode bank created for a VF (R313). -/
structure Fifo where
  vf : Nat
  /-- The bank that holds it. -/
  bank : Nat
  entries : List FifoEntry
  deriving DecidableEq, Repr

/-- A range-lock entry (R355). -/
structure RangeLock where
  /-- The number of the command in its TCE's queue order. -/
  command : Nat
  dest : Bool
  scratch : Bool
  vf : Nat
  base : Nat
  len : Nat
  /-- The cluster whose TCE runs the command (R282). -/
  owner : Nat
  /-- The slot of the command there (R355). -/
  slot : Nat
  deriving DecidableEq, Repr

/-- A box in flight (R285). -/
structure BoxFlight where
  box : Nat
  /-- The pieces of it that have been written (R222, R241). -/
  written : List Nat
  /-- The bytes of a multicast box that have been read for a cluster, by their offset (R282). -/
  held : FMap (Byte × Bool)
  /-- The clusters whose copy of a multicast box has been counted (R282). -/
  landed : List Nat
  deriving DecidableEq, Repr

/-- A copy command in a TCE (R277, R278, R285). -/
structure TceCmd where
  /-- The command slot that holds it, 0 to 63 (R355). -/
  slot : Nat
  tid : Tid
  tag : Nat
  /-- 0 tcopy, 1 tcopyq, 2 tmcast. -/
  kind : Nat
  op : Nat
  vf : Nat
  compartment : Nat
  descAddr : Nat
  barrier : Option Nat
  /-- The 64 descriptor bytes once read. -/
  desc : List Byte
  /-- The header record of tcopyq, once read. -/
  header : List Byte
  /-- Accepted (its locks stand); before, the issuing thread waits (R277). -/
  accepted : Bool
  /-- Boxes completed. -/
  done : List Nat
  /-- Boxes in flight, in order of their start. -/
  boxes : List BoxFlight
  poisoned : Bool
  saturated : Bool
  /-- The Seq of an engine record the command waits for. -/
  waitSeq : Option Nat
  deriving DecidableEq, Repr

/-- One cluster's engines, tables and counters. -/
structure Cluster where
  retn : Nat
  /-- Junction temperature, units of 0.125 °C, signed. -/
  tj : BitVec 16
  /-- RETN updates of the last 4,096 µs and the one before them: (CLK, value), newest first (R201). -/
  retnLog : List (Nat × Nat)
  banks : FMap BankMode
  tlb2 : List TlbEntry
  /-- Walk cache: VF, level, index prefix, and the table it names, with the region (R348). -/
  walkCache : List (Nat × Nat × Nat × Nat × Option Nat)
  locks : List RangeLock
  tce : FMap TceCmd
  tceNext : Nat
  fifos : FMap Fifo
  correctable : BitVec 32
  retentionLoss : BitVec 32
  barEvents : BitVec 32
  /-- CLK at the last aging scan (R202). -/
  scanned : Nat
  deriving DecidableEq, Repr

/-! ### Memory side -/

/-- An L2 tag (R209). -/
structure L2Tag where
  vf : Nat
  compartment : Nat
  dirty : Bool
  way : Nat
  /-- Replacement priority: 0 streaming, 1 normal, 2 keep (R258). -/
  prio : Nat
  deriving DecidableEq, Repr

/-- A counter-tree leaf (R212): major counter and the minors that are not 0. -/
structure TreeLeaf where
  major : Nat
  minors : FMap Nat
  /-- A background re-encryption runs (R213). -/
  busy : Bool
  deriving DecidableEq, Repr

/-- One memory slice's counts. -/
structure Slice where
  eccCorrected : Nat
  macFailures : Nat
  disabled : Bool
  /-- Tags of the counter-tree cache: the verified nodes that it holds, by level × 2^32 + node, the last used first
  (R212). -/
  treeTags : List Nat
  deriving DecidableEq, Repr

/-- A store on its way (R226): issued by a core, not yet accepted by the cluster cache or its home.
(DEDUCED, log 18.) -/
structure InFlight where
  core : Nat
  tid : Option Tid
  /-- The VF under which the home holds the line, and the one whose cluster cache holds copies. -/
  vf : Nat
  own : Nat
  compartment : Nat
  phys : Nat
  bytes : List Byte
  /-- Bypass of the cluster cache (hint, kind of leaf, release). -/
  bypass : Bool
  /-- The frame is open: no cipher, no counter (R193, R211). -/
  isOpen : Bool
  /-- The hint of its word, which places the line (R258). -/
  hint : Hint
  /-- Of a release: what the home keeps of the write (R234, R235). -/
  writer : Option (Author × Option Writer)
  /-- A tag that completes when the store is performed. -/
  tag : Option Nat
  /-- It is a window store (R242). -/
  window : Bool
  /-- The gate through which its access was allowed (R369). -/
  gate : Option Nat
  deriving DecidableEq, Repr

/-! ### Waits -/

/-- Why an issued access has not been performed yet. -/
inductive Cause where
  /-- A .fe or .fec load on an empty granule of a scratch line (R204). -/
  | granule (cluster line : Nat)
  /-- bar.wait registered on a barrier granule: cluster, byte offset, form, target (R379). -/
  | barrier (cluster off : Nat) (reach : Bool) (target : Word)
  /-- sem.wait (R382). -/
  | semaphore (vf index : Nat) (count : Nat)
  /-- The head entry of a mapped launch queue on a semaphore (R293). -/
  | head (vf queue : Nat) (index : Nat) (count : Nat)
  /-- An acquire whose home sent a forced publish (R234). -/
  | publish (line : Nat)
  /-- gwait (R306). -/
  | grid (vf grid : Nat)
  /-- qpop of a row not pushed yet (R312). -/
  | row (queue : Nat)
  /-- fpush on a full FIFO, fpop on an empty one (R314). -/
  | fifo (cluster fifo : Nat) (push : Bool)
  /-- wpost or msend, until its message is acknowledged (R302, R303). -/
  | ack (message : Nat)
  /-- The same once its message is acknowledged, until those of the word's other lanes are. -/
  | acked
  /-- winctl, until the window is ready or closed (R367). -/
  | window (index : Nat)
  /-- A relaxed access that has issued and is performed at a later moment (R224, R239). -/
  | flight
  /-- An access that is left unfinished, with the event it raised if it is not logged behind an older entry, until the
  word's other lanes have been performed and its cohort's log has room (R260). -/
  | logRoom (ev : Option (Nat × DWord × DWord))
  deriving DecidableEq, Repr

/-- A request that waits, in order of arrival. -/
structure Wait where
  tid : Tid
  instr : Instr
  ops : LaneOps
  pc : Nat
  cause : Cause
  /-- The thread is held after issue (R54), and its PD value. -/
  held : Option Nat
  /-- Number of the word among those of its cohort that may need a log entry. -/
  age : Nat
  deriving DecidableEq, Repr

/-! ### Records, partitions -/

/-- A fault record (R316) before it is laid out in bytes. -/
structure Record where
  time : DWord
  address : DWord
  detail : DWord
  lanes : LaneMask
  grid : Nat
  team : Nat
  seq : Nat
  vf : Nat
  core : Nat
  cohort : Nat
  slot : Nat
  /-- The operand-log index, or none. -/
  log : Option Nat
  access : Bool
  write : Bool
  wholeCohort : Bool
  coalesced : Bool
  relaunchable : Bool
  decline : Nat
  opcode : Nat
  compartment : Nat
  kind : Nat
  /-- Not a byte of the record: its event belongs to the host complex whatever its kind (R322). -/
  host : Bool
  deriving DecidableEq, Repr

/-- An event that stands until it is answered (R321, R324). -/
structure Standing where
  record : Record
  /-- The lanes that have had no answer yet. -/
  lanes : LaneMask
  /-- When Hukotil claimed the record, or the first record of its entry (R327). -/
  claimed : Option Nat
  /-- It was declined, or is of a host kind (R322). -/
  host : Bool
  /-- A replay has been ordered and has not been performed (R334). -/
  answered : Bool
  deriving DecidableEq, Repr

/-- Pre-emption progress of a partition (R25, R336, R415). -/
structure Preempt where
  /-- 0 none, 1 P1 done, 2 stopping (P2), 3 saving (P3, P4), 5 swapped out (P5 done). -/
  step : Nat
  vf : Nat
  /-- A halt: P3 to P5 do not run. -/
  halt : Bool
  /-- CLK when P2 began. -/
  began : Nat
  /-- Engines that have acknowledged: (code, unit). -/
  acks : List (Nat × Nat)
  saved : List Nat
  deriving DecidableEq, Repr

/-- A partition (R20, R291, R316 to R320, R354). -/
structure Partition where
  defined : Bool
  slices : List Nat
  homeHub : Nat
  isProtected : Bool
  eccMode : Nat
  /-- Core map: package quad of each partition-relative quad; 0xFF unused; unlisted entries are 0xFF. -/
  coreMap : List Nat
  /-- The resident VF. -/
  resident : Option Nat
  /-- Records that have not been claimed or moved on, host-kind ones that wait for room among them. -/
  queue : List Record
  seq : BitVec 32
  standing : FMap Standing
  wakesDiscarded : Nat
  /-- Mapping slots: the queue each holds. -/
  mapping : FMap Nat
  pointer : Nat
  preempt : Preempt
  frozen : Bool
  bindCount : Nat
  /-- Argument bytes of written bind records, by ArgsAddr (R295). -/
  args : FMap (List Byte)
  /-- Instruction-integrity events answered by resume: VF, word, CLK, and the Seq of the next record (R322). -/
  integrity : List (Nat × Nat × Nat × Nat)
  /-- Engines reported for a missed deadline: code, unit (R336). -/
  missed : List (Nat × Nat)
  /-- Network queues, and the L2 ways of its slices (R20). -/
  netQueues : List Nat
  ways : BitVec 16
  /-- CLK at the last test for a blocked partition, and at the last one for lending (R51, R294). -/
  checked : Nat
  tested : Nat
  deriving DecidableEq, Repr

/-! ### VF tables -/

/-- A launch-queue entry (R290). -/
structure LaunchEntry where
  handle : Nat
  shape : Nat × Nat × Nat
  doneSem : Nat
  waitSem : Nat
  waitCount : Nat
  args : List Byte
  grid : Nat
  depth : Nat
  parent : Option Nat
  /-- Next team to bind. -/
  next : Nat
  /-- The semaphore request has been served. -/
  served : Bool
  deriving DecidableEq, Repr

/-- A launch queue (R290). -/
structure LaunchQueue where
  enabled : Bool
  priority : Nat
  entries : List LaunchEntry
  /-- Deposits that wait for room, in order: entry, and the port or trigger they come from. -/
  waiting : List (LaunchEntry × Option Nat)
  /-- What R294 has lent: the priority, and the semaphore and count that end it. -/
  lent : Option (Nat × Nat × Nat)
  /-- Unmapped by step 3 of R294: it is mapped again before its equals. -/
  ahead : Bool
  /-- CLK since which the head has waited on its semaphore. -/
  headSince : Option Nat
  deriving DecidableEq, Repr

/-- A work port (R297). -/
structure Port where
  enabled : Bool
  queue : Nat
  discarded : Nat
  deriving DecidableEq, Repr

/-- A roster entry (R300). -/
structure Roster where
  kind : Nat
  device : Nat
  node : Nat
  peerVf : Nat
  peerPartition : Nat
  send : Bool
  receive : Bool
  deriving DecidableEq, Repr

/-- A grid (R42, R43, R305, R306). -/
structure Grid where
  parent : Option Nat
  depth : Nat
  /-- Teams not yet exited, counting those not yet bound. -/
  left : Nat
  retired : Bool
  killed : Bool
  doneSem : Nat
  queue : Nat
  deriving DecidableEq, Repr

/-- A trigger-table entry (R356). -/
structure Trigger where
  head : List Byte
  args : List Byte
  barrier : DWord
  landBase : DWord
  landLen : Nat
  enabled : Bool
  oneShot : Bool
  queue : Nat
  fireCount : BitVec 32
  deriving DecidableEq, Repr

/-- A gate entry (R365). -/
structure Gate where
  isOpen : Bool
  srcComp : Nat
  userComp : Nat
  rights : Nat
  base : Nat
  len : Nat
  deriving DecidableEq, Repr

/-- A key-table entry (R363). -/
structure Key where
  generation : BitVec 32
  valid : Bool
  deriving DecidableEq, Repr

/-- An arrival-log entry (R339). -/
structure Arrival where
  time : DWord
  barrier : DWord
  count : Nat
  source : Nat
  seq : Nat
  kind : Nat
  deriving DecidableEq, Repr

/-- A saved scratch line: cluster (partition-relative), line, the line with its age (R203). -/
structure SavedLine where
  cluster : Nat
  line : Nat
  age : Nat
  data : ScrLine
  deriving DecidableEq, Repr

/-- A saved team: its slot, team, cohorts and threads (R336, R338). -/
structure SavedTeam where
  /-- Saved by R51, not by a swap-out. -/
  donated : Bool
  /-- Partition-relative core. -/
  core : Nat
  slot : Nat
  state : SlotState
  team : Team
  cohorts : FMap Cohort
  threads : FMap Thread
  pdLeft : FMap Nat
  tiles : List (Nat × Nat × TileState)
  /-- The requests of its threads, by their numbers. -/
  waits : List (Nat × Wait)
  /-- The bind record of its slot, and one that waits for the slot. -/
  record : List Byte
  queued : Option (List Byte)
  deriving DecidableEq, Repr

/-- The context save area (R338). -/
structure SaveArea where
  teams : List SavedTeam
  lines : List SavedLine
  fifos : List (Nat × Nat × Fifo)
  banks : List (Nat × Nat × Nat)
  /-- Copy commands, each with its cluster and its number there. -/
  tce : List (Nat × Nat × TceCmd)
  wakes : List WakeRec
  pointer : Nat
  /-- Clusters (partition-relative) whose lines have been streamed. -/
  streamed : List Nat
  deriving DecidableEq, Repr

/-- A virtual device (R21, R106, R210, R342, R363 to R365, R381, R412). -/
structure Vf where
  partition : Option Nat
  wayMask : BitVec 16
  debugGrant : Bool
  root : Nat
  privBase : Nat
  handleBase : Nat
  saveArea : Nat
  /-- Compartment table: Valid, Declassify; an unlisted entry is (false, false). -/
  comps : FMap (Bool × Bool)
  keys : FMap Key
  gates : FMap Gate
  roster : FMap Roster
  ports : FMap Port
  queues : FMap LaunchQueue
  sems : FMap Nat
  triggers : FMap Trigger
  grids : FMap Grid
  arrivals : List Arrival
  arrivalSeq : Nat
  save : SaveArea
  /-- The VF has been resident since its creation or reset (R292). -/
  seen : Bool
  /-- A halt issued during a swap-out takes effect at the restore (R415). -/
  haltAtRestore : Bool
  /-- Launches of triggers that fired while trigger dispatch was frozen, each with its queue (R25). -/
  heldLaunches : List (Nat × LaunchReq)
  /-- Transport keys, by roster index (R22, R217). -/
  transport : FMap Key
  /-- Packets sent under each of them (R420). -/
  sent : FMap Nat
  deriving DecidableEq, Repr

/-! ### Hub dies and the package -/

/-- A service-table entry of Hukotil (R325 to R327). -/
structure Service where
  vf : Nat
  key : DWord
  partition : Nat
  /-- Translated address of the page that the first record names. -/
  va : Nat
  /-- Compartment of the first record's team. -/
  compartment : Nat
  /-- Address and value of the leaf as S2 read it. -/
  leaf : Option (Nat × Nat)
  /-- 2 directory, 3 frame, 5 fetch; 20 window-pending, with the window's index as key. -/
  step : Nat
  claimed : Nat
  /-- Seq numbers of the records that wait, in order. -/
  waiters : List Nat
  prefetch : Bool
  retried : Bool
  entry : Option DirEntry
  frame : Option Nat
  /-- Source of the last request: 0 the location, n the n-th replica. -/
  source : Nat
  lastSent : Nat
  deriving DecidableEq, Repr

/-- A message on the links (R303, R307). -/
structure Message where
  vf : Nat
  roster : Nat
  /-- 0 C0, 1 C1, 2 C2 arrival, 3 C2 write, 4 C3. -/
  kind : Nat
  port : Nat
  dest : DWord
  bytes : List Byte
  /-- Held by R307 until earlier ones are acknowledged. -/
  held : Bool
  /-- The peer that the roster entry named when the message was sent: Kind, device or node, partition, VF. -/
  peer : Nat × Nat × Nat × Nat
  /-- Where and when its word issued: core, core cycle, CLK (R307). -/
  core : Nat
  cycle : Nat
  clk : Nat
  deriving DecidableEq, Repr

/-- A page that may leave the device again: one that Hukotil installed, or a local page of a remote region that a TLB
has used; its VF, virtual page, directory key and frame (R330, R331). (DEDUCED, log 107.) -/
structure HeldPage where
  vf : Nat
  page : Nat
  key : DWord
  frame : Nat
  /-- The version of the page that was installed. -/
  version : Option (BitVec 32)
  /-- It is a member of a large page, which leaves the device whole (R192). -/
  large : Bool
  deriving DecidableEq, Repr

/-- A page on its way to a home on another node, until that node's directory shows it (R326, R331). -/
structure WriteBack where
  vf : Nat
  key : DWord
  page : List (Nat × Byte)
  poison : List Nat
  /-- The version before it came home; none while its directory entry is still read, since the mode says where the
  page goes. -/
  version : Option (BitVec 32)
  began : Nat
  lastSent : Nat
  deriving DecidableEq, Repr

/-- What another node does to a page that this node homes (R331). -/
inductive HomeAct where
  | writeBack (page : PageImage)
  | checkIn (page : PageImage) (clean : Bool)
  | request (node : Nat)
  deriving DecidableEq, Repr

/-- One hub die's Hukotil tables (R325, R351, R353). -/
structure Hub where
  service : List Service
  /-- Acts of other nodes on pages that this node homes, by key, which wait for the page's directory entry (R331). -/
  homeActs : List (DWord × HomeAct)
  dirCache : List DirEntry
  /-- Node table: index to (fabric address, roster index). -/
  nodes : FMap (Nat × Nat)
  selfNode : Nat
  /-- Shard maps: namespace × 4,096 + index to node. -/
  shards : FMap Nat
  /-- Entries of the shards that this node owns, with the twin bytes of merge pages. -/
  owned : List DirEntry
  /-- The page whose last TLB access lies furthest back comes first (R330). -/
  held : List HeldPage
  droppedPrefetch : Nat
  writeBacks : List WriteBack
  /-- Tap settings and eye margin of each SerDes lane of the die (R407). (DESIGN CHOICE, log 172.) -/
  serdes : FMap (Word × Word)
  deriving DecidableEq, Repr

/-- A pinned page: VF, virtual page, since (R330). -/
structure PinnedPage where
  vf : Nat
  page : Nat
  since : Nat
  /-- Seq numbers whose replays have not been performed yet. -/
  seqs : List Nat
  deriving DecidableEq, Repr

/-- A window (R366). -/
structure Window where
  /-- The 7 member words: bits 9:0 device, bits 24:16 VF, bit 31 Valid. -/
  memberWords : List Word
  base : Nat
  len : Nat
  /-- The frames of the range, in order. -/
  frames : List Nat
  ownerVf : Nat
  /-- 0 closed, 1 re-keying, 2 ready, 3 closing. -/
  state : Nat
  zeroOnClose : Bool
  keyGen : BitVec 32
  /-- A close waits for the re-key to end (R369). -/
  closeNext : Bool
  deriving DecidableEq, Repr

/-- An island of the power arbiter (R388, R405, R407). -/
structure Island where
  grant : BitVec 32
  drawn : BitVec 32
  energy : BitVec 64
  limited : BitVec 32
  mhz : Nat
  guardBand : Nat
  demand : BitVec 32
  deriving DecidableEq, Repr

/-- An Almanac record (R400). -/
structure AlmRecord where
  step : Nat
  inst : Nat
  attempts : Nat
  starts : Nat
  outcome : Nat
  deriving DecidableEq, Repr

/-- A Hallmark log entry (R416). -/
structure HallEntry where
  digest : List Byte
  time : DWord
  type : Nat
  index : Nat
  deriving DecidableEq, Repr

/-- A certificate slot (R368). (DESIGN CHOICE, log 13.) -/
structure CertSlot where
  valid : Bool
  keyPair : Nat
  generation : BitVec 32
  chain : List Byte
  deriving DecidableEq, Repr

/-- The management window (R408, R409). -/
structure Mgmt where
  status : Nat
  detail : Nat
  result : List Byte
  buffer : List Byte
  /-- The 64 bytes of the command slot. -/
  slot : List Byte
  ignored : Nat
  external : Bool
  /-- A signed SPDM exchange in progress: slot, the Generation bound at receipt, and the response assembled so far
  (R418, R419). -/
  bound : Option (Nat × BitVec 32 × List Byte)
  /-- Certificates read in parts: by slot, the Generation bound at the first part (R419). -/
  reading : FMap (BitVec 32)
  deriving DecidableEq, Repr

/-- Package-wide state outside the partitions. -/
structure Package where
  /-- CLK, ns since cold reset (R107). -/
  clk : Nat
  /-- Window table (R366). -/
  windows : FMap Window
  /-- The records that the host fault queue holds, and its pointers, modulo 65,536 (R319). -/
  hostQueue : List Record
  hostHead : Nat
  hostTail : Nat
  /-- The address of the ring in memory of the host complex, once the resident kernel has written it. -/
  hostRing : Option Nat
  /-- Spare remaps: physical cluster of a logical cluster, physical core of a logical core; identity where unlisted, 0xFF disabled. -/
  clusterRemap : FMap Nat
  coreRemap : FMap Nat
  /-- Pre-emption granularity table: engine code to deadline (R336). -/
  granularity : FMap Nat
  almanac : List AlmRecord
  almanacAt : Nat
  starts : Nat
  inService : Bool
  measurements : FMap (List Byte)
  hallLog : List HallEntry
  certs : FMap CertSlot
  mgmt : Mgmt
  budget : Nat
  inlet : Nat
  /-- CLK at the arbiter's last grant (R405). -/
  granted : Nat
  islands : FMap Island
  /-- Units Almanac or the hypervisor disabled: (class, number). -/
  disabled : List (Nat × Nat)
  integrityEvents : Nat
  portErrors : Nat
  landingErrors : Nat
  refusals : Nat
  coreMapRefused : Nat
  /-- Packets whose JobID names no VF that admits their source (R308). -/
  jobDiscards : Nat
  /-- Transmissions of a packet of the package network whose tag has failed (R214). -/
  netFails : List (Packet × Nat)
  /-- Link keys of the UALink ports (R22). -/
  linkKeys : FMap Key
  /-- Lines whose reply was lost in this cycle: their reads are poisoned for their consumers (R214). -/
  lost : List Nat
  deriving DecidableEq, Repr

/-! ### Issue -/

/-- The threads that issue one word together (R33): members are (cohort, lane). (DESIGN CHOICE, log 2.) -/
structure Gang where
  core : Nat
  slot : Nat
  access : Bool
  pc : Nat
  members : List (Nat × Nat)
  deriving DecidableEq, Repr

/-- The sector, or engine, whose gathered gang issues next (R33, R34). -/
structure Turn where
  core : Nat
  /-- Sector 0 to 3, or 4 for the access stream engine. -/
  sector : Nat
  /-- It is the second decoder's gang. -/
  second : Bool
  /-- The gangs that the second decoder may take after this one, highest rank first (R32, R34). -/
  plan : List Gang
  deriving DecidableEq, Repr

/-- The whole package. -/
structure State where
  /-- Model: number of free values drawn so far. -/
  draws : Nat
  /-- Model: the gang whose word is executed. -/
  gang : Gang
  /-- Model: the gathered gang issues in the next step. -/
  turn : Option Turn
  /-- Model: the relaxed accesses of the word that issues are performed at its issue, not at a later moment. -/
  prompt : Bool
  /-- Model: acts of outside agents that have not come about, in order. -/
  inputs : List Instr
  /-- Model: acts caused inside the package that have not come about. -/
  pending : List Instr
  /-- Threads, by ((((core × 8 + slot) × 2 + access) × 32 + cohort) × 32 + lane. -/
  threads : FMap Thread
  /-- Cohorts, by ((core × 8 + slot) × 2 + access) × 32 + cohort. -/
  cohorts : FMap Cohort
  /-- Resident teams, by core × 8 + slot. -/
  teams : FMap Team
  /-- Sectors, by core × 4 + sector. -/
  sectors : FMap Sector
  /-- Cores, by package logical core; an unlisted core is as after reset. -/
  cores : FMap Core
  /-- Clusters, by package logical cluster. -/
  clusters : FMap Cluster
  /-- Scratch lines, by cluster × 16,384 + line; an unlisted line is invalid. -/
  scratch : FMap ScrLine
  /-- Cluster-cache lines, by cluster × 2^60 + physical address / 512. -/
  cc : FMap CcLine
  /-- Home memory: bytes by local physical address; an unlisted byte reads 0x00. -/
  mem : List Host.Cell
  /-- Poisoned 64-byte lines of home memory, by address / 64. -/
  poison : FMap Bool
  /-- L2 tags, by address / 64. -/
  l2 : FMap L2Tag
  /-- Writer records of lines of home memory, by address / 64 (R234): in the line's L2 tag, or where the L2 does
  not hold the line, in the slice's writer table. -/
  writers : FMap Writer
  /-- Writer records of scratch lines, by cluster × 16,384 + line (R234). -/
  scratchWriters : FMap Writer
  /-- Authors of released bytes of home memory, by address (R235). -/
  authors : FMap Author
  /-- Authors of released bytes of scratch, by cluster × 2^23 + byte (R235). -/
  scratchAuthors : FMap Author
  /-- Counter-tree leaves, by address / 4,096. -/
  tree : FMap TreeLeaf
  /-- Upper counters of the tree, by level × 2^32 + node. -/
  treeUp : FMap Nat
  /-- Failed nodes of the tree: first leaf below, and number of leaves (R213). -/
  treeFailed : FMap Nat
  slices : FMap Slice
  /-- Stores in flight, by number, oldest first. -/
  stores : FMap InFlight
  storeNext : Nat
  /-- Waiting requests, by number, in order of arrival. -/
  waits : FMap Wait
  waitNext : Nat
  partitions : FMap Partition
  vfs : FMap Vf
  hubs : FMap Hub
  /-- Messages not yet acknowledged, by number. -/
  messages : FMap Message
  messageNext : Nat
  pinned : List PinnedPage
  /-- Twins of merge pages that this node homes: key to page bytes (R331). -/
  twins : FMap (List (Nat × Byte))
  pkg : Package
  deriving DecidableEq, Repr

/-! ### Outcomes that stop the machine -/

/-- Why the machine stops with a fault. Every fault of the spec is a reported event and goes on (R45);
this reason stands for the one place where no rule says what follows. -/
inductive Fault where
  /-- Raised by `step` where no agent of the package can act and no input is left: never on a state of
  a powered package, whose clock always ticks. Safe: nothing is claimed of what follows. -/
  | stuck
  deriving DecidableEq, Repr

/-- Why the model has no meaning. -/
inductive Refusal where
  /-- Raised by an arm of `exec` that has no meaning yet. Safe: nothing is claimed of it. -/
  | notModelled (mnemonic : String)
  deriving DecidableEq, Repr

/-! ### Values after reset -/

/-- Canonical empty operand queue. -/
def OpQueue.empty : OpQueue := ⟨0, [], []⟩

/-- A cohort at launch: m0 holds the lanes with threads (R30). -/
def Cohort.launch (lanes : LaneMask) : Cohort where
  m := if lanes = 0 then [] else [(0, lanes)]
  pendM := []
  urgency := 0
  log := []
  logAge := 0
  queues := []
  latch := []

/-- A free slot (R295). -/
def Slot.reset : Slot := ⟨.free, [], none⟩

/-- A sector after reset: tiles clear (R99), counters 0 (R386). -/
def Sector.reset : Sector := ⟨[], [], 0, [], 0, false⟩

/-- A core after reset: caches and TLBs empty, PERFSEL 0 (R105, R195, R348). (DESIGN CHOICE, log 4.)
(DEDUCED, log 5.) -/
def Core.reset : Core where
  cycle := 0
  slots := []
  l1 := []
  icache := []
  dtlb := []
  itlb := []
  perfSel := []
  perf := []
  perfOld := []
  aseServed := false
  vf := none

/-- A cluster after reset: RETN 40,000, TJ 0, every bank in cache mode (R104, R105, R197). (DESIGN CHOICE, log 6.) -/
def Cluster.reset : Cluster where
  retn := 40000
  tj := 0
  retnLog := []
  banks := []
  tlb2 := []
  walkCache := []
  locks := []
  tce := []
  tceNext := 0
  fifos := []
  correctable := 0
  retentionLoss := 0
  barEvents := 0
  scanned := 0

/-- An invalid scratch line (R199). -/
def ScrLine.reset : ScrLine :=
  ⟨List.replicate 512 0, 0, 0, 0, 0, false, false, false, false, 0, [], false⟩

/-- No pre-emption in progress. -/
def Preempt.none : Preempt := ⟨0, 0, false, 0, [], []⟩

/-- A partition that the hypervisor has not defined. (DESIGN CHOICE, log 9.) (DESIGN CHOICE, log 11.) -/
def Partition.reset : Partition where
  defined := false
  slices := []
  homeHub := 0
  isProtected := true
  eccMode := 0
  coreMap := []
  resident := none
  queue := []
  seq := 0
  standing := []
  wakesDiscarded := 0
  mapping := []
  pointer := 0
  preempt := .none
  frozen := false
  bindCount := 0
  args := []
  integrity := []
  missed := []
  netQueues := []
  ways := 0
  checked := 0
  tested := 0

/-- Nothing saved. -/
def SaveArea.empty : SaveArea := ⟨[], [], [], [], [], [], 0, []⟩

/-- A VF after reset: compartment 0 valid, every queue, table and semaphore empty (R9, R364, R381). -/
def Vf.reset : Vf where
  partition := none
  wayMask := 0
  debugGrant := false
  root := 0
  privBase := 0
  handleBase := 0
  saveArea := 0
  comps := [(0, (true, false))]
  keys := []
  gates := []
  roster := []
  ports := []
  queues := []
  sems := []
  triggers := []
  grids := []
  arrivals := []
  arrivalSeq := 0
  save := .empty
  seen := false
  haltAtRestore := false
  heldLaunches := []
  transport := []
  sent := []

/-- A hub die after reset. -/
def Hub.reset : Hub := ⟨[], [], [], [], 0, [], [], [], 0, [], []⟩

/-- A slice after reset. -/
def Slice.reset : Slice := ⟨0, 0, false, []⟩

/-- An island after cold reset: FREQ.Mhz 1,250 (R105). (DESIGN CHOICE, log 10.) -/
def Island.reset : Island := ⟨0, 0, 0, 0, 1250, 0, 0⟩

/-- The management window, idle. -/
def Mgmt.reset : Mgmt := ⟨0, 0, [], [], [], 0, false, none, []⟩

/-- The package after cold reset; the granularity table holds Almanac's values (R336), cycles and ns.
(DESIGN CHOICE, log 12.) (PRESUMED, log 14.) -/
def Package.reset : Package where
  clk := 0
  windows := []
  hostQueue := []
  hostHead := 0
  hostTail := 0
  hostRing := none
  clusterRemap := []
  coreRemap := []
  granularity := [(1, 16), (2, 16), (3, 40), (4, 20000), (5, 2000), (6, 20000), (7, 0), (8, 5000)]
  almanac := []
  almanacAt := 0
  starts := 0
  inService := true
  measurements := []
  hallLog := []
  certs := []
  mgmt := .reset
  budget := 4400
  inlet := 40
  granted := 0
  islands := []
  disabled := []
  integrityEvents := 0
  portErrors := 0
  landingErrors := 0
  refusals := 0
  coreMapRefused := 0
  jobDiscards := 0
  netFails := []
  linkKeys := []
  lost := []

/-- The empty gang. -/
def Gang.none : Gang := ⟨0, 0, false, 0, []⟩

/-- The package right after cold reset (R9): no team is resident, memory lists nothing, every register
and table holds its reset value. -/
def State.reset : State where
  draws := 0
  gang := .none
  turn := none
  prompt := true
  inputs := []
  pending := []
  threads := []
  cohorts := []
  teams := []
  sectors := []
  cores := []
  clusters := []
  scratch := []
  cc := []
  mem := []
  poison := []
  l2 := []
  writers := []
  scratchWriters := []
  authors := []
  scratchAuthors := []
  tree := []
  treeUp := []
  treeFailed := []
  slices := []
  stores := []
  storeNext := 0
  waits := []
  waitNext := 0
  partitions := []
  vfs := []
  hubs := []
  messages := []
  messageNext := 0
  pinned := []
  twins := []
  pkg := .reset

end Sys2Proof.Machine
end

