-- ==== Sys2Proof/Machine/Operands.lean ====
section
/-! DEFINITION. What a word names: its opcode, its destination registers, the registers it reads or
writes (for the register-bound check), and where it may run (spec/03_encoding.md R61, R62,
spec/04_opcode_map.md R90, R91, spec/12_queues.md R310). -/

namespace Sys2Proof

/-- Registers `r` to `r + n - 1`. -/
def regGroup (r : VReg) (n : Nat) : List Nat := (List.range n).map (r.toNat + ·)

/-- One register, or a pair. -/
def regsIf (w64 : Bool) (r : VReg) : List Nat := regGroup r (if w64 then 2 else 1)

/-- Bytes of an access size (R262). -/
def MSize.bytes : MSize → Nat
  | .n8 | .s8 => 1
  | .n16 | .s16 => 2
  | .n32 => 4
  | .n64 => 8
  | .n128 => 16

/-- Registers of an access size (R262). -/
def MSize.regs : MSize → Nat
  | .n64 => 2
  | .n128 => 4
  | _ => 1

/-- Bytes of a block's elements, and of a DXB6 block whole (R151, R152). -/
def MxFmt.bytes : MxFmt → Nat
  | .e4m3 | .e5m2 => 32
  | .e3m2 | .e2m3 => 24
  | .e2m1 => 16
  | .dxb6 => 26

/-- Registers of the A span of mma (R177). -/
def mmaSpan : ElemTy → Nat
  | .e3m2 | .e2m3 => 6
  | .dxb6 => 12
  | _ => 8

/-- The opcode of a word; of a paired word, which has none, 0 (R316). (DEDUCED, log 33.) -/
def Instr.opcode (i : Instr) : Nat :=
  match i.fields? with
  | some f => f.op.toNat
  | none => 0

/-- Registers, predicates, arguments and tiles that a word names (R61, R62). -/
structure Uses where
  v : List Nat
  p : List Nat
  k : List Nat
  a : List Nat
  deriving DecidableEq, Repr

/-- Vector registers that the operand fields of a word name, groups spelled out. -/
def Instr.vUses : Instr → List Nat
  | .iadd _ _ _ d a b | .isub _ _ _ d a b | .imul _ _ _ d a b => [d.toNat, a.toNat, b.toNat]
  | .imulhi _ _ d a b | .imin _ _ d a b | .imax _ _ d a b => [d.toNat, a.toNat, b.toNat]
  | .imad _ _ m d a b c =>
    regsIf (m == .wide) d ++ [a.toNat, b.toNat] ++ regsIf (m == .wide) c
  | .iadd64 _ _ _ x d a b => regGroup d 2 ++ regGroup a 2 ++ regsIf (!x) b
  | .iabs _ _ d a | .ineg _ _ d a => [d.toNat, a.toNat]
  | .iand _ w _ d a b | .ior _ w _ d a b | .ixor _ w _ d a b => regsIf w d ++ regsIf w a ++ regsIf w b
  | .inot _ w d a | .brev _ w d a | .mov _ w d a => regsIf w d ++ regsIf w a
  | .ishl _ w _ d a b | .ishr _ w _ d a b | .isar _ w _ d a b | .irot _ w _ d a b =>
    regsIf w d ++ regsIf w a ++ [b.toNat]
  | .bfx _ _ d a b => [d.toNat, a.toNat, b.toNat]
  | .bfi _ d a b c | .prmt _ d a b c => [d.toNat, a.toNat, b.toNat, c.toNat]
  | .popc _ w d a | .clz _ w d a | .ctz _ w d a => [d.toNat] ++ regsIf w a
  | .icmp _ _ w _ a b => regsIf w a ++ regsIf w b
  | .isel _ w d a b _ | .fsel _ w d a b _ => regsIf w d ++ regsIf w a ++ regsIf w b
  | .lea _ _ _ d a b => regGroup d 2 ++ regGroup a 2 ++ [b.toNat]
  | .shfl _ _ d a b _ => [d.toNat, a.toNat, b.toNat]
  | .vote _ k _ d _ _ => if k.toPred then [] else [d.toNat]
  | .cred _ _ d a _ => [d.toNat, a.toNat]
  | .srd _ d _ | .mget _ _ d _ => [d.toNat]
  | .iaddI _ d a _ | .imulI _ d a _ | .iminI _ d a _ | .imaxI _ d a _ | .iandI _ d a _
  | .iorI _ d a _ | .ixorI _ d a _ | .prmtI _ d a _ => [d.toNat, a.toNat]
  | .ishlI _ d a _ | .ishrI _ d a _ | .isarI _ d a _ | .irotI _ d a _ => [d.toNat, a.toNat]
  | .bfxI _ _ _ _ d a | .bfiI _ _ _ d a | .shflI _ _ _ _ d a => [d.toNat, a.toNat]
  | .leaI _ d a _ => regGroup d 2 ++ regGroup a 2
  | .movi _ w d _ => regsIf w d
  | .brx _ a | .callx _ a => regGroup a 2
  | .fadd _ _ _ d a b | .fsub _ _ _ d a b | .fmul _ _ _ d a b | .xins _ _ _ d a b
  | .fmin _ _ d a b | .fmax _ _ d a b | .hadd2 _ _ _ d a b | .hmul2 _ _ _ d a b =>
    [d.toNat, a.toNat, b.toNat]
  | .ffma _ _ _ d a b c | .hfma2 _ _ _ d a b c => [d.toNat, a.toNat, b.toNat, c.toNat]
  | .fcmp _ _ ty _ _ a b => regsIf (ty == .f64) a ++ regsIf (ty == .f64) b
  | .fclass _ ty _ _ a => regsIf (ty == .f64) a
  | .frnd _ _ _ d a | .frcp _ _ _ d a | .fsqrt _ _ _ d a => [d.toNat, a.toNat]
  | .xget _ _ d a | .frsq _ _ d a | .fexp2 _ _ d a | .flog2 _ _ d a | .fsinp _ _ d a | .fcosp _ _ d a =>
    [d.toNat, a.toNat]
  | .dadd _ _ d a b | .dmul _ _ d a b => regGroup d 2 ++ regGroup a 2 ++ regGroup b 2
  | .dfma _ _ d a b c => regGroup d 2 ++ regGroup a 2 ++ regGroup b 2 ++ regGroup c 2
  | .faddI _ d a _ | .fmulI _ d a _ | .fminI _ d a _ | .fmaxI _ d a _ => [d.toNat, a.toNat]
  | .cvt _ dst src _ _ _ d a => regsIf (dst.width == 64) d ++ regsIf (src.width == 64) a
  | .qcvt _ _ _ _ _ d a b | .dqcvt _ _ _ _ _ d a b => [d.toNat, a.toNat, b.toNat]
  | .ldmx _ fmt _ d a b => regGroup d 2 ++ regGroup a 2 ++ (if fmt == .dxb6 then [] else regGroup b 2)
  | .stmx _ fmt _ d a b => [d.toNat] ++ regGroup a 2 ++ (if fmt == .dxb6 then [] else regGroup b 2)
  | .pairedWord _ h0 h1 =>
    [h0.d.toNat, h1.d.toNat] ++ h0.sources.map BitVec.toNat ++ h1.sources.map BitVec.toNat
  | .mma _ fmt mx _ _ a b c =>
    regGroup a (mmaSpan fmt) ++ regGroup b 2 ++ (if mx || fmt == .dxb6 then [c.toNat] else [])
  | .accld _ _ _ _ a | .accst _ _ _ _ a => regGroup a 2
  | .accchk _ d _ => [d.toNat]
  | .ld _ sz _ d a _ | .st _ sz _ d a _ => regGroup d (sz.regs) ++ regGroup a 2
  | .ldg _ sz _ d _ b | .stg _ sz _ d _ b => regGroup d (sz.regs) ++ [b.toNat]
  | .prefetch _ _ a _ | .sfree _ a | .poison _ a | .eret _ a | .barInval _ a => regGroup a 2
  | .cachectl _ op a => if op == .icall then [] else regGroup a 2
  | .salloc _ _ df d a b => regGroup d 2 ++ [a.toNat] ++ (if df then [] else [b.toNat])
  | .srenew _ a b | .barInit _ a b | .barExpect _ a b | .barWait _ _ a b | .wpost _ a b =>
    regGroup a 2 ++ [b.toNat]
  | .tcopy _ bar d a b | .tcopyq _ bar d a b | .tmcast _ bar d a b =>
    [d.toNat] ++ regGroup a 2 ++ (if bar then regGroup b 2 else [])
  | .tcancel _ a => [a.toNat]
  | .atomAdd _ ty _ d a b | .atomSub _ ty _ d a b | .atomMin _ ty _ d a b | .atomMax _ ty _ d a b
  | .atomAnd _ ty _ d a b | .atomOr _ ty _ d a b | .atomXor _ ty _ d a b | .atomExch _ ty _ d a b =>
    regsIf ty.wide d ++ regGroup a 2 ++ regsIf ty.wide b
  | .atomCas _ ty _ d a b => regsIf ty.wide d ++ regGroup a 2 ++ regGroup b (if ty.wide then 4 else 2)
  | .redAdd _ ty _ a b | .redSub _ ty _ a b | .redMin _ ty _ a b | .redMax _ ty _ a b
  | .redAnd _ ty _ a b | .redOr _ ty _ a b | .redXor _ ty _ a b => regGroup a 2 ++ regsIf ty.wide b
  | .qpush _ _ a => [a.toNat]
  | .qpop _ d _ => [d.toNat]
  | .fpush _ _ a => regGroup a 4
  | .fpop _ d _ => regGroup d 4
  | .msend _ kind a b c => (if kind == .c2a then [] else regGroup a 2) ++ regGroup b 2 ++ [c.toNat]
  | .glaunch _ d a => [d.toNat] ++ regGroup a 2
  | .gwait _ d a => [d.toNat, a.toNat]
  | .tlbinv _ form a b =>
    (if form == .vf then [] else regGroup a 2) ++ (if form == .range then [b.toNat] else [])
  | .pgprobe _ d a => regGroup d 4 ++ regGroup a 2
  | .kvx _ form d a b _ => regGroup d 2 ++ regGroup a 2 ++ (if form == .addr then [b.toNat] else [])
  | .winctl _ close a b | .gatectl _ close a b => (if close then [] else regGroup a 2) ++ [b.toNat]
  | .barArrive _ _ form d a b =>
    [d.toNat] ++ regGroup a 2 ++ (if form == .one then [] else [b.toNat])
  | .barTry _ _ d a b => [d.toNat] ++ regGroup a 2 ++ [b.toNat]
  | .semSig _ a b | .semWait _ a b => [a.toNat, b.toNat]
  | .rdclk _ us d => regsIf (!us) d
  | .rdperf _ d _ => regGroup d 2
  | .csrr _ d n => regsIf (n == 0x40#10) d
  | .csrw _ _ _ a => [a.toNat]
  | .sread _ d a => regGroup d 2 ++ regGroup a 2
  | _ => []

/-- Predicate registers that the operand fields of a word name. -/
def Instr.pUses : Instr → List Nat
  | .icmp _ _ _ d _ _ | .fcmp _ _ _ _ d _ _ | .fclass _ _ _ d _ => [d.toNat]
  | .isel _ _ _ _ _ c | .fsel _ _ _ _ _ c | .kvx _ _ _ _ _ c => [c.toNat]
  | .vote _ k _ d a _ => (if k.toPred then [d.toNat] else []) ++ [a.toNat]
  | .pand _ _ _ d a b | .por _ _ _ d a b | .pxor _ _ _ d a b => [d.toNat, a.toNat, b.toNat]
  | .pnot _ d a | .pmov _ d a => [d.toNat, a.toNat]
  | .psetm _ _ d _ => [d.toNat]
  | .mfromp _ _ _ a => [a.toNat]
  | _ => []

/-- Everything a word names under the bounds of R62, its guard among it. -/
def Instr.uses (i : Instr) : Uses where
  v := i.vUses
  p := i.pUses ++ (match i.hd? with | some h => [h.g.gp.toNat] | none => [])
  k := match i with
    | .ldg _ _ _ _ k _ | .stg _ _ _ _ k _ => [k.toNat, k.toNat + 1]
    | _ => []
  a := match i with
    | .mma _ _ _ _ t _ _ _ | .acczero _ t | .accld _ _ _ t _ | .accst _ _ _ t _ | .accchk _ _ t => [t.toNat]
    | _ => []

/-- Destination registers of a tag result, in the order of the result (R56). -/
def Instr.dests : Instr → List Nat
  | .frcp _ _ _ d _ | .frsq _ _ d _ | .fsqrt _ _ _ d _ | .fexp2 _ _ d _ | .flog2 _ _ d _
  | .fsinp _ _ d _ | .fcosp _ _ d _ => [d.toNat]
  | .dadd _ _ d _ _ | .dmul _ _ d _ _ | .dfma _ _ d _ _ _ => regGroup d 2
  | .qcvt _ _ _ _ _ d _ _ | .dqcvt _ _ _ _ _ d _ _ => [d.toNat]
  | .ldmx _ _ _ d _ _ => regGroup d 2
  | .accchk _ d _ => [d.toNat]
  | .ld _ sz _ d _ _ => regGroup d (sz.regs)
  | .ldg _ sz _ d _ _ => regGroup d (sz.regs)
  | .salloc _ _ _ d _ _ => regGroup d 2
  | .tcopy _ _ d _ _ | .tcopyq _ _ d _ _ | .tmcast _ _ d _ _ => [d.toNat]
  | .atomAdd _ ty _ d _ _ | .atomSub _ ty _ d _ _ | .atomMin _ ty _ d _ _ | .atomMax _ ty _ d _ _
  | .atomAnd _ ty _ d _ _ | .atomOr _ ty _ d _ _ | .atomXor _ ty _ d _ _ | .atomExch _ ty _ d _ _
  | .atomCas _ ty _ d _ _ => regsIf ty.wide d
  | .qpop _ d _ => [d.toNat]
  | .fpop _ d _ => regGroup d 4
  | .glaunch _ d _ | .gwait _ d _ => [d.toNat]
  | .pgprobe _ d _ => regGroup d 4
  | .kvx _ _ d _ _ _ => regGroup d 2
  | .barArrive _ _ _ d _ _ | .barTry _ _ d _ _ => [d.toNat]
  | .rdclk _ us d => regsIf (!us) d
  | .rdperf _ d _ => regGroup d 2
  | .csrr _ d n => regsIf (n == 0x40#10) d
  | .sread _ d _ => regGroup d 2
  | _ => []

/-- The predicate that a tag result writes: kvx alone (R360). -/
def Instr.predDest : Instr → Option Nat
  | .kvx _ _ _ _ _ c => some c.toNat
  | _ => none

/-- R91: the words reserved to system privilege. -/
def Instr.system : Instr → Bool
  | .tlbinv .. | .winctl .. | .gatectl .. | .sread .. | .eret .. | .halt .. => true
  | _ => false

/-- R36, R90: the cohort-collective words. -/
def Instr.collective : Instr → Bool
  | .shfl .. | .shflI .. | .vote .. | .cred .. | .mma .. | .mjoin .. | .mleave .. | .mwait .. => true
  | _ => false

/-- The mask register of a collective that names one (R122, R135). -/
def Instr.maskReg : Instr → Option MReg
  | .shfl _ _ _ _ _ m | .shflI _ _ _ m _ _ | .vote _ _ _ _ _ m | .cred _ _ _ _ m | .mwait _ m => some m
  | _ => none

/-- R310: the opcodes of an access slice. -/
def Instr.accessOpcode (i : Instr) : Bool :=
  match i with
  | .pairedWord _ h0 h1 => h0.sop.integer && h1.sop.integer
  | .movi .. => true
  | .shflI .. => false
  | .pand .. | .por .. | .pxor .. | .pnot .. | .pmov .. => true
  | .bra .. | .exit .. | .yield .. | .nop .. => true
  | .ld .. | .ldg .. | .prefetch .. | .tcopy .. | .tcopyq .. | .tmcast .. | .barArrive .. | .barExpect ..
  | .qpush .. => true
  | i => match i.fields? with
    | some f => f.op.toNat ≤ 0x1C || f.op.toNat = 0x20 || (0x40 ≤ f.op.toNat && f.op.toNat < 0x5D)
    | none => false

/-- R309: an access slice has v0 to v63, p0 to p15 and t0 to t3. -/
def Instr.accessFields (i : Instr) : Bool :=
  i.uses.v.all (· < 64) && i.uses.p.all (fun p => p < 16 || p == 63) &&
  match i.ctl? with
  | some c => (c.ta.toNat < 4 || c.ta == 15#4) && c.wm.toNat < 16
  | none => true

/-- R260: the words that can leave a lane unfinished, which issue only with a free log entry. -/
def Instr.needsLog : Instr → Bool
  | .ld .. | .st .. | .ldg .. | .stg .. | .sfree .. | .srenew .. | .poison .. | .ldmx .. | .stmx ..
  | .accld .. | .accst .. | .wpost .. | .msend .. | .glaunch .. | .fpush .. | .fpop .. | .kvx ..
  | .sread .. | .eret .. | .gatectl .. | .winctl .. | .barInit .. | .barArrive .. | .barExpect ..
  | .barWait .. | .barTry .. | .barInval .. | .semSig .. | .semWait .. => true
  | .atomAdd .. | .atomSub .. | .atomMin .. | .atomMax .. | .atomAnd .. | .atomOr .. | .atomXor ..
  | .atomExch .. | .atomCas .. | .redAdd .. | .redSub .. | .redMin .. | .redMax .. | .redAnd ..
  | .redOr .. | .redXor .. => true
  | _ => false

/-- The words that access memory, which wait behind an unaccepted copy command, a held acquire or a
fence (R232, R266, R277). -/
def Instr.memory (i : Instr) : Bool :=
  match i.pipe.1 with
  | .m => true
  | _ => match i with
    | .accld .. | .accst .. | .mma .. | .call .. | .callx .. | .ret .. => true
    | _ => false

/-- The tag a word names. -/
def Instr.tag? (i : Instr) : Option Nat :=
  match i.ctl? with
  | some c => if c.ta.toNat < 12 then some c.ta.toNat else none
  | none => none

/-- Whether a word is an acquire, a release or both, by its MQ, or a fence (R227 to R229). -/
def Instr.mq? : Instr → Option Mq
  | .ldmx _ _ q _ _ _ | .stmx _ _ q _ _ _ => some q
  | .accld _ _ q _ _ | .accst _ _ q _ _ => some q
  | .ld _ _ q _ _ _ | .st _ _ q _ _ _ | .ldg _ _ q _ _ _ | .stg _ _ q _ _ _ => some q
  | .fence _ q => some q
  | .atomAdd _ _ q _ _ _ | .atomSub _ _ q _ _ _ | .atomMin _ _ q _ _ _ | .atomMax _ _ q _ _ _
  | .atomAnd _ _ q _ _ _ | .atomOr _ _ q _ _ _ | .atomXor _ _ q _ _ _ | .atomExch _ _ q _ _ _
  | .atomCas _ _ q _ _ _ => some q
  | .redAdd _ _ q _ _ | .redSub _ _ q _ _ | .redMin _ _ q _ _ | .redMax _ _ q _ _ | .redAnd _ _ q _ _
  | .redOr _ _ q _ _ | .redXor _ _ q _ _ => some q
  | _ => none

/-- Cycles from issue before which a word's result does not arrive, whatever the state (R108). -/
def Instr.leastLatency : Instr → Nat
  | .csrr .. => 2
  | _ => 0

/-- The word ends its thread (R133). -/
def Instr.leaves : Instr → Bool
  | .exit _ => true
  | _ => false

/-- A relaxed access whose performance may follow its issue (R224, R239): one that waits on no granule. -/
def Instr.flies : Instr → Bool
  | .ld _ _ q _ _ _ | .ldg _ _ q _ _ _ => q.order == .relaxed && q.fe == .none
  | .st _ _ q _ _ _ | .stg _ _ q _ _ _ | .ldmx _ _ q _ _ _ | .stmx _ _ q _ _ _ => q.order == .relaxed
  | .atomAdd _ _ q _ _ _ | .atomSub _ _ q _ _ _ | .atomMin _ _ q _ _ _ | .atomMax _ _ q _ _ _
  | .atomAnd _ _ q _ _ _ | .atomOr _ _ q _ _ _ | .atomXor _ _ q _ _ _ | .atomExch _ _ q _ _ _
  | .atomCas _ _ q _ _ _ => q.order == .relaxed
  | .redAdd .. | .redSub .. | .redMin .. | .redMax .. | .redAnd .. | .redOr .. | .redXor .. => true
  | .accld _ _ q _ _ | .accst _ _ q _ _ => q.order == .relaxed
  | _ => false

/-- The word acquires. -/
def Instr.acquires (i : Instr) : Bool :=
  match i.mq? with
  | some q => q.order == .acquire || q.order == .acqrel
  | none => false

/-- The word releases (R227); messages, launches and the words of R238, R382 release as well. -/
def Instr.releases (i : Instr) : Bool :=
  match i.mq? with
  | some q => q.order == .release || q.order == .acqrel
  | none => match i with
    | .msend .. | .wpost .. | .glaunch .. | .barArrive .. | .semSig .. | .fpush .. | .tlbinv .. | .tcopy .. | .tcopyq ..
    | .tmcast .. | .winpub .. => true
    | _ => false

/-- The value of a special for a thread (R100). -/
def Special.value (sp : Special) (t : Tid) (tm : Machine.Team) : Word :=
  let tid := t.cohort * 32 + t.lane
  match sp with
  | .tid => BitVec.ofNat 32 tid
  | .laneid => BitVec.ofNat 32 (tid % 32)
  | .cohort => BitVec.ofNat 32 (tid / 32)
  | .team => BitVec.ofNat 32 tm.index
  | .grid => BitVec.ofNat 32 tm.grid
  | .core => BitVec.ofNat 32 t.core
  | .cluster => BitVec.ofNat 32 (t.core / 4)
  | .quad => BitVec.ofNat 32 (t.core / 16)
  | .depth => BitVec.ofNat 32 tm.depth
  | .vf => BitVec.ofNat 32 tm.vf

end Sys2Proof
end

