-- ==== Sys2Proof/Machine/Ops.lean ====
section
/-! DEFINITION. The named operations over the state that every word and every event is written with:
where a unit's state is found, reading and writing registers, completion tags, fault records and taking
an event (spec/02_execution_model.md, spec/03_encoding.md R53 to R76, spec/13_fault_queues.md R316 to
R324). -/

namespace Sys2Proof.Machine

/-- This device's UALink number (R193). (DESIGN CHOICE, log 143.) -/
def ownDevice : Nat := Config.device % 1024

/-- What a meaning answers. -/
abbrev Out := Host.Outcome State Fault Refusal

/-! ### Keys -/

/-- Key of a team's slot. -/
def teamKey (core slot : Nat) : Nat := core * 8 + slot

/-- Key of a cohort. -/
def cohortKey (core slot : Nat) (access : Bool) (cohort : Nat) : Nat :=
  ((core * 8 + slot) * 2 + (if access then 1 else 0)) * 32 + cohort

/-- Key of a thread. -/
def tidKey (t : Tid) : Nat := cohortKey t.core t.slot t.access t.cohort * 32 + t.lane

/-- The thread a key stands for. -/
def tidOfKey (k : Nat) : Tid where
  lane := k % 32
  cohort := k / 32 % 32
  access := k / 1024 % 2 == 1
  slot := k / 2048 % 8
  core := k / 16384

/-- One bit of a lane mask. -/
def laneBit (l : Nat) : LaneMask := (1#32) <<< l

/-- The lanes of a mask, rising. -/
def lanesOf (m : LaneMask) : List Nat := (List.range 32).filter fun l => m.getLsbD l

/-- The mask of a list of lanes. -/
def maskOf (ls : List Nat) : LaneMask := ls.foldl (fun m l => m ||| laneBit l) 0

/-! ### Where state is found -/

def State.thread? (s : State) (t : Tid) : Option Thread := FMap.find? s.threads (tidKey t)

def State.setThread (s : State) (t : Tid) (x : Thread) : State :=
  { s with threads := FMap.put s.threads (tidKey t) x }

def State.modThread (s : State) (t : Tid) (f : Thread → Thread) : State :=
  { s with threads := FMap.mod s.threads (tidKey t) f }

/-- Apply a change to each listed thread. -/
def State.modThreads (s : State) (ts : List Tid) (f : Tid → Thread → Thread) : State :=
  ts.foldl (fun s t => s.modThread t (f t)) s

def State.team? (s : State) (core slot : Nat) : Option Team := FMap.find? s.teams (teamKey core slot)

def State.modTeam (s : State) (core slot : Nat) (f : Team → Team) : State :=
  { s with teams := FMap.mod s.teams (teamKey core slot) f }

def State.cohort? (s : State) (core slot : Nat) (access : Bool) (c : Nat) : Option Cohort :=
  FMap.find? s.cohorts (cohortKey core slot access c)

def State.modCohort (s : State) (core slot : Nat) (access : Bool) (c : Nat) (f : Cohort → Cohort) : State :=
  { s with cohorts := FMap.mod s.cohorts (cohortKey core slot access c) f }

def State.core (s : State) (n : Nat) : Core := FMap.getD s.cores n Core.reset

def State.modCore (s : State) (n : Nat) (f : Core → Core) : State :=
  { s with cores := FMap.put s.cores n (f (s.core n)) }

def State.sector (s : State) (core sec : Nat) : Sector := FMap.getD s.sectors (core * 4 + sec) Sector.reset

def State.modSector (s : State) (core sec : Nat) (f : Sector → Sector) : State :=
  { s with sectors := FMap.put s.sectors (core * 4 + sec) (f (s.sector core sec)) }

def State.cluster (s : State) (c : Nat) : Cluster := FMap.getD s.clusters c Cluster.reset

def State.modCluster (s : State) (c : Nat) (f : Cluster → Cluster) : State :=
  { s with clusters := FMap.put s.clusters c (f (s.cluster c)) }

def State.partition (s : State) (p : Nat) : Partition := FMap.getD s.partitions p Partition.reset

def State.modPartition (s : State) (p : Nat) (f : Partition → Partition) : State :=
  { s with partitions := FMap.put s.partitions p (f (s.partition p)) }

def State.vf (s : State) (v : Nat) : Vf := FMap.getD s.vfs v Vf.reset

def State.modVf (s : State) (v : Nat) (f : Vf → Vf) : State :=
  { s with vfs := FMap.put s.vfs v (f (s.vf v)) }

def State.hub (s : State) (h : Nat) : Hub := FMap.getD s.hubs h Hub.reset

def State.modHub (s : State) (h : Nat) (f : Hub → Hub) : State :=
  { s with hubs := FMap.put s.hubs h (f (s.hub h)) }

def State.modPkg (s : State) (f : Package → Package) : State := { s with pkg := f s.pkg }

/-- The core's current sector cycle. -/
def State.cycle (s : State) (core : Nat) : Nat := (s.core core).cycle

/-- CLK (R107). -/
def State.clk (s : State) : DWord := BitVec.ofNat 64 s.pkg.clk

/-- Whole microseconds of CLK; the retention clock is this modulo 65,536 (R200). -/
def State.us (s : State) : Nat := s.pkg.clk / 1000

/-- Append an act that comes about later. (DESIGN CHOICE, log 3.) -/
def State.emit (s : State) (e : Instr) : State := { s with pending := s.pending ++ [e] }

/-- Remove the first occurrence of an act that has come about. -/
def State.taken (s : State) (e : Instr) : State := { s with pending := s.pending.erase e }

/-- Draw a free value: the number it is drawn under, and the state that has drawn it. (DESIGN CHOICE, log 1.) -/
def State.draw (s : State) : Nat × State := (s.draws, { s with draws := s.draws + 1 })

/-- The threads of the gang, in member order. -/
def Gang.tids (g : Gang) : List Tid := g.members.map fun m => ⟨g.core, g.slot, g.access, m.1, m.2⟩

/-- The cohorts of the gang, each once. -/
def Gang.cohorts (g : Gang) : List Nat := (g.members.map Prod.fst).eraseDups

/-- The lanes of one cohort in the gang. -/
def Gang.lanes (g : Gang) (c : Nat) : LaneMask := maskOf ((g.members.filter (·.1 == c)).map Prod.snd)

/-- The team that issues. -/
def State.gangTeam (s : State) : Option Team := s.team? s.gang.core s.gang.slot

/-- The sector of a cohort (R29). -/
def sectorOf (cohort base : Nat) : Nat := (cohort + base) % 4

/-- The sector of the gang's first cohort. -/
def State.sectorOfGang (s : State) : Nat :=
  match s.gangTeam, s.gang.members with
  | some t, m :: _ => sectorOf m.1 t.baseSector
  | _, _ => 0

/-! ### Code addresses (R71) -/

/-- Number of words of the code space. (DEDUCED, log 28.) -/
def wordLimit : Nat := 6 * 2 ^ 50

/-- The code address of a word number. -/
def codeAddress (w : Nat) : DWord := BitVec.ofNat 64 (w / 6 * 64 + w % 6)

/-- The code address of a target that may lie outside the space (R317): floor division, modulo 2^64. -/
def codeAddressInt (w : Int) : DWord := BitVec.ofInt 64 (w / 6 * 64 + w % 6)

/-- A code address is misaligned: slot 6 or 7, or a bit in 63:56 or 5:3 (R71). -/
def codeMisaligned (a : DWord) : Bool :=
  a.extractLsb' 0 3 ≥ 6#3 || a.extractLsb' 3 3 != 0#3 || a.extractLsb' 56 8 != 0#8

/-- The word number of an aligned code address. -/
def wordNumber (a : DWord) : Nat := a.toNat / 64 * 6 + a.toNat % 8

/-! ### Registers of a thread -/

/-- Read v`r` (R93). -/
def Thread.rv (t : Thread) (r : Nat) : Word := FMap.getD t.v r 0

/-- Read the pair v`r`, v`r+1` (R93): the low half in the even register. -/
def Thread.rv64 (t : Thread) (r : Nat) : DWord := t.rv (r + 1) ++ t.rv r

/-- Write v`r`. -/
def Thread.wv (t : Thread) (r : Nat) (x : Word) : Thread := { t with v := FMap.set t.v r x 0 }

/-- Read p`q`: p63 reads true (R94). -/
def Thread.rp (t : Thread) (q : Nat) : Bool := if q = 63 then true else FMap.getD t.p q false

/-- Write p`q`; p63 is never written (R62, R94). -/
def Thread.wp (t : Thread) (q : Nat) (b : Bool) : Thread :=
  if q = 63 then t else { t with p := FMap.set t.p q b false }

/-- Write several v registers in order. -/
def Thread.wvs (t : Thread) (ws : List (Nat × Word)) : Thread := ws.foldl (fun t w => t.wv w.1 w.2) t

/-- Write several predicates in order. -/
def Thread.wps (t : Thread) (ws : List (Nat × Bool)) : Thread := ws.foldl (fun t w => t.wp w.1 w.2) t

/-- Flags join FSTAT (R102) and are remembered for a csrw in the same cycle (R110). -/
def Thread.raise (t : Thread) (f : BitVec 6) : Thread :=
  { t with fstat := t.fstat ||| f, fresh := t.fresh ||| f }

/-- The two halves of a 64-bit value, as registers from `r` on. -/
def pairWrite (r : Nat) (x : DWord) : List (Nat × Word) :=
  [(r, x.extractLsb' 0 32), (r + 1, x.extractLsb' 32 32)]

/-- The guard's value for a thread (R61). -/
def Thread.guard (t : Thread) (g : Guard) : Bool := t.rp g.gp.toNat != g.neg

/-- The guard of a word; paired words and movi have none (R64, R68). -/
def Thread.guardOf (t : Thread) (i : Instr) : Bool :=
  match i.hd? with
  | some h => t.guard h.g
  | none => true

/-- Fixed-latency results due by cycle `now` become visible (R55, R102), in issue order. -/
def Thread.settle (t : Thread) (now : Nat) : Thread :=
  let due := t.pend.filter (·.due ≤ now)
  let t := { t with pend := t.pend.filter (fun w => !(w.due ≤ now)), fresh := 0 }
  due.foldl (fun t w => ((t.wvs w.vs).wps w.ps).raise w.flags) t

/-! ### Lane masks of a cohort -/

/-- Read m`r`. -/
def Cohort.rm (c : Cohort) (r : Nat) : Word := FMap.getD c.m r 0

/-- A lane-mask write becomes visible: only its own lanes' bits change (R137). -/
def Cohort.applyMask (c : Cohort) (w : MaskWrite) : Cohort :=
  { c with m := FMap.set c.m w.reg ((c.rm w.reg &&& ~~~w.lanes) ||| (w.bits &&& w.lanes)) 0 }

/-- Lane-mask results due by `now` become visible, in issue order. -/
def Cohort.settle (c : Cohort) (now : Nat) : Cohort :=
  let due := c.pendM.filter (·.due ≤ now)
  due.foldl Cohort.applyMask { c with pendM := c.pendM.filter fun w => !(w.due ≤ now) }

/-- Urgency rises by 1 and saturates (R31). -/
def Cohort.urge (c : Cohort) : Cohort := { c with urgency := min (c.urgency + 1) 0xFFFF, logAge := c.logAge + 1 }

/-! ### Completion tags -/

/-- The result stands in the buffer since an earlier cycle (R57). -/
def Tag.ready (g : Tag) (now : Nat) : Bool :=
  match g.stage with
  | .arrived c _ => c < now
  | _ => false

/-- Commit of one tag: the buffered value is written, flags join FSTAT, the tag is free (R57, R102). -/
def Thread.commit (t : Thread) (n : Nat) : Thread :=
  match FMap.find? t.tags n with
  | some g =>
    match g.stage with
    | .arrived _ r =>
      let t := { t with tags := FMap.del t.tags n }
      let t := (t.wvs (g.dests.zip r.regs)).raise r.flags
      match g.pdest, r.pred with
      | some q, some b => t.wp q b
      | _, _ => t
    | _ => t
  | none => t

/-- The tags a word commits: those of its WM and the one it allocates anew, ascending (R57). -/
def Ctl.commits (c : Ctl) : List Nat :=
  (List.range 12).filter fun n => c.wm.getLsbD n || c.ta.toNat == n

/-- Every allocated tag the word commits has its result (R57). -/
def Thread.tagsReady (t : Thread) (c : Ctl) (now : Nat) : Bool :=
  (Ctl.commits c).all fun n =>
    match FMap.find? t.tags n with
    | some g => g.ready now
    | none => true

/-- Commit every tag of the word (R57). -/
def Thread.commitAll (t : Thread) (c : Ctl) : Thread := (Ctl.commits c).foldl Thread.commit t

/-- Allocate the word's tag: waiting where the guard is true, complete and empty where it is false
(R59, R61). -/
def Thread.allocate (t : Thread) (i : Instr) (c : Ctl) (now : Nat) (active : Bool) : Thread :=
  if c.ta.toNat < 12 then
    let stage := if active then .waiting else .arrived now ⟨[], 0, none⟩
    { t with tags := FMap.put t.tags c.ta.toNat ⟨i.dests, i.predDest, stage, false, i.opcode, now + i.leastLatency⟩ }
  else t

/-- The result of an allocated tag is known and on its way. -/
def Thread.perform (t : Thread) (n : Nat) (r : Late) : Thread :=
  { t with tags := FMap.mod t.tags n fun g => { g with stage := .performed r } }

/-- The result of a tag arrives no earlier than a cycle. -/
def Thread.delay (t : Thread) (tag : Option Nat) (cycle : Nat) : Thread :=
  match tag with
  | some n => { t with tags := FMap.mod t.tags n fun g => { g with least := cycle } }
  | none => t

/-- RESULT_ARRIVAL: a travelling result reaches the buffer in cycle `now`, once the word's least latency has run
(R57, R108, R167). -/
def Thread.arrive (t : Thread) (n now : Nat) : Thread :=
  { t with tags := FMap.mod t.tags n fun g =>
      match g.stage with
      | .performed r => if g.least ≤ now then { g with stage := .arrived now r } else g
      | _ => g }

/-- The word's result for one thread is known: its tag, if it names one, will receive it. -/
def State.deliver (s : State) (t : Tid) (tag : Option Nat) (r : Late) : State :=
  match tag with
  | some n => (s.modThread t (·.perform n r)).emit (.resultArrival t n)
  | none => s

/-! ### Performance counters (R384) -/

/-- Add `n` to every counter of the core that selects event `ev` and is enabled; 48 bits, wrapping. -/
def State.count (s : State) (core ev n : Nat) : State :=
  let c := s.core core
  let hit := (List.range 8).filter fun k =>
    let w := FMap.getD c.perfSel k 0
    w.getLsbD 31 && (w.extractLsb' 0 16).toNat == ev
  if hit.isEmpty then s
  else s.modCore core fun c =>
    { c with perf := hit.foldl (fun m k => FMap.set m k ((FMap.getD m k 0 + n) % 2 ^ 48) 0) c.perf }

/-! ### Records and events -/

/-- Who handles an event kind (R322). -/
inductive Handler where
  | hukotil | scheduler | host
  deriving DecidableEq, Repr

/-- Handler of a kind; remote and fetch events outside a remote region belong to the host complex and
are marked so by the caller. -/
def handlerOf (kind : Nat) : Handler :=
  match kind with
  | 0x01 | 0x02 | 0x03 | 0x04 | 0x09 | 0x0A | 0x0D | 0x1A | 0x1E | 0x20 | 0x37 | 0x38 => .scheduler
  | 0x10 | 0x12 | 0x13 | 0x30 | 0x31 => .hukotil
  | _ => .host

/-- The kinds that report only (R322). -/
def unparked (kind : Nat) : Bool := 0x30 ≤ kind && kind ≤ 0x38

/-- Little-endian bytes of a number. -/
def bytesLE (n w : Nat) : List Byte := (List.range n).map fun i => BitVec.ofNat 8 (w / 2 ^ (8 * i))

/-- The number that little-endian bytes hold. -/
def natLE : List Byte → Nat
  | [] => 0
  | b :: bs => b.toNat + 256 * natLE bs

/-- The field of bytes `lo` to `lo + n - 1` of a table entry. -/
def fieldLE (bs : List Byte) (lo n : Nat) : Nat := natLE ((bs.drop lo).take n)

/-- A fault record as its 64 bytes (R316). -/
def Record.bytes (r : Record) : List Byte :=
  bytesLE 1 r.kind ++ List.replicate 12 (0#8) ++ bytesLE 1 r.compartment ++ bytesLE 2 r.opcode ++
  bytesLE 1 r.decline ++
  bytesLE 1 ((if r.access then 1 else 0) + (if r.write then 2 else 0) + (if r.wholeCohort then 4 else 0) +
    (if r.coalesced then 8 else 0) + (if r.relaunchable then 16 else 0)) ++
  bytesLE 1 (match r.log with | some n => n % 16 | none => 0x80) ++
  bytesLE 1 (r.cohort % 32 + 32 * r.slot) ++ bytesLE 2 r.core ++ bytesLE 2 r.vf ++ bytesLE 4 r.seq ++
  bytesLE 4 r.team ++ bytesLE 4 r.grid ++ bytesLE 4 r.lanes.toNat ++ bytesLE 8 r.detail.toNat ++
  bytesLE 8 r.address.toNat ++ bytesLE 8 r.time.toNat

/-- A record about a team's cohort, with the fields the team and the moment give. (DEDUCED, log 103.) -/
def State.teamRecord (s : State) (core slot : Nat) (access : Bool) (cohort : Nat) (kind : Nat)
    (lanes : LaneMask) (opcode : Nat) (address detail : DWord) : Record :=
  let t := s.team? core slot
  { time := s.clk, address := address, detail := detail, lanes := lanes
    grid := (t.map (·.grid)).getD 0, team := (t.map (·.index)).getD 0, seq := 0
    vf := (t.map (·.vf)).getD 0, core := core, cohort := cohort, slot := slot, log := none
    access := access, write := false, wholeCohort := false, coalesced := false
    relaunchable := (t.map (·.kern.relaunch)).getD false, decline := 0, opcode := opcode
    compartment := (t.map (·.kern.compartment)).getD 0, kind := kind, host := false }

/-- The kinds whose records no core's team has caused: launch-error, port-error, roster refusal, landing-error and
bank-refused. -/
def coreless (kind : Nat) : Bool := (0x32 ≤ kind && kind ≤ 0x35) || kind == 0x38

/-- Append a record to a partition's fault record queue under the next Seq (R316, R318). Where threads
park, or an engine's command waits, it becomes a standing event. The Seq comes back with the state.
(DEDUCED, log 99.) -/
def State.report (s : State) (p : Nat) (r : Record) : Nat × State :=
  let part := s.partition p
  let r := { r with seq := part.seq.toNat, host := r.host || handlerOf r.kind == .host }
  let s := s.modPartition p fun part =>
    { part with
      queue := part.queue ++ [r]
      seq := part.seq + 1
      standing := if unparked r.kind && r.kind != 0x31 then part.standing
        else FMap.put part.standing r.seq ⟨r, r.lanes, none, r.host, false⟩ }
  (r.seq, if coreless r.kind then s else s.count r.core 0x0017 1)

/-- A thread parks precisely under an event (R46, R321). -/
def Thread.park (t : Thread) (seq : Nat) : Thread :=
  { t with parked := true, since := none, overdue := false, events := t.events ++ [seq] }

/-- The opcodes of call and callx, whose stack access is a store (R132, R316). -/
def pushes (opcode : Nat) : Bool := opcode == 0x092 || opcode == 0x093

/-- TAKING A PRECISE EVENT: one record for the cohort's lanes, which park (R76, R321, R322). The lanes'
threads have been put back as they were before the word by the caller where the word has no effect. -/
def State.takeEvent (s : State) (core slot : Nat) (access : Bool) (cohort : Nat) (lanes : LaneMask)
    (kind opcode : Nat) (address detail : DWord) (host : Bool) : State :=
  let p := ((s.team? core slot).map (·.partition)).getD 0
  let r := { s.teamRecord core slot access cohort kind lanes opcode address detail with
             host := host
             write := pushes opcode && 0x10 ≤ kind
             wholeCohort := kind == 0x0A || kind == 0x1F || opcode == 0x200 || (opcode == 0x203 && 0x1A ≤ kind) }
  let (seq, s) := s.report p r
  s.modThreads ((lanesOf lanes).map fun l => ⟨core, slot, access, cohort, l⟩) fun _ t => t.park seq

/-- An event that its kind gives a handler (R322). -/
def State.takePrecise (s : State) (core slot : Nat) (access : Bool) (cohort : Nat) (lanes : LaneMask)
    (kind opcode : Nat) (address detail : DWord) : State :=
  s.takeEvent core slot access cohort lanes kind opcode address detail false

/-- Every thread of the gang parks at the word, which has no effect: one record a cohort (R76). -/
def State.gangPrecise (s : State) (kind opcode : Nat) (address detail : DWord) : State :=
  s.gang.cohorts.foldl
    (fun s' c => s'.takePrecise s.gang.core s.gang.slot s.gang.access c (s.gang.lanes c) kind opcode
      address detail) s

/-- RETURN FROM AN EVENT: the event no longer stands against the thread; with no other it is ready at
its saved PC (R45, R323, R324). -/
def Thread.unpark (t : Thread) (seq : Nat) : Thread :=
  let ev := t.events.filter (· != seq)
  { t with events := ev, parked := if ev.isEmpty then false else t.parked }

/-! ### The checks before a word acts (R76) -/

/-- A register, predicate, argument or tile beyond the kernel's declarations (R62). -/
def Kernel.beyond (k : Kernel) (i : Instr) : Bool :=
  let u := i.uses
  u.v.any (k.regs ≤ ·) || u.p.any (fun p => k.preds ≤ p && p != 63) || u.k.any (k.args ≤ ·) ||
  u.a.any fun a => !k.tiles.getLsbD a

/-- The word may not stand in the slice that runs it (R309, R310), or needs the other slice (R310). -/
def sliceIllegal (i : Instr) (access hasAccess : Bool) : Bool :=
  if access then !(i.accessOpcode && i.accessFields)
  else match i with
    | .qpush .. => true
    | .qpop .. => !hasAccess
    | _ => false

/-- The first decode fault of a word: illegal-instruction, privilege, register-bound (R76). (DEDUCED, log 29.) -/
def Team.decodeEvent (t : Team) (i : Instr) (access : Bool) : Option Nat :=
  if (wfError i).isSome then some 0x01
  else if sliceIllegal i access (t.kern.accessEntry != 0) then some 0x01
  else if i.system && !t.kern.system then some 0x02
  else if t.kern.beyond i then some 0x03
  else none

/-! ### Addresses of ordinary accesses -/

/-- The address of ld and st (R262). -/
def scaled (base : DWord) (off : BitVec 10) (size : Nat) : DWord := base + off.signExtend 64 * BitVec.ofNat 64 size

/-- The address of ldg and stg (R262). -/
def indexed (base : DWord) (i : Word) (size : Nat) : DWord := base + i.signExtend 64 * BitVec.ofNat 64 size

/-- Read the pair k`r`, k`r+1` of a team (R97). -/
def Team.rk64 (tm : Team) (r : Nat) : DWord := FMap.getD tm.k (r + 1) 0 ++ FMap.getD tm.k r 0

/-- Bytes of a type. -/
def atomBytes (ty : AtomTy) : Nat := if ty.wide then 8 else 4

/-- Bytes of one row of an accumulator tile in memory (R187). -/
def accBytes (fmt : AccFmt) : Nat := if fmt == .f32 then 128 else 64

/-- The private-window address at an offset of the private window (R191). -/
def privateWindow (o : Nat) : DWord := BitVec.ofNat 64 (0x0180000000000000 + o)

/-- Bytes of a lane's access of an load, store, atomic, reduction or tile transfer (R187, R262, R264). -/
def accessBytes : Instr → Nat
  | .ld _ sz _ _ _ _ | .st _ sz _ _ _ _ | .ldg _ sz _ _ _ _ | .stg _ sz _ _ _ _ => sz.bytes
  | .atomAdd _ ty _ _ _ _ | .atomSub _ ty _ _ _ _ | .atomMin _ ty _ _ _ _ | .atomMax _ ty _ _ _ _
  | .atomAnd _ ty _ _ _ _ | .atomOr _ ty _ _ _ _ | .atomXor _ ty _ _ _ _ | .atomExch _ ty _ _ _ _
  | .atomCas _ ty _ _ _ _ => atomBytes ty
  | .redAdd _ ty _ _ _ | .redSub _ ty _ _ _ | .redMin _ ty _ _ _ | .redMax _ ty _ _ _ | .redAnd _ ty _ _ _
  | .redOr _ ty _ _ _ | .redXor _ ty _ _ _ => atomBytes ty
  | .accld _ fmt _ _ _ | .accst _ fmt _ _ _ => accBytes fmt
  | .call .. | .callx .. | .ret .. => 8
  | _ => 0

/-- The address of a lane's access of an load, store, atomic, reduction or tile transfer, or of the call
stack (R132, R187, R262, R264). -/
def accessAddress (i : Instr) (tm : Team) (x : Thread) : DWord :=
  match i with
  | .ld _ sz _ _ a off | .st _ sz _ _ a off => scaled (x.rv64 a.toNat) off sz.bytes
  | .ldg _ sz _ _ k b | .stg _ sz _ _ k b => indexed (tm.rk64 k.toNat) (x.rv b.toNat) sz.bytes
  | .atomAdd _ _ _ _ a _ | .atomSub _ _ _ _ a _ | .atomMin _ _ _ _ a _ | .atomMax _ _ _ _ a _
  | .atomAnd _ _ _ _ a _ | .atomOr _ _ _ _ a _ | .atomXor _ _ _ _ a _ | .atomExch _ _ _ _ a _
  | .atomCas _ _ _ _ a _ => x.rv64 a.toNat
  | .redAdd _ _ _ a _ | .redSub _ _ _ a _ | .redMin _ _ _ a _ | .redMax _ _ _ a _ | .redAnd _ _ _ a _
  | .redOr _ _ _ a _ | .redXor _ _ _ a _ => x.rv64 a.toNat
  | .accld _ _ _ _ a | .accst _ _ _ _ a => x.rv64 a.toNat
  | .call .. | .callx .. => privateWindow (x.sp - 8)
  | _ => privateWindow x.sp

/-- Two byte ranges overlap. -/
def overlaps (a n b m : Nat) : Bool := a < b + m && b < a + n

/-! ### Regions (R191, R194) -/

/-- Where a data address lies. -/
inductive Region where
  | translated (va : Nat)
  /-- Cluster memory: the cluster, the byte, and whether it was named through the quad window. -/
  | scratch (cluster off : Nat) (quad : Bool)
  | bad
  deriving DecidableEq, Repr

/-- The private byte at offset `o` of thread `i` (R194). -/
def privateVa (privBase b i o : Nat) : Nat := privBase + (b * 1024 + i) * 65536 + o

/-- The cluster scratch window of a core's cluster, the quad window of its quad, the private window of
one thread, and the translated half (R191). -/
def regionOf (core : Nat) (priv : Nat → Nat) (a : DWord) : Region :=
  let x := a.toNat
  if x < 2 ^ 56 then .translated x
  else if 0x0100000000000000 ≤ x ∧ x < 0x0100000000800000 then
    .scratch (core / 4) (x - 0x0100000000000000) false
  else if 0x0100000001000000 ≤ x ∧ x < 0x0100000003000000 then
    let o := x - 0x0100000001000000
    .scratch (core / 16 * 4 + o / 2 ^ 23) (o % 2 ^ 23) true
  else if 0x0180000000000000 ≤ x ∧ x < 0x0180000000010000 then .translated (priv (x - 0x0180000000000000))
  else .bad

/-- The region of an address for a thread of a team. -/
def State.region (s : State) (t : Tid) (a : DWord) : Region :=
  match s.team? t.core t.slot with
  | some tm => regionOf t.core (privateVa (s.vf tm.vf).privBase tm.privBlock (t.cohort * 32 + t.lane)) a
  | none => .bad

/-! ### Leaves and the TLB (R344, R348) -/

/-- Bits `lo` to `lo + n - 1` of an entry. -/
def bitsOf (e lo n : Nat) : Nat := e / 2 ^ lo % 2 ^ n

/-- Fields of a leaf (R344). -/
def leafPayload (e : Nat) : Nat := bitsOf e 64 64
def leafComp (e : Nat) : Nat := bitsOf e 14 2
def leafPin (e : Nat) : Bool := bitsOf e 13 1 == 1
def leafDirty (e : Nat) : Bool := bitsOf e 12 1 == 1
def leafLarge (e : Nat) : Bool := bitsOf e 11 1 == 1
def leafX (e : Nat) : Bool := bitsOf e 10 1 == 1
def leafW (e : Nat) : Bool := bitsOf e 9 1 == 1
def leafR (e : Nat) : Bool := bitsOf e 8 1 == 1
def leafKind (e : Nat) : Nat := bitsOf e 5 3

/-- The entry serves a virtual address of a VF. -/
def TlbEntry.hits (e : TlbEntry) (vf va : Nat) : Bool :=
  e.vf == vf && (if e.large then e.page / 32 == va / 2 ^ 21 else e.page == va / 65536)

/-- The leaf for one page of a large entry: its own frame of the run. -/
def TlbEntry.leafFor (e : TlbEntry) (va : Nat) : Nat :=
  if e.large then e.leaf + va / 65536 % 32 * 65536 * 2 ^ 64 - e.page % 32 * 65536 * 2 ^ 64 else e.leaf

/-! ### Whether two accesses may meet (R223, R224) -/

/-- Where an address stands, as far as no walk is needed to tell. -/
inductive Spot where
  | scratch (cluster off : Nat)
  | frame (phys : Nat)
  /-- The page is not in the core's data TLB, or is reached through a window or a gate; its offset. -/
  | page (off : Nat)
  deriving DecidableEq, Repr

/-- The place of an address for a thread. -/
def State.spot (s : State) (t : Tid) (a : DWord) : Spot :=
  match s.region t a with
  | .scratch cl o _ => .scratch cl o
  | .translated va =>
    match (s.core t.core).dtlb.find? (·.hits (((s.team? t.core t.slot).map (·.vf)).getD 0) va) with
    | some e =>
      match leafKind (e.leafFor va) with
      | 0 | 3 => .frame (leafPayload (e.leafFor va) + va % 65536)
      | 1 => .frame (2 ^ 62 + leafPayload (e.leafFor va) + va % 65536)
      | _ => .page (va % 65536)
    | none => .page (va % 65536)
  | .bad => .page (a.toNat % 65536)

/-- Bytes of two places may be the same: where one page is not known, those at equal offsets. -/
def Spot.meets (x : Spot) (n : Nat) (y : Spot) (m : Nat) : Bool :=
  match x, y with
  | .scratch c o, .scratch c' o' => c == c' && overlaps o n o' m
  | .frame p, .frame q => overlaps p n q m
  | .page o, .page o' => overlaps o n o' m
  | .page o, .frame q | .frame q, .page o => overlaps o n (q % 65536) m
  | _, _ => false

/-- The bytes that a lane of a block word, or of one with an address of its own, touches: address and length. -/
def spansAt (i : Instr) (a b : DWord) : List (DWord × Nat) :=
  match i with
  | .ldmx _ fmt _ _ _ _ | .stmx _ fmt _ _ _ _ => (a, fmt.bytes) :: (if fmt == .dxb6 then [] else [(b, 1)])
  | i => if accessBytes i == 0 then [] else [(a, accessBytes i)]

/-- The same from the registers of a thread that stands at the word. -/
def issueSpans (i : Instr) (tm : Team) (x : Thread) : List (DWord × Nat) :=
  match i with
  | .ldmx _ _ _ _ a b | .stmx _ _ _ _ a b => spansAt i (x.rv64 a.toNat) (x.rv64 b.toNat)
  | .mma _ _ _ _ _ _ b _ => [(x.rv64 b.toNat, 1664)]
  | i => spansAt i (accessAddress i tm x) 0

/-- Some bytes of two threads' accesses may be the same. -/
def State.spansMeet (s : State) (t u : Tid) (xs ys : List (DWord × Nat)) : Bool :=
  xs.any fun x => ys.any fun y => (s.spot t x.1).meets x.2 (s.spot u y.1) y.2

/-! ### Who may issue -/

/-- A thread may offer a word at all: it is neither exited, parked nor held (R28, R54). -/
def Thread.offers (t : Thread) (now : Nat) : Bool :=
  !t.exited && !t.exitIssued && !t.parked && !t.pdRun && t.readyAt ≤ now && t.landing.isNone

/-- The thread is held after issue by its own word (R54): a wait of its own that holds it. -/
def State.isHeld (s : State) (t : Tid) : Bool :=
  s.waits.any fun w => w.2.tid == t && w.2.held.isSome

/-- An entry of the thread's cohort log that concerns the lane. -/
def Cohort.logOf (c : Cohort) (lane : Nat) : List LogEntry :=
  (c.log.map Prod.snd).filter fun e => e.unfinished.getLsbD lane

/-- The thread waits at its next memory word: an unresolved acquire or fence of its own, an unaccepted
copy command, or, for a release, any unresolved entry (R232, R277). (DEDUCED, log 88.) -/
def State.memoryHeld (s : State) (t : Tid) (i : Instr) : Bool :=
  i.memory &&
  ((match s.cohort? t.core t.slot t.access t.cohort with
    | some c => (c.logOf t.lane).any fun e => e.instr.acquires || i.releases
    | none => false) ||
   s.waits.any (fun w => w.2.tid == t && (w.2.instr.acquires ||
     (match w.2.cause with | .publish _ => true | _ => false))) ||
   (s.cluster (t.core / 4)).tce.any fun e => e.2.tid == t && !e.2.accepted)

/-- An access of the thread that has issued and has not been performed holds the word back. Every word of memory
waits for one that is to be logged, and so does exit. For a relaxed access on its way a release waits, and every word
of memory that is no ordinary access; an ordinary one waits where both may touch a common byte, under any alias
(R223, R224, R227, R229). (DEDUCED, log 148.) -/
def State.flightHeld (s : State) (t : Tid) (tm : Team) (x : Thread) (i : Instr) : Bool :=
  s.waits.any fun w =>
    w.2.tid == t &&
    match w.2.cause with
    | .logRoom _ => i.memory || i.leaves
    | .flight =>
      let mine := issueSpans i tm x
      if mine.isEmpty || i.releases then i.memory
      else s.spansMeet t t (spansAt w.2.instr w.2.ops.a w.2.ops.b) mine
    | _ => false

/-- An octet of the thread's cohort has not read all of its B tile: words of memory that may touch a byte of it wait,
since the thread reads it in program order (R181, R223). -/
def State.tileHeld (s : State) (t : Tid) (tm : Team) (x : Thread) (i : Instr) : Bool :=
  i.memory && (s.sector t.core (sectorOf t.cohort tm.baseSector)).mau.any fun e =>
    e.slot == t.slot && e.cohorts.contains t.cohort &&
    match e.op with
    | .octet _ _ _ _ _ _ src due =>
      let mine := issueSpans i tm x
      due != 0 && (mine.isEmpty || mine.any fun y =>
        (s.spot t y.1).meets y.2 (.scratch (src / 2 ^ 23) (src % 2 ^ 23)) 1664)
    | _ => false

/-- One thread may issue the word now (R28, R57, R232). -/
def State.threadReady (s : State) (t : Tid) (i : Instr) : Bool :=
  match s.thread? t, i.ctl? with
  | some x, some c =>
    x.offers (s.cycle t.core) && x.tagsReady c (s.cycle t.core) && !s.isHeld t && !s.memoryHeld t i &&
    match s.team? t.core t.slot with
    | some tm => !s.flightHeld t tm (x.commitAll c) i && !s.tileHeld t tm (x.commitAll c) i
    | none => true
  | _, _ => false

/-- The lanes of a cohort that have not exited (R36): named lanes outside are dropped. -/
def State.liveLanes (s : State) (core slot : Nat) (access : Bool) (c : Nat) : LaneMask :=
  maskOf ((List.range 32).filter fun l =>
    match s.thread? ⟨core, slot, access, c, l⟩ with
    | some t => !t.exited
    | none => false)

/-- The lane mask of a collective for cohort `c` (R36, R122, R135, R179), exited lanes dropped: the
named register, for mma every live lane, for mjoin and mleave the gang itself. -/
def State.collectiveMask (s : State) (i : Instr) (c : Nat) : LaneMask :=
  let g := s.gang
  let live := s.liveLanes g.core g.slot g.access c
  match i.maskReg with
  | some m => live &&& ((s.cohort? g.core g.slot g.access c).map (·.rm m.toNat)).getD 0
  | none => match i with
    | .mma .. => live
    | _ => g.lanes c

/-- R36, R122: a collective issues in a gang of one cohort, with every named lane in it, or with none. -/
def State.collectiveOk (s : State) (i : Instr) : Bool :=
  match s.gang.cohorts with
  | [c] =>
    let m := s.collectiveMask i c
    m &&& s.gang.lanes c == 0 || m &&& ~~~s.gang.lanes c == 0
  | _ => false

/-- A free operand-log entry in the cohort (R260). -/
def Cohort.logFree (c : Cohort) : Option Nat := FMap.fresh c.log 0 16

/-- Every cohort of the gang has a free log entry, if the word may need one (R260). -/
def State.logOk (s : State) (i : Instr) : Bool :=
  !i.needsLog || s.gang.cohorts.all fun c =>
    ((s.cohort? s.gang.core s.gang.slot s.gang.access c).bind Cohort.logFree).isSome

/-- No record of a VF finds room: the 4,096 places of its partition's fault record queue are taken, and so are the
1,048,576 of its context save area (R318). -/
def State.recordsFull (s : State) (p vf : Nat) : Bool :=
  1048576 ≤ (((s.partition p).queue.drop 4096).filter (·.vf == vf)).length

/-- A memory word that would write a record for which there is no room waits at issue (R318). -/
def State.recordHeld (s s' : State) (tm : Team) (i : Instr) : Bool :=
  i.memory && s.recordsFull tm.partition tm.vf && (s.partition tm.partition).seq != (s'.partition tm.partition).seq

/-- The X pipe is free for a word that needs it (R167). -/
def State.xOk (s : State) (i : Instr) : Bool :=
  i.pipe.1 != .x || (s.sector s.gang.core s.sectorOfGang).xBusy ≤ s.cycle s.gang.core

/-- The gang may issue the word now: every thread is ready at the gang's PC, and the word's own
conditions hold. (DESIGN CHOICE, log 30.) -/
def State.canIssue (s : State) (i : Instr) : Bool :=
  !s.gang.members.isEmpty &&
  s.gang.tids.all (fun t => s.threadReady t i && ((s.thread? t).map (·.pc)) == some s.gang.pc) &&
  (!i.collective || s.collectiveOk i) && s.logOk i && s.xOk i

/-! ### Issue -/

/-- R54: after issue in cycle `now` the thread is ready again no earlier than `now + 1 + pd`. -/
def Thread.spend (t : Thread) (now pd : Nat) : Thread :=
  { t with pdRun := true, readyAt := now + 1 + pd, since := none, overdue := false }

/-- What the control fields do for a thread of the gang: commits, the next PC, PD, the allocated tag
(R54, R57, R61). -/
def Thread.control (t : Thread) (i : Instr) (c : Ctl) (now : Nat) : Thread :=
  let t := t.commitAll c
  let active := t.guardOf i
  { (t.allocate i c now active).spend now c.pd.toNat with pc := t.pc + 1 }

/-- The threads of the gang whose guard is true, read after the commits (R61). -/
def State.active (s : State) (i : Instr) : List Tid :=
  s.gang.tids.filter fun t => ((s.thread? t).map (·.guardOf i)).getD false

/-- A thread commits the status of a copy command: the cluster-scope acquire of R238 takes effect, which
empties its core's L1 (R226). -/
def Thread.acquiring (t : Thread) (c : Ctl) : Bool :=
  (Ctl.commits c).any fun n => ((FMap.find? t.tags n).map (·.acquire)).getD false

/-- The cache action of the copy statuses that a gang commits. -/
def State.copyAcquire (s : State) (c : Ctl) : State :=
  if s.gang.tids.any fun t => ((s.thread? t).map (·.acquiring c)).getD false then
    s.modCore s.gang.core fun k => { k with l1 := [] }
  else s

/-- The control fields act for the whole gang, and every cohort of it becomes less urgent (R31). -/
def State.control (s : State) (i : Instr) : State :=
  match i.ctl? with
  | none => s
  | some c =>
    let now := s.cycle s.gang.core
    let s1 := (s.copyAcquire c).modThreads s.gang.tids fun _ t => t.control i c now
    let s2 := s.gang.cohorts.foldl
      (fun s' k => s'.modCohort s.gang.core s.gang.slot s.gang.access k Cohort.urge) s1
    (s2.count s.gang.core 0x0002 1).count s.gang.core 0x0003 s.gang.members.length

/-- Sequential flow past the last word raises misaligned-code-address after the word (R71). -/
def State.flowEnd (s : State) (i : Instr) : State :=
  let g := s.gang
  g.cohorts.foldl (fun s' c =>
    let ls := (lanesOf (g.lanes c)).filter fun l =>
      ((s'.thread? ⟨g.core, g.slot, g.access, c, l⟩).map fun t => t.pc == wordLimit && !t.exited) == some true
    if ls.isEmpty then s'
    else s'.takePrecise g.core g.slot g.access c (maskOf ls) 0x05 i.opcode (codeAddress g.pc)
      (codeAddressInt wordLimit)) s

/-- ISSUE of a word by the gang: the decode faults first (R76); where the gang may not issue yet it
waits; otherwise the control fields act and then the word, which is given the state before issue and
the guard-true threads. -/
def State.issue (s : State) (i : Instr) (extra : Bool) (act : State → List Tid → State → State) : State :=
  match s.gangTeam with
  | none => s
  | some t =>
    match t.decodeEvent i s.gang.access with
    | some k => s.gangPrecise k i.opcode 0 0
    | none =>
      if s.canIssue i && extra then
        let s1 := s.control i
        let s2 := (act s (s1.active i) s1).flowEnd i
        if s.recordHeld s2 t i then s else s2
      else s

/-! ### Fixed-latency words -/

/-- What a fixed-latency word gives one thread: registers, predicates, flags. -/
structure Res where
  vs : List (Nat × Word)
  ps : List (Nat × Bool)
  flags : BitVec 6
  deriving DecidableEq, Repr

/-- One register result without flags. -/
def Res.v (d : VReg) (x : Word) : Res := ⟨[(d.toNat, x)], [], 0⟩

/-- One register result with flags. -/
def Res.vf (d : VReg) (x : Word × BitVec 6) : Res := ⟨[(d.toNat, x.1)], [], x.2⟩

/-- A pair. -/
def Res.v64 (d : VReg) (x : DWord) : Res := ⟨pairWrite d.toNat x, [], 0⟩

/-- One predicate. -/
def Res.p (d : PReg) (b : Bool) : Res := ⟨[], [(d.toNat, b)], 0⟩

/-- A fixed-latency result leaves for the register file: visible `lat` cycles after issue (R55). -/
def Thread.produce (t : Thread) (now lat : Nat) (r : Res) : Thread :=
  { t with pend := t.pend ++ [⟨now + lat, r.vs, r.ps, r.flags⟩] }

/-- A FIXED-LATENCY WORD: each guard-true thread reads its operands and produces its result (R55). -/
def State.fixedWord (s : State) (i : Instr) (f : Thread → Res) : State :=
  s.issue i true fun _ act s1 =>
    s1.modThreads act fun t x => x.produce (s.cycle t.core) i.latency (f x)

/-! ### Collectives -/

/-- The gang's threads of one cohort as a collective sees them: by lane, those of the mask. -/
def State.laneThreads (s : State) (c : Nat) (m : LaneMask) : List (Nat × Thread) :=
  (lanesOf m).filterMap fun l =>
    (s.thread? ⟨s.gang.core, s.gang.slot, s.gang.access, c, l⟩).map fun t => (l, t)

/-- A COHORT-COLLECTIVE WORD: every thread of the mask supplies its operands, and each guard-true one
receives a result; threads outside the mask do nothing (R122, R123). -/
def State.collectiveWord (s : State) (i : Instr) (f : LaneMask → List (Nat × Thread) → Nat → Thread → Res) : State :=
  s.issue i true fun s0 act s1 =>
    match s.gang.cohorts with
    | [c] =>
      let m := s0.collectiveMask i c
      if m &&& s.gang.lanes c == 0 then s1
      else
        let all := s1.laneThreads c m
        s1.modThreads (act.filter fun t => m.getLsbD t.lane) fun t x =>
          x.produce (s.cycle t.core) i.latency (f m all t.lane x)
    | _ => s1

/-! ### Variable-latency words of the X pipe -/

/-- AN X-PIPE WORD: the result is computed from the operands read at issue and travels to the tag, which it
reaches after the `occ` cycles for which the word occupies the pipe (R55, R167). -/
def State.xWord (s : State) (i : Instr) (occ : Nat) (f : Thread → List Word × BitVec 6) : State :=
  s.issue i true fun _ act s1 =>
    let now := s.cycle s.gang.core
    let s2 := s1.modSector s.gang.core s.sectorOfGang fun x => { x with xBusy := now + occ }
    let s3 := s2.count s.gang.core 0x0022 occ
    act.foldl (fun s' t =>
      match s1.thread? t with
      | some x => (s'.modThread t (·.delay i.tag? (now + occ))).deliver t i.tag? ⟨(f x).1, (f x).2, none⟩
      | none => s') s3

end Sys2Proof.Machine
end

