-- ==== Sys2Proof/Machine/Flags.lean ====
section
/-! DEFINITION. The sticky floating-point flags of FSTAT (spec/05_registers.md R102) and how flags join
it. -/

namespace Sys2Proof.Machine

/-- FSTAT.Invalid. -/
def flagInvalid : BitVec 6 := 0b000001#6

/-- FSTAT.DivZero. -/
def flagDivZero : BitVec 6 := 0b000010#6

/-- FSTAT.Overflow. -/
def flagOverflow : BitVec 6 := 0b000100#6

/-- FSTAT.Underflow. -/
def flagUnderflow : BitVec 6 := 0b001000#6

/-- FSTAT.Inexact. -/
def flagInexact : BitVec 6 := 0b010000#6

/-- FSTAT.Saturate. -/
def flagSaturate : BitVec 6 := 0b100000#6

/-- A flag where a condition holds. -/
def flagIf (c : Bool) (f : BitVec 6) : BitVec 6 := if c then f else 0

/-- FSTAT as its 32 bits: reserved bits read 0 (R8, R102). -/
def fstatWord (f : BitVec 6) : Word := f.setWidth 32

end Sys2Proof.Machine
end

