-- ==== Sys2Proof/Machine/Num.lean ====
section
/-! DEFINITION. Number formats, exact values, and the one rounding that narrows them
(spec/07_formats.md R138 to R157). -/

namespace Sys2Proof.Machine

/-! ### Formats (R139) -/

/-- A floating-point format: widths of exponent and trailing significand, bias, whether the top exponent
field is given to infinities and NaNs, and whether NaN is the single code of all ones. -/
structure Fmt where
  eb : Nat
  tb : Nat
  bias : Nat
  /-- Infinities and NaNs in the top exponent field. -/
  ieee : Bool
  /-- NaN only where exponent and significand are all ones (.e4m3). -/
  oneNan : Bool
  /-- A NaN with a clear leading significand bit is signalling (R141). -/
  signals : Bool
  deriving DecidableEq, Repr

def fmtF64 : Fmt := ⟨11, 52, 1023, true, false, true⟩
def fmtF32 : Fmt := ⟨8, 23, 127, true, false, true⟩
def fmtF16 : Fmt := ⟨5, 10, 15, true, false, true⟩
def fmtBf16 : Fmt := ⟨8, 7, 127, true, false, true⟩
def fmtE5m2 : Fmt := ⟨5, 2, 15, true, false, false⟩
def fmtE4m3 : Fmt := ⟨4, 3, 7, false, true, false⟩
def fmtE3m2 : Fmt := ⟨3, 2, 3, false, false, false⟩
def fmtE2m3 : Fmt := ⟨2, 3, 1, false, false, false⟩
def fmtE2m1 : Fmt := ⟨2, 1, 1, false, false, false⟩

/-- The format of a floating type code; .f32 for a code that has none. -/
def fmtOf : ElemTy → Fmt
  | .f64 => fmtF64
  | .f16 => fmtF16
  | .bf16 => fmtBf16
  | .e5m2 => fmtE5m2
  | .e4m3 => fmtE4m3
  | .e3m2 => fmtE3m2
  | .e2m3 => fmtE2m3
  | .e2m1 => fmtE2m1
  | _ => fmtF32

/-- emin (R139). -/
def Fmt.emin (f : Fmt) : Int := 1 - (f.bias : Int)

/-- The exponent field of the largest finite numbers. -/
def Fmt.topField (f : Fmt) : Nat := if f.ieee then 2 ^ f.eb - 2 else 2 ^ f.eb - 1

/-- Exponent of the largest finite number. -/
def Fmt.emax (f : Fmt) : Int := (f.topField : Int) - f.bias

/-- Significand of the largest finite number, as an integer of p bits. -/
def Fmt.maxSig (f : Fmt) : Nat := if f.oneNan then 2 ^ (f.tb + 1) - 2 else 2 ^ (f.tb + 1) - 1

/-- The format has NaNs. -/
def Fmt.hasNan (f : Fmt) : Bool := f.ieee || f.oneNan

/-- The sign bit in place. -/
def Fmt.signed (f : Fmt) (neg : Bool) (x : Nat) : Nat := if neg then 2 ^ (f.eb + f.tb) + x else x

/-- The canonical NaN (R139, R141). -/
def Fmt.nan (f : Fmt) : Nat :=
  if f.ieee then (2 ^ f.eb - 1) * 2 ^ f.tb + 2 ^ (f.tb - 1) else if f.oneNan then 2 ^ (f.eb + f.tb) - 1 else 0

/-- An infinity of a format that has them. -/
def Fmt.inf (f : Fmt) (neg : Bool) : Nat := f.signed neg ((2 ^ f.eb - 1) * 2 ^ f.tb)

/-- The largest finite number of a sign. -/
def Fmt.maxFin (f : Fmt) (neg : Bool) : Nat := f.signed neg (f.topField * 2 ^ f.tb + (f.maxSig - 2 ^ f.tb))

/-! ### Exact values -/

/-- A finite value: (−1)^neg × (m + δ) × 2^e, with 0 < δ < 1 where `sticky` and δ = 0 otherwise. A sticky
value carries enough bits in m that no rounding looks below them. -/
structure Exact where
  neg : Bool
  m : Nat
  e : Int
  sticky : Bool
  deriving DecidableEq, Repr

/-- A value of the extended reals, or NaN. -/
inductive Val where
  | nan
  | inf (neg : Bool)
  | fin (x : Exact)
  deriving DecidableEq, Repr

/-- A zero of a sign. -/
def Val.zero (neg : Bool) : Val := .fin ⟨neg, 0, 0, false⟩

/-- An integer's value. -/
def Val.ofInt (n : Int) : Val := .fin ⟨n < 0, n.natAbs, 0, false⟩

/-- ±m × 2^e. -/
def Val.mk (neg : Bool) (m : Nat) (e : Int) : Val := .fin ⟨neg, m, e, false⟩

def Val.isNan : Val → Bool
  | .nan => true
  | _ => false

/-- An exact zero. -/
def Exact.isZero (x : Exact) : Bool := x.m == 0 && !x.sticky

/-- floor(log2 |x|) of a non-zero value. -/
def Exact.log2 (x : Exact) : Int := (Nat.log2 x.m : Int) + x.e

/-- The value that a format gives to bits (R140). -/
def Fmt.decode (f : Fmt) (bits : Nat) : Val :=
  let s := bits / 2 ^ (f.eb + f.tb) % 2 == 1
  let e := bits / 2 ^ f.tb % 2 ^ f.eb
  let t := bits % 2 ^ f.tb
  if f.ieee && e == 2 ^ f.eb - 1 then if t == 0 then .inf s else .nan
  else if f.oneNan && e == 2 ^ f.eb - 1 && t == 2 ^ f.tb - 1 then .nan
  else if e == 0 then .mk s t (f.emin - f.tb)
  else .mk s (2 ^ f.tb + t) ((e : Int) - f.bias - f.tb)

/-- The bits are a signalling NaN (R141). -/
def Fmt.snan (f : Fmt) (bits : Nat) : Bool :=
  f.signals && f.decode bits == .nan && bits / 2 ^ (f.tb - 1) % 2 == 0

/-- The bits are a subnormal number. -/
def Fmt.subnormal (f : Fmt) (bits : Nat) : Bool :=
  bits / 2 ^ f.tb % 2 ^ f.eb == 0 && bits % 2 ^ f.tb != 0

/-- Decode an operand; under .ftz a subnormal reads as a zero of its sign (R146). -/
def Fmt.operand (f : Fmt) (ftz : Bool) (bits : Nat) : Val :=
  if ftz && f.subnormal bits then .zero (bits / 2 ^ (f.eb + f.tb) % 2 == 1) else f.decode bits

/-! ### Rounding (R143 to R145) -/

/-- The mode of a two-bit rounding field. -/
def rnd5 : Rnd → Rnd5
  | .rn => .rn
  | .rz => .rz
  | .rm => .rm
  | .rp => .rp

/-- Whether to go to the neighbour of larger magnitude: `odd` is the last significand bit, `half` compares
the remainder with one half. -/
def roundUp (mode : Rnd5) (neg odd inexact : Bool) (half : Ordering) : Bool :=
  match mode with
  | .rn => half == .gt || (half == .eq && odd)
  | .rna => half != .lt
  | .rz => false
  | .rm => neg && inexact
  | .rp => !neg && inexact

/-- rnd_int(|x| / 2^q, mode) for a value of sign neg, and whether it is inexact (R143). -/
def rndScaled (x : Exact) (q : Int) (mode : Rnd5) : Nat × Bool :=
  if q ≤ x.e then (x.m * 2 ^ (x.e - q).toNat, x.sticky)
  else
    let sh := (q - x.e).toNat
    if Nat.log2 x.m + 2 < sh then
      let inexact := x.m != 0 || x.sticky
      (if roundUp mode x.neg false inexact .lt then 1 else 0, inexact)
    else
      let n := x.m / 2 ^ sh
      let rem := x.m % 2 ^ sh
      let inexact := rem != 0 || x.sticky
      let half := match compare (2 * rem) (2 ^ sh) with
        | .eq => if x.sticky then .gt else .eq
        | o => o
      (if roundUp mode x.neg (n % 2 == 1) inexact half then n + 1 else n, inexact)

/-- overflow_to (R145): the result and its flags. -/
def Fmt.overflow (f : Fmt) (neg : Bool) (mode : Rnd5) (sat : Bool) : Nat × BitVec 6 :=
  if f.ieee && !sat then
    let toInf := match mode with
      | .rn | .rna => true
      | .rz => false
      | .rm => neg
      | .rp => !neg
    (if toInf then f.inf neg else f.maxFin neg, flagOverflow ||| flagInexact)
  else (f.maxFin neg, flagOverflow ||| flagInexact ||| flagSaturate)

/-- inf_to (R145). -/
def Fmt.infinite (f : Fmt) (neg sat : Bool) : Nat × BitVec 6 :=
  if f.ieee && !sat then (f.inf neg, 0) else (f.maxFin neg, flagSaturate ||| flagInexact)

/-- encode(f, n × 2^q) for n of at most p + 1 bits and q at least the weight of the last bit (R157). -/
def Fmt.encode (f : Fmt) (neg : Bool) (n : Nat) (q : Int) : Nat :=
  if n < 2 ^ f.tb then f.signed neg n
  else
    let (n, q) := if n == 2 ^ (f.tb + 1) then (2 ^ f.tb, q + 1) else (n, q)
    f.signed neg ((q + f.tb + f.bias).toNat * 2 ^ f.tb + (n - 2 ^ f.tb))

/-- round_to for a finite non-zero value (R144). -/
def Fmt.round (f : Fmt) (x : Exact) (mode : Rnd5) (ftz sat : Bool) : Nat × BitVec 6 :=
  let e := x.log2
  if f.emax + 1 < e then f.overflow x.neg mode sat
  else
    let q := max e f.emin - f.tb
    let (n, inexact) := rndScaled x q mode
    let (u, _) := rndScaled x (e - f.tb) mode
    let tiny := if u == 2 ^ (f.tb + 1) then e + 1 < f.emin else e < f.emin
    let flags := flagIf inexact flagInexact ||| flagIf (inexact && tiny) flagUnderflow
    let beyond := f.emax - f.tb < q || (q == f.emax - f.tb && f.maxSig < n)
    if beyond && n != 0 then f.overflow x.neg mode sat
    else if ftz && n != 0 && n < 2 ^ f.tb then (f.signed x.neg 0, flagUnderflow ||| flagInexact)
    else (f.encode x.neg n q, flags)

/-- round_to (R144): the bits and the flags. -/
def Fmt.roundTo (f : Fmt) (x : Val) (mode : Rnd5) (ftz sat : Bool) : Nat × BitVec 6 :=
  match x with
  | .nan => (f.nan, if f.hasNan then 0 else flagInvalid ||| flagSaturate)
  | .inf neg => f.infinite neg sat
  | .fin x => if x.isZero then (f.signed x.neg 0, 0) else f.round x mode ftz sat

/-- rnd_int of a finite value as an integer (R143). -/
def rndInt (x : Exact) (mode : Rnd5) : Int × Bool :=
  let (n, inexact) := rndScaled x 0 mode
  (if x.neg then -(n : Int) else n, inexact)

/-- to_int (R147): between bounds, with flags. -/
def toInt (x : Val) (lo hi : Int) (mode : Rnd5) : Int × BitVec 6 :=
  match x with
  | .nan => (0, flagInvalid ||| flagSaturate)
  | .inf neg => (if neg then lo else hi, flagInvalid ||| flagSaturate)
  | .fin x =>
    let (n, inexact) := rndInt x mode
    if n < lo || hi < n then (min (max n lo) hi, flagInvalid ||| flagSaturate)
    else (n, flagIf inexact flagInexact)

/-! ### Exact arithmetic (R159, R160) -/

/-- The signed significand of a value at an exponent not above its own. -/
def Exact.at (x : Exact) (e : Int) : Int :=
  let n : Int := (x.m * 2 ^ (x.e - e).toNat : Nat)
  if x.neg then -n else n

/-- The exact sum of two finite values without sticky bits; an exact zero takes its sign by R160. -/
def Exact.add (a b : Exact) (mode : Rnd5) : Exact :=
  if a.m == 0 && b.m == 0 then ⟨if a.neg == b.neg then a.neg else mode == .rm, 0, 0, false⟩
  else if a.m == 0 then b
  else if b.m == 0 then a
  else
    let e := min a.e b.e
    let s := a.at e + b.at e
    ⟨if s == 0 then mode == .rm else s < 0, s.natAbs, e, false⟩

/-- The exact product. -/
def Exact.mul (a b : Exact) : Exact := ⟨a.neg != b.neg, a.m * b.m, a.e + b.e, false⟩

/-- a + b over the extended reals; the flag says that the operation has no defined result. -/
def Val.add (a b : Val) (mode : Rnd5) : Val × Bool :=
  match a, b with
  | .nan, _ | _, .nan => (.nan, false)
  | .inf s, .inf t => if s == t then (.inf s, false) else (.nan, true)
  | .inf s, _ | _, .inf s => (.inf s, false)
  | .fin x, .fin y => (.fin (x.add y mode), false)

/-- a × b over the extended reals. -/
def Val.mul (a b : Val) : Val × Bool :=
  match a, b with
  | .nan, _ | _, .nan => (.nan, false)
  | .inf s, .inf t => (.inf (s != t), false)
  | .inf s, .fin y => if y.isZero then (.nan, true) else (.inf (s != y.neg), false)
  | .fin x, .inf t => if x.isZero then (.nan, true) else (.inf (x.neg != t), false)
  | .fin x, .fin y => (.fin (x.mul y), false)

/-- −a. -/
def Val.neg : Val → Val
  | .nan => .nan
  | .inf s => .inf !s
  | .fin x => .fin { x with neg := !x.neg }

/-- a × 2^n (R159). -/
def Val.scale (a : Val) (n : Int) : Val :=
  match a with
  | .fin x => if x.isZero then a else .fin { x with e := x.e + n }
  | _ => a

/-- Enough bits of a quotient for any format: 160 below its leading bit. -/
def divBits (a b : Nat) : Nat := 160 + Nat.log2 b - min (Nat.log2 a) (160 + Nat.log2 b)

/-- The quotient of two finite values, b not 0: its bits, and sticky where it goes on. -/
def Exact.div (a b : Exact) : Exact :=
  let k := divBits a.m b.m
  let n := a.m * 2 ^ k
  ⟨a.neg != b.neg, n / b.m, a.e - b.e - k, n % b.m != 0⟩

/-- a / b over the extended reals, with the flags of R154. -/
def Val.div (a b : Val) : Val × BitVec 6 :=
  match a, b with
  | .nan, _ | _, .nan => (.nan, 0)
  | .inf _, .inf _ => (.nan, flagInvalid)
  | .inf s, .fin y => (.inf (s != y.neg), 0)
  | .fin x, .inf t => (.zero (x.neg != t), 0)
  | .fin x, .fin y =>
    if y.isZero then if x.isZero then (.nan, flagInvalid) else (.inf (x.neg != y.neg), flagDivZero)
    else if x.isZero then (.zero (x.neg != y.neg), 0)
    else (.fin (x.div y), 0)

/-- Order of two finite values by magnitude and sign, −0 equal to +0. -/
def Exact.cmp (a b : Exact) : Ordering :=
  let e := min a.e b.e
  compare (a.at e) (b.at e)

/-- a < b over the extended reals. -/
def Val.lt (a b : Val) : Bool :=
  match a, b with
  | .nan, _ | _, .nan => false
  | .inf s, .inf t => s && !t
  | .inf s, .fin _ => s
  | .fin _, .inf t => !t
  | .fin x, .fin y => x.cmp y == .lt

/-- a = b over the extended reals; zeros are equal. -/
def Val.eqv (a b : Val) : Bool :=
  match a, b with
  | .inf s, .inf t => s == t
  | .fin x, .fin y => x.cmp y == .eq
  | _, _ => false

/-! ### Scales and blocks (R150 to R152) -/

/-- An E8M0 scale. -/
def e8m0 (x : Byte) : Val := if x == 0xFF#8 then .nan else .mk false 1 ((x.toNat : Int) - 127)

/-- An element of an MX block (R151). -/
def mxValue (f : Fmt) (scale : Byte) (code : Nat) : Val := ((f.decode code).mul (e8m0 scale)).1

/-- A DXB6 element (R152). -/
def dxbValue (xhi xlo : Byte) (code : Nat) : Val :=
  if xhi == 0xFF#8 || xlo == 0xFF#8 then .nan
  else
    let x := if code / 16 % 2 == 1 then xhi else xlo
    .mk (code / 32 % 2 == 1) (code % 16) ((x.toNat : Int) - 130)

/-- The magnitude M of a DXB6 grid step 2^k nearest to |v|, even on a tie, at most 15. -/
def dxbMag (v : Exact) (k : Int) : Nat := min (rndScaled v k .rn).1 15

/-- |v − M × 2^k| as a magnitude. -/
def dxbErr (v : Exact) (m : Nat) (k : Int) : Exact :=
  let e := min v.e k
  let a : Int := (v.m * 2 ^ (v.e - e).toNat : Nat)
  let b : Int := (m * 2 ^ (k - e).toNat : Nat)
  ⟨false, (a - b).natAbs, e, false⟩

/-- |v| is above M × 2^k. -/
def dxbAbove (v : Exact) (m : Nat) (k : Int) : Bool :=
  Exact.cmp { v with neg := false } ⟨false, m, k, false⟩ == .gt

/-- Narrow a finite or infinite value into a DXB6 element under two scales (R153). -/
def dxbNarrow (v : Val) (xhi xlo : Byte) : Nat × BitVec 6 :=
  let kh := (xhi.toNat : Int) - 130
  let kl := (xlo.toNat : Int) - 130
  let top := fun (neg : Bool) =>
    (if neg then 32 else 0) + (if kl < kh then 16 else 0) + 15
  match v with
  | .nan => (0x40, flagInvalid)
  | .inf neg => (top neg, flagSaturate ||| flagInexact)
  | .fin x =>
    let s := if x.neg then 32 else 0
    if x.m == 0 then (s, 0)
    else if dxbAbove x 15 (max kh kl) then (top x.neg, flagOverflow ||| flagInexact ||| flagSaturate)
    else
      let mh := dxbMag x kh
      let ml := dxbMag x kl
      let eh := dxbErr x mh kh
      let el := dxbErr x ml kl
      let inexact := fun (e : Exact) => flagIf (e.m != 0) flagInexact
      let same := Exact.cmp ⟨false, mh, kh, false⟩ ⟨false, ml, kl, false⟩ == .eq
      let low := (s + ml, inexact el)
      let high := (s + 16 + mh, inexact eh)
      match el.cmp eh with
      | .lt => low
      | .gt => high
      | .eq => if same then low else if ml % 2 == 0 then low else if mh % 2 == 0 then high else low

end Sys2Proof.Machine
end

