-- ==== Sys2Proof/Machine/Func.lean ====
section
/-! DEFINITION. The functions of the X pipe as exact values: roots, and the transcendental functions as
fixed-point numbers of 320 fraction bits with a sticky tail (spec/08_instr_float_matrix.md R166). A
transcendental value at a dyadic argument is irrational outside the listed exact points, so its tail is
never empty; 320 bits lie far below every rounding of binary32. -/

namespace Sys2Proof.Machine

/-- Fraction bits of the fixed-point numbers. -/
def fxBits : Nat := 320

/-- The fixed-point number one. -/
def fxOne : Nat := 2 ^ fxBits

/-! ### Roots -/

/-- One bit of a square root: the root so far, and the bit to try. -/
def sqrtStep (n r b : Nat) : Nat := if (r + 2 ^ b) * (r + 2 ^ b) ≤ n then r + 2 ^ b else r

/-- floor(√n), from bit `b − 1` down. -/
def sqrtFrom (n : Nat) : Nat → Nat → Nat
  | 0, r => r
  | b + 1, r => sqrtFrom n b (sqrtStep n r b)

/-- floor(√n). -/
def isqrt (n : Nat) : Nat := sqrtFrom n (Nat.log2 n / 2 + 1) 0

/-- √x of a positive value, with at least 100 bits. -/
def Exact.sqrt (x : Exact) : Exact :=
  let k : Nat := 200 + (if x.e % 2 == 0 then 0 else 1)
  let m := x.m * 2 ^ k
  let r := isqrt m
  ⟨false, r, (x.e - k) / 2, x.sticky || r * r != m⟩

/-- √a (R166). -/
def fnSqrt : Val → Val × BitVec 6
  | .nan => (.nan, 0)
  | .inf neg => if neg then (.nan, flagInvalid) else (.inf false, 0)
  | .fin x =>
    if x.isZero then (.fin x, 0)
    else if x.neg then (.nan, flagInvalid)
    else (.fin x.sqrt, 0)

/-- 1 / a (R166). -/
def fnRcp (a : Val) : Val × BitVec 6 := (Val.ofInt 1).div a

/-- 1 / √a (R166). -/
def fnRsq : Val → Val × BitVec 6
  | .nan => (.nan, 0)
  | .inf neg => if neg then (.nan, flagInvalid) else (.zero false, 0)
  | .fin x =>
    if x.isZero then (.inf x.neg, flagDivZero)
    else if x.neg then (.nan, flagInvalid)
    else (.fin ((Exact.div ⟨false, 1, 0, false⟩ x).sqrt), 0)

/-! ### Series in fixed point -/

/-- Σ x^k / k! from a term on: `n` terms more, `k` the index of the next. -/
def expSeries (x : Nat) : Nat → Nat → Nat → Nat
  | 0, _, t => t
  | n + 1, k, t => t + expSeries x n (k + 1) (t * x / fxOne / k)

/-- e^x for 0 ≤ x < 1. -/
def fxExp (x : Nat) : Nat := expSeries x 90 1 fxOne

/-- Σ z^(2k+1) / (2k+1): `p` is the power, `n` terms more. -/
def atanhSeries (z2 : Nat) : Nat → Nat → Nat → Nat
  | 0, _, _ => 0
  | n + 1, k, p => p / (2 * k + 1) + atanhSeries z2 n (k + 1) (p * z2 / fxOne)

/-- ln y for 1 ≤ y ≤ 2, as 2 atanh((y − 1) / (y + 1)). -/
def fxLn (y : Nat) : Nat :=
  let z := (y - fxOne) * fxOne / (y + fxOne)
  2 * atanhSeries (z * z / fxOne) 120 0 z

/-- ln 2. -/
def fxLn2 : Nat := fxLn (2 * fxOne)

/-- Σ (−1)^k / ((2k+1) n^(2k+1)): atan(1/n). -/
def atanSeries (n2 : Nat) : Nat → Nat → Nat → Int
  | 0, _, _ => 0
  | n + 1, k, p => (p / (2 * k + 1) : Nat) - atanSeries n2 n (k + 1) (p / n2)

/-- π, by Machin's formula. -/
def fxPi : Nat :=
  (16 * atanSeries 25 150 0 (fxOne / 5) - 4 * atanSeries 57121 60 0 (fxOne / 239)).toNat

/-- Σ (−1)^k x^(2k+1) / (2k+1)!. -/
def sinSeries (x2 : Nat) : Nat → Nat → Nat → Int
  | 0, _, _ => 0
  | n + 1, k, p => (p : Int) - sinSeries x2 n (k + 1) (p * x2 / fxOne / ((2 * k + 2) * (2 * k + 3)))

/-- sin(π r) for 0 ≤ r ≤ 1/2 in fixed point. -/
def fxSinPi (r : Nat) : Nat :=
  let x := r * fxPi / fxOne
  (sinSeries (x * x / fxOne) 50 0 x).toNat

/-- A finite value as a fixed-point integer, exact for values on its grid. -/
def Exact.toFx (x : Exact) : Nat :=
  let k := x.e + fxBits
  if k < 0 then x.m / 2 ^ (-k).toNat else x.m * 2 ^ k.toNat

/-- A fixed-point magnitude with an endless tail. -/
def fxVal (neg : Bool) (m : Nat) : Val := .fin ⟨neg, m, -(fxBits : Int), true⟩

/-! ### The functions -/

/-- |x| is an integer. -/
def Exact.integral (x : Exact) : Bool := 0 ≤ x.e || x.m % 2 ^ (-x.e).toNat == 0

/-- 2^a for −1 ≤ a ≤ 1 (R166). -/
def fnExp2 : Val → Val × BitVec 6
  | .nan => (.nan, 0)
  | .inf _ => (.nan, flagInvalid)
  | .fin x =>
    if Exact.cmp { x with neg := false } ⟨false, 1, 0, false⟩ == .gt then (.nan, flagInvalid)
    else if x.integral then
      (.mk false 1 (if x.m == 0 then 0 else if x.neg then -1 else 1), 0)
    else
      let a := x.toFx
      let f := if x.neg then fxOne - a else a
      let y := fxExp (f * fxLn2 / fxOne)
      (.fin ⟨false, y, -(fxBits : Int) - (if x.neg then 1 else 0), true⟩, 0)

/-- log2 a (R166). -/
def fnLog2 : Val → Val × BitVec 6
  | .nan => (.nan, 0)
  | .inf neg => if neg then (.nan, flagInvalid) else (.inf false, 0)
  | .fin x =>
    if x.isZero then (.inf true, flagDivZero)
    else if x.neg then (.nan, flagInvalid)
    else
      let k := x.log2
      if x.m == 2 ^ Nat.log2 x.m then (.ofInt k, 0)
      else
        let y := Exact.toFx { x with e := x.e - k }
        let r : Int := (fxLn y * fxOne / fxLn2 : Nat)
        let v := k * fxOne + r
        (fxVal (v < 0) v.natAbs, 0)

/-- |x| mod 2 in fixed point, for a value on the grid or above it. -/
def Exact.mod2 (x : Exact) : Nat := if 1 ≤ x.e then 0 else x.toFx % (2 * fxOne)

/-- Half of one. -/
def fxHalf : Nat := fxOne / 2

/-- sin(π a) (R166). -/
def fnSinPi : Val → Val × BitVec 6
  | .nan => (.nan, 0)
  | .inf _ => (.nan, flagInvalid)
  | .fin x =>
    if x.integral then (.zero x.neg, 0)
    else
      let t := x.mod2
      let neg := x.neg != decide (fxOne < t)
      let u := t % fxOne
      let r := if fxHalf < u then fxOne - u else u
      if r == fxHalf then (.mk neg 1 0, 0) else (fxVal neg (fxSinPi r), 0)

/-- cos(π a) (R166). -/
def fnCosPi : Val → Val × BitVec 6
  | .nan => (.nan, 0)
  | .inf _ => (.nan, flagInvalid)
  | .fin x =>
    let t := x.mod2
    let u := if fxOne < t then 2 * fxOne - t else t
    if u == 0 then (.mk false 1 0, 0)
    else if u == fxOne then (.mk true 1 0, 0)
    else if u == fxHalf then (.zero false, 0)
    else if u < fxHalf then (fxVal false (fxSinPi (fxHalf - u)), 0)
    else (fxVal true (fxSinPi (u - fxHalf)), 0)

end Sys2Proof.Machine
end

