-- ==== Sys2Proof/Machine/Integer.lean ====
section
/-! DEFINITION. Integer words: arithmetic, logic, shifts, bit fields, compare, select, moves and
addresses (spec/06_instr_integer_control.md R111 to R121). -/

namespace Sys2Proof.Machine

/-! ### Exact values and results (R112) -/

/-- A register's value under a type. -/
def sgnVal {w : Nat} (ty : Sgn) (x : BitVec w) : Int :=
  match ty with
  | .s => x.toInt
  | .n => (x.toNat : Int)

/-- The least value of a type. -/
def lowest (ty : Sgn) (w : Nat) : Int :=
  match ty with
  | .s => -(2 ^ (w - 1))
  | .n => 0

/-- The greatest value of a type. -/
def highest (ty : Sgn) (w : Nat) : Int :=
  match ty with
  | .s => 2 ^ (w - 1) - 1
  | .n => 2 ^ w - 1

/-- An exact result as a bit pattern: clamped under .sat, modulo 2^w otherwise (R112). -/
def intResult (w : Nat) (ty : Sgn) (sat : Bool) (x : Int) : BitVec w :=
  BitVec.ofInt w (if sat then min (max x (lowest ty w)) (highest ty w) else x)

/-- A 32-bit two-operand word. -/
def arith32 (f : Int → Int → Int) (ty : Sgn) (sat : Bool) (a b : Word) : Word :=
  intResult 32 ty sat (f (sgnVal ty a) (sgnVal ty b))

/-- Bits 63:32 of the 64-bit product (R112). -/
def mulHigh (ty : Sgn) (a b : Word) : Word :=
  (BitVec.ofInt 64 (sgnVal ty a * sgnVal ty b)).extractLsb' 32 32

/-- The smaller of two registers (R112). -/
def intMin (ty : Sgn) (a b : Word) : Word := if sgnVal ty a ≤ sgnVal ty b then a else b

/-- The larger of two registers (R112). -/
def intMax (ty : Sgn) (a b : Word) : Word := if sgnVal ty a ≤ sgnVal ty b then b else a

/-! ### Logic and shifts (R113) -/

/-- The shift count of R113: bits 7:0, reduced under .wrap. -/
def shiftCount (w : Nat) (wrap : Bool) (b : Word) : Nat :=
  let c := (b.extractLsb' 0 8).toNat
  if wrap then c % w else c

/-- A count of R121: I20[7:0]. -/
def immCount (n : BitVec 8) : Nat := n.toNat

/-- Shift left; a count of the width or more gives 0. -/
def shl {w : Nat} (a : BitVec w) (c : Nat) : BitVec w := if w ≤ c then 0 else a <<< c

/-- Logical shift right; a count of the width or more gives 0. -/
def shr {w : Nat} (a : BitVec w) (c : Nat) : BitVec w := if w ≤ c then 0 else a >>> c

/-- Arithmetic shift right; a count of the width or more gives the sign everywhere. -/
def sar {w : Nat} (a : BitVec w) (c : Nat) : BitVec w := a.sshiftRight (min c (w - 1))

/-- Rotation by c mod w. -/
def rot {w : Nat} (right : Bool) (a : BitVec w) (c : Nat) : BitVec w :=
  if right then a.rotateRight (c % w) else a.rotateLeft (c % w)

/-- Read a register or a pair and write back a register or a pair. -/
def width1 (w64 : Bool) (t : Thread) (d a : VReg) (f32 : Word → Word) (f64 : DWord → DWord) : Res :=
  if w64 then .v64 d (f64 (t.rv64 a.toNat)) else .v d (f32 (t.rv a.toNat))

/-- The same with two sources of one width. -/
def width2 (w64 : Bool) (t : Thread) (d a b : VReg) (f32 : Word → Word → Word)
    (f64 : DWord → DWord → DWord) : Res :=
  if w64 then .v64 d (f64 (t.rv64 a.toNat) (t.rv64 b.toNat)) else .v d (f32 (t.rv a.toNat) (t.rv b.toNat))

/-- b inverted under .nb. -/
def invIf {w : Nat} (nb : Bool) (b : BitVec w) : BitVec w := if nb then ~~~b else b

/-! ### Bit fields (R114, R115, R116) -/

/-- Position and length of a field operand (R114). -/
def fieldPos (b : Word) : Nat := (b.extractLsb' 0 8).toNat

def fieldLen (b : Word) : Nat := min (b.extractLsb' 8 8).toNat 32

/-- The low `len` bits set. -/
def lowMask (len : Nat) : Word := BitVec.ofNat 32 (2 ^ len - 1)

/-- bfx (R114). -/
def bitExtract (signed : Bool) (a : Word) (pos len : Nat) : Word :=
  if len = 0 then 0
  else if signed then ((sar a pos) <<< (32 - len)).sshiftRight (32 - len)
  else shr a pos &&& lowMask len

/-- bfi (R114): target bits at 32 or above are dropped. -/
def bitInsert (c a : Word) (pos len : Nat) : Word :=
  let m := shl (lowMask len) pos
  (c &&& ~~~m) ||| (shl a pos &&& m)

/-- Number of 1 bits. -/
def popCount {w : Nat} (x : BitVec w) : Nat := ((List.range w).filter fun i => x.getLsbD i).length

/-- Leading zero bits; w of 0. -/
def leadZeros {w : Nat} (x : BitVec w) : Nat := ((List.range w).find? fun i => x.getLsbD (w - 1 - i)).getD w

/-- Trailing zero bits; w of 0. -/
def trailZeros {w : Nat} (x : BitVec w) : Nat := ((List.range w).find? fun i => x.getLsbD i).getD w

/-- Bit i moves to bit w - 1 - i. -/
def bitReverse {w : Nat} (x : BitVec w) : BitVec w :=
  (List.range w).foldl (fun y i => if x.getLsbD i then y ||| (1#w <<< (w - 1 - i)) else y) 0#w

/-- One result byte of prmt under its control byte (R116). -/
def prmtByte (x : DWord) (c : Byte) : Byte :=
  let named := x.extractLsb' (8 * (c.extractLsb' 0 3).toNat) 8
  match (c.extractLsb' 3 2).toNat with
  | 0 => named
  | 1 => 0x00
  | 2 => if named.getLsbD 7 then 0xFF else 0x00
  | _ => 0xFF

/-- prmt (R116): bytes 0 to 3 of x are `a`, bytes 4 to 7 are `b`. -/
def permute (a b c : Word) : Word :=
  let x := b ++ a
  prmtByte x (c.extractLsb' 24 8) ++ prmtByte x (c.extractLsb' 16 8) ++ prmtByte x (c.extractLsb' 8 8) ++
    prmtByte x (c.extractLsb' 0 8)

/-- The control word of prmt* (R121): four 5-bit controls. -/
def prmtControls (sel : BitVec 20) : Word :=
  (0#3 ++ sel.extractLsb' 15 5) ++ (0#3 ++ sel.extractLsb' 10 5) ++ (0#3 ++ sel.extractLsb' 5 5) ++
    (0#3 ++ sel.extractLsb' 0 5)

/-! ### Compare (R117) -/

/-- The condition of icmp. -/
def intCond {w : Nat} (c : ICond) (a b : BitVec w) : Bool :=
  match c with
  | .eq => a == b
  | .ne => a != b
  | .lt => a.toInt < b.toInt
  | .le => a.toInt ≤ b.toInt
  | .ltu => a.toNat < b.toNat
  | .leu => a.toNat ≤ b.toNat
  | .bit => a &&& b != 0
  | .nbit => a &&& b == 0

/-- The second source of an I20 form (R121): sign-extended to 32 bits. -/
def imm32 (imm : BitVec 20) : Word := imm.signExtend 32

/-! ### Meanings -/

def execIadd (h : Hd) (ty : Sgn) (sat : Bool) (d a b : VReg) (s : State) : Out :=
  .next (s.fixedWord (.iadd h ty sat d a b) fun t =>
    .v d (arith32 (· + ·) ty sat (t.rv a.toNat) (t.rv b.toNat)))

def execIsub (h : Hd) (ty : Sgn) (sat : Bool) (d a b : VReg) (s : State) : Out :=
  .next (s.fixedWord (.isub h ty sat d a b) fun t =>
    .v d (arith32 (· - ·) ty sat (t.rv a.toNat) (t.rv b.toNat)))

def execImul (h : Hd) (ty : Sgn) (sat : Bool) (d a b : VReg) (s : State) : Out :=
  .next (s.fixedWord (.imul h ty sat d a b) fun t =>
    .v d (arith32 (· * ·) ty sat (t.rv a.toNat) (t.rv b.toNat)))

def execImulhi (h : Hd) (ty : Sgn) (d a b : VReg) (s : State) : Out :=
  .next (s.fixedWord (.imulhi h ty d a b) fun t => .v d (mulHigh ty (t.rv a.toNat) (t.rv b.toNat)))

def execImad (h : Hd) (ty : Sgn) (m : ImadMode) (d a b c : VReg) (s : State) : Out :=
  .next (s.fixedWord (.imad h ty m d a b c) fun t =>
    let p := sgnVal ty (t.rv a.toNat) * sgnVal ty (t.rv b.toNat)
    match m with
    | .plain => .v d (intResult 32 ty false (p + sgnVal ty (t.rv c.toNat)))
    | .sat => .v d (intResult 32 ty true (p + sgnVal ty (t.rv c.toNat)))
    | .wide => .v64 d (intResult 64 ty false (p + sgnVal ty (t.rv64 c.toNat))))

def execIadd64 (h : Hd) (ty : Sgn) (sat x32 : Bool) (d a b : VReg) (s : State) : Out :=
  .next (s.fixedWord (.iadd64 h ty sat x32 d a b) fun t =>
    let y := if x32 then sgnVal ty (t.rv b.toNat) else sgnVal ty (t.rv64 b.toNat)
    .v64 d (intResult 64 ty sat (sgnVal ty (t.rv64 a.toNat) + y)))

def execImin (h : Hd) (ty : Sgn) (d a b : VReg) (s : State) : Out :=
  .next (s.fixedWord (.imin h ty d a b) fun t => .v d (intMin ty (t.rv a.toNat) (t.rv b.toNat)))

def execImax (h : Hd) (ty : Sgn) (d a b : VReg) (s : State) : Out :=
  .next (s.fixedWord (.imax h ty d a b) fun t => .v d (intMax ty (t.rv a.toNat) (t.rv b.toNat)))

def execIabs (h : Hd) (sat : Bool) (d a : VReg) (s : State) : Out :=
  .next (s.fixedWord (.iabs h sat d a) fun t =>
    .v d (intResult 32 .s sat ((t.rv a.toNat).toInt.natAbs : Int)))

def execIneg (h : Hd) (sat : Bool) (d a : VReg) (s : State) : Out :=
  .next (s.fixedWord (.ineg h sat d a) fun t => .v d (intResult 32 .s sat (-(t.rv a.toNat).toInt)))

def execIand (h : Hd) (w nb : Bool) (d a b : VReg) (s : State) : Out :=
  .next (s.fixedWord (.iand h w nb d a b) fun t =>
    width2 w t d a b (fun x y => x &&& invIf nb y) fun x y => x &&& invIf nb y)

def execIor (h : Hd) (w nb : Bool) (d a b : VReg) (s : State) : Out :=
  .next (s.fixedWord (.ior h w nb d a b) fun t =>
    width2 w t d a b (fun x y => x ||| invIf nb y) fun x y => x ||| invIf nb y)

def execIxor (h : Hd) (w nb : Bool) (d a b : VReg) (s : State) : Out :=
  .next (s.fixedWord (.ixor h w nb d a b) fun t =>
    width2 w t d a b (fun x y => x ^^^ invIf nb y) fun x y => x ^^^ invIf nb y)

def execInot (h : Hd) (w : Bool) (d a : VReg) (s : State) : Out :=
  .next (s.fixedWord (.inot h w d a) fun t => width1 w t d a (~~~·) (~~~·))

def execIshl (h : Hd) (w wrap : Bool) (d a b : VReg) (s : State) : Out :=
  .next (s.fixedWord (.ishl h w wrap d a b) fun t =>
    width1 w t d a (shl · (shiftCount 32 wrap (t.rv b.toNat))) (shl · (shiftCount 64 wrap (t.rv b.toNat))))

def execIshr (h : Hd) (w wrap : Bool) (d a b : VReg) (s : State) : Out :=
  .next (s.fixedWord (.ishr h w wrap d a b) fun t =>
    width1 w t d a (shr · (shiftCount 32 wrap (t.rv b.toNat))) (shr · (shiftCount 64 wrap (t.rv b.toNat))))

def execIsar (h : Hd) (w wrap : Bool) (d a b : VReg) (s : State) : Out :=
  .next (s.fixedWord (.isar h w wrap d a b) fun t =>
    width1 w t d a (sar · (shiftCount 32 wrap (t.rv b.toNat))) (sar · (shiftCount 64 wrap (t.rv b.toNat))))

def execIrot (h : Hd) (w right : Bool) (d a b : VReg) (s : State) : Out :=
  .next (s.fixedWord (.irot h w right d a b) fun t =>
    width1 w t d a (rot right · (shiftCount 32 true (t.rv b.toNat)))
      (rot right · (shiftCount 64 true (t.rv b.toNat))))

def execBfx (h : Hd) (signed : Bool) (d a b : VReg) (s : State) : Out :=
  .next (s.fixedWord (.bfx h signed d a b) fun t =>
    .v d (bitExtract signed (t.rv a.toNat) (fieldPos (t.rv b.toNat)) (fieldLen (t.rv b.toNat))))

def execBfi (h : Hd) (d a b c : VReg) (s : State) : Out :=
  .next (s.fixedWord (.bfi h d a b c) fun t =>
    .v d (bitInsert (t.rv c.toNat) (t.rv a.toNat) (fieldPos (t.rv b.toNat)) (fieldLen (t.rv b.toNat))))

/-- A count of one register or pair, in one register (R115). -/
def countWord (w64 : Bool) (t : Thread) (d a : VReg) (f32 : Word → Nat) (f64 : DWord → Nat) : Res :=
  .v d (BitVec.ofNat 32 (if w64 then f64 (t.rv64 a.toNat) else f32 (t.rv a.toNat)))

def execPopc (h : Hd) (w : Bool) (d a : VReg) (s : State) : Out :=
  .next (s.fixedWord (.popc h w d a) fun t => countWord w t d a popCount popCount)

def execClz (h : Hd) (w : Bool) (d a : VReg) (s : State) : Out :=
  .next (s.fixedWord (.clz h w d a) fun t => countWord w t d a leadZeros leadZeros)

def execCtz (h : Hd) (w : Bool) (d a : VReg) (s : State) : Out :=
  .next (s.fixedWord (.ctz h w d a) fun t => countWord w t d a trailZeros trailZeros)

def execBrev (h : Hd) (w : Bool) (d a : VReg) (s : State) : Out :=
  .next (s.fixedWord (.brev h w d a) fun t => width1 w t d a bitReverse bitReverse)

def execPrmt (h : Hd) (d a b c : VReg) (s : State) : Out :=
  .next (s.fixedWord (.prmt h d a b c) fun t =>
    .v d (permute (t.rv a.toNat) (t.rv b.toNat) (t.rv c.toNat)))

def execIcmp (h : Hd) (cond : ICond) (w : Bool) (d : PReg) (a b : VReg) (s : State) : Out :=
  .next (s.fixedWord (.icmp h cond w d a b) fun t =>
    .p d (if w then intCond cond (t.rv64 a.toNat) (t.rv64 b.toNat)
      else intCond cond (t.rv a.toNat) (t.rv b.toNat)))

def execIsel (h : Hd) (w : Bool) (d a b : VReg) (c : PReg) (s : State) : Out :=
  .next (s.fixedWord (.isel h w d a b c) fun t =>
    width2 w t d a b (fun x y => if t.rp c.toNat then x else y) fun x y => if t.rp c.toNat then x else y)

def execMov (h : Hd) (w : Bool) (d a : VReg) (s : State) : Out :=
  .next (s.fixedWord (.mov h w d a) fun t => width1 w t d a id id)

def execLea (h : Hd) (signed : Bool) (scale : BitVec 2) (d a b : VReg) (s : State) : Out :=
  .next (s.fixedWord (.lea h signed scale d a b) fun t =>
    let x := t.rv b.toNat
    .v64 d (t.rv64 a.toNat + (if signed then x.signExtend 64 else x.setWidth 64) <<< scale.toNat))

def execSrd (h : Hd) (d : VReg) (sp : Special) (s : State) : Out :=
  .next (s.issue (.srd h d sp) true fun s0 act s1 =>
    s1.modThreads act fun t x =>
      match s0.gangTeam with
      | some tm => x.produce (s0.cycle t.core) 2 (.v d (sp.value t tm))
      | none => x)

def execIaddI (h : Hd) (d a : VReg) (imm : BitVec 20) (s : State) : Out :=
  .next (s.fixedWord (.iaddI h d a imm) fun t => .v d (arith32 (· + ·) .s false (t.rv a.toNat) (imm32 imm)))

def execImulI (h : Hd) (d a : VReg) (imm : BitVec 20) (s : State) : Out :=
  .next (s.fixedWord (.imulI h d a imm) fun t => .v d (arith32 (· * ·) .s false (t.rv a.toNat) (imm32 imm)))

def execIminI (h : Hd) (d a : VReg) (imm : BitVec 20) (s : State) : Out :=
  .next (s.fixedWord (.iminI h d a imm) fun t => .v d (intMin .s (t.rv a.toNat) (imm32 imm)))

def execImaxI (h : Hd) (d a : VReg) (imm : BitVec 20) (s : State) : Out :=
  .next (s.fixedWord (.imaxI h d a imm) fun t => .v d (intMax .s (t.rv a.toNat) (imm32 imm)))

def execIandI (h : Hd) (d a : VReg) (imm : BitVec 20) (s : State) : Out :=
  .next (s.fixedWord (.iandI h d a imm) fun t => .v d (t.rv a.toNat &&& imm32 imm))

def execIorI (h : Hd) (d a : VReg) (imm : BitVec 20) (s : State) : Out :=
  .next (s.fixedWord (.iorI h d a imm) fun t => .v d (t.rv a.toNat ||| imm32 imm))

def execIxorI (h : Hd) (d a : VReg) (imm : BitVec 20) (s : State) : Out :=
  .next (s.fixedWord (.ixorI h d a imm) fun t => .v d (t.rv a.toNat ^^^ imm32 imm))

def execIshlI (h : Hd) (d a : VReg) (n : BitVec 8) (s : State) : Out :=
  .next (s.fixedWord (.ishlI h d a n) fun t => .v d (shl (t.rv a.toNat) (immCount n)))

def execIshrI (h : Hd) (d a : VReg) (n : BitVec 8) (s : State) : Out :=
  .next (s.fixedWord (.ishrI h d a n) fun t => .v d (shr (t.rv a.toNat) (immCount n)))

def execIsarI (h : Hd) (d a : VReg) (n : BitVec 8) (s : State) : Out :=
  .next (s.fixedWord (.isarI h d a n) fun t => .v d (sar (t.rv a.toNat) (immCount n)))

def execIrotI (h : Hd) (d a : VReg) (n : BitVec 8) (s : State) : Out :=
  .next (s.fixedWord (.irotI h d a n) fun t => .v d (rot false (t.rv a.toNat) (immCount n)))

def execBfxI (h : Hd) (signed : Bool) (len pos : BitVec 8) (d a : VReg) (s : State) : Out :=
  .next (s.fixedWord (.bfxI h signed len pos d a) fun t =>
    .v d (bitExtract signed (t.rv a.toNat) pos.toNat (min len.toNat 32)))

def execBfiI (h : Hd) (len pos : BitVec 8) (d a : VReg) (s : State) : Out :=
  .next (s.fixedWord (.bfiI h len pos d a) fun t =>
    .v d (bitInsert (t.rv d.toNat) (t.rv a.toNat) pos.toNat (min len.toNat 32)))

def execPrmtI (h : Hd) (d a : VReg) (sel : BitVec 20) (s : State) : Out :=
  .next (s.fixedWord (.prmtI h d a sel) fun t =>
    .v d (permute (t.rv a.toNat) (t.rv d.toNat) (prmtControls sel)))

def execLeaI (h : Hd) (d a : VReg) (off : BitVec 20) (s : State) : Out :=
  .next (s.fixedWord (.leaI h d a off) fun t => .v64 d (t.rv64 a.toNat + off.signExtend 64))

/-- movi (R118): I40[39] selects the 64-bit form, I40[38:0] sign-extended; otherwise I40[31:0]. -/
def execMovi (c : Ctl) (w : Bool) (d : VReg) (imm : BitVec 39) (s : State) : Out :=
  .next (s.fixedWord (.movi c w d imm) fun _ =>
    if w then .v64 d (imm.signExtend 64) else .v d (imm.setWidth 32))

end Sys2Proof.Machine
end

