-- ==== Sys2Proof/Machine/FloatOps.lean ====
section
/-! DEFINITION. Floating-point words: arithmetic, selection, classes, functions, packed halves, FP64, and
paired words (spec/08_instr_float_matrix.md R158 to R169, spec/03_encoding.md R66 to R68). -/

namespace Sys2Proof.Machine

/-! ### Arithmetic in one format (R159, R160) -/

/-- A result with the flags it raises. -/
abbrev Flagged := Nat × BitVec 6

/-- Round a value and add the invalid flag where an operation had no result or a source signals. -/
def fpDeliver (f : Fmt) (mode : Rnd5) (ftz bad : Bool) (x : Val) : Flagged :=
  let r := f.roundTo x mode ftz false
  (r.1, r.2 ||| flagIf bad flagInvalid)

/-- a + b. -/
def fpAdd (f : Fmt) (rnd : Rnd) (ftz : Bool) (a b : Nat) : Flagged :=
  let x := (f.operand ftz a).add (f.operand ftz b) (rnd5 rnd)
  fpDeliver f (rnd5 rnd) ftz (x.2 || f.snan a || f.snan b) x.1

/-- a − b. -/
def fpSub (f : Fmt) (rnd : Rnd) (ftz : Bool) (a b : Nat) : Flagged :=
  let x := (f.operand ftz a).add (f.operand ftz b).neg (rnd5 rnd)
  fpDeliver f (rnd5 rnd) ftz (x.2 || f.snan a || f.snan b) x.1

/-- a × b. -/
def fpMul (f : Fmt) (rnd : Rnd) (ftz : Bool) (a b : Nat) : Flagged :=
  let x := (f.operand ftz a).mul (f.operand ftz b)
  fpDeliver f (rnd5 rnd) ftz (x.2 || f.snan a || f.snan b) x.1

/-- a × b + c with one rounding; 0 × ∞ is invalid whatever c holds. -/
def fpFma (f : Fmt) (rnd : Rnd) (ftz : Bool) (a b c : Nat) : Flagged :=
  let p := (f.operand ftz a).mul (f.operand ftz b)
  let x := p.1.add (f.operand ftz c) (rnd5 rnd)
  fpDeliver f (rnd5 rnd) ftz (p.2 || x.2 || f.snan a || f.snan b || f.snan c) x.1

/-- The sign bit of a code. -/
def Fmt.negative (f : Fmt) (a : Nat) : Bool := a / 2 ^ (f.eb + f.tb) % 2 == 1

/-- The bits of an operand as .ftz reads them (R146). -/
def Fmt.flush (f : Fmt) (ftz : Bool) (a : Nat) : Nat :=
  if ftz && f.subnormal a then f.signed (f.negative a) 0 else a

/-- a counts as less than b, −0 below +0 (R161). -/
def Fmt.below (f : Fmt) (a b : Nat) : Bool :=
  (f.decode a).lt (f.decode b) || ((f.decode a).eqv (f.decode b) && f.negative a && !f.negative b)

/-- minimumNumber or maximumNumber (R161): one operand's bits. -/
def fpPick (f : Fmt) (greater ftz : Bool) (a b : Nat) : Flagged :=
  let x := f.flush ftz a
  let y := f.flush ftz b
  let r :=
    if (f.decode x).isNan then (if (f.decode y).isNan then f.nan else y)
    else if (f.decode y).isNan then x
    else if f.below x y != greater then x else y
  (r, flagIf (f.snan a || f.snan b) flagInvalid)

/-- frnd (R161): the integral value under a mode, sign kept; only a signalling NaN raises a flag. -/
def fpIntegral (f : Fmt) (rnd : Rnd) (ftz : Bool) (a : Nat) : Flagged :=
  let bits := match f.operand ftz a with
    | .nan => f.nan
    | .inf s => f.inf s
    | .fin x => (f.roundTo (.mk x.neg (rndScaled x 0 (rnd5 rnd)).1 0) .rn false false).1
  (bits, flagIf (f.snan a) flagInvalid)

/-- xins (R159): a × 2^n. -/
def fpScale (f : Fmt) (rnd : Rnd) (ftz : Bool) (a : Nat) (n : Int) : Flagged :=
  fpDeliver f (rnd5 rnd) ftz (f.snan a) ((f.operand ftz a).scale n)

/-! ### Comparison and classes (R162, R164, R165) -/

/-- The format of an operand type of fcmp and fclass. -/
def tyFmt : FTy → Fmt
  | .f32 => fmtF32
  | .f64 => fmtF64
  | .f16 => fmtF16
  | .bf16 => fmtBf16

/-- The truth value of a condition. -/
def fpCond (c : FCond) (x y : Val) : Bool :=
  let nan := x.isNan || y.isNan
  match c with
  | .eq => x.eqv y
  | .ne => !x.eqv y
  | .lt => x.lt y
  | .le => x.lt y || x.eqv y
  | .gt => y.lt x
  | .ge => y.lt x || x.eqv y
  | .num => !nan
  | .nan => nan

/-- Number of the class of a code (R164). -/
def fpClass (f : Fmt) (a : Nat) : Nat :=
  let neg := f.negative a
  match f.decode a with
  | .nan => if f.snan a then 0 else 1
  | .inf s => if s then 2 else 9
  | .fin x =>
    if x.isZero then (if neg then 5 else 6)
    else if f.subnormal a then (if neg then 4 else 7)
    else if neg then 3 else 8

/-- xget.exp (R165). -/
def fpExponent (a : Nat) : Word × BitVec 6 :=
  match fmtF32.decode a with
  | .fin x => if x.isZero then (0x80000000#32, flagInvalid) else (BitVec.ofInt 32 x.log2, 0)
  | _ => (0x7FFFFFFF#32, flagInvalid)

/-- xget.man (R165). -/
def fpSignificand (a : Nat) : Flagged :=
  let bits := match fmtF32.decode a with
    | .nan => fmtF32.nan
    | .inf s => fmtF32.inf s
    | .fin x => if x.isZero then fmtF32.signed x.neg 0
      else (fmtF32.roundTo (.mk x.neg x.m (x.e - x.log2)) .rn false false).1
  (bits, flagIf (fmtF32.snan a) flagInvalid)

/-! ### One .f32 register -/

/-- A flagged result in one register. -/
def Flagged.res (d : VReg) (x : Flagged) : Res := ⟨[(d.toNat, BitVec.ofNat 32 x.1)], [], x.2⟩

/-- A register as the bits of a code of 32 bits. -/
def Thread.rn (t : Thread) (r : VReg) : Nat := (t.rv r.toNat).toNat

/-- The .f32 operand of an I20 form (R84). -/
def immF32 (imm : BitVec 20) : Nat := imm.toNat * 4096

def execFadd (h : Hd) (rnd : Rnd) (ftz : Bool) (d a b : VReg) (s : State) : Out :=
  .next (s.fixedWord (.fadd h rnd ftz d a b) fun t => (fpAdd fmtF32 rnd ftz (t.rn a) (t.rn b)).res d)

def execFsub (h : Hd) (rnd : Rnd) (ftz : Bool) (d a b : VReg) (s : State) : Out :=
  .next (s.fixedWord (.fsub h rnd ftz d a b) fun t => (fpSub fmtF32 rnd ftz (t.rn a) (t.rn b)).res d)

def execFmul (h : Hd) (rnd : Rnd) (ftz : Bool) (d a b : VReg) (s : State) : Out :=
  .next (s.fixedWord (.fmul h rnd ftz d a b) fun t => (fpMul fmtF32 rnd ftz (t.rn a) (t.rn b)).res d)

def execFfma (h : Hd) (rnd : Rnd) (ftz : Bool) (d a b c : VReg) (s : State) : Out :=
  .next (s.fixedWord (.ffma h rnd ftz d a b c) fun t =>
    (fpFma fmtF32 rnd ftz (t.rn a) (t.rn b) (t.rn c)).res d)

def execFmin (h : Hd) (ftz : Bool) (d a b : VReg) (s : State) : Out :=
  .next (s.fixedWord (.fmin h ftz d a b) fun t => (fpPick fmtF32 false ftz (t.rn a) (t.rn b)).res d)

def execFmax (h : Hd) (ftz : Bool) (d a b : VReg) (s : State) : Out :=
  .next (s.fixedWord (.fmax h ftz d a b) fun t => (fpPick fmtF32 true ftz (t.rn a) (t.rn b)).res d)

def execFrnd (h : Hd) (rnd : Rnd) (ftz : Bool) (d a : VReg) (s : State) : Out :=
  .next (s.fixedWord (.frnd h rnd ftz d a) fun t => (fpIntegral fmtF32 rnd ftz (t.rn a)).res d)

def execXins (h : Hd) (rnd : Rnd) (ftz : Bool) (d a b : VReg) (s : State) : Out :=
  .next (s.fixedWord (.xins h rnd ftz d a b) fun t =>
    (fpScale fmtF32 rnd ftz (t.rn a) (t.rv b.toNat).toInt).res d)

def execXget (h : Hd) (man : Bool) (d a : VReg) (s : State) : Out :=
  .next (s.fixedWord (.xget h man d a) fun t =>
    if man then (fpSignificand (t.rn a)).res d else .vf d (fpExponent (t.rn a)))

def execFaddI (h : Hd) (d a : VReg) (imm : BitVec 20) (s : State) : Out :=
  .next (s.fixedWord (.faddI h d a imm) fun t => (fpAdd fmtF32 .rn false (t.rn a) (immF32 imm)).res d)

def execFmulI (h : Hd) (d a : VReg) (imm : BitVec 20) (s : State) : Out :=
  .next (s.fixedWord (.fmulI h d a imm) fun t => (fpMul fmtF32 .rn false (t.rn a) (immF32 imm)).res d)

def execFminI (h : Hd) (d a : VReg) (imm : BitVec 20) (s : State) : Out :=
  .next (s.fixedWord (.fminI h d a imm) fun t => (fpPick fmtF32 false false (t.rn a) (immF32 imm)).res d)

def execFmaxI (h : Hd) (d a : VReg) (imm : BitVec 20) (s : State) : Out :=
  .next (s.fixedWord (.fmaxI h d a imm) fun t => (fpPick fmtF32 true false (t.rn a) (immF32 imm)).res d)

/-- An operand of fcmp or fclass as bits: a pair for .f64, the low half for a narrow type (R142). -/
def Thread.typed (t : Thread) (ty : FTy) (r : VReg) : Nat :=
  match ty with
  | .f64 => (t.rv64 r.toNat).toNat
  | .f32 => t.rn r
  | .f16 | .bf16 => t.rn r % 65536

def execFcmp (h : Hd) (cond : FCond) (ty : FTy) (ftz : Bool) (d : PReg) (a b : VReg) (s : State) : Out :=
  .next (s.fixedWord (.fcmp h cond ty ftz d a b) fun t =>
    let x := t.typed ty a
    let y := t.typed ty b
    ⟨[], [(d.toNat, fpCond cond ((tyFmt ty).operand ftz x) ((tyFmt ty).operand ftz y))],
      flagIf ((tyFmt ty).snan x || (tyFmt ty).snan y) flagInvalid⟩)

def execFsel (h : Hd) (w : Bool) (d a b : VReg) (c : PReg) (s : State) : Out :=
  .next (s.fixedWord (.fsel h w d a b c) fun t =>
    width2 w t d a b (fun x y => if t.rp c.toNat then x else y) fun x y => if t.rp c.toNat then x else y)

def execFclass (h : Hd) (ty : FTy) (set : BitVec 10) (d : PReg) (a : VReg) (s : State) : Out :=
  .next (s.fixedWord (.fclass h ty set d a) fun t => .p d (set.getLsbD (fpClass (tyFmt ty) (t.typed ty a))))

/-! ### Functions on X (R166, R167) -/

/-- Cycles for which a word holds X, served `per` lanes a cycle (R167). -/
def State.xCycles (s : State) (per : Nat) : Nat := (s.gang.members.length + per - 1) / per

/-- A function of one .f32 operand: the exact value with its own flags, rounded once. -/
def fpFunction (g : Val → Val × BitVec 6) (rnd : Rnd) (ftz : Bool) (a : Nat) : List Word × BitVec 6 :=
  let x := g (fmtF32.operand ftz a)
  let r := fpDeliver fmtF32 (rnd5 rnd) ftz (fmtF32.snan a) x.1
  ([BitVec.ofNat 32 r.1], r.2 ||| x.2)

def execFrcp (h : Hd) (rnd : Rnd) (ftz : Bool) (d a : VReg) (s : State) : Out :=
  .next (s.xWord (.frcp h rnd ftz d a) (s.xCycles 16) fun t => fpFunction fnRcp rnd ftz (t.rn a))

def execFrsq (h : Hd) (ftz : Bool) (d a : VReg) (s : State) : Out :=
  .next (s.xWord (.frsq h ftz d a) (s.xCycles 16) fun t => fpFunction fnRsq .rn ftz (t.rn a))

def execFsqrt (h : Hd) (rnd : Rnd) (ftz : Bool) (d a : VReg) (s : State) : Out :=
  .next (s.xWord (.fsqrt h rnd ftz d a) (s.xCycles 16) fun t => fpFunction fnSqrt rnd ftz (t.rn a))

def execFexp2 (h : Hd) (ftz : Bool) (d a : VReg) (s : State) : Out :=
  .next (s.xWord (.fexp2 h ftz d a) (s.xCycles 16) fun t => fpFunction fnExp2 .rn ftz (t.rn a))

def execFlog2 (h : Hd) (ftz : Bool) (d a : VReg) (s : State) : Out :=
  .next (s.xWord (.flog2 h ftz d a) (s.xCycles 16) fun t => fpFunction fnLog2 .rn ftz (t.rn a))

def execFsinp (h : Hd) (ftz : Bool) (d a : VReg) (s : State) : Out :=
  .next (s.xWord (.fsinp h ftz d a) (s.xCycles 16) fun t => fpFunction fnSinPi .rn ftz (t.rn a))

def execFcosp (h : Hd) (ftz : Bool) (d a : VReg) (s : State) : Out :=
  .next (s.xWord (.fcosp h ftz d a) (s.xCycles 16) fun t => fpFunction fnCosPi .rn ftz (t.rn a))

/-! ### Packed halves (R142, R168) -/

/-- The element type of a packed word. -/
def halfFmt (bf : Bool) : Fmt := if bf then fmtBf16 else fmtF16

/-- Both elements of a register by one operation; the flags of both join. -/
def packed2 (op : Nat → Nat → Flagged) (a b : Nat) : Flagged :=
  let lo := op (a % 65536) (b % 65536)
  let hi := op (a / 65536) (b / 65536)
  (hi.1 * 65536 + lo.1, lo.2 ||| hi.2)

def execHadd2 (h : Hd) (bf : Bool) (rnd : Rnd) (d a b : VReg) (s : State) : Out :=
  .next (s.fixedWord (.hadd2 h bf rnd d a b) fun t =>
    (packed2 (fpAdd (halfFmt bf) rnd false) (t.rn a) (t.rn b)).res d)

def execHmul2 (h : Hd) (bf : Bool) (rnd : Rnd) (d a b : VReg) (s : State) : Out :=
  .next (s.fixedWord (.hmul2 h bf rnd d a b) fun t =>
    (packed2 (fpMul (halfFmt bf) rnd false) (t.rn a) (t.rn b)).res d)

def execHfma2 (h : Hd) (bf : Bool) (rnd : Rnd) (d a b c : VReg) (s : State) : Out :=
  .next (s.fixedWord (.hfma2 h bf rnd d a b c) fun t =>
    let f := halfFmt bf
    let lo := fpFma f rnd false (t.rn a % 65536) (t.rn b % 65536) (t.rn c % 65536)
    let hi := fpFma f rnd false (t.rn a / 65536) (t.rn b / 65536) (t.rn c / 65536)
    (Flagged.res d (hi.1 * 65536 + lo.1, lo.2 ||| hi.2)))

/-! ### FP64 (R169) -/

/-- A pair as bits. -/
def Thread.rn64 (t : Thread) (r : VReg) : Nat := (t.rv64 r.toNat).toNat

/-- A 64-bit result as two registers. -/
def Flagged.pair (x : Flagged) : List Word × BitVec 6 :=
  ([BitVec.ofNat 32 x.1, BitVec.ofNat 32 (x.1 / 2 ^ 32)], x.2)

def execDadd (h : Hd) (rnd : Rnd) (d a b : VReg) (s : State) : Out :=
  .next (s.xWord (.dadd h rnd d a b) (s.xCycles 8) fun t =>
    (fpAdd fmtF64 rnd false (t.rn64 a) (t.rn64 b)).pair)

def execDmul (h : Hd) (rnd : Rnd) (d a b : VReg) (s : State) : Out :=
  .next (s.xWord (.dmul h rnd d a b) (s.xCycles 8) fun t =>
    (fpMul fmtF64 rnd false (t.rn64 a) (t.rn64 b)).pair)

def execDfma (h : Hd) (rnd : Rnd) (d a b c : VReg) (s : State) : Out :=
  .next (s.xWord (.dfma h rnd d a b c) (s.xCycles 8) fun t =>
    (fpFma fmtF64 rnd false (t.rn64 a) (t.rn64 b) (t.rn64 c)).pair)

/-! ### Paired words (R66 to R68, R88) -/

/-- An imm8, sign-extended (R66). -/
def imm8 (b : BitVec 8) : Word := b.signExtend 32

/-- A value without flags. -/
def plain (x : Word) : Word × BitVec 6 := (x, 0)

/-- A floating value in a register. -/
def Flagged.word (x : Flagged) : Word × BitVec 6 := (BitVec.ofNat 32 x.1, x.2)

/-- The result of one half from its sources: A, B, and B8 as an immediate (R88). -/
def halfValue (op : ShortOp) (x y i : Word) : Word × BitVec 6 :=
  let fx := x.toNat
  let fy := y.toNat
  match op with
  | .mov => plain x
  | .iadd => plain (arith32 (· + ·) .s false x y)
  | .isub => plain (arith32 (· - ·) .s false x y)
  | .imul => plain (arith32 (· * ·) .s false x y)
  | .iminS => plain (intMin .s x y)
  | .imaxS => plain (intMax .s x y)
  | .iminN => plain (intMin .n x y)
  | .imaxN => plain (intMax .n x y)
  | .iand => plain (x &&& y)
  | .ior => plain (x ||| y)
  | .ixor => plain (x ^^^ y)
  | .ishl => plain (shl x (shiftCount 32 false y))
  | .ishr => plain (shr x (shiftCount 32 false y))
  | .isar => plain (sar x (shiftCount 32 false y))
  | .movI => plain i
  | .iaddI => plain (arith32 (· + ·) .s false x i)
  | .imulI => plain (arith32 (· * ·) .s false x i)
  | .iandI => plain (x &&& i)
  | .iorI => plain (x ||| i)
  | .ixorI => plain (x ^^^ i)
  | .ishlI => plain (shl x (shiftCount 32 false i))
  | .ishrI => plain (shr x (shiftCount 32 false i))
  | .isarI => plain (sar x (shiftCount 32 false i))
  | .fadd => (fpAdd fmtF32 .rn false fx fy).word
  | .fsub => (fpSub fmtF32 .rn false fx fy).word
  | .fmul => (fpMul fmtF32 .rn false fx fy).word
  | .fmin => (fpPick fmtF32 false false fx fy).word
  | .fmax => (fpPick fmtF32 true false fx fy).word
  | .hadd2F => (packed2 (fpAdd fmtF16 .rn false) fx fy).word
  | .hmul2F => (packed2 (fpMul fmtF16 .rn false) fx fy).word
  | .hadd2B => (packed2 (fpAdd fmtBf16 .rn false) fx fy).word
  | .hmul2B => (packed2 (fpMul fmtBf16 .rn false) fx fy).word

/-- Latency of a half (R55). (DEDUCED, log 34.) -/
def halfLatency (h : Half) : Nat := if h.sop.integer then 2 else 4

/-- One half's result for a thread. -/
def halfRes (h : Half) (t : Thread) : Res :=
  let r := halfValue h.sop (t.rv h.a.toNat) (t.rv h.b.toNat) (imm8 h.b)
  ⟨[(h.d.toNat, r.1)], [], r.2⟩

/-- A paired word: both halves read before either writes (R68). -/
def execPairedWord (c : Ctl) (h0 h1 : Half) (s : State) : Out :=
  .next (s.issue (.pairedWord c h0 h1) true fun _ act s1 =>
    s1.modThreads act fun t x =>
      let now := s.cycle t.core
      (x.produce now (halfLatency h0) (halfRes h0 x)).produce now (halfLatency h1) (halfRes h1 x))

end Sys2Proof.Machine
end

