-- ==== Sys2Proof/Machine/Cache.lean ====
section
/-! DEFINITION. Home memory and the caches before it: the L1, the cluster cache, stores in flight, writer
records, and the cache actions of releases and acquires (spec/09_memories.md R195, R196, R206 to R213,
R218, spec/10_consistency.md R226 to R235). -/

namespace Sys2Proof.Machine

/-! ### Home memory as bytes -/

/-- What a byte of home memory holds; a byte never written reads 0x00 (DESIGN CHOICE, log 7). -/
def memByte (m : List Host.Cell) (a : Nat) : Byte := FMap.getD m a 0

/-- `n` bytes from `a` on. -/
def memBytes (m : List Host.Cell) (a n : Nat) : List Byte := (List.range n).map fun i => memByte m (a + i)

/-- Write one byte, in canonical form: a byte equal to what an unlisted one reads as is not listed. -/
def memPut (m : List Host.Cell) (a : Nat) (b : Byte) : List Host.Cell := FMap.set m a b 0

/-- The canonical form of home memory: addresses strictly rise and no entry equals what an unlisted byte
reads as. -/
def Memory.wf (m : List Host.Cell) : Bool := FMap.sorted m && m.all fun c => c.2 != 0

/-- Write bytes from `a` on. -/
def memWrite (m : List Host.Cell) (a : Nat) : List Byte → List Host.Cell
  | [] => m
  | b :: bs => memWrite (memPut m a b) (a + 1) bs

/-- A 128-bit table entry at a physical address. -/
def State.entryAt (s : State) (a : Nat) : Nat := natLE (memBytes s.mem a 16)

/-- Bytes as cells from an address on. -/
def cellsFrom (a : Nat) : List Byte → List Host.Cell
  | [] => []
  | b :: bs => (a, b) :: cellsFrom (a + 1) bs

/-- Bytes at `base` with those of a write at `a` laid over them. -/
def overlay (base : Nat) (old : List Byte) (a : Nat) (new : List Byte) : List Byte :=
  old.zipIdx.map fun e =>
    let x := base + e.2
    if a ≤ x && x < a + new.length then new.getD (x - a) e.1 else e.1

/-! ### The home (R208 to R213, R218) -/

/-- What the model adds to a domain address of another device, so that no local address equals it: a peer leaf
may name device 0 (R193). -/
def peerBase : Nat := 2 ^ 62

/-- A domain address of another device (R193): its bytes are not in this package. (DEDUCED, log 57.) -/
def isPeer (phys : Nat) : Bool := peerBase ≤ phys

/-- Where a translated access is served. -/
structure Target where
  phys : Nat
  vf : Nat
  comp : Nat
  isOpen : Bool
  window : Bool
  /-- The VF of the accessing team, whose caches may hold copies; `vf` is that of the home. -/
  own : Nat
  /-- The gate through which the access goes (R365, R369). -/
  gate : Option Nat
  deriving DecidableEq, Repr

/-- Whether the counter tree is kept for a VF's lines (R211). -/
def State.treeKept (s : State) (vf : Nat) : Bool :=
  match (s.vf vf).partition with
  | some p => (s.partition p).eccMode != 2
  | none => true

/-- The memory slice that is a line's home (R208). -/
def sliceOf (line : Nat) : Nat := line / 2 ^ 27

/-- The nodes from a leaf of the tree up to the level below the root, by level × 2^32 + node (R212). -/
def treeNodes (leaf : Nat) : List Nat := (List.range 7).map fun l => l * 2 ^ 32 + leaf / 8 ^ l

/-- The nodes above a line have been verified: the slice's counter-tree cache holds them (R212). (DESIGN CHOICE,
log 181.) -/
def State.verifyLine (s : State) (vf : Nat) (isOpen : Bool) (line : Nat) : State :=
  if isOpen || isPeer (line * 64) || !s.treeKept vf then s
  else
    let x := FMap.getD s.slices (sliceOf line) Slice.reset
    let nodes := treeNodes (line / 64)
    let x := { x with treeTags := (nodes ++ x.treeTags.filter fun n => !nodes.contains n).take Config.treeCacheNodes }
    { s with slices := FMap.put s.slices (sliceOf line) x }

/-- An empty leaf of the tree. (DESIGN CHOICE, log 8.) -/
def TreeLeaf.zero : TreeLeaf := ⟨0, [], false⟩

/-- A write of a data line adds 1 to its minor counter; past 127 the major rises, the minors clear and
the re-encryption starts. A write that meets a running re-encryption waits for its end, which so comes first (R213). -/
def State.countLine (s : State) (line : Nat) : State :=
  let k := line / 64
  let leaf : TreeLeaf := { FMap.getD s.tree k .zero with busy := false }
  let m := FMap.getD leaf.minors (line % 64) 0
  if m < 127 then
    { s with tree := FMap.put s.tree k { leaf with minors := FMap.put leaf.minors (line % 64) (m + 1) } }
  else
    { s with tree := FMap.put s.tree k ⟨leaf.major + 1, [], true⟩ }.emit (.reencryptComplete k)

/-- Every write of a tree node adds 1 to its counter in the parent, up to the root (R212): level `l`
counts the nodes of the level below, of which a region of 2 GiB holds 2^19 at the leaves. -/
def State.countNode (s : State) (leaf : Nat) : State :=
  { s with treeUp := (List.range 7).foldl (fun m l =>
      let k := l * 2 ^ 32 + leaf / 8 ^ l
      FMap.put m k ((FMap.getD m k 0 + 1) % 2 ^ 56)) s.treeUp }

/-- The records that a slice's writer table holds, which are those of lines that the L2 does not hold (R234). -/
def State.tableRecords (s : State) (slice : Nat) : FMap Writer :=
  s.writers.filter fun e => sliceOf e.1 == slice && (FMap.find? s.l2 e.1).isNone

/-- The oldest of some records. -/
def oldestRecord : FMap Writer → Option (Nat × Writer)
  | [] => none
  | e :: rest =>
    match oldestRecord rest with
    | some x => if x.2.born < e.2.born then some x else some e
    | none => some e

/-- The `n` oldest of some records. -/
def oldestRecords (t : FMap Writer) : Nat → FMap Writer
  | 0 => []
  | n + 1 =>
    match oldestRecord t with
    | some e => e :: oldestRecords (FMap.del t e.1) n
    | none => []

/-- A slice's writer table holds 1,024 entries. Each record that finds it full waits at the home for the entry of the
oldest one there, whose forced publish is sent (R234). (DEDUCED, log 147.) -/
def State.tableFit (s : State) (slice : Nat) : State :=
  let t := s.tableRecords slice
  (oldestRecords t (t.length - 1024)).foldl (fun s e =>
    let x := Instr.forcedPublish (e.2.core / 4) e.2.vf e.1
    if s.pending.contains x || e.2.published then s else s.emit x) s

/-- The store buffer of a resident relaunchable team holds bytes of a line (R48, R210). -/
def State.pinnedLine (s : State) (line : Nat) : Bool :=
  s.teams.any fun t => t.2.storeBuf.any fun b => b.phys / 64 ≤ line && line * 64 < b.phys + b.bytes.length

/-- The lines that stand in the set of a line, apart from it: 2,048 sets a slice. (DESIGN CHOICE, log 53.) -/
def State.l2Set (s : State) (line : Nat) : FMap L2Tag :=
  s.l2.filter fun e => sliceOf e.1 == sliceOf line && e.1 % 2048 == line % 2048 && e.1 != line

/-- Replacement rank of a way of a set: an empty one first, a pinned one never. -/
def State.wayRank (s : State) (set : FMap L2Tag) (way : Nat) : Option Nat :=
  match List.find? (fun (e : Nat × L2Tag) => e.2.way == way) set with
  | some e => if s.pinnedLine e.1 then none else some (e.2.prio + 1)
  | none => some 0

/-- The ways in which a line of a VF may be put: of its mask, not pinned, and of the lowest rank. -/
def State.l2Ways (s : State) (vf line : Nat) : List Nat :=
  let set := s.l2Set line
  let ranks := ((List.range 16).filter fun w => (s.vf vf).wayMask.getLsbD w).filterMap fun w =>
    (s.wayRank set w).map fun r => (w, r)
  (ranks.filter fun e => ranks.all fun x => e.2 ≤ x.2).map Prod.fst

/-- A line is put into a way of its set; what stood there is written back and leaves, its record going to the
writer table (R209, R234). -/
def State.l2Put (s : State) (vf comp line : Nat) (dirty : Bool) (prio : Nat) : State :=
  match s.l2Ways vf line with
  | [] => { s with l2 := FMap.del s.l2 line }
  | w :: ws =>
    let way := (w :: ws).getD (Config.l2Way s.draws line (s.vf vf).wayMask.toNat % (ws.length + 1)) w
    let out := (s.l2Set line).filter fun e => e.2.way == way
    let s := { s with l2 := FMap.put (FMap.drop (fun k _ => out.any fun e => e.1 == k) s.l2) line ⟨vf, comp, dirty, way, prio⟩ }
    if out.any fun e => (FMap.find? s.writers e.1).isSome then s.tableFit (sliceOf line) else s

/-- A line of the L2 is filled or written under a VF and compartment with a replacement priority: a line of another
VF or compartment is no hit (R209, R210, R258). (DESIGN CHOICE, log 53.) -/
def State.allocL2 (s : State) (vf comp line : Nat) (dirty : Bool) (prio : Nat) : State :=
  if (s.vf vf).wayMask == 0 then s
  else
    match FMap.find? s.l2 line with
    | some g =>
      if g.vf == vf && g.compartment == comp then { s with l2 := FMap.put s.l2 line { g with dirty := g.dirty || dirty } }
      else s.l2Put vf comp line dirty prio
    | none => s.l2Put vf comp line dirty prio

/-- The replacement priority that a hint asks for in the L2 (R258). -/
def hintPrio : Hint → Nat
  | .stream => 0
  | .keep => 2
  | _ => 1

/-- The same without a hint. -/
def State.touchL2 (s : State) (vf comp line : Nat) (dirty : Bool) : State := s.allocL2 vf comp line dirty 1

/-- The priority of a target's lines: a hint is ignored for open pages (R258). -/
def Target.prio (g : Target) (h : Hint) : Nat := if g.isOpen then 1 else hintPrio h

/-- The lines of a read that reaches the home are filled in the L2, and their tree nodes verified (R209, R212). -/
def State.fillL2 (s : State) (g : Target) (phys n prio : Nat) : State :=
  if isPeer phys then s
  else ((List.range ((phys + n + 63) / 64 - phys / 64)).map (phys / 64 + ·)).foldl (fun s l =>
    (s.allocL2 g.vf g.comp l false prio).verifyLine g.vf g.isOpen l) s

/-- One line's part of a write reaches the home: the bytes, the poison mark cleared by a full line, the
counters, the L2 tag under a replacement priority. -/
def State.homeLine (s : State) (vf comp : Nat) (isOpen : Bool) (prio line : Nat) (cells : List Host.Cell) : State :=
  let s := { s with mem := cells.foldl (fun m (c : Host.Cell) => memPut m c.1 c.2) s.mem }
  let s := if 64 ≤ cells.length then { s with poison := FMap.del s.poison line } else s
  let s := if isOpen || !s.treeKept vf then s else (s.countLine line).countNode (line / 64)
  (s.verifyLine vf isOpen line).allocL2 vf comp line true prio

/-- A write reaches its home, whose bytes have no author until a release gives them one (R235); one to a peer leaves
the package. -/
def State.homeCells (s : State) (vf comp : Nat) (isOpen : Bool) (prio : Nat) (cells : List Host.Cell) : State :=
  let s := if s.authors.isEmpty then s
    else { s with authors := FMap.drop (fun a _ => cells.any fun c => c.1 == a) s.authors }
  ((cells.map fun c => c.1 / 64).eraseDups).foldl (fun s l =>
    if isPeer (l * 64) then s
    else s.homeLine vf comp isOpen prio l (cells.filter fun c => c.1 / 64 == l)) s

/-- Bytes reach their home under a replacement priority (R258). (DEDUCED, log 54.) -/
def State.homePut (s : State) (vf comp : Nat) (isOpen : Bool) (prio phys : Nat) (bs : List Byte) : State :=
  s.homeCells vf comp isOpen prio (cellsFrom phys bs)

/-- The same without a hint. (DEDUCED, log 54.) -/
def State.homeWrite (s : State) (vf comp : Nat) (isOpen : Bool) (phys : Nat) (bs : List Byte) : State :=
  s.homePut vf comp isOpen 1 phys bs

/-- Mark a 64-byte line poisoned at its home (R218, R219). -/
def State.poisonLine (s : State) (line : Nat) : State :=
  if isPeer (line * 64) then s else { s with poison := FMap.put s.poison line true }

/-- A line is poisoned, by its own mark, by a failed node above it (R213), or for the accesses whose reply was lost
(R214). -/
def State.poisonedLine (s : State) (line : Nat) : Bool :=
  (FMap.find? s.poison line).isSome || s.pkg.lost.contains line || s.treeFailed.any fun e => e.1 ≤ line / 64 && line / 64 < e.1 + e.2

/-- Some byte of a range lies in a poisoned line. -/
def State.poisoned (s : State) (phys n : Nat) : Bool :=
  (List.range ((phys + n + 63) / 64 - phys / 64)).any fun i => s.poisonedLine (phys / 64 + i)

/-- Bytes as the home holds them; those of a peer are free values (R193). -/
def State.homeBytes (s : State) (phys n : Nat) : List Byte :=
  if isPeer phys then (List.range n).map fun i => Config.peerByte s.draws (phys % 512 + i)
  else memBytes s.mem phys n

/-! ### The cluster cache (R206, R226) -/

def ccKey (cl phys : Nat) : Nat := cl * 2 ^ 60 + phys / 512

/-- The cluster of a cluster-cache key. -/
def ccCluster (k : Nat) : Nat := k / 2 ^ 60

/-- The first byte of the line of a cluster-cache key. -/
def ccBase (k : Nat) : Nat := k % 2 ^ 60 * 512

/-- The line of the cluster cache that holds an address of a VF. -/
def State.ccLine? (s : State) (cl vf phys : Nat) : Option CcLine :=
  match FMap.find? s.cc (ccKey cl phys) with
  | some l => if l.vf == vf then some l else none
  | none => none

/-- Lines that the cache-mode banks of a cluster hold (R197). -/
def State.ccCapacity (s : State) (cl : Nat) : Nat :=
  256 * ((List.range 64).filter fun b =>
    let m := FMap.getD (s.cluster cl).banks b ⟨0, false, 0⟩
    m.mode == 0 && !m.switching).length

/-- The bytes of a line that have not reached the home. -/
def CcLine.cells (l : CcLine) (base : Nat) : List Host.Cell :=
  (cellsFrom base l.bytes).filter fun c => l.dirty.getLsbD (c.1 - base)

/-- Drop a line. -/
def State.ccDrop (s : State) (k : Nat) : State := { s with cc := FMap.del s.cc k }

/-- The least of the values in force since a moment, newest update first; before the first update RETN
holds its reset value (R104). -/
def retnSince : List (Nat × Nat) → Nat → Nat
  | [], _ => 40000
  | (t, v) :: rest, since => if t < since then v else min v (retnSince rest since)

/-- retn_low of R201, from a moment up to now. -/
def State.retnLow (s : State) (cl since : Nat) : Nat :=
  min (s.cluster cl).retn (retnSince (s.cluster cl).retnLog since)

/-- The age of a cluster-cache line in µs. -/
def State.ccAge (s : State) (l : CcLine) : Nat := s.us - l.stamp / 1000

/-- A line has reached its limit (R206). -/
def State.ccLost (s : State) (k : Nat) (l : CcLine) : Bool := s.retnLow (ccCluster k) l.stamp / 1000 ≤ s.ccAge l

/-- The sectors of a line with written bytes, as line numbers of the home. -/
def CcLine.dirtySectors (l : CcLine) (base : Nat) : List Nat :=
  ((List.range 8).filter fun k => l.dirty.extractLsb' (64 * k) 64 != 0).map fun k => base / 64 + k

/-- A 32-bit count that stops at its largest value. -/
def satInc (x : BitVec 32) : BitVec 32 := if x == 0xFFFFFFFF then x else x + 1

/-- A read that corrects a single-bit error of a cluster's memory or L1s is counted (R220, R386). -/
def State.corrected (s : State) (cl : Nat) (flip : Bool) : State :=
  if flip then s.modCluster cl fun k => { k with correctable := satInc k.correctable } else s

/-- A line that has reached its limit is dropped, its dirty sectors go home poisoned, and the loss is counted (R206).
(DEDUCED, log 131.) -/
def State.ccLose (s : State) (k : Nat) : State :=
  match FMap.find? s.cc k with
  | some l =>
    let s := if l.dirty == 0 then s else s.homeCells l.vf l.compartment false (if l.keep then 2 else 1) (l.cells (ccBase k))
    let s := ((l.dirtySectors (ccBase k)).foldl State.poisonLine s).ccDrop k
    s.modCluster (ccCluster k) fun c => { c with retentionLoss := satInc c.retentionLoss }
  | none => s

/-- An access to a line finds it within its limit, or finds it lost. -/
def State.ccSettle (s : State) (k : Nat) : State :=
  match FMap.find? s.cc k with
  | some l => if s.ccLost k l then s.ccLose k else s
  | none => s

/-- Write back a line's written bytes; the line stays, clean. -/
def State.ccBack (s : State) (k : Nat) : State :=
  match FMap.find? s.cc k with
  | some l =>
    if l.dirty == 0 then s
    else if s.ccLost k l then s.ccLose k
    else
      let s := (s.homeCells l.vf l.compartment false (if l.keep then 2 else 1) (l.cells (ccBase k))).corrected
        (ccCluster k) l.flip
      { s with cc := FMap.put s.cc k { l with dirty := 0, flip := false } }
  | none => s

/-- The sweeper may visit a line: its age has reached floor(RETN / 2,000) µs and not its limit (R206). -/
def State.ccDue (s : State) (k : Nat) (l : CcLine) : Bool :=
  (s.cluster (ccCluster k)).retn / 2000 ≤ s.ccAge l && !s.ccLost k l

/-- Every cache-mode bank is full of dirty lines and none is due yet: a fill waits for the sweeper (R206). -/
def State.ccStuck (s : State) (cl : Nat) : Bool :=
  let mine := s.cc.filter fun e => ccCluster e.1 == cl
  s.ccCapacity cl != 0 && s.ccCapacity cl ≤ mine.length && mine.all fun e => e.2.dirty != 0 && !s.ccDue e.1 e.2

/-- Room for one more line: as the state has it, or after a clean line of the lowest priority has left, or after the
sweeper's visit of a line that is due (free choices). (DEDUCED, log 55.) -/
def State.ccRoom (s : State) (cl : Nat) : Option State :=
  let mine := s.cc.filter fun e => ccCluster e.1 == cl
  if mine.length < s.ccCapacity cl then some s
  else
    let clean := mine.filter fun e => e.2.dirty == 0
    let low := if clean.any fun e => !e.2.keep then clean.filter fun e => !e.2.keep else clean
    let out := (if low.isEmpty then mine.filter fun e => s.ccDue e.1 e.2 else low).map Prod.fst
    if out.isEmpty then none
    else
      let k := out.getD (Config.choose s.draws out.length % out.length) 0
      some (({ s with draws := s.draws + 1 }.ccBack k).ccDrop k)

/-- Fill the line of an address from its home, through the L2; nothing is filled where a sector of it is poisoned or no
line can leave. -/
def State.ccFill (s : State) (cl : Nat) (g : Target) (hint : Hint) : State :=
  let s := s.ccSettle (ccKey cl g.phys)
  let base := g.phys / 512 * 512
  if (s.ccLine? cl g.own g.phys).isSome || s.poisoned base 512 then s
  else match s.ccRoom cl with
    | none => s
    | some s =>
      let s := s.fillL2 g base 512 (g.prio hint)
      let l : CcLine := ⟨g.own, g.comp, s.homeBytes base 512, 0, s.pkg.clk, hint == .keep, false⟩
      { s with cc := FMap.put s.cc (ccKey cl g.phys) l, draws := s.draws + 1 }

/-- A read that hits a line of the cluster cache corrects its error (R220). -/
def State.ccRead (s : State) (cl own phys : Nat) : State :=
  match s.ccLine? cl own phys with
  | some l =>
    if l.flip then { s with cc := FMap.put s.cc (ccKey cl phys) { l with flip := false } }.corrected cl true else s
  | none => s

/-- Write bytes into a line of the cache, dirty or as a clean copy of what its home has. -/
def CcLine.write (l : CcLine) (base phys : Nat) (bs : List Byte) (dirty : Bool) (clk : Nat) : CcLine :=
  { l with
    bytes := overlay base l.bytes phys bs
    dirty := if dirty then
        (List.range bs.length).foldl (fun d i => d ||| ((1#512) <<< (phys + i - base))) l.dirty
      else l.dirty
    stamp := clk }

/-- Every key of a VF's lines in a cluster. -/
def State.ccKeys (s : State) (cl vf : Nat) : List Nat :=
  (s.cc.filter fun e => ccCluster e.1 == cl && e.2.vf == vf).map Prod.fst

/-- Write back the dirty bytes that a cluster's cache holds for a VF. -/
def State.ccBackAll (s : State) (cl vf : Nat) : State := (s.ccKeys cl vf).foldl State.ccBack s

/-- Write back and drop a VF's lines in a cluster. -/
def State.ccFlush (s : State) (cl vf : Nat) : State :=
  (s.ccKeys cl vf).foldl (fun s k => (s.ccBack k).ccDrop k) s

/-! ### The L1 (R195, R196) -/

/-- The L1 line that holds an address of a VF. -/
def State.l1Line? (s : State) (core vf phys : Nat) : Option L1Line :=
  match FMap.find? (s.core core).l1 (phys / 128) with
  | some l => if l.vf == vf then some l else none
  | none => none

/-- Put a line into the L1; where its 4-way set is full, a line of free choice leaves. (DESIGN CHOICE, log 56.) -/
def State.l1Put (s : State) (core vf phys : Nat) (bs : List Byte) : State :=
  let k := phys / 128
  let set := ((s.core core).l1.filter fun e => e.1 % 512 == k % 512 && e.1 != k).map Prod.fst
  let s := if set.length < 4 then s
    else { s with draws := s.draws + 1 }.modCore core fun c =>
      { c with l1 := FMap.del c.l1 (set.getD (Config.choose s.draws set.length % set.length) 0) }
  s.modCore core fun c => { c with l1 := FMap.put c.l1 k ⟨vf, bs, false⟩ }

/-- A read that hits a line corrects its error (R220). -/
def State.l1Read (s : State) (core vf phys : Nat) : State :=
  match s.l1Line? core vf phys with
  | some l =>
    if l.flip then
      (s.modCore core fun c => { c with l1 := FMap.put c.l1 (phys / 128) { l with flip := false } }).corrected (core / 4) true
    else s
  | none => s

/-- A store updates the line that it hits. -/
def State.l1Update (s : State) (core vf phys : Nat) (bs : List Byte) : State :=
  match s.l1Line? core vf phys with
  | some l => s.modCore core fun c =>
      { c with l1 := FMap.put c.l1 (phys / 128) { l with bytes := overlay (phys / 128 * 128) l.bytes phys bs } }
  | none => s

/-- Drop one line. -/
def State.l1Drop (s : State) (core phys : Nat) : State :=
  match FMap.find? (s.core core).l1 (phys / 128) with
  | some _ => s.modCore core fun c => { c with l1 := FMap.del c.l1 (phys / 128) }
  | none => s

/-- Invalidate the whole L1. -/
def State.l1Flush (s : State) (core : Nat) : State :=
  if (s.core core).l1.isEmpty then s else s.modCore core fun c => { c with l1 := [] }

/-! ### Stores in flight (R226) -/

/-- The bytes of a write have an author (R235). -/
def State.noteAuthor (s : State) (phys n : Nat) (a : Author) : State :=
  if isPeer phys then s
  else { s with authors := (List.range n).foldl (fun m i => FMap.put m (phys + i) a) s.authors }

/-- The bytes of a performed release have their author (R235), and its line the writer record, or none from device
scope on (R234). -/
def State.noteWriter (s : State) (phys n : Nat) (w : Option (Author × Option Writer)) : State :=
  match w with
  | some (a, r) =>
    if isPeer phys then s
    else
      let s := s.noteAuthor phys n a
      match r with
      | some w => { s with writers := FMap.put s.writers (phys / 64) { w with born := s.pkg.clk } }.tableFit (sliceOf (phys / 64))
      | none => if (FMap.find? s.writers (phys / 64)).isSome then { s with writers := FMap.del s.writers (phys / 64) } else s
  | none => s

/-- The authors of the bytes of a read that releases wrote, each once. -/
def State.authorsOf (s : State) (phys n : Nat) : List Author :=
  ((List.range n).filterMap fun i => FMap.find? s.authors (phys + i)).eraseDups

/-- What each of some bytes has as its author. -/
def State.byteAuthors (s : State) (phys n : Nat) : List (Nat × Author) :=
  (List.range n).filterMap fun i => (FMap.find? s.authors (phys + i)).map fun a => (phys + i, a)

/-- Put bytes into the cluster cache as dirty ones, if it has or can get a line for them. -/
def State.ccStore (s : State) (cl : Nat) (f : InFlight) : Option State :=
  let s := s.ccFill cl ⟨f.phys, f.vf, f.compartment, f.isOpen, f.window, f.own, f.gate⟩ f.hint
  (s.ccLine? cl f.own f.phys).map fun l =>
    { s with cc := FMap.put s.cc (ccKey cl f.phys) (l.write (f.phys / 512 * 512) f.phys f.bytes true s.pkg.clk) }

/-- A clean copy in the cluster cache follows a write that went to the home. -/
def State.ccFollow (s : State) (cl own phys : Nat) (bs : List Byte) : State :=
  match s.ccLine? cl own phys with
  | some l => { s with cc := FMap.put s.cc (ccKey cl phys) (l.write (phys / 512 * 512) phys bs false s.pkg.clk) }
  | none => s

/-- A write goes to the home past the cluster cache, whose older written bytes of the line go first. -/
def State.throughStore (s : State) (cl : Nat) (f : InFlight) : State :=
  let s := s.ccSettle (ccKey cl f.phys)
  let s := match s.ccLine? cl f.own f.phys with
    | some _ => s.ccBack (ccKey cl f.phys)
    | none => s
  (s.homePut f.vf f.compartment f.isOpen (if f.isOpen then 1 else hintPrio f.hint) f.phys f.bytes).ccFollow cl f.own f.phys
    f.bytes

/-- A STORE IS PERFORMED beyond its core: the cluster cache or the home accepts it (R226). -/
def State.performStore (s : State) (n : Nat) : State :=
  match FMap.find? s.stores n with
  | none => s
  | some f =>
    let s := { s with stores := FMap.del s.stores n }
    let cl := f.core / 4
    let s := if f.bypass then s.throughStore cl f
      else match s.ccStore cl f with
        | some s => s
        | none => s.throughStore cl f
    let s := s.noteWriter f.phys f.bytes.length f.writer
    match f.tid, f.tag with
    | some t, some n =>
      if s.stores.any fun e => e.2.tid == f.tid && e.2.tag == f.tag then s
      else s.deliver t (some n) ⟨[], 0, none⟩
    | _, _ => s

/-- An older store of the same core to a common byte, which is performed first (R223, R261). -/
def blocksStore (e f : Nat × InFlight) : Bool :=
  e.1 < f.1 && e.2.core == f.2.core && overlaps e.2.phys e.2.bytes.length f.2.phys f.2.bytes.length

/-- An older store of the same core to a common byte is still in flight. -/
def State.storeBlocked (s : State) (n : Nat) (f : InFlight) : Bool := s.stores.any fun e => blocksStore e (n, f)

/-- The stores that a test names, with the older ones that are performed before one of them, oldest first. -/
def withBlockers (p : InFlight → Bool) : FMap InFlight → FMap InFlight
  | [] => []
  | e :: rest =>
    let out := withBlockers p rest
    if p e.2 || out.any (blocksStore e) then e :: out else out

/-- Perform every store in flight that a test names, oldest first. -/
def State.drain (s : State) (p : InFlight → Bool) : State :=
  ((withBlockers p s.stores).map Prod.fst).foldl State.performStore s

/-- Bytes as a core sees them under its own stores in flight. -/
def State.ownBytes (s : State) (core phys : Nat) (bs : List Byte) : List Byte :=
  (s.stores.filter fun e => e.2.core == core).foldl
    (fun bs e => overlay phys bs e.2.phys e.2.bytes) bs

/-! ### Releases and acquires -/

/-- The scopes, narrow to wide (R14). -/
def scopeRank : Scope → Nat
  | .cohort => 0 | .team => 1 | .cluster => 2 | .quad => 3 | .device => 4 | .domain => 5 | .system => 6

/-- R227: what a release at a scope waits for. Cohort and team scope need nothing: the stores have updated
or passed the L1. A release of a window location leaves other window stores out (R242). (DEDUCED, log 21.) -/
def State.releaseSet (s : State) (core own : Nat) (sc : Scope) (window : Bool) : State :=
  if scopeRank sc < 2 then s
  else if scopeRank sc == 2 then s.drain fun f => f.core == core && !(window && f.window)
  else (s.drain fun f => f.core / 4 == core / 4 && !(window && f.window)).ccBackAll (core / 4) own

/-- A local frame that an open window has taken (R366). -/
def State.windowed (s : State) (phys : Nat) : Bool :=
  s.pkg.windows.any fun w => w.2.state != 0 && w.2.frames.any (· == phys / 65536 * 65536)

/-- A physical line that a window covers, or that lies on a peer, where it may be a window's (R216). -/
def State.windowLine (s : State) (phys : Nat) : Bool := isPeer phys || s.windowed phys

/-- R226: the cache action of an acquire. -/
def State.cacheAction (s : State) (core own : Nat) (sc : Scope) : State :=
  if scopeRank sc < 2 then s
  else if scopeRank sc == 2 then s.l1Flush core
  else (s.l1Flush core).ccFlush (core / 4) own

/-- The cache action of an acquire of a window location that another VF wrote: copies of window lines stay (R242). -/
def State.windowAction (s : State) (core own : Nat) (sc : Scope) : State :=
  if scopeRank sc < 2 then s
  else
    let s := s.modCore core fun c => { c with l1 := FMap.drop (fun k _ => !s.windowLine (k * 128)) c.l1 }
    if scopeRank sc == 2 then s
    else ((s.ccKeys (core / 4) own).filter fun k => !s.windowLine (ccBase k)).foldl (fun s k => (s.ccBack k).ccDrop k) s

/-- The narrowest scope that contains two threads (R235). -/
def narrowest (core slot core' slot' : Nat) : Scope :=
  if core == core' && slot == slot' then .team
  else if core / 4 == core' / 4 then .cluster
  else if core / 16 == core' / 16 then .quad
  else .device

/-- The wider of two scopes. -/
def scopeWider (a b : Scope) : Scope := if scopeRank a < scopeRank b then b else a

/-- The scope at which an acquire acts, widened to contain the authors of what it returns (R235). -/
def State.acquireScope (as : List Author) (core slot : Nat) (sc : Scope) : Scope :=
  as.foldl (fun sc a => scopeWider sc (narrowest core slot a.core a.slot)) sc

/-- The acquiring thread lies outside the scope of a recorded release (R234). -/
def Writer.excludes (w : Writer) (core slot : Nat) : Bool :=
  scopeRank w.scope < scopeRank (narrowest core slot w.core w.slot)

/-- What a release at a scope leaves at its home: its author, and a record below device scope (R234, R235). -/
def writerOf (core slot vf : Nat) (sc : Scope) : Author × Option Writer :=
  (⟨core, slot, vf⟩, if scopeRank sc < 4 then some ⟨core, slot, vf, sc, 0, false⟩ else none)

/-- A FORCED PUBLISH in a cluster: the covered stores in flight are drained and the VF's dirty bytes
written back (R234). -/
def State.publish (s : State) (cl vf : Nat) : State :=
  (s.drain fun f => f.core / 4 == cl && f.own == vf).ccBackAll cl vf

/-- A record is cleared. -/
def State.clearWriter (s : State) (line : Nat) : State := { s with writers := FMap.del s.writers line }

/-! ### Loads (R195, R206, R226, R228) -/

/-- Read at the home, after the core's own stores to the line and the cluster cache's written bytes of it
have gone there; none where the bytes are poisoned. -/
def State.loadHome (s : State) (core : Nat) (g : Target) (n : Nat) (hint : Hint) : Option (List Byte) × State :=
  let base := g.phys / 128 * 128
  let s := s.drain fun f => f.core == core && overlaps f.phys f.bytes.length base 128
  let s := s.ccSettle (ccKey (core / 4) g.phys)
  let s := match s.ccLine? (core / 4) g.own g.phys with
    | some _ => s.ccBack (ccKey (core / 4) g.phys)
    | none => s
  if s.poisoned g.phys n then (none, s)
  else
    let s := s.fillL2 g g.phys n (g.prio hint)
    (some (s.homeBytes g.phys n), { s with draws := s.draws + 1 })

/-- A load that may hit: the L1, else the cluster cache, else the home, filling what it missed under the
hint. -/
def State.loadStale (s : State) (core : Nat) (g : Target) (n : Nat) (hint : Hint) : Option (List Byte) × State :=
  let stream := hint == .stream
  if g.isOpen then
    if s.poisoned g.phys n then (none, s)
    else (some (s.ownBytes core g.phys (s.homeBytes g.phys n)), s.fillL2 g g.phys n 1)
  else
    match s.l1Line? core g.own g.phys with
    | some l => (some ((l.bytes.drop (g.phys % 128)).take n), (s.l1Read core g.own g.phys).count core 0x0010 1)
    | none =>
      let s := (s.count core 0x0011 1).ccSettle (ccKey (core / 4) g.phys)
      let s := s.count core (if (s.ccLine? (core / 4) g.own g.phys).isSome then 0x0012 else 0x0013) 1
      let s := (if stream then s else s.ccFill (core / 4) g hint).ccRead (core / 4) g.own g.phys
      let base := g.phys / 128 * 128
      match s.ccLine? (core / 4) g.own g.phys with
      | some l =>
        let bs := s.ownBytes core base ((l.bytes.drop (base % 512)).take 128)
        (some ((bs.drop (g.phys % 128)).take n), if stream then s else s.l1Put core g.own g.phys bs)
      | none =>
        if s.poisoned g.phys n then (none, s)
        else
          let s := if stream then s.fillL2 g g.phys n 0 else s.fillL2 g base 128 (g.prio hint)
          let bs := s.ownBytes core base (s.homeBytes base 128)
          let s := { s with draws := s.draws + 1 }
          (some ((bs.drop (g.phys % 128)).take n),
            if stream || s.poisoned base 128 then s else s.l1Put core g.own g.phys bs)

/-- A `.fresh` load reads the home and refills the lines on its way (R206, R226). -/
def State.loadFresh (s : State) (core : Nat) (g : Target) (n : Nat) (hint : Hint) : Option (List Byte) × State :=
  let stream := hint == .stream
  let (r, s) := s.loadHome core g n hint
  if g.isOpen || r.isNone then (r, s)
  else
    let s := (s.ccDrop (ccKey (core / 4) g.phys)).l1Drop core g.phys
    let s := if stream then s else s.ccFill (core / 4) g hint
    let base := g.phys / 128 * 128
    let s := if stream || s.poisoned base 128 then s
      else match s.ccLine? (core / 4) g.own g.phys with
        | some l => s.l1Put core g.own g.phys (s.ownBytes core base ((l.bytes.drop (base % 512)).take 128))
        | none => (s.fillL2 g base 128 (g.prio hint)).l1Put core g.own g.phys (s.ownBytes core base (s.homeBytes base 128))
    (r.map fun bs =>
      match s.l1Line? core g.own g.phys with
      | some l => (l.bytes.drop (g.phys % 128)).take n
      | none => bs, s)

/-- An access performed at the home leaves no older copy of its line on its way (R223, R228). -/
def State.forgetLine (s : State) (core : Nat) (g : Target) : State :=
  let s := s.l1Drop core g.phys
  match s.ccLine? (core / 4) g.own g.phys with
  | some _ => (s.ccBack (ccKey (core / 4) g.phys)).ccDrop (ccKey (core / 4) g.phys)
  | none => s

end Sys2Proof.Machine
end

