-- ==== Sys2Proof/Machine/Translate.lean ====
section
/-! DEFINITION. Addresses and translation: the regions of the virtual space, the four-level walk, the
TLBs, permissions (spec/09_memories.md R191 to R194, R208, R215, R216, spec/14_tables.md R342 to
R348). -/

namespace Sys2Proof.Machine

/-! ### Table entries (R343 to R346) -/

/-- A physical address that no entry may name: at 2^40 or above, in a slice's counter-tree area, or in
a slice that Almanac disabled (R208, R403). -/
def State.badFrame (s : State) (a : Nat) : Bool :=
  2 ^ 40 ≤ a || 2 ^ 33 - 160 * 2 ^ 20 ≤ a % 2 ^ 33 ||
  (FMap.getD s.slices (a / 2 ^ 33) Slice.reset).disabled

/-- An upper entry that breaks R343. -/
def upperInvalid (e : Nat) : Bool :=
  bitsOf e 116 12 != 0 || bitsOf e 3 45 != 0 || 2 ≤ bitsOf e 0 2 ||
  (bitsOf e 0 2 == 1 && (bitsOf e 64 14 != 0 || 2 ^ 40 ≤ bitsOf e 64 52))

/-- A leaf that breaks R344 to R346, apart from a large run. -/
def State.leafInvalid (s : State) (vf e : Nat) : Bool :=
  let p := leafPayload e
  bitsOf e 16 48 != 0 || bitsOf e 2 3 != 0 || bitsOf e 0 2 == 1 || bitsOf e 0 2 == 3 || 6 ≤ leafKind e ||
  (bitsOf e 0 2 == 2 &&
    (match leafKind e with
     | 0 | 3 => p % 65536 != 0 || 2 ^ 52 ≤ p || s.badFrame p
     | 1 => p % 65536 != 0 || 2 ^ 62 ≤ p || p / 2 ^ 52 == ownDevice
     | 2 => bitsOf p 41 7 != 0
     | 4 => bitsOf p 0 48 % 65536 != 0 || (FMap.find? s.pkg.windows (bitsOf p 48 16)).isNone
     | 5 => bitsOf p 0 48 % 65536 != 0 || (FMap.find? (s.vf vf).gates (bitsOf p 48 16)).isNone
     | _ => true))

/-- The leaves of the 2 MiB run around a leaf agree but for Dirty and the frame, name consecutive frames, and each of
them stands by itself (R192, R346). -/
def State.largeOk (s : State) (vf table idx : Nat) : Bool :=
  let first := idx / 32 * 32
  let e0 := s.entryAt (table + first * 16)
  (List.range 32).all fun i =>
    let e := s.entryAt (table + (first + i) * 16)
    !s.leafInvalid vf e && bitsOf e 0 12 == bitsOf e0 0 12 && bitsOf e 13 51 == bitsOf e0 13 51 &&
    leafPayload e == leafPayload e0 + i * 65536

/-- The end of a walk (R193, R346): the namespace of the remote region it passed, if any, and the leaf. -/
inductive Walk where
  | leaf (e : TlbEntry)
  | absent (region : Option Nat)
  | invalid (region : Option Nat)
  deriving DecidableEq, Repr

/-- The leaf level of a walk (R192, R344). -/
def State.walkLeaf (s : State) (vf va table : Nat) (region : Option Nat) : Walk :=
  let idx := bitsOf va 16 10
  let e := s.entryAt (table + idx * 16)
  if s.leafInvalid vf e then .invalid region
  else if bitsOf e 0 2 == 0 then .absent region
  else if leafLarge e && !s.largeOk vf table idx then .invalid region
  else .leaf ⟨vf, va / 65536, leafLarge e, e, table + idx * 16, region⟩

/-- An upper entry as the walk cache holds it: VF, first index bit, address prefix, the table below it,
and the region that applies below it (R348). -/
abbrev WalkEntry := Nat × Nat × Nat × Nat × Option Nat

/-- The cached upper entry for an address at a level. -/
def cachedUpper (wc : List WalkEntry) (vf lo va : Nat) : Option (Nat × Option Nat) :=
  (wc.find? fun e => e.1 == vf && e.2.1 == lo && e.2.2.1 == va / 2 ^ lo).map fun e => (e.2.2.2.1, e.2.2.2.2)

/-- The upper levels: first bit of the index and its width, for each level still to read; the entries
read join the walk cache. -/
def State.walkFrom (s : State) (wc : List WalkEntry) (vf va : Nat) (table : Nat) (region : Option Nat) :
    List (Nat × Nat) → Walk × List WalkEntry
  | [] => (s.walkLeaf vf va table region, [])
  | (lo, n) :: rest =>
    match cachedUpper wc vf lo va with
    | some (t, r) => s.walkFrom wc vf va t r rest
    | none =>
      let e := s.entryAt (table + bitsOf va lo n * 16)
      if upperInvalid e then (.invalid region, [])
      else
        let region := if bitsOf e 2 1 == 1 then some (bitsOf e 48 16) else region
        if bitsOf e 0 2 == 0 then (.absent region, [])
        else
          let (w, es) := s.walkFrom wc vf va (bitsOf e 64 52) region rest
          (w, (vf, lo, va / 2 ^ lo, bitsOf e 64 52, region) :: es)

/-- The levels above the leaves (R192). -/
def upperLevels : List (Nat × Nat) := [(46, 11), (36, 10), (26, 10)]

/-- THE WALK of one virtual address from the VF's root, by a walker without a walk cache (R192, R343 to
R346). -/
def State.walk (s : State) (vf va : Nat) : Walk := (s.walkFrom [] vf va (s.vf vf).root none upperLevels).1

/-- Home addresses of the entries that a walk reads. -/
def State.walkReads (s : State) (va table : Nat) : List (Nat × Nat) → List Nat
  | [] => [table + bitsOf va 16 10 * 16]
  | (lo, n) :: rest =>
    let a := table + bitsOf va lo n * 16
    let e := s.entryAt a
    a :: (if upperInvalid e || bitsOf e 0 2 == 0 then [] else s.walkReads va (bitsOf e 64 52) rest)

/-- The walker reads entries as device-scope acquire loads at their homes (R346): a line on its way that
carries a writer record is published first (R234); `n` bounds the lines. -/
def State.publishWalk (s : State) (vf va : Nat) : Nat → State
  | 0 => s
  | n + 1 =>
    let hit := (s.walkReads va (s.vf vf).root upperLevels).find? fun a => (FMap.find? s.writers (a / 64)).isSome
    match hit with
    | some a =>
      match FMap.find? s.writers (a / 64) with
      | some w => ((s.publish (w.core / 4) w.vf).clearWriter (a / 64)).publishWalk vf va n
      | none => s
    | none => s

/-! ### TLBs (R348) -/

/-- Put an entry into a TLB of `n` entries; of a full one, a victim of free choice leaves. -/
def tlbPut (tlb : List TlbEntry) (e : TlbEntry) (n draw : Nat) : List TlbEntry :=
  let tlb := tlb.filter fun x => !(x.hits e.vf (e.page * 65536))
  if tlb.length < n then tlb ++ [e] else tlb.eraseIdx (Config.choose draw n % n) ++ [e]

/-- Put an entry into the second-level TLB of 4,096 entries in 8 ways, whose set overflows by itself (R348).
(DESIGN CHOICE, log 182.) -/
def tlb2Put (tlb : List TlbEntry) (e : TlbEntry) (draw : Nat) : List TlbEntry :=
  let tlb := tlb.filter fun x => !(x.hits e.vf (e.page * 65536))
  let mine := fun (x : TlbEntry) => Config.tlbSet x.page % 512 == Config.tlbSet e.page % 512
  let set := tlb.filter mine
  if set.length < 8 then tlb ++ [e]
  else tlb.filter (fun x => !mine x) ++ set.eraseIdx (Config.choose draw 8 % 8) ++ [e]

/-- Fill the core's own TLB. -/
def State.fillTlb (s : State) (core : Nat) (e : TlbEntry) (fetch : Bool) : State :=
  let s := { s with draws := s.draws + 1 }
  s.modCore core fun c =>
    if fetch then { c with itlb := tlbPut c.itlb e 32 s.draws }
    else { c with dtlb := tlbPut c.dtlb e 64 s.draws }

/-- Put upper entries into the cluster's walk cache of 256 entries, the oldest leaving (DESIGN CHOICE, log 25). -/
def walkPut (wc es : List WalkEntry) : List WalkEntry := (es ++ wc).take 256

/-- The key of an absent leaf in a remote region (R345). -/
def regionKey (ns va : Nat) : DWord := BitVec.ofNat 64 (ns * 2 ^ 48 + bitsOf va 16 41)

/-- A TLB access to a page that may leave the device: it becomes the one used last (R330). -/
def State.touchHeld (s : State) (vf va : Nat) : State :=
  let own := fun (x : HeldPage) => x.vf == vf && (x.page == va / 65536 || (x.large && x.page / 32 == va / 2 ^ 21))
  if s.hubs.any fun h => h.2.held.any own then
    { s with hubs := FMap.mapV (fun _ h =>
        { h with held := h.held.filter (fun x => !own x) ++ h.held.filter own }) s.hubs }
  else s

/-- A local page of a remote region that the walker uses may leave the device from now on, as the one used last (R330). -/
def State.holdPage (s : State) (hub : Nat) (x : HeldPage) : State :=
  if s.hubs.any fun h => h.2.held.any fun y => y.vf == x.vf && y.page == x.page && y.frame == x.frame then s
  else s.modHub hub fun h => { h with held := h.held.filter (fun y => !(y.vf == x.vf && y.page == x.page)) ++ [x] }

/-- The walker's first use of a local leaf: the pages that it maps. -/
def State.noteHeld (s : State) (e : TlbEntry) : State :=
  match e.region, (s.vf e.vf).partition with
  | some ns, some p =>
    if leafKind e.leaf != 0 then s
    else
      let pages := if leafLarge e.leaf then (List.range 32).map (e.page / 32 * 32 + ·) else [e.page]
      pages.foldl (fun s k => s.holdPage (s.partition p).homeHub
        ⟨e.vf, k, regionKey ns (k * 65536), leafPayload (e.leafFor (k * 65536)), none, leafLarge e.leaf⟩) s
  | _, _ => s

/-- Translate through the core's TLB, the cluster's second level and the walker, filling what missed
(R346, R348). `fetch` uses the instruction TLB. -/
def State.translate (s : State) (core vf va : Nat) (fetch : Bool) : Walk × State :=
  let s := s.touchHeld vf va
  let c := s.core core
  match (if fetch then c.itlb else c.dtlb).find? (·.hits vf va) with
  | some e => (.leaf e, s)
  | none =>
    let s := if fetch then s else s.count core 0x0014 1
    match (s.cluster (core / 4)).tlb2.find? (·.hits vf va) with
    | some e => (.leaf e, s.fillTlb core e fetch)
    | none =>
      let s := (s.count core 0x0015 1).publishWalk vf va 4
      let (w, es) := s.walkFrom (s.cluster (core / 4)).walkCache vf va (s.vf vf).root none upperLevels
      let s := s.modCluster (core / 4) fun k => { k with walkCache := walkPut k.walkCache es }
      match w with
      | .leaf e =>
        let s := { s with draws := s.draws + 1 }
        let s := s.modCluster (core / 4) fun k => { k with tlb2 := tlb2Put k.tlb2 e s.draws }
        (.leaf e, (s.fillTlb core e fetch).noteHeld e)
      | w => (w, s)

/-- Change every TLB entry of a leaf that a test names, in the TLBs of one cluster's cores and its second
level. -/
def State.modTlbs (s : State) (cl : Nat) (f : List TlbEntry → List TlbEntry) : State :=
  let s := (List.range 4).foldl (fun s k =>
    if (s.core (cl * 4 + k)).dtlb.isEmpty && (s.core (cl * 4 + k)).itlb.isEmpty then s
    else s.modCore (cl * 4 + k) fun c => { c with dtlb := f c.dtlb, itlb := f c.itlb }) s
  if (s.cluster cl).tlb2.isEmpty then s else s.modCluster cl fun k => { k with tlb2 := f k.tlb2 }

/-- The leaf with Dirty set. -/
def dirtyLeaf (e : Nat) : Nat := if leafDirty e then e else e + 2 ^ 12

/-- A first store through an entry sets Dirty at the home where the leaf still holds the value read, and in
the copies of the leaf (R346, R348); otherwise the walker walks again. -/
def State.setDirty (s : State) (core : Nat) (e : TlbEntry) : Option State :=
  if leafDirty e.leaf then some s
  else if s.entryAt e.leafAddr == e.leaf then
    let s := s.homeWrite e.vf 0 false e.leafAddr (bytesLE 16 (dirtyLeaf e.leaf))
    some (s.modTlbs (core / 4) fun l => l.map fun x =>
      if x.vf == e.vf && x.leafAddr == e.leafAddr then { x with leaf := dirtyLeaf x.leaf } else x)
  else none

/-- Translate for a store: Dirty is set, after a second walk where the leaf has changed. -/
def State.translateStore (s : State) (core vf va : Nat) : Walk × State :=
  match s.translate core vf va false with
  | (.leaf e, s) =>
    match s.setDirty core e with
    | some s => (.leaf { e with leaf := dirtyLeaf e.leaf }, s)
    | none =>
      let s := s.modTlbs (core / 4) fun l => l.filter fun x => !(x.hits vf va)
      match s.translate core vf va false with
      | (.leaf e, s) =>
        match s.setDirty core e with
        | some s => (.leaf { e with leaf := dirtyLeaf e.leaf }, s)
        | none => (.leaf e, s)
      | w => w
  | w => w

/-! ### Reads of system structures -/

/-- Where a byte of a VF's translated half stands, by a walk without a TLB; local and open leaves only. -/
def State.physOf (s : State) (vf va : Nat) : Option Nat :=
  match s.walk vf va with
  | .leaf e =>
    if leafKind e.leaf == 0 || leafKind e.leaf == 3 then some (leafPayload e.leaf + va % 65536) else none
  | _ => none

/-- Bytes of a VF's translated half at device scope, as an engine or the scheduler core reads them; a byte
without a local page reads as 0. -/
def State.readVa (s : State) (vf va n : Nat) : List Byte :=
  if va % 65536 + n ≤ 65536 then
    match s.physOf vf va with
    | some p => memBytes s.mem p n
    | none => List.replicate n 0
  else (List.range n).map fun i =>
    match s.physOf vf (va + i) with
    | some p => memByte s.mem p
    | none => 0

end Sys2Proof.Machine
end

