-- ==== Sys2Proof/Machine/Access.lean ====
section
/-! DEFINITION. One lane's memory access: the scratch lines, the checks of R259, performing a read or a
write, and the word that runs its lanes and logs those it leaves unfinished (spec/09_memories.md R197 to
R205, R215, R216, spec/10_consistency.md R232, R237, R240, spec/11_instr_memory.md R258 to R261). -/

namespace Sys2Proof.Machine

/-! ### Scratch lines (R199 to R205) -/

def scratchKey (cl off : Nat) : Nat := cl * 16384 + off / 512

def State.scrLine (s : State) (cl off : Nat) : ScrLine := FMap.getD s.scratch (scratchKey cl off) .reset

def State.setScr (s : State) (cl off : Nat) (l : ScrLine) : State :=
  { s with scratch := FMap.put s.scratch (scratchKey cl off) l }

/-- now_us of R200. -/
def State.nowUs (s : State) : Nat := s.us % 65536

/-- The age of a stamp on the retention clock (R201). -/
def State.ageOf (s : State) (stamp : Nat) : Nat := (s.nowUs + 65536 - stamp % 65536) % 65536

/-- line_is_stale of R201. -/
def State.stale (s : State) (cl : Nat) (l : ScrLine) : Bool :=
  !l.valid || !l.written || l.expired || min l.lifetime (s.retnLow cl l.since / 1000) < s.ageOf l.stamp

/-- The granules that bytes `o` to `o + n - 1` of a line touch, as a mask. -/
def granules (o n : Nat) : BitVec 32 :=
  maskOf ((List.range 32).filter fun g => overlaps (16 * g) 16 o n)

/-- The granules that bytes `o` to `o + n - 1` of a line cover whole, as a mask. -/
def wholeGranules (o n : Nat) : BitVec 32 :=
  maskOf ((List.range 32).filter fun g => o ≤ 16 * g && 16 * g + 16 ≤ o + n)

/-- The key of a byte of cluster memory. -/
def scratchByte (cl off : Nat) : Nat := cl * 2 ^ 23 + off

/-- A WRITE OF A SCRATCH LINE (R200, R204, R218): of a stale line the other bytes become 0, and Full clears for every
granule that holds one of them; the line is stamped; `fill` sets Full of the granules touched. The bytes have no
author until a release gives them one (R235). -/
def State.scrWrite (s : State) (cl off : Nat) (bs : List Byte) (fill : Bool) : State :=
  let l := s.scrLine cl off
  let o := off % 512
  let old := s.stale cl l
  let s := if s.scratchAuthors.isEmpty then s
    else { s with scratchAuthors := FMap.drop (fun k _ =>
      scratchByte cl off ≤ k && k < scratchByte cl off + bs.length) s.scratchAuthors }
  s.setScr cl off { l with
    bytes := overlay 0 (if old then List.replicate 512 0 else l.bytes) o bs
    full := (if old then l.full &&& wholeGranules o bs.length else l.full) |||
      (if fill then granules o bs.length else 0)
    stamp := s.nowUs, since := s.pkg.clk, written := true, expired := false
    poison := l.poison && bs.length != 512
    flip := l.flip && bs.length != 512 }

/-- A read of a scratch line corrects its error (R220). -/
def State.scrRead (s : State) (cl off : Nat) : State :=
  let l := s.scrLine cl off
  if l.flip then (s.setScr cl off { l with flip := false }).corrected cl true else s

/-- The granule that holds a byte is typed as a barrier (R205). -/
def State.barrierAt (s : State) (cl off : Nat) : Bool := (s.scrLine cl off).barType.getLsbD (off % 512 / 16)

/-! ### Teams of a group, allocations -/

/-- The resident teams whose allocations count as a team's own: its group's, or itself (R39, R259). -/
def State.groupTeams (s : State) (core slot : Nat) : List (Nat × Team) :=
  match s.team? core slot with
  | none => []
  | some t => s.teams.filter fun e =>
      e.1 == teamKey core slot ||
      (1 < t.kern.groupSize && e.2.vf == t.vf && e.2.grid == t.grid &&
        e.2.index / t.kern.groupSize == t.index / t.kern.groupSize)

/-- One live allocation of the team, or of a team of its group, that holds all the bytes. -/
def State.allocOf (s : State) (core slot cl off n : Nat) : Option Alloc :=
  ((s.groupTeams core slot).filter fun e => e.1 / 8 / 4 == cl).findSome? fun e =>
    e.2.allocs.find? fun a => a.off ≤ off && off + n ≤ a.off + a.bytes

/-- Bytes of a scratch access that pass step 4 of R259. -/
def State.inScratch (s : State) (core slot cl off n : Nat) : Bool :=
  (s.allocOf core slot cl off n).isSome && (s.scrLine cl off).valid

/-! ### Range locks (R237, R355) -/

/-- A lock of the issuing cluster's table covers bytes of a VF's translated half. -/
def State.lockedMem (s : State) (cl vf va n : Nat) (dest : Bool) : Bool :=
  (s.cluster cl).locks.any fun l => !l.scratch && l.vf == vf && l.dest == dest && overlaps l.base l.len va n

/-- A lock of the issuing cluster's table covers bytes of a cluster's memory; a span through the quad window may run on
from one cluster's memory into the next. -/
def State.lockedScr (s : State) (cl at_ off n : Nat) (dest : Bool) : Bool :=
  (s.cluster cl).locks.any fun l => l.scratch && l.dest == dest &&
    match regionOf (cl * 4) id (BitVec.ofNat 64 l.base) with
    | .scratch c o false => c == at_ && overlaps o l.len off n
    | .scratch c o true => c / 4 == at_ / 4 && overlaps (c % 4 * 2 ^ 23 + o) l.len (at_ % 4 * 2 ^ 23 + off) n
    | _ => false

/-! ### The checks of R259 -/

/-- What an access does, for the checks. -/
structure Acc where
  size : Nat
  /-- It returns the bytes it reads: step 7, and the Read bit. -/
  returns : Bool
  /-- It has a read part: step 6. -/
  reads : Bool
  writes : Bool
  fe : FullEmpty
  /-- Only a local leaf of the team's own compartment will do (R273). -/
  localOnly : Bool
  deriving DecidableEq, Repr

/-- A load of `n` bytes. -/
def Acc.load (n : Nat) (full : FullEmpty) : Acc := ⟨n, true, true, false, full, false⟩

/-- A store of `n` bytes. -/
def Acc.store (n : Nat) (full : FullEmpty) : Acc := ⟨n, false, false, true, full, false⟩

/-- An atom, or a red (R259). -/
def Acc.rmw (n : Nat) (returns : Bool) : Acc := ⟨n, returns, true, true, .none, false⟩

/-- The outcome of the checks for one lane. -/
inductive Check where
  | mem (g : Target) (va : Nat)
  | scratch (cl off : Nat) (quad : Bool)
  /-- A .fe or .fec load waits on an empty granule. -/
  | waits (cl line : Nat)
  /-- The event, its Detail, and the Address of its record. -/
  | event (kind : Nat) (detail address : DWord)
  deriving DecidableEq, Repr

/-- The domain address of a line of this device (R317). -/
def domainAddress (phys : Nat) : DWord :=
  BitVec.ofNat 64 (if isPeer phys then (phys - peerBase) / 64 * 64 else ownDevice * 2 ^ 52 + phys / 64 * 64)

/-- How R317 names a line of cluster memory. -/
def clusterAddress (cl off : Nat) : DWord :=
  BitVec.ofNat 64 (2 ^ 63 + cl * 2 ^ 32 + off / 512 * 512)

/-- A line of a range that is poisoned. -/
def State.poisonAt (s : State) (phys n : Nat) : DWord :=
  let line := ((List.range ((phys + n + 63) / 64 - phys / 64)).map (phys / 64 + ·)).find? s.poisonedLine
  domainAddress (line.getD (phys / 64) * 64)

/-- The checks on a scratch address, from step 4 on. -/
def State.checkScratch (s : State) (t : Tid) (c : Acc) (cl off : Nat) (quad : Bool) (a : DWord) : Check :=
  let l := s.scrLine cl off
  let isLoad := c.reads && !c.writes
  let waiting := isLoad && c.fe != .none
  if !s.inScratch t.core t.slot cl off c.size then .event 0x17 0 a
  else if c.writes && l.barType &&& granules (off % 512) c.size != 0 then .event 0x18 0 a
  else if (c.writes && (s.lockedScr (t.core / 4) cl off c.size false || s.lockedScr (t.core / 4) cl off c.size true))
      || (isLoad && !waiting && s.lockedScr (t.core / 4) cl off c.size true) then .event 0x1A 0 a
  else if waiting && granules (off % 512) c.size &&& ~~~l.full != 0 then .waits cl (off / 512)
  else if c.reads && s.stale cl l then .event 0x1B 0 a
  else if c.returns && l.poison then .event 0x1E (clusterAddress cl off) a
  else .scratch cl off quad

/-- The members that member words name: device and VF of the Valid ones (R366). -/
def membersIn (ws : List Word) : List (Nat × Nat) :=
  (ws.filter (·.getLsbD 31)).map fun w => ((w.extractLsb' 0 10).toNat, (w.extractLsb' 16 9).toNat)

def Window.members (w : Window) : List (Nat × Nat) := membersIn w.memberWords

/-- A window entry admits the VF: its owner, or a member on this device (R216, R366). -/
def Window.admits (w : Window) (vf : Nat) : Bool :=
  w.ownerVf == vf || w.members.any fun m => m.1 == ownDevice && m.2 == vf

/-- A UALink port that is not down reaches a device of the domain (R403). -/
def State.deviceReachable (s : State) (device : Nat) : Bool :=
  (s.pkg.disabled.all fun e => e.1 != 0x07) ||
    (List.range 32).any fun p => !s.pkg.disabled.contains (0x07, p) && Config.portReaches p device

/-- Step 5 on a translated address that has a leaf: permissions by kind (R192, R193, R215, R216). The
target, or the event's kind and Detail; a gate whose source page is remote or absent raises protection.
(DEDUCED, log 36.) (DEDUCED, log 37.) (DEDUCED, log 41.) (DEDUCED, log 161.) -/
def State.permit (s : State) (core : Nat) (tm : Team) (c : Acc) (e : TlbEntry) (va : Nat) :
    Except (Nat × DWord) Target × State :=
  let leaf := e.leafFor va
  let p := leafPayload leaf
  let o := va % 65536
  let v := s.vf tm.vf
  let rights := (!c.returns || leafR leaf) && (!c.writes || leafW leaf)
  let denied : Except (Nat × DWord) Target × State := (.error (0x18, 0), s)
  match leafKind leaf with
  | 0 =>
    if rights && leafComp leaf == tm.kern.compartment && !s.windowed p then
      (.ok ⟨p + o, tm.vf, leafComp leaf, false, false, tm.vf, none⟩, s)
    else denied
  | 1 =>
    if rights && !c.localOnly && s.deviceReachable (p / 2 ^ 52 % 1024) then
      (.ok ⟨peerBase + p + o, tm.vf, tm.kern.compartment, false, false, tm.vf, none⟩, s)
    else denied
  | 3 =>
    if rights && !c.localOnly && !s.windowed p &&
        (!c.writes || (FMap.getD v.comps tm.kern.compartment (false, false)).2) then
      (.ok ⟨p + o, tm.vf, tm.kern.compartment, true, false, tm.vf, none⟩, s)
    else denied
  | 4 =>
    match FMap.find? s.pkg.windows (bitsOf p 48 16) with
    | some w =>
      if w.state == 1 then (.error (0x13, BitVec.ofNat 64 (bitsOf p 48 16)), s)
      else if w.state == 2 && w.admits tm.vf && rights && !c.localOnly && bitsOf p 0 48 + o + c.size ≤ w.len then
        (.ok ⟨w.frames.getD (bitsOf p 0 48 / 65536) 0 + o, w.ownerVf, 0, false, true, tm.vf, none⟩, s)
      else denied
    | none => (.error (0x19, 0), s)
  | 5 =>
    match FMap.find? v.gates (bitsOf p 48 16) with
    | some g =>
      let off := bitsOf p 0 48 + o
      if g.isOpen && g.userComp == tm.kern.compartment && off + c.size ≤ g.len && rights && !c.localOnly &&
          (!c.writes || g.rights == 2) then
        let (w, s) := if c.writes then s.translateStore core tm.vf (g.base + off)
          else s.translate core tm.vf (g.base + off) false
        match w with
        | .leaf src =>
          let sl := src.leafFor (g.base + off)
          if leafKind sl == 0 && leafComp sl == g.srcComp && !s.windowed (leafPayload sl) then
            (.ok ⟨leafPayload sl + o, tm.vf, g.srcComp, false, false, tm.vf, some (bitsOf p 48 16)⟩, s)
          else (.error (0x18, 0), s)
        | _ => (.error (0x18, 0), s)
      else denied
    | none => (.error (0x19, 0), s)
  | _ => denied

/-- The checks on a translated address, from step 3 on. -/
def State.checkMem (s : State) (t : Tid) (tm : Team) (c : Acc) (va : Nat) : Check × State :=
  let a := BitVec.ofNat 64 va
  if c.fe != .none then (.event 0x16 0 a, s)
  else
    let (w, s1) := s.translate t.core tm.vf va false
    match w with
    | .invalid _ => (.event 0x19 0 a, s1)
    | .absent (some ns) => (.event 0x10 (regionKey ns va) a, s1)
    | .absent none => (.event 0x11 0 a, s1)
    | .leaf e =>
      if leafKind e.leaf == 2 then (.event 0x10 (BitVec.ofNat 64 (leafPayload (e.leafFor va))) a, s1)
      else
        match s1.permit t.core tm c e va with
        | (.error (k, d), s2) => (.event k d a, s2)
        | (.ok g, s2) =>
          let cl := t.core / 4
          if (c.writes && (s2.lockedMem cl tm.vf va c.size false || s2.lockedMem cl tm.vf va c.size true)) ||
              (c.reads && !c.writes && s2.lockedMem cl tm.vf va c.size true) then (.event 0x1A 0 a, s2)
          else if c.writes then (.mem g va, (s2.translateStore t.core tm.vf va).2)
          else (.mem g va, s2)

/-- THE CHECKS OF R259 for one lane, steps 1 to 6; step 7 on home memory is the read's own. -/
def State.check (s : State) (t : Tid) (c : Acc) (a : DWord) : Check × State :=
  match s.team? t.core t.slot with
  | none => (.event 0x14 0 a, s)
  | some tm =>
    match s.region t a with
    | .bad => (.event 0x14 0 a, s)
    | .scratch cl off quad =>
      if a.toNat % c.size != 0 then (.event 0x15 0 a, s) else (s.checkScratch t c cl off quad a, s)
    | .translated va =>
      if va % c.size != 0 then (.event 0x15 0 (BitVec.ofNat 64 va), s) else s.checkMem t tm c va

/-- The 64 KiB page on which R232 and R316 group an access. -/
def State.pageOf (s : State) (t : Tid) (a : DWord) : Nat :=
  match s.region t a with
  | .translated va => va / 65536
  | _ => a.toNat / 65536

/-! ### One lane of a word -/

/-- What becomes of one lane. -/
inductive LaneOut where
  | done (r : Late) (s : State)
  /-- Performed here; the tag completes when the access is performed at its scope (R263). -/
  | later (s : State)
  | event (kind : Nat) (detail address : DWord) (s : State)
  | wait (c : Cause) (held : Bool) (s : State)

/-- A lane that returns no register. -/
def LaneOut.ok (s : State) : LaneOut := .done ⟨[], 0, none⟩ s

/-- A register result. -/
def lateRegs (rs : List Word) : Late := ⟨rs, 0, none⟩

/-- The step that performs one lane, from its logged operands. -/
abbrev LaneStep := Tid → LaneOps → State → LaneOut

/-- Nothing captured. -/
def LaneOps.none : LaneOps := ⟨0, 0, 0, []⟩

/-- The operand `a` of the word is the address that R232 groups by. -/
def addressed : Instr → Bool
  | .semSig .. | .semWait .. | .fpush .. | .fpop .. | .sread .. | .qpop .. | .gwait .. => false
  | .gatectl _ close _ _ | .winctl _ close _ _ => !close
  | .msend _ k _ _ _ => k == .c1
  | _ => true

/-- The word writes memory: bit 1 of a record's Flags (R316). -/
def writesMemory : Instr → Bool
  | .st .. | .stg .. | .stmx .. | .accst .. | .poison .. | .sfree .. | .srenew .. | .fpush ..
  | .barInit .. | .barArrive .. | .barExpect .. | .barInval .. => true
  | .atomAdd .. | .atomSub .. | .atomMin .. | .atomMax .. | .atomAnd .. | .atomOr .. | .atomXor ..
  | .atomExch .. | .atomCas .. | .redAdd .. | .redSub .. | .redMin .. | .redMax .. | .redAnd ..
  | .redOr .. | .redXor .. => true
  | _ => false

/-- The addresses whose pages a lane of a word touches: a block reaches from its first byte to its last,
and to its scale (R173). -/
def touched (i : Instr) (o : LaneOps) : List DWord :=
  match i with
  | .ldmx _ fmt _ _ _ _ | .stmx _ fmt _ _ _ _ =>
    [o.a, o.a + BitVec.ofNat 64 (fmt.bytes - 1)] ++ (if fmt == .dxb6 then [] else [o.b])
  | i => if addressed i then [o.a] else []

/-- R232: an older entry of the cohort holds the lane unfinished on the same page. -/
def State.behind (s : State) (t : Tid) (i : Instr) (ops : LaneOps) (younger : Nat) : Bool :=
  match s.cohort? t.core t.slot t.access t.cohort with
  | some c => c.log.any fun e =>
      e.2.age < younger && e.2.unfinished.getLsbD t.lane &&
      match FMap.find? e.2.ops t.lane with
      | some o => (touched e.2.instr o).any fun x => (touched i ops).any fun y => s.pageOf t x == s.pageOf t y
      | none => false
  | none => false

/-- A lane that a check or a performance left unfinished. -/
structure Unfinished where
  t : Tid
  ops : LaneOps
  /-- Kind, Detail and Address of its own event; none where it is logged behind. -/
  ev : Option (Nat × DWord × DWord)
  deriving DecidableEq, Repr

/-- The lanes of one record: those of the same kind on the same 64 KiB (R316), by its lowest lane.
(DEDUCED, log 101.) -/
def sameRecord (u v : Unfinished) : Bool :=
  match u.ev, v.ev with
  | some (k, _, a), some (k', _, a') => k == k' && a.toNat / 65536 == a'.toNat / 65536
  | _, _ => false

/-- The lanes that open a record, in order. -/
def leaders : List Unfinished → List Unfinished → List Unfinished
  | [], _ => []
  | u :: us, seen =>
    if u.ev.isNone || seen.any (sameRecord u) then leaders us seen else u :: leaders us (u :: seen)

/-- Write the records of an entry's unfinished lanes, lowest lane first; the events stand against their
threads. -/
def State.reportLanes (s : State) (i : Instr) (log : Nat) (us : List Unfinished) : State :=
  (leaders us []).foldl (fun s u =>
    match u.ev with
    | none => s
    | some (k, d, a) =>
      let mine := us.filter (sameRecord u)
      let p := ((s.team? u.t.core u.t.slot).map (·.partition)).getD 0
      let r := { s.teamRecord u.t.core u.t.slot u.t.access u.t.cohort k (maskOf (mine.map (·.t.lane))) i.opcode a d with
                 log := some log, write := writesMemory i }
      let (seq, s) := s.report p r
      s.modThreads (mine.map (·.t)) fun _ t => { t with events := t.events ++ [seq] }) s

/-- Write records that park nothing and make no log entry, one for the lanes of each 64 KiB page. -/
def State.reportFree (s : State) (i : Instr) (us : List Unfinished) : State :=
  (leaders us []).foldl (fun s u =>
    match u.ev with
    | none => s
    | some (k, d, a) =>
      let mine := us.filter (sameRecord u)
      let p := ((s.team? u.t.core u.t.slot).map (·.partition)).getD 0
      (s.report p (s.teamRecord u.t.core u.t.slot u.t.access u.t.cohort k (maskOf (mine.map (·.t.lane))) i.opcode a d)).2) s

/-- A request that waits joins the others, in order of arrival. -/
def State.addWait (s : State) (t : Tid) (i : Instr) (ops : LaneOps) (pc age : Nat) (c : Cause) (held : Bool) : State :=
  { s with
    waits := FMap.put s.waits s.waitNext ⟨t, i, ops, pc, c, if held then (i.ctl?.map (·.pd.toNat)) else none, age⟩
    waitNext := s.waitNext + 1 }

/-- The entry of a cohort's log for a word: the one that holds lanes of it already, else a free one (R260). -/
def Cohort.entryFor (c : Cohort) (age : Nat) : Option Nat :=
  match List.find? (fun (e : Nat × LogEntry) => e.2.age == age) c.log with
  | some e => some e.1
  | none => c.logFree

/-- The entry of a word with more of its lanes unfinished. -/
def LogEntry.join (old : Option LogEntry) (i : Instr) (pc age cycle clk : Nat) (us : List Unfinished) : LogEntry :=
  let ops := (old.map (·.ops)).getD []
  { age := age, instr := i, pc := pc
    ops := us.foldl (fun m u => FMap.put m u.t.lane u.ops) ops
    unfinished := (old.map (·.unfinished)).getD 0 ||| maskOf (us.map (·.t.lane))
    own := (old.map (·.own)).getD 0 ||| maskOf ((us.filter fun u => u.ev.isSome).map (·.t.lane))
    tag := i.tag?
    cycle := (old.map (·.cycle)).getD cycle
    clk := (old.map (·.clk)).getD clk }

/-- Place the unfinished lanes of one cohort in the one entry of its log that serves their word, and report them
(R47, R260). Lanes of a word performed after its issue that find no room wait for it. (DEDUCED, log 26.) -/
def State.logLanes (s : State) (i : Instr) (pc age : Nat) (us : List Unfinished) : State :=
  match us with
  | [] => s
  | u :: _ =>
    match s.cohort? u.t.core u.t.slot u.t.access u.t.cohort with
    | none => s
    | some c =>
      match c.entryFor age with
      | none => us.foldl (fun s u => s.addWait u.t i u.ops pc age (.logRoom u.ev) false) s
      | some idx =>
        let old := FMap.find? c.log idx
        let s := s.modCohort u.t.core u.t.slot u.t.access u.t.cohort fun c =>
          { c with log := FMap.put c.log idx (.join old i pc age (s.cycle u.t.core) s.pkg.clk us) }
        (if old.isNone then s.count u.t.core 0x0016 1 else s).reportLanes i idx us

/-- The accesses of a thread's word are performed at a later moment than its issue (R224, R239). -/
def State.flying (s : State) (t : Tid) (i : Instr) : Bool :=
  !s.prompt && i.flies && !(((s.team? t.core t.slot).map (·.relaunchable)).getD true)

/-- Perform one lane, or say why it is unfinished; the checks are made at issue even where the access is performed at a
later moment (R259). -/
def State.oneLane (s : State) (i : Instr) (pc : Nat) (f : LaneStep) (age : Nat) (t : Tid) (ops : LaneOps) :
    State × Option Unfinished :=
  if s.behind t i ops age then (s, some ⟨t, ops, none⟩)
  else match f t ops s with
    | .event k d a s => (s, some ⟨t, ops, some (k, d, a)⟩)
    | out =>
      if s.flying t i then (s.addWait t i ops pc age .flight false, none)
      else match out with
        | .done r s => (s.deliver t i.tag? r, none)
        | .later s => (s, none)
        | .wait c held s => (s.addWait t i ops pc age c held, none)
        | .event _ _ _ s => (s, none)

/-- Perform lanes in the order given, collecting those left unfinished. -/
def State.runLanes (s : State) (i : Instr) (pc : Nat) (f : LaneStep) (age : Nat → Nat) :
    List (Tid × LaneOps) → State × List Unfinished
  | [] => (s, [])
  | (t, ops) :: rest =>
    let (s, u) := s.oneLane i pc f (age t.cohort) t ops
    let (s, us) := s.runLanes i pc f age rest
    (s, u.toList ++ us)

/-- The number that a cohort gives its next word. -/
def State.nextAge (s : State) (core slot : Nat) (access : Bool) (c : Nat) : Nat :=
  ((s.cohort? core slot access c).map (·.logAge)).getD 0

/-- The unfinished lanes of a gang's word, cohort by cohort, join the logs; `age` numbers the word. -/
def State.logGang (s : State) (g : Gang) (i : Instr) (age : Nat → Nat) (us : List Unfinished) : State :=
  g.cohorts.foldl (fun s c => s.logLanes i g.pc (age c) (us.filter fun u => u.t.cohort == c)) s

/-- Threads in ascending lane order (R261). -/
def byLane (ts : List Tid) : List Tid := (List.range 32).flatMap fun l => ts.filter (·.lane == l)

/-- A LANE-BY-LANE WORD: the operands of each guard-true lane are read at issue, the lanes are performed
in ascending order, at issue or at later moments of their own, and each cohort's unfinished lanes take one log entry
(R224, R259 to R261). (DEDUCED, log 17.) -/
def State.laneWord (s : State) (i : Instr) (capture : Tid → Thread → LaneOps) (f : LaneStep) : State :=
  s.issue i true fun _ act s1 =>
    let jobs := (byLane act).filterMap fun t => (s1.thread? t).map fun x => (t, capture t x)
    let g := s.gang
    let age := s.nextAge g.core g.slot g.access
    let (s2, us) := s1.runLanes i g.pc f age jobs
    s2.logGang g i age us

/-! ### Waiting requests -/

/-- A thread held by its word is released in the current cycle (R379). -/
def Thread.release (t : Thread) (now : Nat) (held : Option Nat) : Thread :=
  match held with
  | some pd => { t with pdRun := true, readyAt := now + 1 + pd, since := none }
  | none => t

/-- A waiting request ends with a result. -/
def State.endWait (s : State) (n : Nat) (r : Late) : State :=
  match FMap.find? s.waits n with
  | none => s
  | some w =>
    let s := { s with waits := FMap.del s.waits n }
    (s.modThread w.tid fun t => t.release (s.cycle w.tid.core) w.held).deliver w.tid w.instr.tag? r

/-- The log of a request's cohort has an entry for its word. -/
def State.logRoom (s : State) (w : Wait) : Bool :=
  ((s.cohort? w.tid.core w.tid.slot w.tid.access w.tid.cohort).bind fun c => c.entryFor w.age).isSome

/-- Two requests of one word and cohort. -/
def Wait.sameWord (a b : Wait) : Bool :=
  a.tid.core == b.tid.core && a.tid.slot == b.tid.slot && a.tid.access == b.tid.access && a.tid.cohort == b.tid.cohort &&
  a.age == b.age

/-- The lanes of a word that are to be logged, each with its event. -/
def State.wordLanes (s : State) (w : Wait) : List (Nat × Unfinished) :=
  s.waits.filterMap fun e => match e.2.cause with
    | .logRoom ev => if e.2.sameWord w then some (e.1, ⟨e.2.tid, e.2.ops, ev⟩) else none
    | _ => none

/-- The unfinished lanes of a word, once every one on its way has been performed and the log has room, take their one
entry, and form their records together (R260, R316). -/
def State.logWord (s : State) (w : Wait) : State :=
  let us := s.wordLanes w
  if us.isEmpty || s.waits.any (fun e => e.2.cause == .flight && e.2.sameWord w) || !s.logRoom w then s
  else
    let s := us.foldl (fun (s : State) u =>
      let held := (FMap.find? s.waits u.1).bind (·.held)
      { s with waits := FMap.del s.waits u.1 }.modThread u.2.t fun t => t.release (s.cycle w.tid.core) held) s
    s.logLanes w.instr w.pc w.age (us.map Prod.snd)

/-- A waiting request's lane is to be logged at its word, with its event or behind an older entry. Of a thread that has
exited meanwhile nothing is left to log (R133). -/
def State.logWait (s : State) (n : Nat) (ev : Option (Nat × DWord × DWord)) : State :=
  match FMap.find? s.waits n with
  | none => s
  | some w =>
    if ((s.thread? w.tid).map (·.exited)) == some true then { s with waits := FMap.del s.waits n }.logWord w
    else { s with waits := FMap.mod s.waits n fun w => { w with cause := .logRoom ev } }.logWord w

/-- A waiting request ends with an event. -/
def State.failWait (s : State) (n : Nat) (kind : Nat) (detail address : DWord) : State :=
  s.logWait n (some (kind, detail, address))

/-- Perform a waiting request again. -/
def State.retryWait (s : State) (n : Nat) (f : LaneStep) : State :=
  match FMap.find? s.waits n with
  | none => s
  | some w =>
    if s.behind w.tid w.instr w.ops w.age then s.logWait n none
    else match f w.tid w.ops s with
    | .done r s => (s.endWait n r).logWord w
    | .later s => { s with waits := FMap.del s.waits n }.logWord w
    | .event k d a s => s.failWait n k d a
    | .wait c _ s => { s with waits := FMap.mod s.waits n fun w => { w with cause := c } }

/-- Numbers of the waits of a cause, in order of arrival. -/
def State.waitsOn (s : State) (p : Cause → Bool) : List Nat :=
  (s.waits.filter fun e => p e.2.cause).map Prod.fst

/-! ### Reads and writes of home memory by a thread -/

/-- A thread's team. -/
def State.teamOf (s : State) (t : Tid) : Option Team := s.team? t.core t.slot

/-- What a read of memory gives. -/
inductive Got where
  | bytes (bs : List Byte) (s : State)
  | poison (s : State)
  /-- The home has sent a forced publish for the line (R234). -/
  | publish (line : Nat) (s : State)

/-- The stores of a relaunchable team's buffer over bytes (R48). -/
def Team.bufferOver (tm : Team) (phys : Nat) (bs : List Byte) : List Byte :=
  tm.storeBuf.foldl (fun bs b => overlay phys bs b.phys b.bytes) bs

/-- An acquire reaches the home of a line: a recorded release whose scope leaves the thread out is
published first (R234). -/
def State.acquireAt (s : State) (t : Tid) (w : Option Writer) (line : Nat) : Option State :=
  match w with
  | some w =>
    if w.excludes t.core t.slot then
      let e := Instr.forcedPublish (w.core / 4) w.vf line
      some (if s.pending.contains e then s else s.emit e)
    else none
  | none => none

/-- The authors of the VF itself among those of what an access reads: of a window location widening reaches no other
(R236, R242). -/
def Target.known (g : Target) (as : List Author) : List Author := if g.window then as.filter (·.vf == g.own) else as

/-- A read of a window location returns writes of other VFs, or of no release, alone (R236, R242). -/
def Target.foreign (g : Target) (as : List Author) : Bool := g.window && (g.known as).isEmpty

/-- The record that an acquire meets at the home of its bytes. -/
def State.recordAt (s : State) (g : Target) (as : List Author) : Option Writer :=
  if isPeer g.phys || g.foreign as then none else FMap.find? s.writers (g.phys / 64)

/-- The cache action of an acquire that has returned writes of some authors (R228, R235, R242): within a window those of
other VFs' releases leave window lines alone, and that of an own release finds the author's window stores
performed. -/
def State.acquireEnd (s : State) (t : Tid) (g : Target) (as : List Author) (sc : Scope) : State :=
  if g.foreign as then s.windowAction t.core g.own sc
  else
    let s := if g.window then s.drain fun f => f.own == g.own && f.window && as.any fun a => f.core / 4 == a.core / 4
      else s
    s.cacheAction t.core g.own (State.acquireScope (g.known as) t.core t.slot sc)

/-- A thread reads bytes of home memory under its MQ (R223, R226, R228). -/
def State.readMem (s : State) (t : Tid) (g : Target) (n : Nat) (q : Mq) : Got :=
  let buffered := fun bs => match s.teamOf t with
    | some tm => tm.bufferOver g.phys bs
    | none => bs
  let answer := fun (x : Option (List Byte) × State) =>
    match x with
    | (some bs, s) => Got.bytes (buffered bs) s
    | (none, s) => Got.poison s
  if q.order == .acquire || q.order == .acqrel then
    match s.acquireAt t (s.recordAt g (s.authorsOf g.phys n)) (g.phys / 64) with
    | some s => .publish (g.phys / 64) s
    | none =>
      match s.loadHome t.core g n q.hint with
      | (some bs, s) =>
        .bytes (buffered bs) ((s.forgetLine t.core g).acquireEnd t g (s.authorsOf g.phys n) q.scope)
      | (none, s) => .poison s
  else if q.fresh then answer (s.loadFresh t.core g n q.hint)
  else answer (s.loadStale t.core g n q.hint)

/-- A load that misses its caches waits for the sweeper: no line of its cluster's cache can leave (R206). -/
def State.fillWaits (s : State) (t : Tid) (g : Target) (q : Mq) : Bool :=
  q.order == .relaxed && q.hint != .stream && !g.isOpen && (s.ccLine? (t.core / 4) g.own g.phys).isNone &&
  (q.fresh || (s.l1Line? t.core g.own g.phys).isNone) && s.ccStuck (t.core / 4)

/-- The 64-byte lines of a byte range. -/
def lineSpan (phys n : Nat) : List Nat := (List.range ((phys + n + 63) / 64 - phys / 64)).map (phys / 64 + ·)

/-- The lines that a relaunchable team's buffer holds with some bytes more (R48). -/
def Team.bufferLines (tm : Team) (phys n : Nat) : List Nat :=
  (lineSpan phys n ++ tm.storeBuf.flatMap fun b => lineSpan b.phys b.bytes.length).eraseDups

/-- A store fits the buffer of a relaunchable team: 64 KiB of L2 lines, each in a way that the mask permits and no
buffer pins (R48, R210). -/
def State.bufferFits (s : State) (tm : Team) (phys n : Nat) : Bool :=
  (tm.bufferLines phys n).length ≤ 1024 &&
  (lineSpan phys n).all fun l => s.pinnedLine l || !(s.l2Ways tm.vf l).isEmpty

/-- One buffered store is performed at device scope; the issuing core's copies follow it (R48, R233). -/
def State.commitOne (s : State) (core own : Nat) (b : BufStore) : State :=
  let f : InFlight := ⟨core, some b.tid, b.vf, own, b.compartment, b.phys, b.bytes, true, b.isOpen, .normal,
    some (⟨core, b.tid.slot, own⟩, none), none, false, none⟩
  let s := ((s.throughStore (core / 4) f).l1Update core own b.phys b.bytes).noteWriter b.phys b.bytes.length f.writer
  match b.tag with
  | some n => s.deliver b.tid (some n) ⟨[], 0, none⟩
  | none => s

/-- COMMIT of a team's store buffer: a device-scope release, in program order per thread (R48, R233). -/
def State.commitBuffer (s : State) (core slot : Nat) : State :=
  match s.team? core slot with
  | none => s
  | some tm =>
    if tm.storeBuf.isEmpty then s
    else (tm.storeBuf.foldl (fun s b => s.commitOne core tm.vf b) (s.releaseSet core tm.vf .device false)).modTeam
      core slot fun tm => { tm with storeBuf := [] }

/-- The cases of R48 that commit the buffer and end relaunchability. -/
def State.endRelaunch (s : State) (core slot : Nat) : State :=
  match s.team? core slot with
  | some tm =>
    if tm.relaunchable then (s.commitBuffer core slot).modTeam core slot fun tm => { tm with relaunchable := false }
    else s
  | none => s

/-- The scope of a release, if the qualifier makes one. -/
def releaseScope (q : Mq) : Option Scope :=
  if q.order == .release || q.order == .acqrel then some q.scope else none

/-- Bytes of a store in its single-copy atomic parts: a wider one falls apart at multiples of 16 (R222). -/
def storeParts (phys : Nat) (bs : List Byte) : List (Nat × List Byte) :=
  if bs.length ≤ 16 then [(phys, bs)]
  else ((List.range ((bs.length + 15) / 16)).map fun k => (phys + 16 * k, (bs.drop (16 * k)).take 16))

/-- A store joins those in flight. -/
def State.sendStore (s : State) (f : InFlight) : State :=
  { s with stores := FMap.put s.stores s.storeNext f, storeNext := s.storeNext + 1 }.emit (.storePerformed s.storeNext)

/-- A store leaves for the home past the core's L1 (R226, R227). The answer says whether its tag completes
now: a relaxed store is performed at cohort scope once it has passed the L1 (R263). -/
def State.launchStore (s : State) (t : Tid) (g : Target) (bs : List Byte) (q : Mq) (tag : Option Nat) :
    Bool × State :=
  let rel := releaseScope q
  let s := match rel with
    | some sc => s.releaseSet t.core g.own sc g.window
    | none => s
  let s := if g.isOpen then s else s.l1Update t.core g.own g.phys bs
  let late := match rel with
    | some sc => 2 ≤ scopeRank sc
    | none => false
  let f : InFlight :=
    { core := t.core, tid := some t, vf := g.vf, own := g.own, compartment := g.comp, phys := g.phys, bytes := bs
      bypass := rel.isSome || q.hint == .stream || g.isOpen || g.window, isOpen := g.isOpen, hint := q.hint
      writer := rel.map (writerOf t.core t.slot g.own), tag := if late then tag else none, window := g.window
      gate := g.gate }
  (!late, (storeParts g.phys bs).foldl (fun s p => s.sendStore { f with phys := p.1, bytes := p.2 }) s)

/-- A thread writes bytes of home memory: into the store buffer of a relaunchable team (R48), or on its
way (R226). -/
def State.writeMem (s : State) (t : Tid) (g : Target) (bs : List Byte) (q : Mq) (tag : Option Nat) : Bool × State :=
  match s.teamOf t with
  | some tm =>
    if tm.relaunchable then
      if s.bufferFits tm g.phys bs.length then
        let rel := (releaseScope q).isSome
        let s := if isPeer g.phys then s
          else (lineSpan g.phys bs.length).foldl (fun s l => s.allocL2 g.vf g.comp l true (g.prio q.hint)) s
        (!rel, s.modTeam t.core t.slot fun tm => { tm with storeBuf := tm.storeBuf ++
          [⟨t, g.phys, g.vf, g.comp, g.isOpen, bs, if rel then tag else none⟩] })
      else (s.endRelaunch t.core t.slot).launchStore t g bs q tag
    else s.launchStore t g bs q tag
  | none => (true, s)

/-! ### Reads and writes of scratch by a thread -/

/-- The key under which a scratch line's publish travels. -/
def scratchLineKey (cl off : Nat) : Nat := 2 ^ 60 + scratchKey cl off

/-- What each of some scratch bytes has as its author, by release (R235). -/
def State.scratchByteAuthors (s : State) (cl off n : Nat) : List (Nat × Author) :=
  (List.range n).filterMap fun i =>
    (FMap.find? s.scratchAuthors (scratchByte cl off + i)).map fun a => (scratchByte cl off + i, a)

/-- A thread reads bytes of scratch; .fec empties the granules in the same step (R204, R240). -/
def State.readScr (s : State) (t : Tid) (vf cl off n : Nat) (q : Mq) : Got :=
  let acq := q.order == .acquire || q.order == .acqrel
  let w := FMap.find? s.scratchWriters (scratchKey cl off)
  match if acq then s.acquireAt t w (scratchLineKey cl off) else none with
  | some s => .publish (scratchLineKey cl off) s
  | none =>
    let l := s.scrLine cl off
    let bs := (l.bytes.drop (off % 512)).take n
    let as := (s.scratchByteAuthors cl off n).map Prod.snd
    let s := s.scrRead cl off
    let s := if q.fe == .fec then
        s.setScr cl off { s.scrLine cl off with full := l.full &&& ~~~granules (off % 512) n }
      else s
    .bytes bs (if acq then s.cacheAction t.core vf (State.acquireScope as t.core t.slot q.scope) else s)

/-- The loads that wait on the granules of a line are served in order of arrival (R240); `f` performs a
waiting load. -/
def State.serveLine (s : State) (f : Instr → LaneStep) (cl off : Nat) : State :=
  (s.waitsOn fun c => c == .granule cl (off / 512)).foldl (fun s n =>
    match FMap.find? s.waits n with
    | some w => s.retryWait n (f w.instr)
    | none => s) s

/-- Scratch bytes have an author (R235). -/
def State.scratchAuthored (s : State) (cl off n : Nat) (a : Author) : State :=
  { s with scratchAuthors := (List.range n).foldl (fun m i => FMap.put m (scratchByte cl off + i) a) s.scratchAuthors }

/-- What the bank keeps of a release: the author of its bytes, and the line's record (R234, R235). -/
def State.noteScratch (s : State) (cl off n : Nat) (w : Author × Option Writer) : State :=
  { s.scratchAuthored cl off n w.1 with
    scratchWriters := match w.2 with
      | some r => FMap.put s.scratchWriters (scratchKey cl off) { r with born := s.pkg.clk }
      | none => FMap.del s.scratchWriters (scratchKey cl off) }

/-- A thread writes bytes of scratch: performed at every scope once its bank accepts it (R226). -/
def State.writeScr (s : State) (t : Tid) (vf cl off : Nat) (bs : List Byte) (q : Mq) : State :=
  match releaseScope q with
  | some sc =>
    ((s.releaseSet t.core vf sc false).scrWrite cl off bs (q.fe == .fe)).noteScratch cl off bs.length
      (writerOf t.core t.slot vf sc)
  | none => s.scrWrite cl off bs (q.fe == .fe)

end Sys2Proof.Machine
end

