-- ==== Sys2Proof/Machine/Control.lean ====
section
/-! DEFINITION. Control flow: branches, the call stack, leaving, yielding, and events raised on purpose
(spec/06_instr_integer_control.md R129 to R136). -/

namespace Sys2Proof.Machine

/-! ### Lanes for which a word has no effect -/

/-- A lane that raises a precise event: the thread, kind, Detail and Address. -/
structure Precise where
  t : Tid
  kind : Nat
  detail : DWord
  address : DWord
  deriving DecidableEq, Repr

/-- Lanes of one record: one cohort and kind, and where a data address applies one 64 KiB page (R316). Detail and Address
are the lowest lane's. (DESIGN CHOICE, log 179.) -/
def samePrecise (a b : Precise) : Bool :=
  a.t.cohort == b.t.cohort && a.kind == b.kind &&
  (a.kind < 0x10 || a.address.toNat / 65536 == b.address.toNat / 65536)

/-- The lanes that open a record, in order. (DESIGN CHOICE, log 32.) -/
def preciseLeaders : List Precise → List Precise → List Precise
  | [], _ => []
  | u :: us, seen =>
    if seen.any (samePrecise u) then preciseLeaders us seen else u :: preciseLeaders us (u :: seen)

/-- The listed lanes are put back as they were before the word and park at it (R76, R321). -/
def State.backOut (s s0 : State) (i : Instr) (bad : List Precise) : State :=
  let s := bad.foldl (fun s b =>
    match s0.thread? b.t with
    | some x => s.setThread b.t x
    | none => s) s
  (preciseLeaders bad []).foldl (fun s u =>
    s.takePrecise u.t.core u.t.slot u.t.access u.t.cohort
      (maskOf ((bad.filter (samePrecise u)).map (·.t.lane))) u.kind i.opcode u.address u.detail) s

/-- Run the guard-true lanes one by one; those that answer an event are backed out. -/
def State.controlLanes (s s0 : State) (i : Instr) (f : Tid → Thread → State → Except (Nat × DWord × DWord) State) :
    List Tid → State
  | ts =>
    let (s, bad) := (byLane ts).foldl (fun (acc : State × List Precise) t =>
      match s0.thread? t, acc.1.thread? t with
      | some _, some x =>
        match f t x acc.1 with
        | .ok s => (s, acc.2)
        | .error (k, d, a) => (acc.1, acc.2 ++ [⟨t, k, d, a⟩])
      | _, _ => acc) (s, [])
    s.backOut s0 i bad

/-! ### Branches (R130, R131) -/

/-- The target word of a displacement. -/
def branchTarget (w : Nat) (disp : BitVec 30) : Int := (w : Int) + disp.toInt

/-- A target outside the code space. -/
def targetBad (x : Int) : Bool := x < 0 || (wordLimit : Int) ≤ x

/-- The transfer of bra and call: to the word, without a landing check. -/
def Thread.goto (t : Thread) (w : Nat) : Thread := { t with pc := w }

/-- The transfer of brx, callx and ret: the landing check falls due (R131). -/
def Thread.land (t : Thread) (from_ opcode : Nat) (a : DWord) : Thread :=
  { t with pc := wordNumber a, landing := some (from_, opcode) }

def execBra (h : Hd) (disp : BitVec 30) (s : State) : Out :=
  .next (s.issue (.bra h disp) true fun s0 act s1 =>
    let x := branchTarget s.gang.pc disp
    s1.controlLanes s0 (.bra h disp) (fun t _ s =>
      if targetBad x then .error (0x05, codeAddressInt x, codeAddress s0.gang.pc)
      else .ok (s.modThread t (·.goto x.toNat))) act)

def execBrx (h : Hd) (a : VReg) (s : State) : Out :=
  .next (s.issue (.brx h a) true fun s0 act s1 =>
    s1.controlLanes s0 (.brx h a) (fun t x s =>
      let target := x.rv64 a.toNat
      if codeMisaligned target then .error (0x05, target, codeAddress s0.gang.pc)
      else .ok (s.modThread t (·.land s0.gang.pc 0x091 target))) act)

/-! ### The call stack (R132) -/

/-- The relaxed, cohort-scope access of the call stack. -/
def stackMq : Mq := ⟨.relaxed, .cohort, false, .none, .normal⟩

/-- Entries on a thread's call stack. -/
def Thread.depth (t : Thread) : Nat := (0x10000 - t.sp) / 8

/-- Push a return address; every fault is the word's own (R132). -/
def State.push (s : State) (t : Tid) (x : Thread) (ret : Nat) : Except (Nat × DWord × DWord) State :=
  if 512 ≤ x.depth then .error (0x07, 0, 0)
  else
    match s.check t (Acc.store 8 .none) (privateWindow (x.sp - 8)) with
    | (.mem g _, s) =>
      let (_, s) := s.writeMem t g (bytesLE 8 (codeAddress ret).toNat) stackMq none
      .ok (s.modThread t fun x => { x with sp := x.sp - 8 })
    | (.event k d a, _) => .error (k, d, a)
    | _ => .error (0x14, 0, privateWindow (x.sp - 8))

/-- Load the return address at the pointer. -/
def State.top (s : State) (t : Tid) (x : Thread) : Except (Nat × DWord × DWord) (DWord × State) :=
  if x.sp == 0x10000 then .error (0x08, 0, 0)
  else
    match s.check t (Acc.load 8 .none) (privateWindow x.sp) with
    | (.mem g va, s) =>
      match s.readMem t g 8 stackMq with
      | .bytes bs s => .ok (BitVec.ofNat 64 (natLE bs), s)
      | .poison s => .error (0x1E, s.poisonAt g.phys 8, BitVec.ofNat 64 va)
      | .publish _ _ => .error (0x1E, 0, BitVec.ofNat 64 va)
    | (.event k d a, _) => .error (k, d, a)
    | _ => .error (0x14, 0, privateWindow x.sp)

/-- No guard-true lane of the gang stands behind an unfinished access to its call-stack page (R232): the
stack's accesses make no log entry, so such a thread waits at the word. -/
def State.stackFree (s : State) (i : Instr) : Bool :=
  s.gang.tids.all fun t =>
    match s.cohort? t.core t.slot t.access t.cohort, s.thread? t, i.ctl? with
    | some k, some x, some c =>
      !(x.commitAll c).guardOf i || !s.behind t i ⟨privateWindow (x.sp - 8), 0, 0, []⟩ k.logAge
    | _, _, _ => true

/-- call (R130, R132): a misaligned target comes before a full stack. (DESIGN CHOICE, log 156.) -/
def execCall (h : Hd) (disp : BitVec 30) (s : State) : Out :=
  .next (s.issue (.call h disp) (s.stackFree (.call h disp)) fun s0 act s1 =>
    let x := branchTarget s.gang.pc disp
    s1.controlLanes s0 (.call h disp) (fun t th s =>
      if targetBad x then .error (0x05, codeAddressInt x, codeAddress s0.gang.pc)
      else (s.push t th (s0.gang.pc + 1)).map fun s => s.modThread t (·.goto x.toNat)) act)

def execCallx (h : Hd) (a : VReg) (s : State) : Out :=
  .next (s.issue (.callx h a) (s.stackFree (.callx h a)) fun s0 act s1 =>
    s1.controlLanes s0 (.callx h a) (fun t x s =>
      let target := x.rv64 a.toNat
      if codeMisaligned target then .error (0x05, target, codeAddress s0.gang.pc)
      else (s.push t x (s0.gang.pc + 1)).map fun s =>
        s.modThread t (·.land s0.gang.pc 0x093 target)) act)

def execRet (h : Hd) (s : State) : Out :=
  .next (s.issue (.ret h) (s.stackFree (.ret h)) fun s0 act s1 =>
    s1.controlLanes s0 (.ret h) (fun t x s =>
      match s.top t x with
      | .error e => .error e
      | .ok (target, s) =>
        if codeMisaligned target then .error (0x05, target, codeAddress s0.gang.pc)
        else .ok (s.modThread t fun x => { x.land s0.gang.pc 0x094 target with sp := x.sp + 8 })) act)

/-! ### Leaving (R41, R43, R133) -/

/-- The row that lane `l` pops next. -/
def OpQueue.at (x : OpQueue) (l : Nat) : Nat := FMap.getD x.next l 0

/-- Rows that every live lane has popped are freed (R312); `n` bounds them. -/
def OpQueue.trim (x : OpQueue) (lanes : List Nat) : Nat → OpQueue
  | 0 => x
  | n + 1 =>
    if !x.rows.isEmpty && lanes.all fun l => x.first < x.at l then
      OpQueue.trim { x with first := x.first + 1, rows := x.rows.tail } lanes n
    else x

/-- Free the rows of a cohort's operand queues that no lane owes any more. -/
def State.trimQueues (s : State) (core slot c : Nat) : State :=
  let live := lanesOf (s.liveLanes core slot false c)
  s.modCohort core slot false c fun k => { k with queues := FMap.mapV (fun _ x => x.trim live x.rows.length) k.queues }

/-- Keys of the threads of a team's slot. -/
def teamTids (s : State) (core slot : Nat) : List Tid :=
  ((s.threads.map Prod.fst).filter fun k => k / 2048 == teamKey core slot).map tidOfKey

/-- Every thread of the team has exited. -/
def State.teamExited (s : State) (core slot : Nat) : Bool :=
  (teamTids s core slot).all fun t => ((s.thread? t).map (·.exited)).getD true

/-- A grid whose teams have all exited and whose children have all retired retires (R43). -/
def State.gridDone (s : State) (vf grid : Nat) : Bool :=
  match FMap.find? (s.vf vf).grids grid with
  | some g => g.left == 0 && !g.retired &&
      (s.vf vf).grids.all fun e => e.2.parent != some grid || e.2.retired
  | none => false

/-- One team fewer is left in a grid; the last one lets it retire. -/
def State.leaveGrid (s : State) (vf grid : Nat) : State :=
  let s := s.modVf vf fun v => { v with grids := FMap.mod v.grids grid fun g => { g with left := g.left - 1 } }
  if s.gridDone vf grid then s.emit (.gridRetire vf grid) else s

/-- When its last thread has exited, the team has exited: its buffer commits, its slot drains, its grid
loses it, and its operand queues lose their rows (R41, R43, R48, R311). -/
def State.teamLeft (s : State) (core slot : Nat) : State :=
  match s.team? core slot with
  | none => s
  | some tm =>
    if s.teamExited core slot then
      let s := s.commitBuffer core slot
      let s := { s with cohorts := FMap.mapV (fun k c =>
        if k / 64 == teamKey core slot then { c with queues := [] } else c) s.cohorts }
      let s := s.modCore core fun c =>
        { c with slots := FMap.mod c.slots slot fun e => { e with state := .draining } }
      (s.leaveGrid tm.vf tm.grid).emit (.slotFree core slot)
    else s

/-- The thread holds an unresolved log entry. -/
def State.unresolved (s : State) (t : Tid) : Bool :=
  match s.cohort? t.core t.slot t.access t.cohort with
  | some c => !(c.logOf t.lane).isEmpty
  | none => false

/-- The words whose access on its way leaves nothing but a result in a tag. -/
def onlyLoads : Instr → Bool
  | .ld .. | .ldg .. | .ldmx .. => true
  | _ => false

/-- The thread owes an access that has not been performed yet and may still be left unfinished: one on its way that does
more than return a result, or one that is to be logged. (DEDUCED, log 165.) -/
def State.owes (s : State) (t : Tid) : Bool :=
  s.unresolved t || s.waits.any fun w => w.2.tid == t && match w.2.cause with
    | .flight | .publish _ => !onlyLoads w.2.instr
    | .logRoom _ => true
    | _ => false

/-- A thread has exited: its uncommitted tag results are discarded (R133); fixed-latency results still land (R55). -/
def Thread.leave (t : Thread) : Thread :=
  { t with exited := true, exitIssued := false, parked := false, tags := [], since := none }

/-- A THREAD EXITS: its results are discarded, its A latch is emptied, and rows that it alone still owed are freed
(R133, R180, R312). -/
def State.leaveThread (s : State) (t : Tid) : State :=
  let s := (s.modThread t Thread.leave).modCohort t.core t.slot t.access t.cohort fun k =>
    { k with latch := FMap.del k.latch t.lane }
  if t.access then s else s.trimQueues t.core t.slot t.cohort

/-- A thread whose exit word has issued exits once its log entries are resolved, and its writes on their way have been
performed, since one of them may still take an entry; the result of a load is discarded when it arrives (R133, R137).
(DEDUCED, log 165.) -/
def State.finishExit (s : State) (t : Tid) : State :=
  match s.thread? t with
  | some x => if x.exitIssued && !s.owes t then (s.leaveThread t).teamLeft t.core t.slot else s
  | none => s

def execExit (h : Hd) (s : State) : Out :=
  .next (s.issue (.exit h) true fun _ act s1 =>
    let s2 := act.foldl (fun s t =>
      if s.owes t then s.modThread t fun x => { x with pc := s.gang.pc, exitIssued := true }
      else s.leaveThread t) s1
    if act.isEmpty then s2 else s2.teamLeft s.gang.core s.gang.slot)

/-! ### Yielding and doing nothing (R134) -/

def execYield (h : Hd) (s : State) : Out :=
  .next (s.issue (.yield h) true fun _ act s1 =>
    s1.modThreads act fun _ t => { t with readyAt := t.readyAt + 32 })

def execNop (h : Hd) (s : State) : Out :=
  .next (s.issue (.nop h) true fun _ _ s1 => s1)

/-! ### svc and brk (R136) -/

/-- The guard-true threads park with their PC at the next word; one record a cohort. -/
def State.raiseOnPurpose (s : State) (i : Instr) (kind : Nat) (code : BitVec 10) : State :=
  s.issue i true fun _ act s1 =>
    s.gang.cohorts.foldl (fun s' c =>
      let lanes := maskOf ((act.filter (·.cohort == c)).map (·.lane))
      if lanes == 0 then s'
      else s'.takePrecise s.gang.core s.gang.slot s.gang.access c lanes kind i.opcode (codeAddress s.gang.pc)
        (code.setWidth 64)) s1

def execSvc (h : Hd) (code : BitVec 10) (s : State) : Out := .next (s.raiseOnPurpose (.svc h code) 0x0B code)

def execBrk (h : Hd) (code : BitVec 10) (s : State) : Out := .next (s.raiseOnPurpose (.brk h code) 0x0C code)

end Sys2Proof.Machine
end

