-- ==== Sys2Proof/Machine/LoadStore.lean ====
section
/-! DEFINITION. Loads, stores, fences, prefetch, cache control, poison, window words and commits
(spec/11_instr_memory.md R262, R263, R266 to R268, R273 to R275). -/

namespace Sys2Proof.Machine

/-- A loaded value in its registers (R262): little-endian, extended as the size code states. -/
def loadRegs (sz : MSize) (bs : List Byte) : List Word :=
  match sz with
  | .n8 | .n16 | .n32 => [BitVec.ofNat 32 (natLE bs)]
  | .s8 => [(BitVec.ofNat 8 (natLE bs)).signExtend 32]
  | .s16 => [(BitVec.ofNat 16 (natLE bs)).signExtend 32]
  | .n64 | .n128 => (List.range (sz.regs)).map fun k => BitVec.ofNat 32 (natLE ((bs.drop (4 * k)).take 4))

/-- Words as bytes. -/
def wordsBytes (ws : List Word) : List Byte := ws.flatMap fun w => bytesLE 4 w.toNat

/-- The VF of a thread's team. -/
def State.vfOf (s : State) (t : Tid) : Nat := ((s.teamOf t).map (·.vf)).getD 0

/-- The outcome of a read as a lane's outcome. -/
def Got.lane (x : Got) (va : DWord) (at_ : State → DWord) (f : List Byte → Late) : LaneOut :=
  match x with
  | .bytes bs s => .done (f bs) s
  | .poison s => .event 0x1E (at_ s) va s
  | .publish line s => .wait (.publish line) false s

/-- A checked read of `n` bytes at an address. -/
def State.laneRead (s : State) (t : Tid) (a : DWord) (n : Nat) (q : Mq) (f : List Byte → Late) : LaneOut :=
  match s.check t (Acc.load n q.fe) a with
  | (.event k d a, s) => .event k d a s
  | (.waits cl line, s) => .wait (.granule cl line) true s
  | (.scratch cl off _, s) => (s.readScr t (s.vfOf t) cl off n q).lane a (fun _ => clusterAddress cl off) f
  | (.mem g va, s) =>
    if s.fillWaits t g q then .wait .flight false s
    else (s.readMem t g n q).lane (BitVec.ofNat 64 va) (fun s => s.poisonAt g.phys n) f

/-- One lane of ld or ldg (R263). -/
def laneLoad (sz : MSize) (q : Mq) : LaneStep := fun t ops s =>
  s.laneRead t ops.a sz.bytes q fun bs => lateRegs (loadRegs sz bs)

/-- How a waiting load is performed when its granule fills. -/
def granuleStep (i : Instr) : LaneStep :=
  match i with
  | .ld _ sz q _ _ _ => laneLoad sz q
  | .ldg _ sz q _ _ _ => laneLoad sz q
  | _ => fun _ _ s => .ok s

/-- Loads that wait on a line are served after a write of it (R240). -/
def State.serve (s : State) (cl off : Nat) : State := s.serveLine granuleStep cl off

/-- A checked write of bytes at an address; `tag` is the word's. -/
def State.laneWrite (s : State) (t : Tid) (a : DWord) (bs : List Byte) (q : Mq) (tag : Option Nat) : LaneOut :=
  match s.check t (Acc.store bs.length q.fe) a with
  | (.event k d a, s) => .event k d a s
  | (.waits cl line, s) => .wait (.granule cl line) true s
  | (.scratch cl off _, s) => .ok ((s.writeScr t (s.vfOf t) cl off bs q).serve cl off)
  | (.mem g _, s) =>
    match s.writeMem t g bs q tag with
    | (true, s) => .ok s
    | (false, s) => .later s

/-- One lane of st or stg (R263). -/
def laneStore (sz : MSize) (q : Mq) (tag : Option Nat) : LaneStep := fun t ops s =>
  s.laneWrite t ops.a ((wordsBytes ops.data).take sz.bytes) q tag

/-- The issuing team's k pair. -/
def State.gangK (s : State) (k : KReg) : DWord :=
  match s.gangTeam with
  | some tm => tm.rk64 k.toNat
  | none => 0

/-- Registers `r` to `r + n - 1` of a thread. -/
def Thread.group (t : Thread) (r n : Nat) : List Word := (List.range n).map fun i => t.rv (r + i)

def execLd (h : Hd) (sz : MSize) (mq : Mq) (d a : VReg) (off : BitVec 10) (s : State) : Out :=
  .next (s.laneWord (.ld h sz mq d a off)
    (fun _ t => ⟨scaled (t.rv64 a.toNat) off sz.bytes, 0, 0, []⟩) (laneLoad sz mq))

def execLdg (h : Hd) (sz : MSize) (mq : Mq) (d : VReg) (k : KReg) (b : VReg) (s : State) : Out :=
  .next (s.laneWord (.ldg h sz mq d k b)
    (fun _ t => ⟨indexed (s.gangK k) (t.rv b.toNat) sz.bytes, 0, 0, []⟩) (laneLoad sz mq))

def execSt (h : Hd) (sz : MSize) (mq : Mq) (d a : VReg) (off : BitVec 10) (s : State) : Out :=
  .next (s.laneWord (.st h sz mq d a off)
    (fun _ t => ⟨scaled (t.rv64 a.toNat) off sz.bytes, 0, 0, t.group d.toNat (sz.regs)⟩)
    (laneStore sz mq (Instr.tag? (.st h sz mq d a off))))

def execStg (h : Hd) (sz : MSize) (mq : Mq) (d : VReg) (k : KReg) (b : VReg) (s : State) : Out :=
  .next (s.laneWord (.stg h sz mq d k b)
    (fun _ t => ⟨indexed (s.gangK k) (t.rv b.toNat) sz.bytes, 0, 0, t.group d.toNat (sz.regs)⟩)
    (laneStore sz mq (Instr.tag? (.stg h sz mq d k b))))

/-! ### Words without lane events -/

/-- The tag of each guard-true thread completes. -/
def State.deliverAll (s : State) (i : Instr) (act : List Tid) : State :=
  act.foldl (fun s t => s.deliver t i.tag? ⟨[], 0, none⟩) s

/-- A word whose guard-true lanes act on the machine in ascending lane order and raise no lane event; its
tag completes at once. -/
def State.plainWord (s : State) (i : Instr) (extra : Bool) (f : Tid → Thread → State → State) : State :=
  s.issue i extra fun _ act s1 =>
    let s2 := (byLane act).foldl (fun s t =>
      match s1.thread? t with
      | some x => f t x s
      | none => s) s1
    s2.deliverAll i act

/-- The same, each lane giving the result that its tag receives. -/
def State.valueWord (s : State) (i : Instr) (extra : Bool) (f : Tid → Thread → State → State × Late) : State :=
  s.issue i extra fun _ act s1 =>
    (byLane act).foldl (fun s t =>
      match s1.thread? t with
      | some x =>
        let (s, r) := f t x s
        s.deliver t i.tag? r
      | none => s) s1

/-- Nothing that the thread issued is unresolved: no log entry, no waiting request (R229). -/
def State.settled (s : State) (t : Tid) : Bool :=
  !s.unresolved t && s.waits.all fun w => w.2.tid != t

/-- fence (R229, R266): the release set is performed at the scope, and for an acquire the cache action
follows; an acquire fence finds the window stores of its own VF performed, between whose threads the ordinary rules
apply to windows (R242); the word issues once every earlier load of its threads has returned (DEDUCED, log 27). -/
def execFence (h : Hd) (mq : Mq) (s : State) : Out :=
  .next (s.plainWord (.fence h mq) (s.gang.tids.all fun t => s.settled t) fun t _ s =>
    let s := match releaseScope mq with
      | some sc => s.releaseSet t.core (s.vfOf t) sc false
      | none => s
    if mq.order == .acquire || mq.order == .acqrel then
      (s.drain fun f => f.own == s.vfOf t && f.window).cacheAction t.core (s.vfOf t) mq.scope
    else s)

/-- Where an address is served, by its translation and its leaf's permissions; none where one of them fails or it lies
in scratch. (DEDUCED, log 158.) -/
def State.place (s : State) (t : Tid) (a : DWord) : Option Target × State :=
  match s.teamOf t, s.region t a with
  | some tm, .translated va =>
    match s.translate t.core tm.vf va false with
    | (.leaf e, s) =>
      match s.permit t.core tm ⟨1, false, false, false, .none, false⟩ e va with
      | (.ok g, s) => (some g, s)
      | (.error _, s) => (none, s)
    | (_, s) => (none, s)
  | _, _ => (none, s)

/-- One lane of prefetch (R267): the state, and the prefetch record the lane asks for. -/
def prefetchLane (lvl : PfLevel) (t : Tid) (a : DWord) (s : State) : State × Option Unfinished :=
  match s.check t (Acc.load 1 .none) a with
  | (.event k d va, s) =>
    (s, if k == 0x10 && lvl == .page then some ⟨t, .none, some (0x30, d, va)⟩ else none)
  | (.mem g _, s) =>
    if g.isOpen then (s, none)
    else if lvl == .cluster then (s.ccFill (t.core / 4) g .normal, none)
    else if isPeer g.phys then (s, none)
    else (s.fillL2 g g.phys 1 1, none)
  | (_, s) => (s, none)

def execPrefetch (h : Hd) (lvl : PfLevel) (a : VReg) (off : BitVec 10) (s : State) : Out :=
  let i : Instr := .prefetch h lvl a off
  .next (s.issue i true fun _ act s1 =>
    let (s2, us) := (byLane act).foldl (fun (acc : State × List Unfinished) t =>
      match s1.thread? t with
      | some x =>
        let (s, u) := prefetchLane lvl t (scaled (x.rv64 a.toNat) off 64) acc.1
        (s, acc.2 ++ u.toList)
      | none => acc) (s1, [])
    let s3 := s.gang.cohorts.foldl (fun s c => s.reportFree i (us.filter (·.t.cohort == c))) s2
    s3.deliverAll i act)

/-- Key of an instruction-cache line (R70). -/
def icacheKey (vf line : Nat) : Nat := vf * 2 ^ 56 + line

/-- One lane of cachectl (R268). (DEDUCED, log 59.) -/
def cachectlLane (op : CacheOp) (t : Tid) (a : DWord) (s : State) : State :=
  match op with
  | .icall => s.modCore t.core fun c => { c with icache := [] }
  | _ =>
    match s.place t a with
    | (none, s) => s
    | (some g, s) =>
      let k := ccKey (t.core / 4) g.phys
      match op with
      | .l1inv => s.l1Drop t.core g.phys
      | .ccwb => if (s.ccLine? (t.core / 4) g.own g.phys).isSome then s.ccBack k else s
      | .ccinv => if (s.ccLine? (t.core / 4) g.own g.phys).isSome then (s.ccBack k).ccDrop k else s
      | .icinv => s.modCore t.core fun c =>
          { c with icache := FMap.del c.icache (icacheKey (s.vfOf t) (a.toNat / 64)) }
      | .icall => s

def execCachectl (h : Hd) (op : CacheOp) (a : VReg) (s : State) : Out :=
  .next (s.plainWord (.cachectl h op a) true fun t x s => cachectlLane op t (x.rv64 a.toNat) s)

/-- One lane of poison (R273): performed at the home or bank, as a relaxed store of the whole line.
(DEDUCED, log 58.) -/
def lanePoison : LaneStep := fun t ops s =>
  match s.check t ⟨1, false, false, true, .none, true⟩ ops.a with
  | (.event k d a, s) => .event k d a s
  | (.waits cl line, s) => .wait (.granule cl line) true s
  | (.scratch cl off _, s) => .ok (s.setScr cl off { s.scrLine cl off with poison := true })
  | (.mem g _, s) =>
    let s := s.drain fun f => f.core == t.core && overlaps f.phys f.bytes.length (g.phys / 64 * 64) 64
    .ok ((s.forgetLine t.core g).poisonLine (g.phys / 64))

def execPoison (h : Hd) (a : VReg) (s : State) : Out :=
  .next (s.laneWord (.poison h a) (fun _ t => ⟨t.rv64 a.toNat, 0, 0, []⟩) lanePoison)

/-- winpub (R242, R274): the thread's window stores are performed at the window's home, after the older stores to their
bytes; a store through a peer leaf may be one (R216), and goes home from the cluster cache. -/
def execWinpub (h : Hd) (s : State) : Out :=
  .next (s.plainWord (.winpub h) true fun t _ s =>
    let s := (s.endRelaunch t.core t.slot).drain fun f => f.tid == some t && (f.window || isPeer f.phys)
    ((s.ccKeys (t.core / 4) (s.vfOf t)).filter fun k => isPeer (ccBase k)).foldl State.ccBack s)

/-- winacq (R242, R274): every copy of a window line leaves the issuing core's L1 and its cluster cache. -/
def execWinacq (h : Hd) (s : State) : Out :=
  .next (s.plainWord (.winacq h) true fun t _ s =>
    let s := ((s.core t.core).l1.filter fun e => s.windowLine (e.1 * 128)).foldl
      (fun s e => s.l1Drop t.core (e.1 * 128)) s
    ((s.cc.filter fun e => ccCluster e.1 == t.core / 4 && s.windowLine (ccBase e.1)).map Prod.fst).foldl
      (fun s k => (s.ccBack k).ccDrop k) s)

/-- tcommit (R275). -/
def execTcommit (h : Hd) (s : State) : Out :=
  .next (s.plainWord (.tcommit h) true fun t _ s =>
    match s.teamOf t with
    | some tm => if tm.relaunchable then s.commitBuffer t.core t.slot else s
    | none => s)

end Sys2Proof.Machine
end

