-- ==== Sys2Proof/Machine/Atomic.lean ====
section
/-! DEFINITION. Atomics and reductions, each one indivisible step at the location's home or bank
(spec/11_instr_memory.md R264, R265, spec/10_consistency.md R228, R239). -/

namespace Sys2Proof.Machine

/-- An integer combination at one width. -/
def rmwInt {w : Nat} (op : RmwOp) (sg : Sgn) (old b b2 : BitVec w) : BitVec w :=
  match op with
  | .add => old + b
  | .sub => old - b
  | .min => if sgnVal sg b < sgnVal sg old then b else old
  | .max => if sgnVal sg old < sgnVal sg b then b else old
  | .and => old &&& b
  | .or => old ||| b
  | .xor => old ^^^ b
  | .exch => b
  | .cas => if old == b then b2 else old

/-- A combination of .f32 values (R265). -/
def rmwF32 (op : RmwOp) (old b : Nat) : Nat :=
  match op with
  | .min => (fpPick fmtF32 false false old b).1
  | .max => (fpPick fmtF32 true false old b).1
  | _ => (fpAdd fmtF32 .rn false old b).1

/-- The new value of a location (R265), from the old one and the operands. -/
def rmwValue (op : RmwOp) (ty : AtomTy) (old b b2 : Nat) : Nat :=
  match ty with
  | .f32 => rmwF32 op old b
  | .s32 => (rmwInt op .s (BitVec.ofNat 32 old) (BitVec.ofNat 32 b) (BitVec.ofNat 32 b2)).toNat
  | .n32 => (rmwInt op .n (BitVec.ofNat 32 old) (BitVec.ofNat 32 b) (BitVec.ofNat 32 b2)).toNat
  | .s64 => (rmwInt op .s (BitVec.ofNat 64 old) (BitVec.ofNat 64 b) (BitVec.ofNat 64 b2)).toNat
  | .n64 => (rmwInt op .n (BitVec.ofNat 64 old) (BitVec.ofNat 64 b) (BitVec.ofNat 64 b2)).toNat

/-- A cas whose comparison fails writes nothing (R265). -/
def rmwWrites (op : RmwOp) (old b : Nat) : Bool := op != .cas || old == b

/-- The old value as an atom's result. -/
def atomResult (ty : AtomTy) (returns : Bool) (old : List Byte) : Late :=
  if returns then lateRegs (loadRegs (if ty.wide then .n64 else .n32) old) else lateRegs []

/-- The operand registers of a lane as numbers: b, or b1 and b2 of cas. -/
def rmwOperands (ty : AtomTy) (ops : LaneOps) : Nat × Nat :=
  let bs := wordsBytes ops.data
  let n := atomBytes ty
  (natLE (bs.take n), natLE ((bs.drop n).take n))

/-- The qualifier acquires. -/
def mqAcquires (q : Mq) : Bool := q.order == .acquire || q.order == .acqrel

/-- One atomic step at a scratch bank. -/
def State.rmwScr (s : State) (t : Tid) (op : RmwOp) (ty : AtomTy) (q : Mq) (returns : Bool) (cl off : Nat)
    (ops : LaneOps) : LaneOut :=
  let vf := s.vfOf t
  let authors := s.scratchByteAuthors cl off (atomBytes ty)
  match s.readScr t vf cl off (atomBytes ty) q with
  | .publish line s => .wait (.publish line) false s
  | .poison s => .ok s
  | .bytes bs s =>
    let old := natLE bs
    let (b, b2) := rmwOperands ty ops
    let s := if rmwWrites op old b then
        let s := s.writeScr t vf cl off (bytesLE (atomBytes ty) (rmwValue op ty old b b2)) q
        let s := if (releaseScope q).isSome then s
          else { s with scratchAuthors := authors.foldl (fun m x => FMap.put m x.1 x.2) s.scratchAuthors }
        s.serve cl off
      else s
    .done (atomResult ty returns bs) s

/-- One atomic step at the home of a translated location: the releasing part first, then the step, then the
cache action of an acquire. An atomic that releases nothing hands on the release that it read (R230).
(DEDUCED, log 19.) -/
def State.rmwMem (s : State) (t : Tid) (op : RmwOp) (ty : AtomTy) (q : Mq) (returns : Bool) (g : Target) (va : Nat)
    (ops : LaneOps) : LaneOut :=
  let n := atomBytes ty
  let s := s.endRelaunch t.core t.slot
  let s := match releaseScope q with
    | some sc => s.releaseSet t.core g.own sc g.window
    | none => s
  match if mqAcquires q then s.acquireAt t (s.recordAt g (s.authorsOf g.phys n)) (g.phys / 64) else none with
  | some s => .wait (.publish (g.phys / 64)) false s
  | none =>
    let s := s.drain fun f => f.core == t.core && overlaps f.phys f.bytes.length g.phys n
    let as := s.authorsOf g.phys n
    let handed := s.byteAuthors g.phys n
    let s := s.forgetLine t.core g
    if returns && s.poisoned g.phys n then .event 0x1E (s.poisonAt g.phys n) (BitVec.ofNat 64 va) s
    else
      let bs := s.homeBytes g.phys n
      let s := { s with draws := s.draws + 1 }
      let old := natLE bs
      let (b, b2) := rmwOperands ty ops
      let s := if rmwWrites op old b then
          let s := s.homePut g.vf g.comp g.isOpen (g.prio q.hint) g.phys (bytesLE n (rmwValue op ty old b b2))
          match releaseScope q with
          | some sc => s.noteWriter g.phys n (some (writerOf t.core t.slot g.own sc))
          | none => { s with authors := handed.foldl (fun m x => FMap.put m x.1 x.2) s.authors }
        else s
      .done (atomResult ty returns bs) (if mqAcquires q then s.acquireEnd t g as q.scope else s)

/-- Two reds that a router has merged: the operand of both, rounded once where the type rounds (R239). -/
def mergeOperands (op : RmwOp) (ty : AtomTy) (a b : Nat) : Nat :=
  match op with
  | .sub => rmwValue .add ty a b 0
  | op => rmwValue op ty a b 0

/-- One lane of an atom or a red. -/
def laneRmw (op : RmwOp) (ty : AtomTy) (q : Mq) (returns : Bool) : LaneStep := fun t ops s =>
  match s.check t (Acc.rmw (atomBytes ty) returns) ops.a with
  | (.event k d a, s) => .event k d a s
  | (.waits cl line, s) => .wait (.granule cl line) true s
  | (.scratch cl off _, s) => s.rmwScr t op ty q returns cl off ops
  | (.mem g va, s) => s.rmwMem t op ty q returns g va ops

/-- An atom or a red as a word: the address pair, and `n` operand registers from b on. -/
def State.rmwWord (s : State) (i : Instr) (op : RmwOp) (ty : AtomTy) (q : Mq) (returns : Bool) (a b : VReg) (n : Nat) :
    State :=
  s.laneWord i (fun _ t => ⟨t.rv64 a.toNat, 0, 0, t.group b.toNat n⟩) (laneRmw op ty q returns)

/-- Operand registers of a type. -/
def atomRegs (ty : AtomTy) : Nat := if ty.wide then 2 else 1

def execAtomAdd (h : Hd) (ty : AtomTy) (mq : Mq) (d a b : VReg) (s : State) : Out :=
  .next (s.rmwWord (.atomAdd h ty mq d a b) .add ty mq true a b (atomRegs ty))

def execAtomSub (h : Hd) (ty : AtomTy) (mq : Mq) (d a b : VReg) (s : State) : Out :=
  .next (s.rmwWord (.atomSub h ty mq d a b) .sub ty mq true a b (atomRegs ty))

def execAtomMin (h : Hd) (ty : AtomTy) (mq : Mq) (d a b : VReg) (s : State) : Out :=
  .next (s.rmwWord (.atomMin h ty mq d a b) .min ty mq true a b (atomRegs ty))

def execAtomMax (h : Hd) (ty : AtomTy) (mq : Mq) (d a b : VReg) (s : State) : Out :=
  .next (s.rmwWord (.atomMax h ty mq d a b) .max ty mq true a b (atomRegs ty))

def execAtomAnd (h : Hd) (ty : AtomTy) (mq : Mq) (d a b : VReg) (s : State) : Out :=
  .next (s.rmwWord (.atomAnd h ty mq d a b) .and ty mq true a b (atomRegs ty))

def execAtomOr (h : Hd) (ty : AtomTy) (mq : Mq) (d a b : VReg) (s : State) : Out :=
  .next (s.rmwWord (.atomOr h ty mq d a b) .or ty mq true a b (atomRegs ty))

def execAtomXor (h : Hd) (ty : AtomTy) (mq : Mq) (d a b : VReg) (s : State) : Out :=
  .next (s.rmwWord (.atomXor h ty mq d a b) .xor ty mq true a b (atomRegs ty))

def execAtomExch (h : Hd) (ty : AtomTy) (mq : Mq) (d a b : VReg) (s : State) : Out :=
  .next (s.rmwWord (.atomExch h ty mq d a b) .exch ty mq true a b (atomRegs ty))

def execAtomCas (h : Hd) (ty : AtomTy) (mq : Mq) (d a b : VReg) (s : State) : Out :=
  .next (s.rmwWord (.atomCas h ty mq d a b) .cas ty mq true a b (2 * atomRegs ty))

def execRedAdd (h : Hd) (ty : AtomTy) (mq : Mq) (a b : VReg) (s : State) : Out :=
  .next (s.rmwWord (.redAdd h ty mq a b) .add ty mq false a b (atomRegs ty))

def execRedSub (h : Hd) (ty : AtomTy) (mq : Mq) (a b : VReg) (s : State) : Out :=
  .next (s.rmwWord (.redSub h ty mq a b) .sub ty mq false a b (atomRegs ty))

def execRedMin (h : Hd) (ty : AtomTy) (mq : Mq) (a b : VReg) (s : State) : Out :=
  .next (s.rmwWord (.redMin h ty mq a b) .min ty mq false a b (atomRegs ty))

def execRedMax (h : Hd) (ty : AtomTy) (mq : Mq) (a b : VReg) (s : State) : Out :=
  .next (s.rmwWord (.redMax h ty mq a b) .max ty mq false a b (atomRegs ty))

def execRedAnd (h : Hd) (ty : AtomTy) (mq : Mq) (a b : VReg) (s : State) : Out :=
  .next (s.rmwWord (.redAnd h ty mq a b) .and ty mq false a b (atomRegs ty))

def execRedOr (h : Hd) (ty : AtomTy) (mq : Mq) (a b : VReg) (s : State) : Out :=
  .next (s.rmwWord (.redOr h ty mq a b) .or ty mq false a b (atomRegs ty))

def execRedXor (h : Hd) (ty : AtomTy) (mq : Mq) (a b : VReg) (s : State) : Out :=
  .next (s.rmwWord (.redXor h ty mq a b) .xor ty mq false a b (atomRegs ty))

end Sys2Proof.Machine
end

