-- ==== Sys2Proof/Machine/Launch.lean ====
section
/-! DEFINITION. Kernel handles, launches and their refusals, launch queues, semaphore requests, triggers
(spec/12_queues.md R288 to R293, R298, R299, R305, spec/14_tables.md R356, R357, spec/15_counters.md
R381). -/

namespace Sys2Proof.Machine

/-! ### Kernel handles (R288) -/

/-- A bit of a number. -/
def natBit (n i : Nat) : Bool := n / 2 ^ i % 2 == 1

/-- A code address at slot 0 of a line. -/
def lineStart (a : Nat) : Bool := !codeMisaligned (BitVec.ofNat 64 a) && a % 64 == 0

/-- The fields of a handle that R288 bounds, and the reserved ones, are as it states. Any GroupSize goes with either
GroupQuad. (DESIGN CHOICE, log 174.) -/
def handleOk (b : List Byte) : Bool :=
  let attr := fieldLE b 40 1
  let size := attr % 32
  fieldLE b 56 8 == 0 && fieldLE b 52 4 % 512 == 0 && fieldLE b 48 4 % 512 == 0 && fieldLE b 47 1 ≤ 16 &&
  fieldLE b 46 1 < 2 && fieldLE b 44 2 ≤ 64 && fieldLE b 42 2 ≤ 1024 && fieldLE b 41 1 < 4 &&
  [0, 2, 4, 8, 16].contains size && 1 ≤ fieldLE b 36 2 && fieldLE b 36 2 ≤ 1024 && fieldLE b 35 1 ≤ 128 &&
  fieldLE b 34 1 ≤ 63 && 8 ≤ fieldLE b 32 2 && fieldLE b 32 2 ≤ 1024 && fieldLE b 32 2 % 8 == 0 &&
  lineStart (fieldLE b 0 8) && (fieldLE b 8 8 == 0 || lineStart (fieldLE b 8 8))

/-- An entry of the scratch declaration list (R288); an invalid one, with byte 7 set or a field outside its range, is no
declaration (R8). (DEDUCED, log 162.) -/
def declOf (b : List Byte) : Option ScratchDecl :=
  let life := fieldLE b 4 2
  if fieldLE b 7 1 == 0 && fieldLE b 6 1 ≤ 1 && 1 ≤ life && life ≤ 4095 then some ⟨fieldLE b 0 4, life, fieldLE b 6 1 == 1⟩
  else none

/-- The kernel that a handle entry describes; its lists are read with it. -/
def State.kernelOf (s : State) (vf addr : Nat) (b : List Byte) : Kernel :=
  let attr := fieldLE b 40 1
  let decls := s.readVa vf (fieldLE b 24 8) (8 * fieldLE b 44 2)
  let place := s.readVa vf (fieldLE b 16 8) (2 * fieldLE b 42 2)
  { handle := addr
    entry := wordNumber (BitVec.ofNat 64 (fieldLE b 0 8))
    accessEntry := wordNumber (BitVec.ofNat 64 (fieldLE b 8 8))
    regs := fieldLE b 32 2, preds := fieldLE b 34 1, args := fieldLE b 35 1, threads := fieldLE b 36 2
    tiles := BitVec.ofNat 16 (fieldLE b 38 2)
    groupSize := attr % 32, groupQuad := natBit attr 5, relaunch := natBit attr 6, system := natBit attr 7
    compartment := fieldLE b 41 1
    scratchCluster := fieldLE b 48 4, scratchQuad := fieldLE b 52 4, fifoBanks := fieldLE b 47 1
    align := natBit (fieldLE b 46 1) 0
    decls := (List.range (fieldLE b 44 2)).filterMap fun i => declOf ((decls.drop (8 * i)).take 8)
    place := (List.range (fieldLE b 42 2)).map fun i => fieldLE place (2 * i) 2 }

/-- The kernel at an address; none where the entry breaks R288. -/
def State.kernelAt (s : State) (vf addr : Nat) : Option Kernel :=
  let b := s.readVa vf addr 64
  if handleOk b then some (s.kernelOf vf addr b) else none

/-- Address of a handle. -/
def State.handleAddr (s : State) (vf index : Nat) : Nat := (s.vf vf).handleBase + 64 * index

/-- A demand in whole banks (R296). -/
def bankRound (n : Nat) : Nat := (n + 131071) / 131072 * 131072

/-- Reserves beyond the limits of R296. -/
def Kernel.overLimit (k : Kernel) : Bool :=
  let n := bankRound k.scratchCluster + bankRound k.scratchQuad
  2 ^ 23 < n || (k.align && 2 ^ 23 < 4 * n)

/-! ### Launch requests (R289, R298) -/

/-- The head of a token, trigger entry or launch block with its argument bytes. -/
def headOf (b args : List Byte) : LaunchReq where
  handle := fieldLE b 0 2
  shapeX := fieldLE b 2 4
  shapeY := fieldLE b 6 2
  shapeZ := fieldLE b 8 2
  doneSem := fieldLE b 10 2
  waitSem := fieldLE b 12 2
  waitCount := fieldLE b 14 1
  reserved := fieldLE b 15 1 != 0
  args := args

/-- A semaphore field names one, or none by 0xFFFF. -/
def semField (x : Nat) : Bool := x ≤ 4095 || x == 0xFFFF

/-- Who makes a deposit, as far as R289 asks. -/
inductive Depositor where
  /-- A token, a trigger entry. -/
  | token
  | glaunch
  /-- The scheduler core or the host complex. -/
  | system
  deriving DecidableEq, Repr

/-- The first launch error that applies (R289). (DEDUCED, log 68.) -/
def State.launchError (s : State) (vf queue : Nat) (who : Depositor) (r : LaunchReq) : Option Nat :=
  let v := s.vf vf
  let q := FMap.find? v.queues queue
  let full := (q.map fun q => decide (65536 ≤ q.entries.length)).getD false
  match if 4096 ≤ r.handle || r.reserved then none else s.kernelAt vf (s.handleAddr vf r.handle) with
  | none => some 1
  | some k =>
    let teams := r.shapeX * r.shapeY * r.shapeZ
    if k.overLimit then some 1
    else if k.system && who != .system then some 2
    else if teams == 0 || 2 ^ 31 < teams || (k.groupSize != 0 && teams % k.groupSize != 0) then some 3
    else if k.groupSize != 0 && k.relaunch then some 4
    else if !((q.map (·.enabled)).getD false) then some 5
    else if !semField r.waitSem || !semField r.doneSem || ((r.waitCount == 0) != (r.waitSem == 0xFFFF)) then some 6
    else if 65536 ≤ v.grids.length || (who == .glaunch && full) then some 7
    else none

/-! ### Deposits (R289, R290, R305) -/

/-- The first key from `k` on, modulo `n`, that is free; `fuel` bounds the search by the keys in use. -/
def freeFrom {ν : Type} (m : FMap ν) (n k : Nat) : Nat → Nat
  | 0 => k % n
  | fuel + 1 => if (FMap.find? m (k % n)).isNone then k % n else freeFrom m n (k + 1) fuel

/-- A free grid identifier of the VF, 0 to 0x7FFF_FFFE: which one is open (R305). (DESIGN CHOICE, log 67.) -/
def State.freeGrid (s : State) (vf : Nat) : Nat :=
  let m := (s.vf vf).grids
  freeFrom m (2 ^ 31 - 1) (Config.choose s.draws (2 ^ 31 - 1)) m.length

/-- A change of one launch queue. -/
def State.modQueue (s : State) (vf queue : Nat) (f : LaunchQueue → LaunchQueue) : State :=
  s.modVf vf fun v => { v with queues := FMap.mod v.queues queue f }

/-- Semaphore `i` of a VF (R381). -/
def State.sem (s : State) (vf i : Nat) : Nat := FMap.getD (s.vf vf).sems i 0

def State.setSem (s : State) (vf i n : Nat) : State :=
  s.modVf vf fun v => { v with sems := FMap.set v.sems i n 0 }

/-- The requests on a semaphore, in order: number and count, and the queue of a head's request. -/
def State.semRequests (s : State) (vf i : Nat) : List (Nat × Nat × Option Nat) :=
  let saved := (s.vf vf).save.teams.flatMap fun t => t.waits.filter fun w =>
    match w.2.cause with
    | .semaphore .. => true
    | _ => false
  (saved.foldl (fun (m : FMap Wait) w => FMap.put m w.1 w.2) s.waits).filterMap fun w =>
    match w.2.cause with
    | .semaphore v j n => if v == vf && j == i then some (w.1, n, none) else none
    | .head v q j n => if v == vf && j == i then some (w.1, n, some q) else none
    | _ => none

/-- The first request is served if the count allows it, and then the next ones (R381); `fuel` bounds their
number. A served sem.wait is a device-scope acquire (R382). -/
def State.serveSem (s : State) (vf i : Nat) : Nat → State
  | 0 => s
  | fuel + 1 =>
    match s.semRequests vf i with
    | [] => s
    | (n, count, head) :: _ =>
      if s.sem vf i < count || (FMap.find? s.waits n).isNone then s
      else
        let s := s.setSem vf i (s.sem vf i - count)
        match head with
        | some q =>
          ({ s with waits := FMap.del s.waits n }.modQueue vf q fun l =>
            { l with headSince := none
                     entries := match l.entries with
                       | e :: es => { e with served := true } :: es
                       | [] => [] }).serveSem vf i fuel
        | none =>
          let s := match FMap.find? s.waits n with
            | some w => s.cacheAction w.tid.core vf .device
            | none => s
          (s.endWait n ⟨[], 0, none⟩).serveSem vf i fuel

/-- Serve every request that the count allows. -/
def State.semTest (s : State) (vf i : Nat) : State := s.serveSem vf i (s.semRequests vf i).length

/-- Priorities lent until a semaphore reaches a count end when it does (R294). -/
def LaunchQueue.endLoan (l : LaunchQueue) (i count : Nat) : LaunchQueue :=
  match l.lent with
  | some (_, j, n) => if j == i && n ≤ count then { l with lent := none } else l
  | none => l

/-- The loans of a VF's queues that a semaphore's count ends. -/
def State.endLoans (s : State) (vf i : Nat) : State :=
  if (s.vf vf).queues.any fun e => e.2.lent.isSome then
    s.modVf vf fun v => { v with queues := FMap.mapV (fun _ l => l.endLoan i (FMap.getD v.sems i 0)) v.queues }
  else s

/-- Add to a semaphore: it saturates, and its requests are tested (R382). -/
def State.semAdd (s : State) (vf i n : Nat) : State :=
  ((s.setSem vf i (min (s.sem vf i + n) (2 ^ 32 - 1))).endLoans vf i).semTest vf i

/-- A thread number that no thread has, for requests of launch queues. -/
def noTid : Tid := ⟨0, 0, false, 0, 32⟩

/-- The head of a mapped queue places its request on its semaphore (R293). -/
def State.placeHead (s : State) (vf queue : Nat) : State :=
  match FMap.find? (s.vf vf).queues queue with
  | none => s
  | some l =>
    match l.entries with
    | [] => s
    | e :: _ =>
      let placed := s.waits.any fun w =>
        match w.2.cause with
        | .head v q _ _ => v == vf && q == queue
        | _ => false
      if e.waitSem == 0xFFFF || e.served || placed then s
      else
        let s := { s with
          waits := FMap.put s.waits s.waitNext
            ⟨noTid, .queueRoomDeposit vf queue, .none, 0, .head vf queue e.waitSem e.waitCount, none, 0⟩
          waitNext := s.waitNext + 1 }
        (s.modQueue vf queue fun l => { l with headSince := some s.pkg.clk }).semTest vf e.waitSem

/-- The partition of a VF. -/
def State.partOf (s : State) (vf : Nat) : Option Nat := (s.vf vf).partition

/-- A queue's priority: its own, or the higher one lent by R294. -/
def LaunchQueue.rank (l : LaunchQueue) : Nat := max l.priority ((l.lent.map fun (x : Nat × Nat × Nat) => x.1).getD 0)

/-- A queue with something to bind. -/
def LaunchQueue.busy (l : LaunchQueue) : Bool := !l.entries.isEmpty

/-- A queue's place in the order of mapping: its priority, and before its equals one that R294 unmapped. -/
def LaunchQueue.mapRank (l : LaunchQueue) : Nat := 2 * l.rank + (if l.ahead then 1 else 0)

/-- The unmapped non-empty queue of highest priority, the lower number on a tie (R291). -/
def State.nextUnmapped (s : State) (p vf : Nat) : Option Nat :=
  let mapped := (s.partition p).mapping.map Prod.snd
  ((s.vf vf).queues.filter fun e => e.2.busy && !mapped.contains e.1).foldl (fun best e =>
    match best with
    | some q =>
      if ((FMap.find? (s.vf vf).queues q).map LaunchQueue.mapRank).getD 0 < e.2.mapRank then some e.1 else best
    | none => some e.1) none

/-- A queue holds a mapping slot. -/
def State.mapped (s : State) (vf queue : Nat) : Bool :=
  match s.partOf vf with
  | some p => (s.partition p).resident == some vf && (s.partition p).mapping.any (·.2 == queue)
  | none => false

/-- Fill the free mapping slots of a partition whose VF is resident (R291); `fuel` bounds the slots. -/
def State.mapQueues (s : State) (p : Nat) : Nat → State
  | 0 => s
  | fuel + 1 =>
    match (s.partition p).resident, FMap.fresh (s.partition p).mapping 0 16 with
    | some vf, some slot =>
      match s.nextUnmapped p vf with
      | some q =>
        (((s.modPartition p fun x => { x with mapping := FMap.put x.mapping slot q }).modQueue vf q
          fun l => { l with ahead := false }).placeHead vf q).mapQueues p fuel
      | none => s
    | _, _ => s

/-- The mapping is brought up to date, unless dispatch is frozen (R25, R291). -/
def State.remap (s : State) (p : Nat) : State :=
  if (s.partition p).preempt.step != 0 then s else s.mapQueues p 16

/-- The same for a VF's partition. -/
def State.remapVf (s : State) (vf : Nat) : State :=
  match s.partOf vf with
  | some p => if (s.partition p).resident == some vf then s.remap p else s
  | none => s

/-- A grid enters the grid table and its queue; into a full queue it waits for room (R289). The identifier
comes back. (DEDUCED, log 66.) -/
def State.deposit (s : State) (vf queue : Nat) (r : LaunchReq) (parent : Option Nat) (depth : Nat)
    (port : Option Nat) : Nat × State :=
  let g := s.freeGrid vf
  let e : LaunchEntry :=
    { handle := r.handle, shape := (r.shapeX, r.shapeY, r.shapeZ), doneSem := r.doneSem, waitSem := r.waitSem
      waitCount := r.waitCount, args := r.args, grid := g, depth := depth, parent := parent, next := 0
      served := false }
  let grid : Grid := ⟨parent, depth, r.shapeX * r.shapeY * r.shapeZ, false, false, r.doneSem, queue⟩
  let s := { s with draws := s.draws + 1 }.modVf vf fun v => { v with grids := FMap.put v.grids g grid }
  let s := s.modQueue vf queue fun l =>
    if l.entries.length < 65536 && l.waiting.isEmpty then { l with entries := l.entries ++ [e] }
    else { l with waiting := l.waiting ++ [(e, port)] }
  (g, s.remapVf vf)

/-- A record that no cohort wrote: zero where a field does not apply (R316). -/
def State.bareRecord (s : State) (vf kind : Nat) (address detail : DWord) : Record :=
  { time := s.clk, address := address, detail := detail, lanes := 0, grid := 0, team := 0, seq := 0, vf := vf
    core := 0, cohort := 0, slot := 0, log := none, access := false, write := false, wholeCohort := false
    coalesced := false, relaunchable := false, decline := 0, opcode := 0, compartment := 0, kind := kind, host := false }

/-- Append a record of an agent to the queue of a VF's partition. -/
def State.reportBare (s : State) (vf kind : Nat) (address detail : DWord) : State :=
  match s.partOf vf with
  | some p => (s.report p (s.bareRecord vf kind address detail)).2
  | none => s

/-- A launch by an outside party or the hardware: deposited, or refused with a launch-error record that
carries the code and the handle (R289, R317). (DEDUCED, log 69.) -/
def State.launch (s : State) (vf queue : Nat) (who : Depositor) (r : LaunchReq) (port : Option Nat) : State :=
  match s.launchError vf queue who r with
  | some e => s.reportBare vf 0x32 0 (BitVec.ofNat 64 (e + r.handle % 4096 * 65536))
  | none => (s.deposit vf queue r none 0 port).2

/-! ### Triggers (R356, R357) -/

/-- The package cluster of a partition-relative one (R38, R354). -/
def State.clusterOf (s : State) (p rel : Nat) : Option Nat :=
  match (s.partition p).coreMap[rel / 4]? with
  | some q => if q < 64 then some (q * 4 + rel % 4) else none
  | none => none

/-- A destination operand in the forms of R303; a translated one lies in the translated half, below bit 56
(R191). -/
def destOf (x : DWord) : Option Dest :=
  let n := x.toNat
  if natBit n 63 then if bitsOf n 31 32 == 0 then some (.cluster (bitsOf n 23 8) (bitsOf n 0 23)) else none
  else if bitsOf n 56 7 == 0 then some (.translated n) else none

/-- The cluster and byte that a cluster destination of a VF names. -/
def State.destPlace (s : State) (vf : Nat) (x : DWord) : Option (Nat × Nat) :=
  match destOf x, s.partOf vf with
  | some (.cluster rel off), some p => (s.clusterOf p rel).map fun c => (c, off)
  | _, _ => none

/-- The VF counts as swapped out for the arrival path: not resident, or after step P1 (R25, R26, R415).
(DEDUCED, log 97.) -/
def State.away (s : State) (vf : Nat) : Bool :=
  match s.partOf vf with
  | some p => (s.partition p).resident != some vf || (s.partition p).preempt.step != 0 || (s.partition p).frozen
  | none => true

/-- One trigger entry fires: a launch, a count, and OneShot (R357). While trigger dispatch is frozen the launch is held
for the restore (R25, R26). (DEDUCED, log 65.) -/
def State.fireOne (s : State) (vf i : Nat) (t : Trigger) : State :=
  let s := s.modVf vf fun v => { v with triggers := FMap.mod v.triggers i fun t =>
    { t with fireCount := t.fireCount + 1, enabled := t.enabled && !t.oneShot } }
  let r := headOf t.head t.args
  if s.away vf then s.modVf vf fun v => { v with heldLaunches := v.heldLaunches ++ [(t.queue, r)] }
  else s.launch vf t.queue .token r none

/-- A BARRIER PHASE HAS COMPLETED: the Enabled entries that name it fire, in ascending order (R357).
(DEDUCED, log 65.) -/
def State.fireTriggers (s : State) (vf cl off : Nat) : State :=
  (s.vf vf).triggers.foldl (fun s e =>
    if e.2.enabled && s.destPlace vf e.2.barrier == some (cl, off) then s.fireOne vf e.1 e.2 else s) s

end Sys2Proof.Machine
end

