-- ==== Sys2Proof/Machine/Barrier.lean ====
section
/-! DEFINITION. Barrier objects, their words, and the semaphore words (spec/15_counters.md R370 to R382,
spec/10_consistency.md R238). -/

namespace Sys2Proof.Machine

/-! ### The object (R370) -/

/-- A barrier object; Phase is bit 0 of the epoch. -/
structure Bar where
  epoch : Nat
  bytes : Int
  remaining : Nat
  expected : Nat
  excess : Bool
  overrun : Bool
  deriving DecidableEq, Repr

/-- The object that 16 bytes hold. -/
def Bar.of (bs : List Byte) : Bar where
  epoch := fieldLE bs 12 4
  bytes := (BitVec.ofNat 32 (fieldLE bs 8 4)).toInt
  remaining := fieldLE bs 6 2
  expected := fieldLE bs 4 2
  excess := natBit (fieldLE bs 0 4) 2
  overrun := natBit (fieldLE bs 0 4) 1

/-- The object's 16 bytes; reserved bits read 0. -/
def Bar.image (b : Bar) : List Byte :=
  bytesLE 4 (b.epoch % 2 + (if b.overrun then 2 else 0) + (if b.excess then 4 else 0)) ++
  bytesLE 2 b.expected ++ bytesLE 2 b.remaining ++ bytesLE 4 (BitVec.ofInt 32 b.bytes).toNat ++ bytesLE 4 b.epoch

/-- The object after bar.init (R375). -/
def Bar.init (count : Nat) : Bar := ⟨0, 0, count, count, false, false⟩

/-- An outcome of apply: the object, whether the phase completed, and how often a sticky bit was set. -/
structure Applied where
  bar : Bar
  completed : Bool
  settings : Nat
  deriving DecidableEq, Repr

/-- THE PROCEDURE OF R372: n arrivals, x bytes arriving, e bytes expected. (DEDUCED, log 63.) -/
def Bar.apply (b : Bar) (n x : Nat) (e : Int) (leave : Bool) : Applied :=
  let t := b.bytes + e - x
  let bytes := min (max t (-(2 ^ 31))) (2 ^ 31 - 1)
  let clipped := t != bytes
  let tooMany := b.remaining < n
  let m := min n b.remaining
  let b1 : Bar :=
    { b with bytes := bytes, overrun := b.overrun || clipped, excess := b.excess || tooMany
             expected := if leave then b.expected - n else b.expected, remaining := b.remaining - m }
  let events := (if clipped then 1 else 0) + (if tooMany then 1 else 0)
  if (0 < m || 0 < x) && b1.remaining == 0 && decide (bytes ≤ 0) then
    { bar := { b1 with overrun := b1.overrun || decide (bytes < 0), epoch := (b.epoch + 1) % 2 ^ 32
                       remaining := b1.expected, bytes := 0 }
      completed := true, settings := events + (if bytes < 0 then 1 else 0) }
  else ⟨b1, false, events⟩

/-- The condition of bar.wait and bar.try (R378). -/
def Bar.met (b : Bar) (reach : Bool) (target : Word) : Bool :=
  let d := (BitVec.ofNat 32 b.epoch - target).toInt
  if reach then 0 ≤ d else 0 < d

/-! ### Barriers in the state -/

/-- The object at a granule. -/
def State.barAt (s : State) (cl off : Nat) : Bar := .of (((s.scrLine cl off).bytes.drop (off % 512)).take 16)

/-- Write the granule's bytes; its Full bit stays (R371). -/
def State.putBar (s : State) (cl off : Nat) (b : Bar) : State := s.scrWrite cl off b.image false

/-- Add to the cluster's barrier event counter (R386). -/
def State.barCount (s : State) (cl n : Nat) : State :=
  if n == 0 then s
  else s.modCluster cl fun k => { k with barEvents := BitVec.ofNat 32 (min (k.barEvents.toNat + n) (2 ^ 32 - 1)) }

/-- A barrier of which no phase has been widened. -/
def BarScopes.none : BarScopes := ⟨.cluster, []⟩

/-- The scope of a completed phase (R238). -/
def BarScopes.at (x : BarScopes) (epoch : Nat) : Scope :=
  ((x.past.find? fun e => e.1 == epoch).map Prod.snd).getD .cluster

/-- The open phase, of an epoch, completes. -/
def BarScopes.complete (x : BarScopes) (epoch : Nat) : BarScopes :=
  let past := x.past.filter fun e => e.1 != epoch
  ⟨.cluster, if x.now == .cluster then past else (epoch, x.now) :: past⟩

/-- The scopes of a granule's phases. -/
def ScrLine.barScopes (l : ScrLine) (off : Nat) : BarScopes := FMap.getD l.scopes (off % 512 / 16) .none

def State.setBarScopes (s : State) (cl off : Nat) (x : BarScopes) : State :=
  let l := s.scrLine cl off
  s.setScr cl off { l with scopes := FMap.put l.scopes (off % 512 / 16) x }

/-- The epoch of the phase whose completion a wait or a test asks for (R378). -/
def phaseOf (reach : Bool) (target : Word) : Nat := (if reach then target - 1 else target).toNat

/-- The urgency counts of a team return to 0 (R31). -/
def State.calmTeam (s : State) (core slot : Nat) : State :=
  { s with cohorts := FMap.mapV (fun k c =>
      if k / 64 == teamKey core slot then { c with urgency := 0 } else c) s.cohorts }

/-- The acquire of an observed completion of a phase (R238). -/
def State.barAcquire (s : State) (t : Tid) (cl off epoch : Nat) : State :=
  s.cacheAction t.core (s.vfOf t) (((s.scrLine cl off).barScopes off).at epoch)

/-- The acquire of a bar.try, whose result shows every completed phase: the widest from the one it asks for on.
(DEDUCED, log 64.) -/
def State.tryAcquire (s : State) (t : Tid) (cl off epoch : Nat) : State :=
  let b := s.barAt cl off
  let x := (s.scrLine cl off).barScopes off
  s.cacheAction t.core (s.vfOf t) ((x.past.filter fun e =>
    (e.1 + 2 ^ 32 - epoch) % 2 ^ 32 < (b.epoch + 2 ^ 32 - epoch) % 2 ^ 32).foldl
      (fun sc e => scopeWider sc e.2) (x.at epoch))

/-- Release the registered threads whose condition holds (R379). (DEDUCED, log 64.) -/
def State.releaseWaiters (s : State) (cl off : Nat) : State :=
  let b := s.barAt cl off
  s.waits.foldl (fun s w =>
    match w.2.cause with
    | .barrier c o reach target =>
      if c == cl && o == off && b.met reach target then
        ((s.barAcquire w.2.tid cl off (phaseOf reach target)).endWait w.1 ⟨[], 0, none⟩).calmTeam w.2.tid.core w.2.tid.slot
      else s
    | _ => s) s

/-- A CHANGE OF A BARRIER, one step at the bank: R372, then the waiters and triggers of a completed phase.
`scope` is that of the arrival or byte count (R238). -/
def State.barApply (s : State) (vf cl off n bytes : Nat) (e : Int) (leave : Bool) (scope : Scope) : State :=
  let r := (s.barAt cl off).apply n bytes e leave
  let x := (s.scrLine cl off).barScopes off
  let x := if 0 < n || 0 < bytes then { x with now := scopeWider x.now scope } else x
  let s := ((s.putBar cl off r.bar).barCount cl r.settings).setBarScopes cl off
    (if r.completed then x.complete (s.barAt cl off).epoch else x)
  if r.completed then (s.releaseWaiters cl off).fireTriggers vf cl off else s

/-! ### Checks (R374) -/

/-- The outcome of the checks of a barrier word: the place and the arrival's scope, or an event. (DEDUCED, log 61.)
(DEDUCED, log 62.) -/
def State.checkBar (s : State) (t : Tid) (a : DWord) (init : Bool) : Except (Nat × DWord × DWord) (Nat × Nat × Scope) :=
  match s.region t a with
  | .bad => .error (0x14, 0, a)
  | .translated va =>
    let va := BitVec.ofNat 64 va
    .error (if a.toNat % 16 != 0 then 0x15 else 0x16, 0, va)
  | .scratch cl off quad =>
    let l := s.scrLine cl off
    if off % 16 != 0 then .error (0x15, 0, a)
    else match s.allocOf t.core t.slot cl off 16 with
      | none => .error (0x17, 0, a)
      | some al =>
        if !l.valid then .error (0x17, 0, a)
        else if init && (s.lockedScr (t.core / 4) cl off 16 false || s.lockedScr (t.core / 4) cl off 16 true) then
          .error (0x1A, 0, a)
        else if !init && s.stale cl l then .error (0x1B, 0, a)
        else if l.poison then .error (0x1E, clusterAddress cl off, a)
        else if !init && !s.barrierAt cl off then .error (0x16, 0, a)
        else .ok (cl, off, if quad || al.quad then .quad else .cluster)

/-- A barrier word's lane: the checks, then its effect on the object. -/
def laneBar (init : Bool) (f : Tid → LaneOps → Nat → Nat → Scope → State → LaneOut) : LaneStep := fun t ops s =>
  match s.checkBar t ops.a init with
  | .error (k, d, a) => .event k d a s
  | .ok (cl, off, scope) => f t ops cl off scope s

/-- The address pair and the register b of a barrier word. -/
def barOps (a b : VReg) (_ : Tid) (t : Thread) : LaneOps := ⟨t.rv64 a.toNat, 0, 0, [t.rv b.toNat]⟩

/-- The captured register b. -/
def LaneOps.reg (o : LaneOps) : Word := o.data.headD 0

/-! ### The words -/

/-- bar.init (R375): waiters of an earlier object are released, and the object is written. -/
def laneBarInit : LaneStep := laneBar true fun _ ops cl off _ s =>
  let s := s.waits.foldl (fun s w =>
    match w.2.cause with
    | .barrier c o _ _ => if c == cl && o == off then s.endWait w.1 ⟨[], 0, none⟩ else s
    | _ => s) s
  let s := s.scrWrite cl off (Bar.init (ops.reg.toNat % 65536)).image true
  let l := s.scrLine cl off
  let s := s.setScr cl off { l with barType := l.barType ||| laneBit (off % 512 / 16) }
  .ok ((s.setBarScopes cl off .none).serve cl off)

def execBarInit (h : Hd) (a b : VReg) (s : State) : Out :=
  .next (s.laneWord (.barInit h a b) (barOps a b) laneBarInit)

/-- The values of n and e for a form of bar.arrive (R376). -/
def arriveValues (form : ArriveForm) (b : Word) : Nat × Int :=
  match form with
  | .one => (1, 0)
  | .many => (b.toNat % 65536, 0)
  | .pledge => (1, b.toInt)

/-- bar.arrive (R376): a release at the barrier's scope; the result is the epoch before. -/
def laneBarArrive (leave : Bool) (form : ArriveForm) : LaneStep := laneBar false fun t ops cl off scope s =>
  let vf := s.vfOf t
  let (n, e) := arriveValues form ops.reg
  let before := (s.barAt cl off).epoch
  let s := s.releaseSet t.core vf scope false
  let seen := scopeWider scope (narrowest t.core t.slot (cl * 4) 8)
  .done (lateRegs [BitVec.ofNat 32 before]) (s.barApply vf cl off n 0 e leave seen)

def execBarArrive (h : Hd) (leave : Bool) (form : ArriveForm) (d a b : VReg) (s : State) : Out :=
  .next (s.laneWord (.barArrive h leave form d a b) (barOps a b) (laneBarArrive leave form))

/-- bar.expect (R377). -/
def laneBarExpect : LaneStep := laneBar false fun t ops cl off scope s =>
  .ok (s.barApply (s.vfOf t) cl off 0 0 ops.reg.toInt false scope)

def execBarExpect (h : Hd) (a b : VReg) (s : State) : Out :=
  .next (s.laneWord (.barExpect h a b) (barOps a b) laneBarExpect)

/-- bar.wait (R379): released at once, or registered. -/
def laneBarWait (reach : Bool) : LaneStep := laneBar false fun t ops cl off _ s =>
  if (s.barAt cl off).met reach ops.reg then .ok (s.barAcquire t cl off (phaseOf reach ops.reg))
  else .wait (.barrier cl off reach ops.reg) true s

def execBarWait (h : Hd) (reach : Bool) (a b : VReg) (s : State) : Out :=
  .next (s.laneWord (.barWait h reach a b) (barOps a b) (laneBarWait reach))

/-- The result of bar.try (R379). -/
def tryResult (b : Bar) (met : Bool) : Word :=
  BitVec.ofNat 32 (b.remaining * 65536 + b.epoch % 256 * 256 + (if b.excess then 8 else 0) +
    (if b.overrun then 4 else 0) + b.epoch % 2 * 2 + (if met then 1 else 0))

/-- bar.try: it tests once and never registers. -/
def laneBarTry (reach : Bool) : LaneStep := laneBar false fun t ops cl off _ s =>
  let b := s.barAt cl off
  let met := b.met reach ops.reg
  .done (lateRegs [tryResult b met]) (if met then s.tryAcquire t cl off (phaseOf reach ops.reg) else s)

def execBarTry (h : Hd) (reach : Bool) (d a b : VReg) (s : State) : Out :=
  .next (s.laneWord (.barTry h reach d a b) (barOps a b) (laneBarTry reach))

/-- bar.inval (R380): the granule is cleared, and the lanes registered on it raise the address-class fault. -/
def laneBarInval : LaneStep := laneBar false fun _ _ cl off _ s =>
  let s := s.scrWrite cl off (List.replicate 16 0) false
  let l := s.scrLine cl off
  let g := laneBit (off % 512 / 16)
  let s := s.setScr cl off { l with
    barType := l.barType &&& ~~~g
    full := l.full &&& ~~~g
    scopes := FMap.del l.scopes (off % 512 / 16) }
  .ok (s.waits.foldl (fun s w =>
    match w.2.cause with
    | .barrier c o _ _ => if c == cl && o == off then s.failWait w.1 0x16 0 w.2.ops.a else s
    | _ => s) s)

def execBarInval (h : Hd) (a : VReg) (s : State) : Out :=
  .next (s.laneWord (.barInval h a) (fun _ t => ⟨t.rv64 a.toNat, 0, 0, []⟩) laneBarInval)

/-! ### Queue semaphores (R381, R382) -/

/-- The index and the count of a semaphore word. -/
def semOps (a b : VReg) (_ : Tid) (t : Thread) : LaneOps := ⟨(t.rv a.toNat).setWidth 64, 0, 0, [t.rv b.toNat]⟩

/-- sem.sig: a device-scope release, then the addition and the requests that it serves. -/
def laneSemSig : LaneStep := fun t ops s =>
  if 4096 ≤ ops.a.toNat then .event 0x14 0 0 s
  else
    let vf := s.vfOf t
    .ok ((s.releaseSet t.core vf .device false).semAdd vf ops.a.toNat ops.reg.toNat)

def execSemSig (h : Hd) (a b : VReg) (s : State) : Out :=
  .next (s.laneWord (.semSig h a b) (semOps a b) laneSemSig)

/-- sem.wait: served at once where it stands first and the count allows it. -/
def laneSemWait : LaneStep := fun t ops s =>
  let i := ops.a.toNat
  if 4096 ≤ i then .event 0x14 0 0 s
  else
    let vf := s.vfOf t
    let n := ops.reg.toNat
    if (s.semRequests vf i).isEmpty && n ≤ s.sem vf i then
      .ok ((s.setSem vf i (s.sem vf i - n)).cacheAction t.core vf .device)
    else .wait (.semaphore vf i n) true s

def execSemWait (h : Hd) (a b : VReg) (s : State) : Out :=
  .next (s.laneWord (.semWait h a b) (semOps a b) laneSemWait)

end Sys2Proof.Machine
end

