-- ==== Sys2Proof/Machine/Predicate.lean ====
section
/-! DEFINITION. Predicate and lane-mask words (spec/06_instr_integer_control.md R127, R128). -/

namespace Sys2Proof.Machine

/-- A predicate, inverted under a suffix. -/
def predIn (t : Thread) (inv : Bool) (q : PReg) : Bool := t.rp q.toNat != inv

def execPand (h : Hd) (na nb : Bool) (d a b : PReg) (s : State) : Out :=
  .next (s.fixedWord (.pand h na nb d a b) fun t => .p d (predIn t na a && predIn t nb b))

def execPor (h : Hd) (na nb : Bool) (d a b : PReg) (s : State) : Out :=
  .next (s.fixedWord (.por h na nb d a b) fun t => .p d (predIn t na a || predIn t nb b))

def execPxor (h : Hd) (na nb : Bool) (d a b : PReg) (s : State) : Out :=
  .next (s.fixedWord (.pxor h na nb d a b) fun t => .p d (predIn t na a != predIn t nb b))

def execPnot (h : Hd) (d a : PReg) (s : State) : Out :=
  .next (s.fixedWord (.pnot h d a) fun t => .p d (!t.rp a.toNat))

def execPmov (h : Hd) (d a : PReg) (s : State) : Out :=
  .next (s.fixedWord (.pmov h d a) fun t => .p d (t.rp a.toNat))

/-- Lane mask m`r` of a thread's cohort. -/
def State.maskFor (s : State) (t : Tid) (r : MReg) : Word :=
  ((s.cohort? t.core t.slot t.access t.cohort).map (·.rm r.toNat)).getD 0

/-- psetm (R127): bit l of mA for the thread's lane l, inverted under .not. -/
def execPsetm (h : Hd) (inv : Bool) (d : PReg) (a : MReg) (s : State) : Out :=
  .next (s.issue (.psetm h inv d a) true fun s0 act s1 =>
    s1.modThreads act fun t x =>
      x.produce (s0.cycle t.core) 2 (.p d ((s0.maskFor t a).getLsbD t.lane != inv)))

/-- mget (R128): the mask, or under .lt its bits below the thread's lane. -/
def execMget (h : Hd) (lt : Bool) (d : VReg) (a : MReg) (s : State) : Out :=
  .next (s.issue (.mget h lt d a) true fun s0 act s1 =>
    s1.modThreads act fun t x =>
      let m := s0.maskFor t a
      x.produce (s0.cycle t.core) 2 (.v d (if lt then m &&& (laneBit t.lane - 1) else m)))

/-- A lane-mask write leaves for the cohort: visible 2 cycles after issue (R89). -/
def Cohort.produce (c : Cohort) (now : Nat) (r : MReg) (lanes : LaneMask) (bits : Word) : Cohort :=
  { c with pendM := c.pendM ++ [⟨now + 2, r.toNat, lanes, bits⟩] }

/-- A LANE-MASK WORD: each cohort of the gang with a guard-true lane writes its own register; `f` gives
the bits written and their values from the cohort, and from its guard-true lanes (R128). -/
def State.maskWord (s : State) (i : Instr) (d : MReg)
    (f : Cohort → LaneMask → List (Nat × Thread) → LaneMask × Word) : State :=
  s.issue i true fun _ act s1 =>
    let g := s.gang
    g.cohorts.foldl (fun s' c =>
      let lanes := maskOf ((act.filter (·.cohort == c)).map (·.lane))
      if lanes == 0 then s'
      else s'.modCohort g.core g.slot g.access c fun k =>
        let (w, b) := f k lanes (s1.laneThreads c lanes)
        k.produce (s.cycle g.core) d w b) s1

/-- The lanes whose predicate is true. -/
def predLanes (ts : List (Nat × Thread)) (a : PReg) : LaneMask :=
  maskOf ((ts.filter fun t => t.2.rp a.toNat).map Prod.fst)

def execMfromp (h : Hd) (mode : MfrompMode) (d : MReg) (a : PReg) (s : State) : Out :=
  .next (s.maskWord (.mfromp h mode d a) d fun _ lanes ts =>
    let p := predLanes ts a
    match mode with
    | .set => (lanes, p)
    | .or => (p, p)
    | .andn => (p, 0))

def execMset (h : Hd) (op : MsetOp) (d a b : MReg) (s : State) : Out :=
  .next (s.maskWord (.mset h op d a b) d fun k lanes _ =>
    let x := k.rm a.toNat
    let y := k.rm b.toNat
    match op with
    | .mov => (0xFFFFFFFF#32, x)
    | .and => (0xFFFFFFFF#32, x &&& y)
    | .or => (0xFFFFFFFF#32, x ||| y)
    | .xor => (0xFFFFFFFF#32, x ^^^ y)
    | .andn => (0xFFFFFFFF#32, x &&& ~~~y)
    | .gang => (0xFFFFFFFF#32, lanes))

end Sys2Proof.Machine
end

