-- ==== Sys2Proof/Machine/Collective.lean ====
section
/-! DEFINITION. Cohort collectives on registers and predicates, and reconvergence
(spec/06_instr_integer_control.md R122 to R126, R135). -/

namespace Sys2Proof.Machine

/-- The lane that lane `l` reads from, as an integer (R124). -/
def shflSource (mode : ShflMode) (l : Nat) (b : Word) : Int :=
  match mode with
  | .from => (b.toNat % 32 : Nat)
  | .shift => (l : Int) - b.toInt
  | .rot => ((l : Int) - b.toNat) % 32
  | .swap => (Nat.xor l (b.toNat % 32) : Nat)

/-- The operand b of shfl*: signed for .shift, unsigned otherwise (R124). -/
def shflImm (mode : ShflMode) (n : BitVec 5) : Word :=
  match mode with
  | .shift => n.signExtend 32
  | _ => n.setWidth 32

/-- The value a lane receives: its source's if that lane is in the mask, its own otherwise (R124). -/
def shflValue (m : LaneMask) (all : List (Nat × Thread)) (src : Int) (own : Word) (a : Nat) : Word :=
  if 0 ≤ src ∧ src < 32 ∧ m.getLsbD src.toNat then
    ((all.find? (·.1 == src.toNat)).map (·.2.rv a)).getD own
  else own

def execShfl (h : Hd) (mode : ShflMode) (d a b : VReg) (m : MReg) (s : State) : Out :=
  .next (s.collectiveWord (.shfl h mode d a b m) fun mask all l t =>
    .v d (shflValue mask all (shflSource mode l (t.rv b.toNat)) (t.rv a.toNat) a.toNat))

def execShflI (h : Hd) (mode : ShflMode) (n : BitVec 5) (m : MReg) (d a : VReg) (s : State) : Out :=
  .next (s.collectiveWord (.shflI h mode n m d a) fun mask all l t =>
    .v d (shflValue mask all (shflSource mode l (shflImm mode n)) (t.rv a.toNat) a.toNat))

/-- The lanes of the mask whose value of pA, inverted under .not, is true. -/
def voteLanes (all : List (Nat × Thread)) (inv : Bool) (a : PReg) : List Nat :=
  (all.filter fun t => t.2.rp a.toNat != inv).map Prod.fst

/-- vote (R125). -/
def voteResult (kind : VoteKind) (d : BitVec 10) (n : Nat) (yes : List Nat) : Res :=
  match kind with
  | .every => .p (d.setWidth 6) (yes.length == n)
  | .some => .p (d.setWidth 6) (!yes.isEmpty)
  | .same => .p (d.setWidth 6) (yes.isEmpty || yes.length == n)
  | .mask => .v d (maskOf yes)
  | .count => .v d (BitVec.ofNat 32 yes.length)
  | .first => .v d (BitVec.ofNat 32 (yes.headD 32))

def execVote (h : Hd) (kind : VoteKind) (inv : Bool) (d : BitVec 10) (a : PReg) (m : MReg) (s : State) : Out :=
  .next (s.collectiveWord (.vote h kind inv d a m) fun _ all _ _ =>
    voteResult kind d all.length (voteLanes all inv a))

/-- The identity of a reduction (R126). -/
def credId : CredOp → Word
  | .addS | .orN | .xorN => 0
  | .minS => 0x7FFFFFFF
  | .minN | .andN => 0xFFFFFFFF
  | .maxS => 0x80000000
  | .maxN => 0

/-- One step of a reduction (R126). -/
def credStep : CredOp → Word → Word → Word
  | .addS, x, y => x + y
  | .minS, x, y => intMin .s x y
  | .minN, x, y => intMin .n x y
  | .maxS, x, y => intMax .s x y
  | .maxN, x, y => intMax .n x y
  | .andN, x, y => x &&& y
  | .orN, x, y => x ||| y
  | .xorN, x, y => x ^^^ y

def execCred (h : Hd) (op : CredOp) (d a : VReg) (m : MReg) (s : State) : Out :=
  .next (s.collectiveWord (.cred h op d a m) fun _ all _ _ =>
    .v d ((all.map fun t => t.2.rv a.toNat).foldl (credStep op) (credId op)))

/-- mjoin (R135): the guard-true lanes' bits are set, 2 cycles after issue. -/
def execMjoin (h : Hd) (d : MReg) (s : State) : Out :=
  .next (s.maskWord (.mjoin h d) d fun _ lanes _ => (lanes, lanes))

/-- mleave (R135): the guard-true lanes' bits are cleared. -/
def execMleave (h : Hd) (d : MReg) (s : State) : Out :=
  .next (s.maskWord (.mleave h d) d fun _ lanes _ => (lanes, 0))

/-- mwait (R135): nothing beyond the control fields; the wait is the collective's (R36). -/
def execMwait (h : Hd) (a : MReg) (s : State) : Out :=
  .next (s.issue (.mwait h a) true fun _ _ s1 => s1)

/-- COLLECTIVE-MISMATCH (R36, R322): the whole cohort parks with one record. -/
def State.takeMismatch (s : State) (i : Instr) (c : Nat) : State :=
  let g := s.gang
  s.takePrecise g.core g.slot g.access c (s.liveLanes g.core g.slot g.access c) 0x0A i.opcode 0 0

end Sys2Proof.Machine
end

