-- ==== Sys2Proof/Machine/Blocks.lean ====
section
/-! DEFINITION. Block loads and stores: ldmx, stmx (spec/08_instr_float_matrix.md R173, R174,
spec/10_consistency.md R241). -/

namespace Sys2Proof.Machine

/-! ### Packed elements (R151, R152) -/

/-- Bits of one element. -/
def mxWidth : MxFmt → Nat
  | .e4m3 | .e5m2 => 8
  | .e3m2 | .e2m3 | .dxb6 => 6
  | .e2m1 => 4

/-- Alignment of the elements. -/
def mxAlign : MxFmt → Nat
  | .e4m3 | .e5m2 => 32
  | .e3m2 | .e2m3 => 8
  | .e2m1 => 16
  | .dxb6 => 2

/-- The element format; .dxb6 has none. -/
def mxElem : MxFmt → Fmt
  | .e4m3 | .dxb6 => fmtE4m3
  | .e5m2 => fmtE5m2
  | .e3m2 => fmtE3m2
  | .e2m3 => fmtE2m3
  | .e2m1 => fmtE2m1

/-- Element `i` of a packed little-endian field. -/
def unpack (w : Nat) (bs : List Byte) (i : Nat) : Nat := natLE bs / 2 ^ (w * i) % 2 ^ w

/-- Codes packed into `n` bytes, element 0 first. -/
def pack (w n : Nat) (codes : List Nat) : List Byte :=
  bytesLE n ((codes.zipIdx.map fun e => e.1 % 2 ^ w * 2 ^ (w * e.2)).foldl (· + ·) 0)

/-! ### Pieces -/

/-- A span cut at 64-byte boundaries; it is at most 64 bytes long. -/
def pieces (a : DWord) (n : Nat) : List (DWord × Nat) :=
  let r := 64 - a.toNat % 64
  if n ≤ r then [(a, n)] else [(a, r), (a + BitVec.ofNat 64 r, n - r)]

/-- The checks of R259 on one piece, alignment apart. -/
def State.checkPiece (s : State) (t : Tid) (c : Acc) (a : DWord) : Check × State :=
  match s.teamOf t with
  | none => (.event 0x14 0 a, s)
  | some tm =>
    match s.region t a with
    | .bad => (.event 0x14 0 a, s)
    | .scratch cl off quad => (s.checkScratch t c cl off quad a, s)
    | .translated va => s.checkMem t tm c va

/-- An event of a check: kind, Detail, Address. -/
abbrev LaneEvent := Nat × DWord × DWord

/-- The checks on every piece, the first event deciding. -/
def State.checkPieces (s : State) (t : Tid) (acc : Nat → Acc) :
    List (DWord × Nat) → Except LaneEvent (List (Check × Nat)) × State
  | [] => (.ok [], s)
  | (a, n) :: rest =>
    match s.checkPiece t (acc n) a with
    | (.event k d x, s) => (.error (k, d, x), s)
    | (c, s) =>
      match s.checkPieces t acc rest with
      | (.ok cs, s) => (.ok ((c, n) :: cs), s)
      | (.error e, s) => (.error e, s)

/-- The region and alignment of a block's elements (R173). -/
def State.blockFault (s : State) (t : Tid) (a : DWord) (align : Nat) : Option LaneEvent :=
  match s.region t a with
  | .bad => some (0x14, 0, a)
  | .translated va => if a.toNat % align != 0 then some (0x15, 0, BitVec.ofNat 64 va) else none
  | .scratch .. => if a.toNat % align != 0 then some (0x15, 0, a) else none

/-- The checks on a block: its elements, then its scale. -/
def State.checkBlock (s : State) (t : Tid) (acc : Nat → Acc) (fmt : MxFmt) (ops : LaneOps) :
    Except LaneEvent (List (Check × Nat)) × State :=
  match s.blockFault t ops.a (mxAlign fmt) with
  | some e => (.error e, s)
  | none => s.checkPieces t acc (pieces ops.a fmt.bytes ++ (if fmt == .dxb6 then [] else [(ops.b, 1)]))

/-- Read every piece, in one step; `k` takes the bytes. -/
def State.readPieces (s : State) (t : Tid) (q : Mq) (acc : List Byte) (k : List Byte → LaneOut → LaneOut) :
    List (Check × Nat) → LaneOut
  | [] => k acc (.ok s)
  | (.mem g va, n) :: rest =>
    match s.readMem t g n q with
    | .bytes bs s => s.readPieces t q (acc ++ bs) k rest
    | .poison s => .event 0x1E (s.poisonAt g.phys n) (BitVec.ofNat 64 va) s
    | .publish line s => .wait (.publish line) false s
  | (.scratch cl off _, n) :: rest =>
    match s.readScr t (s.vfOf t) cl off n q with
    | .bytes bs s => s.readPieces t q (acc ++ bs) k rest
    | .poison s => .ok s
    | .publish line s => .wait (.publish line) false s
  | _ :: rest => s.readPieces t q acc k rest

/-- The pieces lie in one line of an L1; else the block is read at its homes, so that it stays one unit
(R241). -/
def oneLine : List (Check × Nat) → Bool
  | (.mem g _, _) :: rest => rest.all fun e =>
      match e.1 with
      | .mem h _ => h.phys / 128 == g.phys / 128
      | _ => false
  | _ => false

/-! ### ldmx (R174) -/

/-- The result of a lane from its block's bytes. -/
def ldmxValue (fmt : MxFmt) (lane : Nat) (bs : List Byte) : Late :=
  let code := unpack (mxWidth fmt) (bs.take (if fmt == .dxb6 then 24 else fmt.bytes)) lane
  let lo := bs.getD (if fmt == .dxb6 then 24 else fmt.bytes) 0
  let hi := if fmt == .dxb6 then bs.getD 25 0 else 0
  let v := if fmt == .dxb6 then dxbValue hi lo code else mxValue (mxElem fmt) lo code
  let r := fmtF32.roundTo v .rn false false
  ⟨[BitVec.ofNat 32 r.1, BitVec.ofNat 32 (code + lo.toNat * 256 + hi.toNat * 65536)], r.2, none⟩

/-- One lane of ldmx. -/
def laneLdmx (fmt : MxFmt) (q : Mq) : LaneStep := fun t ops s =>
  match s.checkBlock t (fun n => Acc.load n .none) fmt ops with
  | (.error (k, d, a), s) => .event k d a s
  | (.ok cs, s) =>
    if cs.any fun e => match e.1 with
      | .mem g _ => s.fillWaits t g q
      | _ => false
    then .wait .flight false s
    else s.readPieces t (if oneLine cs then q else { q with fresh := true }) [] (fun bs o =>
      match o with
      | .done _ s => .done (ldmxValue fmt t.lane bs) s
      | o => o) cs

/-! ### stmx (R174) -/

/-- Lanes of a block group with their data. -/
abbrev BlockLanes := List (Nat × Word)

/-- The block that a group writes: elements, then scale bytes. -/
def stmxBlock (fmt : MxFmt) (g : BlockLanes) : List Byte :=
  let w := ((g.head?.map Prod.snd).getD 0).toNat
  let codes := (List.range 32).map fun i => ((g.find? (·.1 == i)).map fun e => e.2.toNat).getD 0
  if fmt == .dxb6 then
    if g.any fun e => e.2.getLsbD 6 then List.replicate 24 0 ++ [0xFF, 0xFF]
    else pack 6 24 codes ++ [BitVec.ofNat 8 (w / 256), BitVec.ofNat 8 (w / 65536)]
  else pack (mxWidth fmt) fmt.bytes codes ++ [BitVec.ofNat 8 (w / 256)]

/-- Write the pieces of a block in one step: each is performed at its home at once, so that the block stays
one unit (R241). The answer says whether the tag is done. -/
def State.writePieces (s : State) (t : Tid) (q : Mq) (tag : Option Nat) (bs : List Byte) :
    List (Check × Nat) → Bool × State
  | [] => (true, s)
  | (.mem g _, n) :: rest =>
    let (now, s) := s.writeMem t g (bs.take n) { q with hint := .stream } (if rest.isEmpty then tag else none)
    let s := s.drain fun f => f.core == t.core && overlaps f.phys f.bytes.length g.phys n
    let (done, s) := s.writePieces t q tag (bs.drop n) rest
    (done && (now || !rest.isEmpty), s)
  | (.scratch cl off _, n) :: rest =>
    let s := (s.writeScr t (s.vfOf t) cl off (bs.take n) q).serve cl off
    s.writePieces t q tag (bs.drop n) rest
  | _ :: rest => s.writePieces t q tag bs rest

/-- One lane of stmx. Its operands hold the whole block; the group's lowest lane, which has `c` set, writes
it. -/
def laneStmx (fmt : MxFmt) (q : Mq) (tag : Option Nat) : LaneStep := fun t ops s =>
  match s.checkBlock t (fun n => Acc.store n .none) fmt ops with
  | (.error (k, d, a), s) => .event k d a s
  | (.ok cs, s) =>
    if ops.c == 0 then .ok s
    else match s.writePieces t q tag (wordsBytes ops.data) cs with
      | (true, s) => .ok s
      | (false, s) => .later s

/-! ### Block groups (R173) -/

/-- Two lanes name the same block. -/
def State.sameBlock (s : State) (x y : Tid × LaneOps) : Bool :=
  x.2.a == y.2.a && x.2.b == y.2.b && s.region x.1 x.2.a == s.region y.1 y.2.a

/-- The jobs that open a group. -/
def State.groupHeads (s : State) : List (Tid × LaneOps) → List (Tid × LaneOps) → List (Tid × LaneOps)
  | [], _ => []
  | x :: xs, seen =>
    if seen.any (s.sameBlock x) then s.groupHeads xs seen else x :: s.groupHeads xs (x :: seen)

/-- The block groups of a word's lanes, each by ascending lane. (DEDUCED, log 82.) -/
def State.blockGroups (s : State) (jobs : List (Tid × LaneOps)) : List (List (Tid × LaneOps)) :=
  (s.groupHeads jobs []).map fun h => jobs.filter (s.sameBlock h)

/-- Perform a group: its lanes complete together, or all are left unfinished. -/
def State.runGroup (s : State) (i : Instr) (pc : Nat) (f : LaneStep) (younger : Nat → Nat)
    (g : List (Tid × LaneOps)) : State × List Unfinished :=
  if g.any fun x => s.behind x.1 i x.2 (younger x.1.cohort) then (s, g.map fun x => ⟨x.1, x.2, none⟩)
  else match g with
    | [] => (s, [])
    | (t, ops) :: _ =>
      match f t ops s with
      | .event k d a s => (s, g.map fun x => ⟨x.1, x.2, some (k, d, a)⟩)
      | _ => s.runLanes i pc f younger g

/-- Perform groups in order. -/
def State.runGroups (s : State) (i : Instr) (pc : Nat) (f : LaneStep) (younger : Nat → Nat) :
    List (List (Tid × LaneOps)) → State × List Unfinished
  | [] => (s, [])
  | g :: rest =>
    let (s, u) := s.runGroup i pc f younger g
    let (s, us) := s.runGroups i pc f younger rest
    (s, u ++ us)

/-- A BLOCK WORD: the lanes' operands are read at issue and form groups, which `mend` completes. -/
def State.blockWord (s : State) (i : Instr) (capture : Thread → LaneOps)
    (mend : List (Tid × LaneOps) → List (Tid × LaneOps)) (f : LaneStep) : State :=
  s.issue i true fun _ act s1 =>
    let jobs := (byLane act).filterMap fun t => (s1.thread? t).map fun x => (t, capture x)
    let g := s.gang
    let age := s.nextAge g.core g.slot g.access
    let (s2, us) := s1.runGroups i g.pc f age ((s1.blockGroups jobs).map mend)
    s2.logGang g i age us

/-- The scale address of a block word; a DXB6 block has none. -/
def scaleAddress (fmt : MxFmt) (x : Thread) (b : VReg) : DWord := if fmt == .dxb6 then 0 else x.rv64 b.toNat

def execLdmx (h : Hd) (fmt : MxFmt) (mq : Mq) (d a b : VReg) (s : State) : Out :=
  .next (s.blockWord (.ldmx h fmt mq d a b) (fun x => ⟨x.rv64 a.toNat, scaleAddress fmt x b, 0, []⟩) id
    (laneLdmx fmt mq))

/-- Bytes as words, the last filled with 0. -/
def bytesWords (bs : List Byte) : List Word :=
  (List.range ((bs.length + 3) / 4)).map fun i => BitVec.ofNat 32 (natLE ((bs.drop (4 * i)).take 4))

/-- The captured data of a group become the whole block, and its lowest lane the writer. -/
def stmxMend (fmt : MxFmt) (g : List (Tid × LaneOps)) : List (Tid × LaneOps) :=
  let block := bytesWords (stmxBlock fmt (g.map fun x => (x.1.lane, x.2.data.headD 0)))
  g.zipIdx.map fun e => (e.1.1, { e.1.2 with c := if e.2 == 0 then 1 else 0, data := block })

def execStmx (h : Hd) (fmt : MxFmt) (mq : Mq) (d a b : VReg) (s : State) : Out :=
  let i : Instr := .stmx h fmt mq d a b
  .next (s.blockWord i (fun x => ⟨x.rv64 a.toNat, scaleAddress fmt x b, 0, [x.rv d.toNat]⟩) (stmxMend fmt)
    (laneStmx fmt mq i.tag?))

end Sys2Proof.Machine
end

