-- ==== Sys2Proof/Machine/Convert.lean ====
section
/-! DEFINITION. Conversion and quantisation: cvt, qcvt, dqcvt (spec/08_instr_float_matrix.md R170 to
R172). -/

namespace Sys2Proof.Machine

/-- The integer type of a code: its sign and width; none for a floating code. -/
def intTy? : ElemTy → Option (Sgn × Nat)
  | .s8 => some (.s, 8) | .s16 => some (.s, 16) | .s32 => some (.s, 32) | .s64 => some (.s, 64)
  | .n8 => some (.n, 8) | .n16 => some (.n, 16) | .n32 => some (.n, 32) | .n64 => some (.n, 64)
  | _ => none

/-- The integer value of a register's low bits (R138). -/
def intOf (ty : Sgn) (w bits : Nat) : Int := sgnVal ty (BitVec.ofNat w bits)

/-- An integer result of `w` bits, extended to 32 bits where it is narrower (R138). -/
def intBits (ty : Sgn) (w : Nat) (x : Int) : DWord :=
  match ty with
  | .s => (BitVec.ofInt w x).signExtend 64
  | .n => (BitVec.ofInt w x).setWidth 64

/-- A floating source's value and whether it signals (R148). -/
def srcVal (src : ElemTy) (ftz : Bool) (bits : Nat) : Val × Bool :=
  let bits := bits % 2 ^ src.width
  ((fmtOf src).operand ftz bits, (fmtOf src).snan bits)

/-- cvt of one value (R170): the result's bits, extended, and the flags. -/
def cvtValue (dst src : ElemTy) (mode : Rnd5) (sat ftz : Bool) (bits : Nat) : DWord × BitVec 6 :=
  match intTy? src, intTy? dst with
  | some (sty, sw), some (dty, dw) =>
    let x := intOf sty sw bits
    if sat then
      let y := min (max x (lowest dty dw)) (highest dty dw)
      (intBits dty dw y, flagIf (y != x) flagSaturate)
    else (intBits dty dw x, 0)
  | some (sty, sw), none =>
    let r := (fmtOf dst).roundTo (.ofInt (intOf sty sw bits)) mode ftz sat
    (BitVec.ofNat 64 r.1, r.2)
  | none, some (dty, dw) =>
    let (x, sn) := srcVal src ftz bits
    let r := toInt x (lowest dty dw) (highest dty dw) mode
    (intBits dty dw r.1, r.2 ||| flagIf sn flagInvalid)
  | none, none =>
    let (x, sn) := srcVal src ftz bits
    let r := (fmtOf dst).roundTo x mode ftz sat
    (BitVec.ofNat 64 r.1, r.2 ||| flagIf sn flagInvalid)

/-- The source register or pair of a conversion, as bits. -/
def Thread.source (t : Thread) (ty : ElemTy) (a : VReg) : Nat :=
  if ty.width == 64 then (t.rv64 a.toNat).toNat else t.rn a

def execCvt (h : Hd) (dst src : ElemTy) (rnd : Rnd5) (sat ftz : Bool) (d a : VReg) (s : State) : Out :=
  .next (s.fixedWord (.cvt h dst src rnd sat ftz d a) fun t =>
    let r := cvtValue dst src rnd sat ftz (t.source src a)
    if dst.width == 64 then { Res.v64 d r.1 with flags := r.2 } else .vf d (r.1.setWidth 32, r.2))

/-- Narrow or widen an exact value into a type of R171. -/
def narrowTo (dst : ElemTy) (mode : Rnd5) (sat : Bool) (x : Val) : Word × BitVec 6 :=
  match intTy? dst with
  | some (ty, w) =>
    let r := toInt x (lowest ty w) (highest ty w) mode
    ((intBits ty w r.1).setWidth 32, r.2)
  | none =>
    let r := (fmtOf dst).roundTo x mode false sat
    (BitVec.ofNat 32 r.1, r.2)

/-- qcvt of one value under its scale register (R171). -/
def qcvtValue (dst src : ElemTy) (rnd : Rnd) (sat : Bool) (a b : Word) : Word × BitVec 6 :=
  let (x, sn) := srcVal src false a.toNat
  if dst == .dxb6 then
    let xlo := b.extractLsb' 0 8
    let xhi := b.extractLsb' 8 8
    if x.isNan then (0x40, flagInvalid)
    else if xlo == 0xFF#8 || xhi == 0xFF#8 then (0x40, 0)
    else
      let r := dxbNarrow x xhi xlo
      (BitVec.ofNat 32 r.1, r.2)
  else
    let q := x.div (fmtF32.decode b.toNat)
    let r := narrowTo dst (rnd5 rnd) sat q.1
    (r.1, r.2 ||| q.2 ||| flagIf (sn || fmtF32.snan b.toNat) flagInvalid)

def execQcvt (h : Hd) (dst src : ElemTy) (rnd : Rnd) (sat : Bool) (d a b : VReg) (s : State) : Out :=
  .next (s.xWord (.qcvt h dst src rnd sat d a b) (s.xCycles 16) fun t =>
    let r := qcvtValue dst src rnd sat (t.rv a.toNat) (t.rv b.toNat)
    ([r.1], r.2))

/-- The element of a source of R172, and whether it signals. -/
def elemVal (src : ElemTy) (a : Word) : Val × Bool :=
  match intTy? src with
  | some (ty, w) => (.ofInt (intOf ty w a.toNat), false)
  | none => srcVal src false a.toNat

/-- dqcvt of one value under its scale register (R172). -/
def dqcvtValue (dst src : ElemTy) (rnd : Rnd) (sat : Bool) (a b : Word) : Word × BitVec 6 :=
  if src == .dxb6 then
    narrowTo dst (rnd5 rnd) sat (dxbValue (b.extractLsb' 8 8) (b.extractLsb' 0 8) (a.toNat % 64))
  else
    let (x, sn) := elemVal src a
    let p := x.mul (fmtF32.decode b.toNat)
    let r := narrowTo dst (rnd5 rnd) sat p.1
    (r.1, r.2 ||| flagIf (p.2 || sn || fmtF32.snan b.toNat) flagInvalid)

def execDqcvt (h : Hd) (dst src : ElemTy) (rnd : Rnd) (sat : Bool) (d a b : VReg) (s : State) : Out :=
  .next (s.xWord (.dqcvt h dst src rnd sat d a b) (s.xCycles 16) fun t =>
    let r := dqcvtValue dst src rnd sat (t.rv a.toNat) (t.rv b.toNat)
    ([r.1], r.2))

end Sys2Proof.Machine
end

