-- ==== Sys2Proof/Machine/Matrix.lean ====
section
/-! DEFINITION. The matrix-accumulate unit: mma, acczero, accld, accst, accchk, the sector's queue, and the
checksums of a tile (spec/08_instr_float_matrix.md R175 to R190). -/

namespace Sys2Proof.Machine

/-! ### Values -/

/-- The exact sum of values; of one value, itself. -/
def valSum : List Val → Val
  | [] => .zero false
  | x :: xs => xs.foldl (fun a b => (a.add b .rn).1) x

/-- |v|. -/
def Val.abs : Val → Val
  | .nan => .nan
  | .inf _ => .inf false
  | .fin x => .fin { x with neg := false }

/-- An FP32 word's value. -/
def f32Val (w : Word) : Val := fmtF32.decode w.toNat

/-- Round to FP32, subnormals kept, without flags. -/
def toF32 (mode : Rnd5) (v : Val) : Word := BitVec.ofNat 32 (fmtF32.roundTo v mode false false).1

/-- Both orders of a table of 32 by 32. -/
def column {α : Type} [Inhabited α] (rows : List (List α)) (j : Nat) : List α :=
  rows.map fun r => r.getD j default

/-! ### Formats (R177, R178) -/

/-- Chunk length k. -/
def mmaK : ElemTy → Nat
  | .f16 | .bf16 => 16
  | .e2m1 | .dxb6 => 64
  | _ => 32

/-- Bits of an element as it is packed; DXB6 packs its magnitudes. -/
def mmaWidth : ElemTy → Nat
  | .f16 | .bf16 => 16
  | .e3m2 | .e2m3 => 6
  | .e2m1 | .dxb6 => 4
  | _ => 8

/-- Bytes of the B element region. -/
def mmaRegion : ElemTy → Nat
  | .e3m2 | .e2m3 => 768
  | _ => 1024

/-- Bytes of a B tile. -/
def mmaTileBytes (fmt : ElemTy) (mx : Bool) : Nat :=
  if fmt == .dxb6 then 1664 else mmaRegion fmt + (if mx then mmaK fmt else 0)

/-- A word list as one little-endian number. -/
def wordsNat (ws : List Word) : Nat := natLE (wordsBytes ws)

/-- Element `e` of a row or column: `x` its packed elements, `signs` and `sels` those of DXB6, `scale` its
scale bytes. (DEDUCED, log 86.) -/
def mmaElem (fmt : ElemTy) (mx : Bool) (x signs sels : Nat) (scale : List Byte) (e : Nat) : Val :=
  let code := x / 2 ^ (mmaWidth fmt * e) % 2 ^ mmaWidth fmt
  let b := e / 32
  if fmt == .dxb6 then
    dxbValue (scale.getD (2 * b + 1) 0) (scale.getD (2 * b) 0)
      ((if natBit signs e then 32 else 0) + (if natBit sels e then 16 else 0) + code)
  else if mx then mxValue (fmtOf fmt) (scale.getD b 0) code
  else (fmtOf fmt).decode code
where
  natBit (n i : Nat) : Bool := n / 2 ^ i % 2 == 1

/-- The values of an A row from its registers and its scale register (R177). -/
def rowValues (fmt : ElemTy) (mx : Bool) (row : List Word) (vc : Word) : List Val :=
  let x := wordsNat (row.take 8)
  (List.range (mmaK fmt)).map
    (mmaElem fmt mx x (wordsNat ((row.drop 8).take 2)) (wordsNat ((row.drop 10).take 2)) (bytesLE 4 vc.toNat))

/-- The values of column `j` of a B tile (R178). -/
def columnValues (fmt : ElemTy) (mx : Bool) (bt : List Byte) (j : Nat) : List Val :=
  let n := mmaRegion fmt / 32
  let field := fun lo len => natLE ((bt.drop lo).take len)
  let blocks := mmaK fmt / 32
  let scale := if fmt == .dxb6 then (bt.drop (1536 + 4 * j)).take 4
    else (bt.drop (mmaRegion fmt + blocks * j)).take blocks
  (List.range (mmaK fmt)).map
    (mmaElem fmt mx (field (n * j) n) (field (1024 + 8 * j) 8) (field (1280 + 8 * j) 8) scale)

/-- dot_exact of R155. -/
def dotExact (a b : List Val) : Val := valSum ((a.zip b).map fun p => (p.1.mul p.2).1)

/-! ### Tiles and checksums (R184, R185) -/

/-- A sector's tile. -/
def Sector.tile (x : Sector) (n : Nat) : TileState := FMap.getD x.tiles n .zero

def State.setTile (s : State) (core sec n : Nat) (t : TileState) : State :=
  s.modSector core sec fun x => { x with tiles := FMap.put x.tiles n t }

/-- Recompute every checksum from the tile (R184). -/
def TileState.recompute (t : TileState) : TileState :=
  let vs := t.rows.map (·.map f32Val)
  let cols := (List.range 32).map fun j => vs.map fun r => r.getD j .nan
  { t with
    rho := vs.map fun r => toF32 .rn (valSum r)
    sigma := vs.map fun r => toF32 .rp (valSum (r.map Val.abs))
    kappa := cols.map fun c => toF32 .rn (valSum c)
    sigmac := cols.map fun c => toF32 .rp (valSum (c.map Val.abs)) }

/-- The exact products of an octet operation: by row, its 32 sums s. -/
abbrev Products := FMap (List Val)

/-- Entry `i` of a list of words. -/
def wordAt (ws : List Word) (i : Nat) : Word := ws.getD i 0

/-- AN OCTET OPERATION on a tile (R179, R184). -/
def TileState.octet (t : TileState) (p : Products) : TileState :=
  let old := fun i j => f32Val (wordAt (t.rows.getD i []) j)
  let mag := fun i j (x : Val) => [(old i j).abs, x.abs]
  let rowOf := fun i => FMap.find? p i
  let sums := fun j (f : Nat → Val → List Val) => p.flatMap fun e => f e.1 (e.2.getD j .nan)
  { rows := t.rows.zipIdx.map fun r =>
      match rowOf r.2 with
      | some xs => (r.1.zip xs).map fun e => toF32 .rn ((f32Val e.1).add e.2 .rn).1
      | none => r.1
    rho := t.rho.zipIdx.map fun r =>
      match rowOf r.2 with
      | some xs => toF32 .rn ((f32Val r.1).add (valSum xs) .rn).1
      | none => r.1
    sigma := t.sigma.zipIdx.map fun r =>
      match rowOf r.2 with
      | some xs => toF32 .rp ((f32Val r.1).add (valSum (xs.zipIdx.flatMap fun e => mag r.2 e.2 e.1)) .rn).1
      | none => r.1
    kappa := t.kappa.zipIdx.map fun c =>
      toF32 .rn ((f32Val c.1).add (valSum (sums c.2 fun _ x => [x])) .rn).1
    sigmac := t.sigmac.zipIdx.map fun c =>
      toF32 .rp ((f32Val c.1).add (valSum (sums c.2 fun i x => mag i c.2 x)) .rn).1 }

/-- The value is finite. -/
def Val.finite : Val → Bool
  | .fin _ => true
  | _ => false

/-- The test of R185 on one row or column: its elements, its checksum and its bound. -/
def sumBad (xs : List Word) (check bound : Word) : Bool :=
  let vs := xs.map f32Val
  let c := f32Val check
  vs.all Val.finite && c.finite &&
  Val.lt (((f32Val bound).scale (-22)).add (.mk false 1 (-140)) .rn).1 (((valSum vs).add c.neg .rn).1).abs

/-- The column of a tile. -/
def TileState.col (t : TileState) (j : Nat) : List Word := t.rows.map fun r => wordAt r j

/-- Replace one entry of a list of words. -/
def setAt (ws : List Word) (i : Nat) (w : Word) : List Word := ws.set i w

/-- THE CHECK OF R185: bits 12:0 of the result (R189), and the tile with its correction or repair. -/
def TileState.check (t : TileState) : Nat × TileState :=
  let rows := (List.range 32).filter fun i => sumBad (t.rows.getD i []) (wordAt t.rho i) (wordAt t.sigma i)
  let cols := (List.range 32).filter fun j => sumBad (t.col j) (wordAt t.kappa j) (wordAt t.sigmac j)
  match rows, cols with
  | [], [] => (0, t)
  | [i], [j] =>
    let row := t.rows.getD i []
    let rest := valSum ((row.zipIdx.filter fun e => e.2 != j).map fun e => f32Val e.1)
    let x := toF32 .rn ((f32Val (wordAt t.rho i)).add rest.neg .rn).1
    (1 + i * 4 + j * 128, { t with rows := t.rows.set i (setAt row j x) })
  | [i], [] => (2 + i * 4, { t with rho := setAt t.rho i (toF32 .rn (valSum ((t.rows.getD i []).map f32Val))) })
  | [], [j] => (2 + j * 128 + 4096, { t with kappa := setAt t.kappa j (toF32 .rn (valSum ((t.col j).map f32Val))) })
  | _, _ => (3, t)

/-- Check a sector's tile: a status other than clean is counted and logged (R185, R386). -/
def State.checkTile (s : State) (core sec n : Nat) : Nat × State :=
  let (r, t) := ((s.sector core sec).tile n).check
  if r == 0 then (0, s)
  else
    (r, (s.setTile core sec n t).modSector core sec fun x =>
      { x with
        abft := BitVec.ofNat 32 (min (x.abft.toNat + 1) (2 ^ 32 - 1))
        abftLog := (BitVec.ofNat 64 (s.pkg.clk % 2 ^ 32 * 2 ^ 32 + n * 2 ^ 13 + r) :: x.abftLog).take 16 })

/-! ### The queue (R182, R183) -/

/-- Entries that the queue of the gang's sector can still take. -/
def State.mauRoom (s : State) : Nat := 16 - (s.sector s.gang.core s.sectorOfGang).mau.length

/-- The sector of a thread (R29). -/
def State.sectorOfTid (s : State) (t : Tid) : Nat := ((s.teamOf t).map fun tm => sectorOf t.cohort tm.baseSector).getD 0

/-- The word loads rows of a tile. -/
def loadsTile (i : Instr) (tile : Tile) : Bool :=
  match i with
  | .accld _ _ _ t _ => t == tile
  | _ => false

/-- Rows of a tile are still to be loaded for the gang's team on its sector: later words on the tile wait, so that
they act on it in issue order (R175, R183). (DEDUCED, log 85.) -/
def State.rowsDue (s : State) (tile : Tile) : Bool :=
  let g := s.gang
  (s.cohorts.any fun e => e.1 / 32 == (teamKey g.core g.slot) * 2 &&
    s.sectorOfTid ⟨g.core, g.slot, false, e.1 % 32, 0⟩ == s.sectorOfGang &&
    e.2.log.any fun x => loadsTile x.2.instr tile) ||
  s.waits.any fun w => w.2.tid.core == g.core && w.2.tid.slot == g.slot &&
    s.sectorOfTid w.2.tid == s.sectorOfGang && loadsTile w.2.instr tile

/-- A word of one entry on a tile may join the queue (R175, R182). -/
def State.mauOk (s : State) (tile : Tile) : Bool := 1 ≤ s.mauRoom && !s.rowsDue tile

/-- Append an operation to a sector's queue. (DEDUCED, log 84.) -/
def State.mauPush (s : State) (core sec : Nat) (e : MauEntry) : State :=
  (s.modSector core sec fun x => { x with mau := x.mau ++ [e] }).emit (.mauOpComplete core sec)

/-- An entry of the gang's word. -/
def State.mauEntry (s : State) (i : Instr) (op : MauOp) (tids : List Tid) : MauEntry :=
  ⟨op, s.gang.slot, s.gang.cohorts, i, tids, i.tag?⟩

/-- The exact sums of an octet operation's rows. -/
def octetProducts (fmt : ElemTy) (mx : Bool) (rows : FMap (List Word)) (scales : FMap Word) (bt : List Byte) : Products :=
  let cols := (List.range 32).map (columnValues fmt mx bt)
  rows.map fun r => (r.1, cols.map (dotExact (rowValues fmt mx r.2 (FMap.getD scales r.1 0))))

/-- Replace rows of a tile and recompute its checksums. -/
def TileState.putRows (t : TileState) (rows : FMap (List Word)) : TileState :=
  let rows' := t.rows.zipIdx.map fun (r : List Word × Nat) => (FMap.find? rows r.2).getD r.1
  { t with rows := rows' }.recompute

/-- Bytes of a cluster's memory, over several lines. -/
def State.scrBytes (s : State) (cl off n : Nat) : List Byte :=
  let first := off / 512
  let lines := (List.range ((off + n + 511) / 512 - first)).flatMap fun k => (s.scrLine cl ((first + k) * 512)).bytes
  (lines.drop (off % 512)).take n

/-- A B tile of which the 16-byte pieces under a mask are read now (R222). -/
def State.lateTile (s : State) (bt : List Byte) (src : Nat) (due : BitVec 104) : List Byte :=
  if due == 0 then bt
  else
    let now := s.scrBytes (src / 2 ^ 23) (src % 2 ^ 23) bt.length
    bt.zipIdx.map fun e => if due.getLsbD (e.2 / 16) then now.getD e.2 e.1 else e.1

/-- An octet operation that names the B address and the format of the next one in the queue may be fused with it into
one pass, which changes no result (R180): a free choice, which is counted (R384). -/
def State.countFusion (s : State) (core sec src : Nat) (fmt : ElemTy) : State :=
  match (s.sector core sec).mau.head? with
  | some e =>
    match e.op with
    | .octet _ f _ _ _ _ next _ =>
      if next == src && f == fmt then
        { s with draws := s.draws + 1 }.count core 0x0021 (Config.choose s.draws 2 % 2)
      else s
    | _ => s
  | none => s

/-- An operation acts on its sector's tiles; the answer is the result of its tag. -/
def State.mauRun (s : State) (core sec : Nat) (op : MauOp) : Late × State :=
  let tile := (s.sector core sec).tile
  match op with
  | .octet n fmt mx rows scales bt src due =>
    let s := s.countFusion core sec src fmt
    (lateRegs [], (s.setTile core sec n ((tile n).octet
      (octetProducts fmt mx rows scales (s.lateTile bt src due)))).count core 0x0020 1)
  | .zero n lanes =>
    (lateRegs [], s.setTile core sec n ((tile n).putRows ((lanesOf lanes).map fun l => (l, List.replicate 32 0))))
  | .load n rows => (lateRegs [], s.setTile core sec n ((tile n).putRows rows))
  | .store _ => (lateRegs [], s)
  | .check n =>
    let (r, s) := s.checkTile core sec n
    (lateRegs [BitVec.ofNat 32 r], s)

/-- Rows of a transfer's word are on their way: the transfer keeps its entry until they have come (R182). -/
def State.rowsFlying (s : State) (core : Nat) (e : MauEntry) : Bool :=
  match e.op with
  | .load .. | .store .. => s.waits.any fun w =>
      w.2.tid.core == core && w.2.tid.slot == e.slot && e.cohorts.contains w.2.tid.cohort && w.2.instr == e.instr &&
      w.2.cause == .flight
  | _ => false

/-- THE OLDEST OPERATION OF A SECTOR'S QUEUE FINISHES (R182): it acts, and the tags it completes receive
their result. -/
def State.mauStep (s : State) (core sec : Nat) : State :=
  match (s.sector core sec).mau with
  | [] => s
  | e :: rest =>
    if s.rowsFlying core e then s
    else
      let s := s.modSector core sec fun x => { x with mau := rest }
      let (r, s) := s.mauRun core sec e.op
      e.tids.foldl (fun s t => s.deliver t e.tag r) s

/-- Every operation of a sector's queue finishes; `n` bounds them. -/
def State.mauFinish (s : State) (core sec : Nat) : Nat → State
  | 0 => s
  | n + 1 => (s.mauStep core sec).mauFinish core sec n

/-! ### mma (R176, R179 to R181) -/

/-- The octets that have a guard-true lane, rising. -/
def octetsOf (act : List Tid) : List Nat := (List.range 4).filter fun o => act.any fun t => t.lane / 8 == o

/-- Room for the octet operations of the gang's mma (R182). -/
def State.mmaRoom (s : State) (i : Instr) : Bool := (octetsOf ((s.control i).active i)).length ≤ s.mauRoom

/-- The B address of each octet of the gang's mma, with the octet's threads. -/
def State.octetReads (s : State) (b : VReg) (act : List Tid) : List (DWord × List Tid) :=
  (octetsOf act).filterMap fun o =>
    let ts := (byLane act).filter fun t => t.lane / 8 == o
    match ts with
    | t :: _ => some (((s.thread? t).map (·.rv64 b.toNat)).getD 0, ts)
    | [] => none

/-- The mma may issue: its octets find room, the rows of its tile have landed, and none of its threads stands behind
an unfinished access of its own to a page of the B tile, which it reads in program order (R175, R181, R182, R232). -/
def State.mmaOk (s : State) (i : Instr) : Bool :=
  match i with
  | .mma _ fmt mx _ t _ b _ =>
    let s' := s.control i
    let last := BitVec.ofNat 64 (mmaTileBytes fmt mx - 1)
    s.mmaRoom i && !s.rowsDue t && (s'.octetReads b (s'.active i)).all fun o => o.2.all fun u =>
      let age := s.nextAge u.core u.slot u.access u.cohort
      !s.behind u i ⟨o.1, 0, 0, []⟩ age && !s.behind u i ⟨o.1 + last, 0, 0, []⟩ age
  | _ => true

/-- The B tile at an address and the byte of cluster memory where it begins, or the event that its read raises. -/
def State.readB (s : State) (t : Tid) (a : DWord) (n : Nat) : Except LaneEvent (List Byte × Nat) :=
  match s.region t a with
  | .scratch cl off _ =>
    let lines := (List.range ((n + 511) / 512)).map fun k => off + k * 512
    if off % 512 != 0 || (s.allocOf t.core t.slot cl off n).isNone then .error (0x1F, 0, a)
    else if s.lockedScr (t.core / 4) cl off n true then .error (0x1A, 0, a)
    else if lines.any fun o => s.stale cl (s.scrLine cl o) then .error (0x1B, 0, a)
    else match lines.find? fun o => (s.scrLine cl o).poison with
      | some o => .error (0x1E, clusterAddress cl o, a)
      | none => .ok (s.scrBytes cl off n, cl * 2 ^ 23 + off)
  | .translated va => .error (0x1F, 0, BitVec.ofNat 64 va)
  | .bad => .error (0x1F, 0, a)

/-- The B tile of each octet and where it begins, with the octet. -/
def State.readOctets (s : State) (fmt : ElemTy) (mx : Bool) (b : VReg) (act : List Tid) :
    List Nat → Except LaneEvent (List (Nat × List Byte × Nat))
  | [] => .ok []
  | o :: rest =>
    match (byLane act).find? fun t => t.lane / 8 == o with
    | none => s.readOctets fmt mx b act rest
    | some t =>
      match s.readB t (((s.thread? t).map (·.rv64 b.toNat)).getD 0) (mmaTileBytes fmt mx) with
      | .error e => .error e
      | .ok bs =>
        match s.readOctets fmt mx b act rest with
        | .ok l => .ok ((o, bs) :: l)
        | .error e => .error e

/-- The A row of a lane: from its latch where that holds the field and the format, else from the registers
(R180). -/
def Cohort.rowOf (c : Cohort) (lane : Nat) (fmt : ElemTy) (a : VReg) (x : Thread) : List Word :=
  match FMap.find? c.latch lane with
  | some l => if l.aField == a.toNat && l.fmt == fmt then l.row else x.group a.toNat (mmaSpan fmt)
  | none => x.group a.toNat (mmaSpan fmt)

/-- The latch of a lane after an mma (R180). (DEDUCED, log 87.) -/
def Cohort.latchAfter (c : Cohort) (reuse : Bool) (fmt : ElemTy) (a : VReg) (lane : Nat) (row : List Word) : Cohort :=
  if reuse then { c with latch := FMap.put c.latch lane ⟨row, a.toNat, fmt⟩ }
  else { c with latch := FMap.del c.latch lane }

/-- The pieces of a B tile that are read after the issue: of free choice (R222, R224). -/
def State.latePieces (s : State) : BitVec 104 :=
  if s.prompt then 0 else BitVec.ofNat 104 (Config.choose s.draws (2 ^ 104))

/-- The octet operations of an mma join the queue; the last one completes its tag. -/
def State.pushOctets (s : State) (i : Instr) (fmt : ElemTy) (mx : Bool) (tile : Nat) (act : List Tid)
    (rows : FMap (List Word)) (scales : FMap Word) : List (Nat × List Byte × Nat) → State
  | [] => s
  | (o, bt, src) :: rest =>
    let mine := fun (l : Nat) => l / 8 == o
    let op := MauOp.octet tile fmt mx (rows.filter fun r => mine r.1) (scales.filter fun r => mine r.1) bt src s.latePieces
    ({ s with draws := s.draws + 1 }.mauPush s.gang.core s.sectorOfGang (s.mauEntry i op (if rest.isEmpty then act else []))).pushOctets i fmt mx
      tile act rows scales rest

/-- mma: its B tiles are read at issue; an event of any octet is precise for the cohort. -/
def execMma (h : Hd) (fmt : ElemTy) (mx reuse : Bool) (t : Tile) (a b c : VReg) (s : State) : Out :=
  let i : Instr := .mma h fmt mx reuse t a b c
  .next (s.issue i (s.mmaOk i) fun s0 act s1 =>
    match s.gang.cohorts with
    | [k] =>
      match s1.readOctets fmt mx b act (octetsOf act) with
      | .error (kind, d, adr) =>
        s1.backOut s0 i (s.gang.tids.map fun t => ⟨t, kind, d, adr⟩)
      | .ok tiles =>
        let c0 := (s1.cohort? s.gang.core s.gang.slot s.gang.access k).getD (.launch 0)
        let lanes := (byLane act).filterMap fun t => (s1.thread? t).map fun x => (t.lane, x)
        let rows := lanes.map fun l => (l.1, c0.rowOf l.1 fmt a l.2)
        let scales := lanes.map fun l => (l.1, l.2.rv c.toNat)
        let s2 := s1.modCohort s.gang.core s.gang.slot s.gang.access k fun c0 =>
          rows.foldl (fun c0 r => c0.latchAfter reuse fmt a r.1 r.2) c0
        s2.pushOctets i fmt mx t.toNat act rows scales tiles
    | _ => s1)

/-! ### acczero, accchk (R186, R189) -/

/-- The guard-true lanes of a word. -/
def actLanes (act : List Tid) : LaneMask := maskOf (act.map (·.lane))

def execAcczero (h : Hd) (t : Tile) (s : State) : Out :=
  let i : Instr := .acczero h t
  .next (s.issue i (s.mauOk t) fun _ act s1 =>
    if act.isEmpty then s1
    else s1.mauPush s.gang.core s.sectorOfGang (s.mauEntry i (.zero t.toNat (actLanes act)) act))

def execAccchk (h : Hd) (d : VReg) (t : Tile) (s : State) : Out :=
  let i : Instr := .accchk h d t
  .next (s.issue i (s.mauOk t) fun _ act s1 =>
    if act.isEmpty then s1
    else s1.mauPush s.gang.core s.sectorOfGang (s.mauEntry i (.check t.toNat) act))

/-! ### accld, accst (R187, R188) -/

/-- The half format of a transfer. -/
def accHalf (fmt : AccFmt) : Fmt := if fmt == .bf16 then fmtBf16 else fmtF16

/-- A row as FP32 words. -/
def accWiden (fmt : AccFmt) (bs : List Byte) : List Word :=
  (List.range 32).map fun j =>
    if fmt == .f32 then BitVec.ofNat 32 (natLE ((bs.drop (4 * j)).take 4))
    else toF32 .rn ((accHalf fmt).decode (natLE ((bs.drop (2 * j)).take 2)))

/-- A row as bytes. -/
def accNarrow (fmt : AccFmt) (row : List Word) : List Byte :=
  row.flatMap fun w =>
    if fmt == .f32 then bytesLE 4 w.toNat
    else bytesLE 2 ((accHalf fmt).roundTo (f32Val w) .rn false false).1

/-- A transfer of a queue that a row of a word can join. -/
def joinable (i : Instr) (t : Tid) (tile : Nat) (e : MauEntry) : Option (FMap (List Word)) :=
  match e.op with
  | .load n rows => if n == tile && e.slot == t.slot && e.instr == i && (FMap.find? rows t.lane).isNone then some rows else none
  | _ => none

/-- The queue of a thread's sector can take its row: in the entry of its word, or in a free one (R182). -/
def State.rowRoom (s : State) (t : Tid) (i : Instr) (tile : Nat) : Bool :=
  let q := (s.sector t.core (s.sectorOfTid t)).mau
  q.length < 16 || q.any fun e => (joinable i t tile e).isSome

/-- A row joins the first entry of a queue that can take it; none where no entry can. -/
def joinRow (t : Tid) (i : Instr) (tile : Nat) (row : List Word) : List MauEntry → Option (List MauEntry)
  | [] => none
  | e :: rest =>
    match joinable i t tile e with
    | some rows => some ({ e with op := .load tile (FMap.put rows t.lane row), tids := e.tids ++ [t] } :: rest)
    | none => (joinRow t i tile row rest).map (e :: ·)

/-- A loaded row joins the transfer of its word, or opens one. -/
def State.addRow (s : State) (t : Tid) (i : Instr) (tile : Nat) (row : List Word) : State :=
  let sec := s.sectorOfTid t
  match joinRow t i tile row (s.sector t.core sec).mau with
  | some q => s.modSector t.core sec fun x => { x with mau := q }
  | none => s.mauPush t.core sec ⟨.load tile [(t.lane, row)], t.slot, [t.cohort], i, [t], i.tag?⟩

/-- The bytes of a row of which the 16-byte pieces under a mask have been read before (R222). -/
def LaneOps.row (o : LaneOps) (bs : List Byte) : List Byte :=
  bs.zipIdx.map fun e => if o.b.getLsbD (e.2 / 16) then (wordsBytes o.data).getD e.2 e.1 else e.1

/-- One lane of accld. -/
def laneAccld (i : Instr) (fmt : AccFmt) (q : Mq) (tile : Nat) : LaneStep := fun t ops s =>
  if !s.rowRoom t i tile then .wait .flight false s
  else match s.laneRead t ops.a (accBytes fmt) q fun bs => lateRegs (accWiden fmt (ops.row bs)) with
    | .done r s => .later (s.addRow t i tile r.regs)
    | o => o

/-- Some pieces of a row on its way, of free choice, are read now, the others later (R222). -/
def State.accldPart (s : State) (n : Nat) : State :=
  match FMap.find? s.waits n with
  | none => s
  | some w =>
    match w.instr with
    | .accld _ fmt q _ _ =>
      match s.laneRead w.tid w.ops.a (accBytes fmt) q fun bs => lateRegs (bytesWords (w.ops.row bs)) with
      | .done r s =>
        let more := BitVec.ofNat 64 (Config.choose s.draws 256 % 256)
        { s with draws := s.draws + 1
                 waits := FMap.mod s.waits n fun w => { w with ops := { w.ops with b := w.ops.b ||| more, data := r.regs } } }
      | _ => s
    | _ => s

/-- A transfer that no row has joined and none will join leaves the queue. -/
def State.dropEmptyLoad (s : State) (core sec : Nat) : State :=
  match (s.sector core sec).mau.getLast? with
  | some e =>
    match e.op with
    | .load _ [] => if s.rowsFlying core e then s else s.modSector core sec fun x => { x with mau := x.mau.dropLast }
    | _ => s
  | none => s

/-- accld: the transfer takes one entry of the queue; the rows of unfinished lanes are logged. -/
def execAccld (h : Hd) (fmt : AccFmt) (mq : Mq) (t : Tile) (a : VReg) (s : State) : Out :=
  let i : Instr := .accld h fmt mq t a
  .next (s.issue i (s.mauOk t) fun _ act s1 =>
    if act.isEmpty then s1
    else
      let g := s.gang
      let s2 := s1.mauPush g.core s.sectorOfGang (s.mauEntry i (.load t.toNat []) [])
      let jobs := (byLane act).filterMap fun t => (s1.thread? t).map fun x => (t, (⟨x.rv64 a.toNat, 0, 0, []⟩ : LaneOps))
      let age := s.nextAge g.core g.slot g.access
      let (s3, us) := s2.runLanes i g.pc (laneAccld i fmt mq t.toNat) age jobs
      (s3.dropEmptyLoad g.core s.sectorOfGang).logGang g i age us)

/-- Pieces of a row of 16 bytes, with their offsets, that a mask does not name. -/
def LaneOps.pieces (o : LaneOps) : List (Nat × List Byte) :=
  let bs := wordsBytes o.data
  ((List.range (bs.length / 16)).filter fun k => !o.b.getLsbD k).map fun k => (16 * k, (bs.drop (16 * k)).take 16)

/-- Pieces of a row are written to their banks. -/
def State.putPieces (s : State) (t : Tid) (cl off : Nat) (q : Mq) (ps : List (Nat × List Byte)) : State :=
  ps.foldl (fun s p => (s.writeScr t (s.vfOf t) cl (off + p.1) p.2 q).serve cl (off + p.1)) s

/-- One lane of accst: its row stands in the captured data, the pieces under `b` in its bank already (R222). -/
def laneAccst (q : Mq) (tag : Option Nat) : LaneStep := fun t ops s =>
  let n := 4 * ops.data.length
  match s.check t (Acc.store n q.fe) ops.a with
  | (.scratch cl off _, s) => .ok (s.putPieces t cl off q ops.pieces)
  | _ => s.laneWrite t ops.a (wordsBytes ops.data) q tag

/-- Some pieces of a row that accst stores to cluster memory, of free choice, are written now, the others later
(R222). -/
def State.accstPart (s : State) (n : Nat) : State :=
  match FMap.find? s.waits n with
  | none => s
  | some w =>
    match w.instr with
    | .accst _ _ q _ _ =>
      match s.check w.tid (Acc.store (4 * w.ops.data.length) q.fe) w.ops.a with
      | (.scratch cl off _, s) =>
        let more := BitVec.ofNat 64 (Config.choose s.draws 256 % 256)
        let now := w.ops.pieces.filter fun p => more.getLsbD (p.1 / 16)
        { s with draws := s.draws + 1
                 waits := FMap.mod s.waits n fun w => { w with ops := { w.ops with b := w.ops.b ||| more } }
                 }.putPieces w.tid cl off q now
      | _ => s
    | _ => s

/-- Some pieces of a row on its way move. -/
def State.rowPart (s : State) (n : Nat) : State := (s.accldPart n).accstPart n

/-- accst checks the tile after every earlier word of its cohort, and after the words of other cohorts of its team
that are ordered before it: it takes its entry of the queue once none of the team's stands there (R182, R183, R188). -/
def State.accstFree (s : State) (tile : Tile) : Bool :=
  s.mauOk tile && (s.sector s.gang.core s.sectorOfGang).mau.all fun e => e.slot != s.gang.slot

/-- The threads of a cohort that have not exited. -/
def State.cohortTids (s : State) (core slot : Nat) (access : Bool) (c : Nat) : List Tid :=
  (lanesOf (s.liveLanes core slot access c)).map fun l => ⟨core, slot, access, c, l⟩

/-- accst: the check first; an uncorrectable tile parks the cohort at the word (R188). (DEDUCED, log 85.) -/
def execAccst (h : Hd) (fmt : AccFmt) (mq : Mq) (t : Tile) (a : VReg) (s : State) : Out :=
  let i : Instr := .accst h fmt mq t a
  .next (s.issue i (s.accstFree t) fun s0 act s1 =>
    if act.isEmpty then s1
    else
      let g := s.gang
      let sec := s.sectorOfGang
      let (r, s2) := s1.checkTile g.core sec t.toNat
      if r == 3 then
        let all := g.cohorts.flatMap fun c => s0.cohortTids g.core g.slot g.access c
        s2.backOut s0 i (all.map fun t => ⟨t, 0x1E, 0, 0⟩)
      else
        let tile := (s2.sector g.core sec).tile t.toNat
        let jobs := (byLane act).filterMap fun t => (s1.thread? t).map fun x =>
          (t, (⟨x.rv64 a.toNat, 0, 0, bytesWords (accNarrow fmt (tile.rows.getD t.lane []))⟩ : LaneOps))
        let age := s.nextAge g.core g.slot g.access
        let s2 := s2.mauPush g.core sec { s.mauEntry i (.store t.toNat) [] with tag := none }
        let (s3, us) := s2.runLanes i g.pc (laneAccst mq i.tag?) age jobs
        s3.logGang g i age us)

end Sys2Proof.Machine
end

