-- ==== Sys2Proof/Machine/CopyEngine.lean ====
section
/-! DEFINITION. The copy engine: tcopy, tcopyq, tmcast, tcancel, the acceptance of a command and its boxes
(spec/11_instr_memory.md R276 to R286, spec/10_consistency.md R237, R238, R241, spec/14_tables.md R355). -/

namespace Sys2Proof.Machine

/-! ### Descriptors (R278 to R280) -/

/-- The copy words. -/
inductive CopyKind where
  | copy | quant | mcast
  deriving DecidableEq, Repr

/-- The kind that a command holds. -/
def TceCmd.word (c : TceCmd) : CopyKind := if c.kind == 1 then .quant else if c.kind == 2 then .mcast else .copy

/-- A descriptor's fields. -/
structure Desc where
  reserved : Bool
  cmdId : Nat
  mcMask : Nat
  layout : Nat
  srcFmt : Nat
  fmt : Nat
  boxes : Nat
  elems : Nat
  lines : Nat
  dstBox : Int
  srcBox : Int
  srcLine : Int
  header : DWord
  aux : DWord
  dst : DWord
  src : DWord
  deriving DecidableEq, Repr

/-- A signed 32-bit field. -/
def signedField (b : List Byte) (lo : Nat) : Int := (BitVec.ofNat 32 (fieldLE b lo 4)).toInt

/-- An address field. -/
def addressField (b : List Byte) (lo : Nat) : DWord := BitVec.ofNat 64 (fieldLE b lo 8)

def Desc.of (b : List Byte) : Desc where
  reserved := fieldLE b 56 8 != 0
  cmdId := fieldLE b 54 2
  mcMask := fieldLE b 53 1
  layout := fieldLE b 52 1
  srcFmt := fieldLE b 51 1
  fmt := fieldLE b 50 1
  boxes := fieldLE b 48 2
  elems := fieldLE b 46 2
  lines := fieldLE b 44 2
  dstBox := signedField b 40
  srcBox := signedField b 36
  srcLine := signedField b 32
  header := addressField b 24
  aux := addressField b 16
  dst := addressField b 8
  src := addressField b 0

def Desc.canonical (d : Desc) : Bool := natBit d.layout 0
def Desc.mx (d : Desc) : Bool := natBit d.layout 1
def Desc.hadamard (d : Desc) : Bool := natBit d.layout 4

/-- The element type; a code that R87 does not define has none. -/
def Desc.ty? (d : Desc) : Option ElemTy := if d.fmt < 32 then ElemTy.of? (BitVec.ofNat 5 d.fmt) else none

/-- The element type of a descriptor that has one. -/
def Desc.ty (d : Desc) : ElemTy := d.ty?.getD .s8

/-- The source type of tcopyq. -/
def Desc.srcTy (d : Desc) : ElemTy := (ElemTy.of? (BitVec.ofNat 5 d.srcFmt)).getD .s8

/-- R of the swizzle mode, 0 for none. -/
def Desc.swizzle (d : Desc) : Nat :=
  match d.layout / 4 % 4 with
  | 0 => 0
  | 1 => 128
  | 2 => 256
  | _ => 512

/-- L: bytes of a line of `n` elements, where they are whole. -/
def lineBytes? (ty : ElemTy) (n : Nat) : Option Nat :=
  if ty == .dxb6 then if n % 32 == 0 then some (n / 32 * 26) else none
  else if n * ty.width % 8 == 0 then some (n * ty.width / 8) else none

def lineBytes (ty : ElemTy) (n : Nat) : Nat := (lineBytes? ty n).getD 0

/-- The MX element types. -/
def mxTy : ElemTy → Bool
  | .e4m3 | .e5m2 | .e3m2 | .e2m3 | .e2m1 => true
  | _ => false

/-- Bytes of a source line. -/
def Desc.srcL (d : Desc) (k : CopyKind) : Nat := lineBytes (if k == .quant then d.srcTy else d.ty) d.elems

/-- Bytes of a destination line. -/
def Desc.dstL (d : Desc) : Nat := lineBytes d.ty d.elems

/-- Scale bytes of a box. -/
def Desc.scales (d : Desc) : Nat := if d.mx then d.lines * d.elems / 32 else 0

/-- Bytes that a box puts at its destination. -/
def Desc.boxBytes (d : Desc) (k : CopyKind) : Nat :=
  if d.canonical && d.ty == .dxb6 then 1664
  else d.lines * d.dstL + (if k == .quant then 0 else d.scales)

/-- A box's byte count (R279). -/
def Desc.count (d : Desc) (k : CopyKind) : Nat := d.boxBytes k + (if k == .quant then d.scales else 0)

/-- Base plus a signed number of bytes. -/
def offsetBy (a : DWord) (n : Int) : DWord := a + BitVec.ofInt 64 n

def Desc.srcAt (d : Desc) (b : Nat) : DWord := offsetBy d.src (b * d.srcBox)
def Desc.dstAt (d : Desc) (b : Nat) : DWord := offsetBy d.dst (b * d.dstBox)
def Desc.lineAt (d : Desc) (b j : Nat) : DWord := offsetBy (d.srcAt b) (j * d.srcLine)
def Desc.auxAt (d : Desc) (b : Nat) : DWord := offsetBy d.aux ((b * d.scales : Nat) : Int)

/-- An address lies in a scratch window. -/
def inScratchWindow (a : DWord) : Bool :=
  match regionOf 0 id a with
  | .scratch .. => true
  | _ => false

/-- An address lies in the cluster scratch window. -/
def inClusterWindow (a : DWord) : Bool :=
  match regionOf 0 id a with
  | .scratch _ _ quad => !quad
  | _ => false

/-- The swizzled side of every box is whole rows from an aligned start (R279). -/
def Desc.swizzleOk (d : Desc) (k : CopyKind) : Bool :=
  let r := d.swizzle
  let (n, start) := if k == .quant then (d.lines * d.dstL, d.dstAt) else (d.lines * d.srcL k, d.srcAt)
  r == 0 || (n % r == 0 && (List.range d.boxes).all fun b => (start b).toNat % r == 0)

/-- The layout rules of tcopy and tmcast (R279). -/
def Desc.copyOk (d : Desc) (k : CopyKind) : Bool :=
  d.srcFmt == 0 && !d.hadamard && d.header == 0 &&
  (if k == .mcast then d.mcMask != 0 && d.mcMask < 16 else d.mcMask == 0) &&
  (!d.mx || (mxTy d.ty && d.elems % 32 == 0)) &&
  (!d.canonical || (mmaFmt d.ty && d.lines == 32 && d.elems == mmaK d.ty &&
    ((List.range d.boxes).all fun b => inScratchWindow (d.dstAt b)) && d.dst.toNat % 512 == 0 && d.dstBox % 512 == 0))

/-- The layout rules of tcopyq (R280, R281). -/
def Desc.quantOk (d : Desc) : Bool :=
  !d.canonical && d.mcMask == 0 && (d.srcFmt == 8 || d.srcFmt == 9 || d.srcFmt == 10) &&
  ((List.range d.boxes).all fun b => (List.range d.lines).all fun j => inScratchWindow (d.lineAt b j)) &&
  (lineBytes? d.srcTy d.elems).isSome &&
  (if mxTy d.ty then d.mx && d.elems % 32 == 0
   else if d.ty == .dxb6 then !d.mx
   else (d.ty == .f16 || d.ty == .bf16) && !d.mx && !d.hadamard) &&
  (if d.hadamard then d.header.toNat % 64 == 0 else d.header == 0)

/-- Status 2 does not arise from the descriptor's contents (R283). -/
def Desc.ok (d : Desc) (k : CopyKind) : Bool :=
  !d.reserved && d.layout < 32 && d.ty?.isSome && 1 ≤ d.boxes && d.boxes ≤ 4096 && 1 ≤ d.elems && d.elems ≤ 4096 &&
  1 ≤ d.lines && d.lines ≤ 1024 && (lineBytes? d.ty d.elems).isSome && (d.mx || d.aux == 0) &&
  (if k == .quant then d.quantOk else d.copyOk k) && d.swizzleOk k

/-! ### Reach of the engine (R283) -/

/-- Why an engine's access does not go on. -/
inductive Halted where
  /-- The command ends with a status. -/
  | status (k : Nat)
  /-- A record is written and the command waits: handler, key, faulting address, whether it writes. -/
  | fault (host : Bool) (key address : DWord) (write : Bool)
  /-- A window is not ready. -/
  | stall
  deriving DecidableEq, Repr

/-- Where bytes of an engine's access stand. -/
inductive Place where
  | mem (g : Target)
  | scr (cl off : Nat)
  deriving DecidableEq, Repr

/-- Translate by the cluster's second level and the walker (R348). -/
def State.translateEngine (s : State) (cl vf va : Nat) : Walk × State :=
  let s := s.touchHeld vf va
  match (s.cluster cl).tlb2.find? (·.hits vf va) with
  | some e => (.leaf e, s)
  | none =>
    let s := s.publishWalk vf va 4
    let (w, es) := s.walkFrom (s.cluster cl).walkCache vf va (s.vf vf).root none upperLevels
    let s := s.modCluster cl fun k => { k with walkCache := walkPut k.walkCache es }
    match w with
    | .leaf e =>
      let s := { s with draws := s.draws + 1 }
      (.leaf e, (s.modCluster cl fun k => { k with tlb2 := tlb2Put k.tlb2 e s.draws }).noteHeld e)
    | w => (w, s)

/-- Translation and permission of an engine's access in the translated half. -/
def State.engMem (s : State) (c : TceCmd) (tm : Team) (acc : Acc) (va : Nat) : Except Halted Place × State :=
  let a := BitVec.ofNat 64 va
  match s.translateEngine (c.tid.core / 4) c.vf va with
  | (.invalid _, s) => (.error (.status 5), s)
  | (.absent (some ns), s) => (.error (.fault false (regionKey ns va) a acc.writes), s)
  | (.absent none, s) => (.error (.fault true 0 a acc.writes), s)
  | (.leaf e, s) =>
    if leafKind e.leaf == 2 then
      (.error (.fault false (BitVec.ofNat 64 (leafPayload (e.leafFor va))) a acc.writes), s)
    else
      match s.permit c.tid.core tm acc e va with
      | (.error (k, _), s) => (.error (if k == 0x13 then .stall else .status 5), s)
      | (.ok g, s) =>
        if acc.writes then
          match s.setDirty c.tid.core e with
          | some s => (.ok (.mem g), s)
          | none =>
            (.error .stall, s.modTlbs (c.tid.core / 4) fun l => l.filter fun x => !(x.hits c.vf va))
        else (.ok (.mem g), s)

/-- The engine reaches bytes for a command. -/
def State.engReach (s : State) (c : TceCmd) (acc : Acc) (a : DWord) : Except Halted Place × State :=
  match s.team? c.tid.core c.tid.slot with
  | none => (.error (.status 3), s)
  | some tm =>
    match s.region c.tid a with
    | .bad => (.error (.status 3), s)
    | .scratch cl off _ =>
      if !s.inScratch c.tid.core c.tid.slot cl off acc.size then (.error (.status 3), s)
      else if acc.reads && s.stale cl (s.scrLine cl off) then (.error (.status 4), s)
      else (.ok (.scr cl off), s)
    | .translated va => s.engMem c tm acc va

/-- A span cut at 512-byte boundaries. -/
def chunks (a : DWord) (n : Nat) : List (DWord × Nat) :=
  let o := a.toNat % 512
  if n == 0 then [] else (List.range ((o + n + 511) / 512)).map fun k =>
    let lo := if k == 0 then o else 512 * k
    (a + BitVec.ofNat 64 (lo - o), min (o + n) (512 * (k + 1)) - lo)

/-- Bytes with their poison. -/
abbrev PBytes := List (Byte × Bool)

/-- Blocks that the engine reads with their scales as one unit (R241). -/
def Desc.units (d : Desc) : Bool := d.mx || d.ty == .dxb6

/-- Bytes at a place, through the cluster cache or the home, never from an L1 (R237). A block and its scale are read
at their homes, in one moment, so that they come from one write (R241). -/
def State.engBytes (s : State) (c : TceCmd) (p : Place) (n : Nat) : PBytes × State :=
  match p with
  | .scr cl off =>
    let l := s.scrLine cl off
    (((l.bytes.drop (off % 512)).take n).map fun b => (b, l.poison), s.scrRead cl off)
  | .mem g =>
    let k := ccKey (c.tid.core / 4) g.phys
    let s := s.ccSettle k
    let s := if (Desc.of c.desc).units && (s.ccLine? (c.tid.core / 4) g.own g.phys).isSome then s.ccBack k else s
    match if g.isOpen || (Desc.of c.desc).units then none else s.ccLine? (c.tid.core / 4) g.own g.phys with
    | some l => (((l.bytes.drop (g.phys % 512)).take n).map fun b => (b, false), s.ccRead (c.tid.core / 4) g.own g.phys)
    | none =>
      ((s.homeBytes g.phys n).zipIdx.map fun e => (e.1, s.poisonedLine ((g.phys + e.2) / 64)),
        { s.fillL2 g g.phys n 1 with draws := s.draws + 1 })

/-- Read spans in order. -/
def State.engRead (s : State) (c : TceCmd) : List (DWord × Nat) → Except Halted PBytes × State
  | [] => (.ok [], s)
  | (a, n) :: rest =>
    match s.engReach c (Acc.load n .none) a with
    | (.error e, s) => (.error e, s)
    | (.ok p, s) =>
      let (bs, s) := s.engBytes c p n
      match s.engRead c rest with
      | (.ok more, s) => (.ok (bs ++ more), s)
      | (.error e, s) => (.error e, s)

/-- The places of a write, chunk by chunk, before any byte moves. -/
def State.engPlan {α : Type} (s : State) (c : TceCmd) :
    List (DWord × Nat) → List α → Except Halted (List (Place × List α)) × State
  | [], _ => (.ok [], s)
  | (a, n) :: rest, bs =>
    match s.engReach c (Acc.store n .none) a with
    | (.error e, s) => (.error e, s)
    | (.ok p, s) =>
      match s.engPlan c rest (bs.drop n) with
      | (.ok more, s) => (.ok ((p, bs.take n) :: more), s)
      | (.error e, s) => (.error e, s)

/-- One write of an engine is performed at its home or bank: Full is set and the line stamped (R200, R204,
R285), poison passes on (R219). -/
def State.engWrite (s : State) (c : TceCmd) (w : Place × PBytes) : State :=
  let bs := w.2.map Prod.fst
  match w.1 with
  | .scr cl off =>
    if bs.isEmpty then s
    else
      let s := s.scrWrite cl off bs true
      let s := if w.2.any Prod.snd then s.setScr cl off { s.scrLine cl off with poison := true } else s
      s.serve cl off
  | .mem g =>
    let f : InFlight :=
      ⟨c.tid.core, none, g.vf, g.own, g.comp, g.phys, bs, true, g.isOpen, .normal, none, none, g.window, g.gate⟩
    let s := s.throughStore (c.tid.core / 4) f
    let bad := (w.2.zipIdx.filter fun e => e.1.2).map fun e => (g.phys + e.2) / 64
    bad.eraseDups.foldl State.poisonLine s

/-! ### Quantising (R280, R281) -/

/-- One round of SipHash. (PRESUMED, log 136.) -/
def sipRound (v : DWord × DWord × DWord × DWord) : DWord × DWord × DWord × DWord :=
  let (a, b, c, d) := v
  let a := a + b
  let b := b.rotateLeft 13 ^^^ a
  let a := a.rotateLeft 32
  let c := c + d
  let d := d.rotateLeft 16 ^^^ c
  let a := a + d
  let d := d.rotateLeft 21 ^^^ a
  let c := c + b
  let b := b.rotateLeft 17 ^^^ c
  (a, b, c.rotateLeft 32, d)

/-- One message word of SipHash-2-4. -/
def sipWord (v : DWord × DWord × DWord × DWord) (m : DWord) : DWord × DWord × DWord × DWord :=
  let v := sipRound (sipRound (v.1, v.2.1, v.2.2.1, v.2.2.2 ^^^ m))
  (v.1 ^^^ m, v.2)

/-- SipHash-2-4 of a 16-byte message under a key. -/
def sipHash (k0 k1 m0 m1 : DWord) : DWord :=
  let v := (k0 ^^^ 0x736f6d6570736575, k1 ^^^ 0x646f72616e646f6d, k0 ^^^ 0x6c7967656e657261, k1 ^^^ 0x7465646279746573)
  let v := sipWord (sipWord (sipWord v m0) m1) 0x1000000000000000
  let v := sipRound (sipRound (sipRound (sipRound (v.1, v.2.1, v.2.2.1 ^^^ 0xFF, v.2.2.2))))
  v.1 ^^^ v.2.1 ^^^ v.2.2.1 ^^^ v.2.2.2

/-- popc(i and j) is odd. -/
def hadamardNeg (i j : Nat) : Bool := (List.range 5).foldl (fun p k => p != (natBit i k && natBit j k)) false

/-- The signed Hadamard sums of a block. -/
def hadamardSums (signs : DWord) (vs : List Val) : List Val :=
  (List.range 32).map fun i =>
    valSum (vs.zipIdx.map fun e => if hadamardNeg i e.2 != signs.getLsbD e.2 then e.1.neg else e.1)

/-- The largest magnitude of finite values. -/
def maxAbs (vs : List Val) : Exact :=
  vs.foldl (fun a v =>
    match v.abs with
    | .fin x => if Exact.cmp a x == .lt then x else a
    | _ => a) ⟨false, 0, 0, false⟩

/-- emaxf of R280. -/
def emaxf : ElemTy → Int
  | .e4m3 => 8
  | .e5m2 => 15
  | .e3m2 => 4
  | _ => 2

/-- saturate(x, 0, 254) as a byte. -/
def scaleByte (x : Int) : Byte := BitVec.ofInt 8 (min (max x 0) 254)

/-- ceil(log2(a / 15)) of a positive value. -/
def ceilLog15 (a : Exact) : Int :=
  let k := a.log2 - 3
  if Exact.cmp ⟨false, 15, k, false⟩ a == .lt then k + 1 else k

/-- A quantised block: its element bytes, its MX scale, and whether an element was clamped. -/
structure QBlock where
  elems : List Byte
  scale : Byte
  clamped : Bool
  deriving DecidableEq, Repr

/-- The block format of an element type. -/
def blockFmt : ElemTy → MxFmt
  | .e5m2 => .e5m2
  | .e3m2 => .e3m2
  | .e2m3 => .e2m3
  | .e2m1 => .e2m1
  | .dxb6 => .dxb6
  | _ => .e4m3

/-- QUANTISE 32 VALUES (R280). The element codes of an MX NaN block are free values from draw `n` on.
(DESIGN CHOICE, log 83.) -/
def quantBlock (ty : ElemTy) (ys : List Val) (n : Nat) : QBlock :=
  let f := blockFmt ty
  if ys.any fun y => !y.finite then
    if ty == .dxb6 then ⟨List.replicate 24 0 ++ [0xFF, 0xFF], 0xFF, false⟩
    else ⟨pack (mxWidth f) f.bytes ((List.range 32).map fun i => (Config.freeByte (n + i)).toNat), 0xFF, false⟩
  else
    let a := maxAbs ys
    if ty == .dxb6 then
      let hi := if a.m == 0 then 0 else scaleByte (ceilLog15 a + 130)
      let lo : Byte := if hi.toNat < 4 then 0 else hi - 4
      let rs := ys.map fun y => dxbNarrow y hi lo
      ⟨pack 6 24 (rs.map Prod.fst) ++ [lo, hi], 0, rs.any fun r => r.2 &&& flagSaturate != 0⟩
    else
      let x := if a.m == 0 then 0 else scaleByte (a.log2 - emaxf ty + 127)
      let rs := ys.map fun y => (fmtOf ty).roundTo (y.scale (127 - (x.toNat : Int))) .rn false true
      ⟨pack (mxWidth f) f.bytes (rs.map Prod.fst), x, rs.any fun r => r.2 &&& flagSaturate != 0⟩

/-! ### The bytes of a box (R279, R280) -/

/-- o′ of R279. -/
def swizzled (r o : Nat) : Nat :=
  if r == 0 then o else o / r * r + (o % r / 16 + o / r) % (r / 16) * 16 + o % 16

/-- The offset whose o′ is `x`. -/
def unswizzled (r x : Nat) : Nat :=
  if r == 0 then x else x / r * r + (x % r / 16 + r / 16 - x / r % (r / 16)) % (r / 16) * 16 + x % 16

/-- Some byte is poisoned. -/
def tainted (bs : PBytes) : Bool := bs.any Prod.snd

/-- Bytes that all carry one mark. -/
def marked (bad : Bool) (bs : List Byte) : PBytes := bs.map fun b => (b, bad)

/-- One column of 64 DXB6 elements in the layout of R178: magnitudes, signs, selectors, exponents. -/
def dxbColumn (line : List Byte) : List Byte × List Byte × List Byte × List Byte :=
  let code := fun e => unpack 6 ((line.drop (e / 32 * 26)).take 24) (e % 32)
  let es := List.range 64
  (pack 4 32 (es.map fun e => code e % 16), pack 1 8 (es.map fun e => code e / 32), pack 1 8 (es.map fun e => code e / 16 % 2),
    [line.getD 24 0, line.getD 25 0, line.getD 50 0, line.getD 51 0])

/-- A canonical DXB6 B tile from 32 packed lines (R178). -/
def dxbTile (lin : PBytes) : PBytes :=
  let cols := (List.range 32).map fun j =>
    let line := (lin.drop (52 * j)).take 52
    (tainted line, dxbColumn (line.map Prod.fst))
  (cols.flatMap fun c => marked c.1 c.2.1) ++ (cols.flatMap fun c => marked c.1 c.2.2.1) ++
  (cols.flatMap fun c => marked c.1 c.2.2.2.1) ++ (cols.flatMap fun c => marked c.1 c.2.2.2.2)

/-- What tcopy and tmcast write for a box, from its packed source lines and its scales. -/
def Desc.copied (d : Desc) (packed scales : PBytes) : PBytes :=
  let lin := (List.range packed.length).map fun o => packed.getD (swizzled d.swizzle o) (0, false)
  if d.canonical && d.ty == .dxb6 then dxbTile lin else lin ++ scales

/-- The header record of tcopyq (R281). -/
structure Header where
  base : Nat
  seed : DWord
  k0 : DWord
  k1 : DWord
  deriving DecidableEq, Repr

def Header.of (b : List Byte) : Header := ⟨fieldLE b 24 8, addressField b 16, addressField b 0, addressField b 8⟩

/-- The signs of block number `n` (R281). -/
def Header.signs (h : Header) (n : Nat) : DWord := sipHash h.k0 h.k1 h.seed (BitVec.ofNat 64 n)

/-- One quantised block of a box: `n` counts the box's blocks. -/
def Desc.blockOf (d : Desc) (h : Header) (box n draw : Nat) (src : PBytes) : QBlock × Bool :=
  let w := d.srcTy.width / 8
  let vs := (List.range 32).map fun i => (fmtOf d.srcTy).decode (natLE (((src.drop (w * i)).take w).map Prod.fst))
  let ys := if d.hadamard then hadamardSums (h.signs (h.base + box * (d.lines * d.elems / 32) + n)) vs else vs
  (quantBlock d.ty ys (draw + 32 * n), tainted src)

/-- What tcopyq writes for a box: the destination's bytes, the scales, and whether an element was clamped. -/
def Desc.quantised (d : Desc) (h : Header) (box draw : Nat) (packed : PBytes) : PBytes × PBytes × Bool :=
  let w := d.srcTy.width / 8
  let out : PBytes × PBytes × Bool :=
    if mxTy d.ty || d.ty == .dxb6 then
      let qs := (List.range (d.lines * d.elems / 32)).map fun n =>
        d.blockOf h box n draw ((packed.drop (32 * w * n)).take (32 * w))
      (qs.flatMap fun q => marked q.2 q.1.elems, if d.mx then qs.map fun q => (q.1.scale, q.2) else [],
        qs.any fun q => q.1.clamped)
    else
      ((List.range (d.lines * d.elems)).flatMap fun n =>
        let e := (packed.drop (w * n)).take w
        let v := (fmtOf d.srcTy).decode (natLE (e.map Prod.fst))
        marked (tainted e) (bytesLE 2 ((fmtOf d.ty).roundTo v .rn false false).1), [], false)
  ((List.range out.1.length).map fun x => out.1.getD (unswizzled d.swizzle x) (0, false), out.2)

/-! ### Acceptance (R277, R282, R283) -/

/-- The clusters that tmcast names. -/
def Desc.named (d : Desc) (core : Nat) : List Nat :=
  ((List.range 4).filter fun c => natBit d.mcMask c).map fun c => core / 16 * 4 + c

/-- The cluster memories that a destination address names: cluster and byte; none within where tmcast names
no cluster-window address, and none at all for global memory. -/
def inClusters (s : State) (c : TceCmd) (d : Desc) (a : DWord) : List (Option (Nat × Nat)) :=
  match c.word, s.region c.tid a with
  | .mcast, .scratch _ off false => (d.named c.tid.core).map fun cl => some (cl, off)
  | .mcast, _ => [none]
  | _, .scratch cl off _ => [some (cl, off)]
  | _, _ => []

/-- A granule of a range is typed as a barrier. -/
def State.coversBarrier (s : State) (cl off n : Nat) : Bool :=
  (chunks (BitVec.ofNat 64 off) n).any fun e =>
    (s.scrLine cl e.1.toNat).barType &&& granules (e.1.toNat % 512) e.2 != 0

/-- Bytes of a cluster's memory that the team may use, all in Valid lines. -/
def State.mayUse (s : State) (c : TceCmd) (cl off n : Nat) : Bool :=
  (s.allocOf c.tid.core c.tid.slot cl off n).isSome &&
  (chunks (BitVec.ofNat 64 off) n).all fun e => (s.scrLine cl e.1.toNat).valid

/-- A range passes the checks of status 3: `dest` adds the barrier granules. -/
def State.rangeOk (s : State) (c : TceCmd) (d : Desc) (a : DWord) (n : Nat) (dest : Bool) : Bool :=
  match s.region c.tid a, s.region c.tid (a + BitVec.ofNat 64 (n - 1)) with
  | .translated _, .translated _ => !(dest && c.word == .mcast)
  | .scratch cl off quad, _ =>
    if dest && c.word == .mcast then
      !quad && (d.named c.tid.core).all fun cl => s.mayUse c cl off n && !s.coversBarrier cl off n
    else s.mayUse c cl off n && !(dest && s.coversBarrier cl off n)
  | _, _ => false

/-- Status 3 does not arise. -/
def State.rangesOk (s : State) (c : TceCmd) (d : Desc) : Bool :=
  (List.range d.boxes).all fun b =>
    ((List.range d.lines).all fun j => s.rangeOk c d (d.lineAt b j) (d.srcL c.word) false) &&
    s.rangeOk c d (d.dstAt b) (d.boxBytes c.word) true &&
    (!d.mx || s.rangeOk c d (d.auxAt b) d.scales (c.word == .quant))

/-- The barrier granules that a command counts on: cluster, byte, and whether it was named or allocated at
quad scope; none where status 7 arises. -/
def State.barPlaces (s : State) (c : TceCmd) (d : Desc) : Option (List (Nat × Nat × Bool)) :=
  match c.barrier with
  | none => some []
  | some x =>
    let a := BitVec.ofNat 64 x
    match s.region c.tid a with
    | .scratch cl off quad =>
      let cls := if c.word == .mcast then (if quad then [] else d.named c.tid.core) else [cl]
      let good := fun cl => off % 16 == 0 && s.mayUse c cl off 16 && s.barrierAt cl off
      if !cls.isEmpty && cls.all good then
        some (cls.map fun cl => (cl, off, quad || ((s.allocOf c.tid.core c.tid.slot cl off 16).map (·.quad)).getD false))
      else none
    | _ => none

/-- The span from the lowest to the highest byte of ranges of `n` bytes at signed offsets. -/
def spanOf (base : DWord) (offs : List Int) (n : Nat) : DWord × Nat :=
  let lo := offs.foldl min 0
  let hi := offs.foldl max 0
  (offsetBy base lo, (hi - lo).toNat + n)

/-- The clusters whose memory a command writes. -/
def State.written (s : State) (c : TceCmd) (d : Desc) : List Nat :=
  ((List.range d.boxes).flatMap fun b =>
    (inClusters s c d (d.dstAt b) ++ (if c.word == .quant && d.mx then inClusters s c d (d.auxAt b) else [])).filterMap
      fun (e : Option (Nat × Nat)) => e.map Prod.fst).eraseDups

/-- A range-lock entry of the table of a cluster: a scratch source or destination of the issuing cluster is named
through the quad window elsewhere. -/
def State.lockEntry (s : State) (c : TceCmd) (id cl : Nat) (dest : Bool) (x : DWord × Nat) : RangeLock :=
  let home := c.tid.core / 4
  let base := match s.region c.tid x.1 with
    | .translated va => va
    | .scratch _ off false =>
      if cl == home || (dest && c.word == .mcast) then x.1.toNat else 0x0100000001000000 + home % 4 * 2 ^ 23 + off
    | _ => x.1.toNat
  ⟨id, dest, inScratchWindow x.1, c.vf, base, x.2, home, c.slot⟩

/-- The locks of a command, each with the cluster whose table takes it: all its ranges in every cluster that it
writes to, or where it writes to none in its own, which holds the sources of a multicast in every case (R237, R282,
R355). -/
def State.locksOf (s : State) (c : TceCmd) (id : Nat) (d : Desc) : List (Nat × RangeLock) :=
  let home := c.tid.core / 4
  let last : Int := (d.boxes - 1 : Nat)
  let lines : Int := ((d.lines - 1 : Nat) : Int) * d.srcLine
  let srcSpan := spanOf d.src [last * d.srcBox, lines, last * d.srcBox + lines] (d.srcL c.word)
  let dstSpan := spanOf d.dst [last * d.dstBox] (d.boxBytes c.word)
  let scale := if d.mx then [(c.word == .quant, (d.aux, d.boxes * d.scales))] else []
  let all := [(false, srcSpan), (true, dstSpan)] ++ scale
  let cls := match s.written c d with
    | [] => [home]
    | l => l
  (cls.flatMap fun cl => all.map fun e => (cl, s.lockEntry c id cl e.1 e.2)) ++
  (if c.word != .mcast || cls.contains home then []
   else (all.filter fun e => !e.1).map fun e => (home, s.lockEntry c id home e.1 e.2))

/-- Remove a command's locks from every table. -/
def State.unlock (s : State) (cl id : Nat) : State :=
  { s with clusters := FMap.mapV (fun _ k =>
      { k with locks := k.locks.filter fun l => !(l.command == id && l.owner == cl) }) s.clusters }

/-- Register locks, where every table has room. (DEDUCED, log 92.) -/
def State.lockAll (s : State) (ls : List (Nat × RangeLock)) : Option State :=
  let s := ls.foldl (fun s l => s.modCluster l.1 fun k => { k with locks := k.locks ++ [l.2] }) s
  if ls.all fun l => (s.cluster l.1).locks.length ≤ 32 then some s else none

def State.modCmd (s : State) (cl id : Nat) (f : TceCmd → TceCmd) : State :=
  s.modCluster cl fun k => { k with tce := FMap.mod k.tce id f }

/-- The status word (R284). -/
def TceCmd.status (c : TceCmd) (k : Nat) : Word :=
  BitVec.ofNat 32 (k * 2 ^ 20 + (if c.poisoned then 2 ^ 15 else 0) + (if c.saturated then 2 ^ 14 else 0) + c.done.length)

/-- The engine record that a command waits for is answered. -/
def State.dropEngineEvent (s : State) (c : TceCmd) : State :=
  match c.waitSeq, s.partOf c.vf with
  | some seq, some p => s.modPartition p fun x => { x with standing := FMap.del x.standing seq }
  | _, _ => s

/-- A COMMAND ENDS: its locks go, then its status travels to the tag (R285). -/
def State.tceEnd (s : State) (cl id k : Nat) : State :=
  match FMap.find? (s.cluster cl).tce id with
  | none => s
  | some c =>
    let s := ((s.dropEngineEvent c).unlock cl id).modCluster cl fun x => { x with tce := FMap.del x.tce id }
    s.deliver c.tid (some c.tag) (lateRegs [c.status k])

/-- An engine record; the command waits for its answer (R283). (DEDUCED, log 89.) -/
def State.tceFault (s : State) (cl id : Nat) (c : TceCmd) (host : Bool) (key address : DWord) (write : Bool) : State :=
  let t := c.tid
  let r := { s.teamRecord t.core t.slot t.access t.cohort 0x31 (laneBit t.lane) c.op address key with
             write := write, host := host }
  let (seq, s) := s.report (((s.team? t.core t.slot).map (·.partition)).getD 0) r
  s.modCmd cl id fun c => { c with waitSeq := some seq }

/-- What an engine's access that did not go on means for its command; `atStart` gives the statuses of a
descriptor or header record. One to a window that is not ready waits for it. (DESIGN CHOICE, log 159.) -/
def State.tceHalt (s : State) (cl id : Nat) (c : TceCmd) (atStart : Bool) (e : Halted) : State :=
  match e with
  | .status k => s.tceEnd cl id (if atStart && k == 4 then 2 else k)
  | .fault host key a w => s.tceFault cl id c host key a w
  | .stall => s

/-- Read a 64-byte record at acceptance. -/
def State.readRecord (s : State) (c : TceCmd) (a : DWord) : Except Halted (List Byte) × State :=
  if a.toNat % 64 != 0 then (.error (.status 2), s)
  else
    match s.engRead c [(a, 64)] with
    | (.ok bs, s) => if tainted bs then (.error (.status 2), s) else (.ok (bs.map Prod.fst), s)
    | (.error e, s) => (.error e, s)

/-- A command's destination, and the scales that it writes, lie in the team's own allocations (R48). -/
def State.ownDest (s : State) (c : TceCmd) (d : Desc) : Bool :=
  match s.team? c.tid.core c.tid.slot with
  | none => true
  | some tm =>
    let own := fun (x : DWord) (n : Nat) =>
      match inClusters s c d x with
      | [] => false
      | l => l.all fun e =>
          match e with
          | some (cl, off) => cl == c.tid.core / 4 && tm.allocs.any fun a => a.off ≤ off && off + n ≤ a.off + a.bytes
          | none => false
    (List.range d.boxes).all fun b =>
      own (d.dstAt b) (d.boxBytes c.word) && (!(c.word == .quant && d.mx) || own (d.auxAt b) d.scales)

/-- Boxes start in ascending order, with up to 4 in flight (R285). -/
def TceCmd.openBoxes (c : TceCmd) : TceCmd :=
  let rest := (List.range (Desc.of c.desc).boxes).filter fun b =>
    !c.done.contains b && !c.boxes.any fun x => x.box == b
  { c with boxes := c.boxes ++ (rest.take (4 - c.boxes.length)).map fun b => ⟨b, [], [], []⟩ }

/-- A command is accepted: the thread goes on, and the boxes can run. -/
def State.tceAccept (s : State) (cl id : Nat) (c : TceCmd) (d : Desc) (desc header : List Byte) : State :=
  let s := if s.ownDest c d then s else s.endRelaunch c.tid.core c.tid.slot
  s.modCmd cl id fun c => { c with accepted := true, desc := desc, header := header }.openBoxes

/-- TCE_COMMAND_START: the oldest queued command is read, checked, locked and accepted, or ends with a
status (R277, R283). (DEDUCED, log 91.) -/
def State.tceStart (s : State) (cl id : Nat) (c : TceCmd) : State :=
  match s.readRecord c (BitVec.ofNat 64 c.descAddr) with
  | (.error e, s) => s.tceHalt cl id c true e
  | (.ok bs, s) =>
    let d := Desc.of bs
    if !d.ok c.word then s.tceEnd cl id 2
    else match s.barPlaces c d with
      | none => s.tceEnd cl id 7
      | some _ =>
        if !s.rangesOk c d then s.tceEnd cl id 3
        else match (s.unlock cl id).lockAll (s.locksOf c id d) with
          | none => s
          | some s =>
            if d.hadamard then
              match s.readRecord c d.header with
              | (.error e, s) => s.tceHalt cl id c true e
              | (.ok h, s) =>
                if (h.drop 32).any (· != 0) then s.tceEnd cl id 2 else s.tceAccept cl id c d bs h
            else s.tceAccept cl id c d bs []

/-! ### Boxes (R285) -/

/-- Bytes with their poison, each with the number of the piece that it belongs to. -/
abbrev NBytes := List ((Byte × Bool) × Nat)

/-- The piece of a box that holds byte `x` of its destination (R222, R241): the 16 bytes that the byte's address lies in;
of MX and DXB6 boxes the block, with its scale. -/
def Desc.pieceOf (d : Desc) (k : CopyKind) (b x : Nat) : Nat :=
  if !d.units then ((d.dstAt b).toNat % 16 + x) / 16
  else if d.canonical && d.ty == .dxb6 then
    if x < 1024 then x / 16 else if x < 1280 then (x - 1024) / 4 else if x < 1536 then (x - 1280) / 4 else (x - 1536) / 2
  else
    let n := d.lines * d.elems / 32
    let w := (blockFmt d.ty).bytes
    let o := if k == .quant then unswizzled d.swizzle x else x
    if o < n * w then o / w else o - n * w

/-- The first number of the pieces of a cluster's copy, by its place among the clusters of a multicast. -/
def copyBase (i : Nat) : Nat := i * 2 ^ 24

/-- The writes of a box, before any byte moves: destination and scales, by piece, with the clamp. What a multicast has
read for one cluster goes to the others as it was read. -/
def State.boxWrites (s : State) (c : TceCmd) (d : Desc) (x : BoxFlight) :
    Except Halted (List (Place × NBytes) × Bool) × State :=
  let b := x.box
  let lines := (List.range d.lines).flatMap fun j => chunks (d.lineAt b j) (d.srcL c.word)
  match s.engRead c lines with
  | (.error e, s) => (.error e, s)
  | (.ok packed, s) =>
    match if d.mx && c.word != .quant then s.engRead c (chunks (d.auxAt b) d.scales) else (.ok [], s) with
    | (.error e, s) => (.error e, s)
    | (.ok scales, s) =>
      let draw := s.draws
      let s := { s with draws := s.draws + 32 * (d.lines * d.elems / 32) }
      let (out, aux, clamp) :=
        if c.word == .quant then d.quantised (Header.of c.header) b draw packed else (d.copied packed scales, [], false)
      let out : NBytes := out.zipIdx.map fun e => (FMap.getD x.held e.2 e.1, d.pieceOf c.word b e.2)
      if c.word == .mcast then
        let ws := (inClusters s c d (d.dstAt b)).zipIdx.flatMap fun e =>
          match e.1 with
          | some (cl, off) =>
            ((chunks (BitVec.ofNat 64 off) out.length).foldl (fun (acc : List (Place × NBytes) × NBytes) y =>
              (acc.1 ++ [(Place.scr cl y.1.toNat, acc.2.take y.2)], acc.2.drop y.2))
              ([], out.map fun y => (y.1, copyBase e.2 + y.2))).1
          | none => []
        (.ok (ws, clamp), s)
      else
        match s.engPlan c (chunks (d.dstAt b) out.length) out with
        | (.error e, s) => (.error e, s)
        | (.ok ws, s) =>
          match s.engPlan c (chunks (d.auxAt b) aux.length) aux.zipIdx with
          | (.error e, s) => (.error e, s)
          | (.ok more, s) => (.ok (ws ++ more, clamp), s)

/-- A place some bytes further on. -/
def Place.after (p : Place) (n : Nat) : Place :=
  match p with
  | .mem g => .mem { g with phys := g.phys + n }
  | .scr cl off => .scr cl (off + n)

/-- The runs of bytes, from byte `i` of a place on, whose pieces a test names. -/
def runsOf (pick : Nat → Bool) (p : Place) : Nat → NBytes → List (Place × PBytes)
  | _, [] => []
  | i, y :: rest =>
    let out := runsOf pick p (i + 1) rest
    if !pick y.2 then out
    else match out with
      | (q, bs) :: more => if q == p.after (i + 1) then (p.after i, y.1 :: bs) :: more else (p.after i, [y.1]) :: out
      | [] => [(p.after i, [y.1])]

/-- The parts of a box's writes whose pieces a test names. -/
def picked (pick : Nat → Bool) (ws : List (Place × NBytes)) : List (Place × PBytes) :=
  ws.flatMap fun w => runsOf pick w.1 0 w.2

/-- The pieces of a box's writes. -/
def piecesIn (ws : List (Place × NBytes)) : List Nat := (ws.flatMap fun w => w.2.map Prod.snd).eraseDups

/-- Some byte of a box's writes is poisoned. -/
def spoiltBox (ws : List (Place × NBytes)) : Bool := ws.any fun w => w.2.any fun y => y.1.2

/-- Some of a box's writes go to translated memory. -/
def toMemory (ws : List (Place × NBytes)) : Bool := ws.any fun w => match w.1 with | .mem _ => true | _ => false

/-- The lines that a box has written whole, piece by piece, carry no mark any more (R218). (DESIGN CHOICE, log 164.) -/
def State.clearCovered (s : State) (ws : List (Place × NBytes)) : State :=
  ws.foldl (fun s w =>
    match w.1 with
    | .scr cl off =>
      if w.2.length == 512 && (s.scrLine cl off).poison then s.setScr cl off { s.scrLine cl off with poison := false } else s
    | .mem g =>
      { s with poison := FMap.drop (fun l _ => g.phys ≤ l * 64 && l * 64 + 64 ≤ g.phys + w.2.length) s.poison }) s

/-- The scope of a byte count (R238): device for writes to global memory. -/
def countScope (toMem : Bool) : Scope := if toMem then .device else .cluster

/-- Count a box on the command's barrier in one cluster; on a granule that is stale or no barrier the count is dropped
(R371, R380). -/
def State.countCopy (s : State) (c : TceCmd) (d : Desc) (toMem : Bool) (off cl : Nat) : State :=
  if !s.barrierAt cl off || s.stale cl (s.scrLine cl off) then s.barCount cl 1
  else s.barApply c.vf cl off 0 (d.count c.word) 0 false (countScope toMem)

/-- Count a box on the command's barriers: a multicast box, on those of the clusters given (R282). -/
def State.countBox (s : State) (c : TceCmd) (d : Desc) (toMem : Bool) (cls : List Nat) : State :=
  match c.barrier with
  | none => s
  | some x =>
    match s.region c.tid (BitVec.ofNat 64 x) with
    | .scratch cl off _ => (if c.word == .mcast then cls else [cl]).foldl (fun s cl => s.countCopy c d toMem off cl) s
    | _ => s

/-- The boxes of a command that are in flight. -/
def TceCmd.flying (c : TceCmd) : List Nat := c.boxes.map (·.box)

/-- A box in flight of a command. -/
def TceCmd.flight (c : TceCmd) (b : Nat) : BoxFlight := (c.boxes.find? fun x => x.box == b).getD ⟨b, [], [], []⟩

/-- The engine's stop of a pre-emption has begun, or the engine has acknowledged it (R25, R336). -/
def State.tceStopped (s : State) (cl vf : Nat) (starting : Bool) : Bool :=
  match s.partOf vf with
  | some p =>
    let x := (s.partition p).preempt
    (s.partition p).frozen || (2 ≤ x.step && (starting || x.acks.contains (4, cl)))
  | none => false

/-- Another box starts in the place of one that is done, unless a stop has begun (R285). -/
def State.nextBox (s : State) (cl id : Nat) (c : TceCmd) : State :=
  if s.tceStopped cl c.vf true then s else s.modCmd cl id TceCmd.openBoxes

/-- A write whose bytes are poisoned. -/
def spoilt (w : Place × PBytes) : Place × PBytes := (w.1, w.2.map fun b => (b.1, true))

/-- What is left of a box's writes is performed (R285). Where the box's packet is lost it is poisoned (R214, R219). -/
def State.boxLands (s : State) (c : TceCmd) (x : BoxFlight) (ws : List (Place × NBytes)) (lost : Bool) : State :=
  let rest := picked (fun n => !x.written.contains n) ws
  let s := (if lost then rest.map spoilt else rest).foldl (fun s w => s.engWrite c w) s
  if x.written.isEmpty || c.poisoned || lost || spoiltBox ws then s else s.clearCovered ws

/-- What is left of a box's writes is performed, its bit set, its bytes counted; the last one ends the command (R285). -/
def State.boxWith (s : State) (cl id : Nat) (c : TceCmd) (b : Nat) (lost : Bool) : State :=
  let d := Desc.of c.desc
  let x := c.flight b
  match s.boxWrites c d x with
  | (.error e, s) => s.tceHalt cl id c false e
  | (.ok (ws, clamp), s) =>
    let s := s.boxLands c x ws lost
    let bad := lost || spoiltBox ws
    let s := s.modCmd cl id fun c =>
      { c with done := c.done ++ [b], boxes := c.boxes.filter (fun x => x.box != b), poisoned := c.poisoned || bad
               saturated := c.saturated || clamp }
    let last := c.done.length + 1 == d.boxes
    let s := if last then s.unlock cl id else s
    let s := s.countBox c d (toMemory ws) ((d.named c.tid.core).filter fun k => !x.landed.contains k)
    if last then s.tceEnd cl id 0 else s.nextBox cl id c

/-- TCE_BOX_COMPLETE. (DESIGN CHOICE, log 90.) -/
def State.tceBox (s : State) (cl id : Nat) (c : TceCmd) (b : Nat) : State := s.boxWith cl id c b false

/-- The clusters of a multicast box whose copy is there whole and has not been counted; the copy that completes the box is
counted with it. -/
def BoxFlight.fresh (x : BoxFlight) (d : Desc) (core : Nat) (pieces : List Nat) : List Nat :=
  let left := pieces.filter fun n => !x.written.contains n
  let whole := ((d.named core).zipIdx.filter fun e =>
    !x.landed.contains e.1 && !left.any fun n => copyBase e.2 ≤ n && n < copyBase (e.2 + 1)).map Prod.fst
  if left.isEmpty then whole.dropLast else whole

/-- Some of the pieces of a box in flight that are still to be written, of free choice, are written from what its
source holds now (R222, R237). -/
def State.tcePart (s : State) (cl id : Nat) (c : TceCmd) (b : Nat) : State :=
  let d := Desc.of c.desc
  let x := c.flight b
  match s.boxWrites c d x with
  | (.ok (ws, clamp), s) =>
    let left := (piecesIn ws).filter fun n => !x.written.contains n
    let now := (left.zipIdx.filter fun e => Config.choose (s.draws + e.2) 2 % 2 == 1).map Prod.fst
    let mine := picked now.contains ws
    let s := mine.foldl (fun s w => s.engWrite c w) { s with draws := s.draws + left.length }
    let held := if c.word != .mcast then []
      else (((ws.flatMap Prod.snd).take (d.boxBytes c.word)).zipIdx.filter fun e =>
        now.any fun n => n % copyBase 1 == e.1.2).foldl (fun m e => FMap.put m e.2 e.1.1) x.held
    let y := { x with written := x.written ++ now, held := held }
    let fresh := if c.word == .mcast then y.fresh d c.tid.core (piecesIn ws) else []
    let s := s.modCmd cl id fun c =>
      { c with boxes := c.boxes.map fun z => if z.box == b then { y with landed := y.landed ++ fresh } else z
               poisoned := c.poisoned || mine.any fun w => tainted w.2
               saturated := c.saturated || (clamp && !now.isEmpty) }
    if fresh.isEmpty then s else s.countBox c d false fresh
  | (.error _, _) => s

/-- Boxes in flight stop at 16-byte granularity, where their pieces have got to (R222, R286, R336). -/
def State.tceStopBoxes (s : State) (cl id : Nat) (c : TceCmd) : State :=
  if !c.accepted then s
  else (c.flying.foldl (fun s b => s.tcePart cl id c b) s).modCmd cl id fun c => { c with boxes := [] }

/-- A command that a restore has brought back goes on where its cluster runs fewer than 8 and the tables have room
(R277, R285). (DEDUCED, log 92.) -/
def State.resumable (s : State) (cl : Nat) : Option (Nat × TceCmd) :=
  let q := (s.cluster cl).tce
  if 8 ≤ (q.filter fun e => e.2.accepted && (!e.2.boxes.isEmpty || e.2.waitSeq.isSome)).length then none
  else match List.find? (fun e => e.2.accepted && e.2.boxes.isEmpty && e.2.waitSeq.isNone) q with
    | some (id, c) =>
      if s.tceStopped cl c.vf true || ((s.unlock cl id).lockAll (s.locksOf c id (Desc.of c.desc))).isNone then none
      else some (id, c)
    | none => none

/-- It takes its locks again, and its boxes start. -/
def State.resumeCmd (s : State) (cl : Nat) : State :=
  match s.resumable cl with
  | some (id, c) => (((s.unlock cl id).lockAll (s.locksOf c id (Desc.of c.desc))).getD s).modCmd cl id TceCmd.openBoxes
  | none => s

/-! ### The words -/

/-- The first command of a cluster's queue that has not been accepted, if the engine can start it: none of
its records is unanswered, and fewer than 8 run. -/
def State.tceStartable (s : State) (cl : Nat) : Option (Nat × TceCmd) :=
  let q := (s.cluster cl).tce
  if 8 ≤ (q.filter (·.2.accepted)).length then none
  else match List.find? (fun e => !e.2.accepted) q with
    | some (id, c) => if c.waitSeq.isNone then some (id, c) else none
    | none => none

def execTceCommandStart (cl : Nat) (s : State) : Out :=
  .next (match s.tceStartable cl with
    | some (id, c) => if s.tceStopped cl c.vf true then s else s.tceStart cl id c
    | none => s)

def execTceBoxComplete (cl cmd box : Nat) (s : State) : Out :=
  .next (match FMap.find? (s.cluster cl).tce cmd with
    | some c =>
      if c.accepted && c.waitSeq.isNone && c.flying.contains box && !s.tceStopped cl c.vf false then s.tceBox cl cmd c box
      else s
    | none => s)

/-- Room in the cluster's queue of 64 commands for the gang's lanes, queued and running ones alike (R277).
(DESIGN CHOICE, log 176.) -/
def State.tceRoom (s : State) (i : Instr) : Bool :=
  (s.cluster (s.gang.core / 4)).tce.length + ((s.control i).active i).length ≤ 64

/-- One lane's command joins the queue; it issues as a cluster-scope release (R237). -/
def State.tceQueue (s : State) (i : Instr) (kind : Nat) (t : Tid) (desc : DWord) (bar : Option DWord) : State :=
  match s.teamOf t, i.tag? with
  | some tm, some tag =>
    let s := s.releaseSet t.core tm.vf .cluster false
    let s := s.modThread t fun x => { x with tags := FMap.mod x.tags tag fun g => { g with acquire := true } }
    let q := (s.cluster (t.core / 4)).tce
    let c : TceCmd :=
      { slot := ((List.range 64).find? fun k => !q.any fun e => e.2.slot == k).getD 0, tid := t, tag := tag, kind := kind, op := i.opcode, vf := tm.vf, compartment := tm.kern.compartment
        descAddr := desc.toNat, barrier := bar.map BitVec.toNat, desc := [], header := [], accepted := false, done := [], boxes := []
        poisoned := false, saturated := false, waitSeq := none }
    s.modCluster (t.core / 4) fun k => { k with tce := FMap.put k.tce k.tceNext c, tceNext := k.tceNext + 1 }
  | _, _ => s

/-- A copy word (R276). -/
def State.copyWord (s : State) (i : Instr) (kind : Nat) (bar : Bool) (a b : VReg) : State :=
  s.issue i (s.tceRoom i) fun _ act s1 =>
    (byLane act).foldl (fun s t =>
      match s1.thread? t with
      | some x => s.tceQueue i kind t (x.rv64 a.toNat) (if bar then some (x.rv64 b.toNat) else none)
      | none => s) s1

def execTcopy (h : Hd) (bar : Bool) (d a b : VReg) (s : State) : Out :=
  .next (s.copyWord (.tcopy h bar d a b) 0 bar a b)

def execTcopyq (h : Hd) (bar : Bool) (d a b : VReg) (s : State) : Out :=
  .next (s.copyWord (.tcopyq h bar d a b) 1 bar a b)

def execTmcast (h : Hd) (bar : Bool) (d a b : VReg) (s : State) : Out :=
  .next (s.copyWord (.tmcast h bar d a b) 2 bar a b)

/-- A command's CmdId; of a queued one it is read from its descriptor, and one that cannot be read matches none.
(DESIGN CHOICE, log 160.) -/
def State.cmdIdOf (s : State) (c : TceCmd) : Option Nat :=
  if c.accepted then some (Desc.of c.desc).cmdId
  else match (s.readRecord c (BitVec.ofNat 64 c.descAddr)).1 with
    | .ok bs => some (Desc.of bs).cmdId
    | .error _ => none

/-- End a command as tcancel does (R286). -/
def State.tceCancel (s : State) (cl id : Nat) : State :=
  match FMap.find? (s.cluster cl).tce id with
  | some c => (s.tceStopBoxes cl id c).tceEnd cl id 1
  | none => s

/-- The commands of a thread's team in its cluster's engine. -/
def State.teamCmds (s : State) (t : Tid) : List Nat :=
  ((s.cluster (t.core / 4)).tce.filter fun e => e.2.tid.core == t.core && e.2.tid.slot == t.slot).map Prod.fst

def execTcancel (h : Hd) (a : VReg) (s : State) : Out :=
  .next (s.plainWord (.tcancel h a) true fun t x s =>
    let n := (x.rv a.toNat).toNat % 65536
    (s.teamCmds t).foldl (fun s id =>
      match FMap.find? (s.cluster (t.core / 4)).tce id with
      | some c => if s.cmdIdOf c == some n then s.tceCancel (t.core / 4) id else s
      | none => s) s)

end Sys2Proof.Machine
end

