-- ==== Sys2Proof/Machine/QueueInstr.lean ====
section
/-! DEFINITION. The queue words: wpost, msend, qpush, qpop, fpush, fpop, glaunch, gwait, and the sending side
of the links (spec/12_queues.md R301 to R315). -/

namespace Sys2Proof.Machine

/-! ### Sending (R300, R302, R303, R307, R308) -/

/-- Why a roster entry refuses a send: 1 Kind invalid, 2 Send clear (R302, R317). For a device that no port reaches no
code is given (R403). (DESIGN CHOICE, log 151.) -/
def State.sendFail (s : State) (vf idx : Nat) : Option Nat :=
  if idx == 0xFF then none
  else match FMap.find? (s.vf vf).roster idx with
    | some r =>
      if r.kind == 0 then some 1
      else if !r.send then some 2
      else if r.kind == 1 && !s.deviceReachable r.device then some (Config.freeByte s.draws).toNat
      else none
    | none => some 1

/-- A data address as a record shows it: redirected where it lies in the private window (R316). -/
def State.dataAddress (s : State) (t : Tid) (a : DWord) : DWord :=
  match s.region t a with
  | .translated va => BitVec.ofNat 64 va
  | _ => a

/-- The roster fault of a lane that would send from address `a`. -/
def rosterFault (idx why : Nat) (a : DWord) (s : State) : LaneOut :=
  .event 0x1C (BitVec.ofNat 64 (why * 256 + idx)) a s

/-- A message number that the package knows: not acknowledged, and already on its link. -/
def Message.ordered (m : Message) : Bool := m.kind == 0 || m.kind == 2 || m.kind == 3

/-- The peer that a roster index of a VF names: Kind, device or node, partition, VF; 0xFF is the VF itself (R300). -/
def State.peerOf (s : State) (vf idx : Nat) : Nat × Nat × Nat × Nat :=
  if idx == 0xFF then (0, 0, 0, vf)
  else match FMap.find? (s.vf vf).roster idx with
    | some r => if r.kind == 2 then (2, r.node, r.peerPartition, r.peerVf) else (r.kind, r.device, 0, r.peerVf)
    | none => (0, 0, 0, 0)

/-- The pair travels over Ultra Ethernet, in one of the package's ordered contexts (R308). -/
def Message.overEthernet (m : Message) : Bool := m.peer.1 == 2

/-- Ordered contexts in use: pairs of VF and destination with a message sent and not acknowledged. -/
def State.contextPairs (s : State) : List (Nat × Nat × Nat × Nat × Nat) :=
  ((s.messages.filter fun e => !e.2.held && e.2.ordered && e.2.overEthernet).map fun e => (e.2.vf, e.2.peer)).eraseDups

/-- A word of a core, by its issue cycle and CLK, that issued no later than a message's word (R307). (DEDUCED,
log 98.) -/
def Message.notBefore (m : Message) (core cycle clk : Nat) : Bool :=
  if core == m.core then cycle ≤ m.cycle else clk ≤ m.clk

/-- An msend.c1 word to a message's peer among the entries of a log. -/
def State.firstClass (s : State) (m : Message) (core : Nat) (e : LogEntry) : Bool :=
  match e.instr with
  | .msend _ .c1 _ _ _ =>
    m.notBefore core e.cycle e.clk && (lanesOf e.unfinished).any fun l =>
      ((FMap.find? e.ops l).map fun o => s.peerOf m.vf ((o.data.headD 0).toNat / 2 ^ 24) == m.peer).getD false
  | _ => false

/-- A lane of an msend.c1 word that issued no later has been left unfinished: it entered its port at its issue, and is not
acknowledged (R307). -/
def State.firstLogged (s : State) (m : Message) : Bool :=
  (s.teams.any fun t => t.2.vf == m.vf && (s.cohorts.any fun c =>
    c.1 / 64 == t.1 && c.2.log.any fun e => s.firstClass m (t.1 / 8) e.2)) ||
  (s.vf m.vf).save.teams.any fun t => t.cohorts.any fun c => c.2.log.any fun e => s.firstClass m (2 ^ 16) e.2

/-- A held message may leave: C2 after the cycle of its word and after every C1 to its peer of that cycle or an
earlier one, C3 after an earlier C3 to its destination, ordered traffic on Ultra Ethernet with a context (R307, R308,
R315). (DEDUCED, log 98.) -/
def State.mayLeave (s : State) (n : Nat) (m : Message) : Bool :=
  let mine := s.messages.filter fun e => e.1 != n && e.2.vf == m.vf && e.2.peer == m.peer
  let before := fun (p : Message → Bool) => mine.any fun e => e.1 < n && p e.2
  (if m.kind == 2 || m.kind == 3 then
    m.cycle < s.cycle m.core && !(mine.any fun e => e.2.kind == 1 && m.notBefore e.2.core e.2.cycle e.2.clk) &&
    !s.firstLogged m &&
    !before (fun e => e.held && (e.kind == 2 || e.kind == 3))
   else if m.kind == 4 then !before (fun e => e.kind == 4 && e.dest == m.dest)
   else if m.kind == 0 then !before (fun e => e.kind == 0 && e.held && e.port == m.port)
   else true) &&
  (!(m.ordered && m.overEthernet) || s.contextPairs.contains (m.vf, m.peer) || s.contextPairs.length < 8192)

/-- The words that send messages. -/
def leavesPort : Instr → Bool
  | .wpost .. | .msend .. => true
  | _ => false

/-- What a message does where it arrives, on this device. -/
def Message.arrival (m : Message) : Instr :=
  match m.kind with
  | 0 => .workToken m.vf m.port .own true m.bytes
  | 1 => .c1Landing m.vf m.roster m.dest m.bytes
  | 2 => .c2Signal m.vf m.roster m.dest
  | 3 => .c2wWrite m.vf m.roster m.dest (BitVec.ofNat 64 (natLE m.bytes))
  | _ => .c3Atomic m.vf m.roster m.dest (BitVec.ofNat 64 (natLE m.bytes))

/-- A packet goes out under the transport key of a roster entry; the key is renewed every 2^32 packets (R420).
(DESIGN CHOICE, log 154.) -/
def Vf.sendUnder (v : Vf) (idx : Nat) : Vf :=
  match FMap.find? v.transport idx with
  | some k =>
    let n := FMap.getD v.sent idx 0 + 1
    if !k.valid then v
    else if n < 2 ^ 32 then { v with sent := FMap.put v.sent idx n }
    else { v with sent := FMap.put v.sent idx 0, transport := FMap.put v.transport idx { k with generation := k.generation + 1 } }
  | none => v

/-- A message leaves its port: on this device it will arrive, and its acknowledgement follows. -/
def State.leave (s : State) (n : Nat) (m : Message) : State :=
  let s := if m.overEthernet then s.modVf m.vf fun v => v.sendUnder m.roster else s
  let s := { s with messages := FMap.put s.messages n { m with held := false } }
  (if m.roster == 0xFF then s.emit m.arrival else s).emit (.messageAck n)

/-- Every held message that may leave does, in order. -/
def State.pump (s : State) : State :=
  s.messages.foldl (fun s e => if e.2.held && s.mayLeave e.1 e.2 then s.leave e.1 e.2 else s) s

/-- The cycle and CLK at which a word of a thread issued, `c` of its operands its number: of a logged lane as its entry
has them. -/
def State.issuedAt (s : State) (t : Tid) (c : DWord) : Nat × Nat :=
  match (s.cohort? t.core t.slot t.access t.cohort).bind fun k => (k.logOf t.lane).find? fun e =>
      ((FMap.find? e.ops t.lane).map (·.c)) == some c && leavesPort e.instr with
  | some e => (e.cycle, e.clk)
  | none => (s.cycle t.core, s.pkg.clk)

/-- A message of a thread's word to a roster index enters its port; its number comes back. -/
def State.send (s : State) (t : Tid) (ops : LaneOps) (idx kind port : Nat) (dest : DWord) (bs : List Byte) : Nat × State :=
  let (cycle, clk) := s.issuedAt t ops.c
  let m : Message := ⟨s.vfOf t, idx, kind, port, dest, bs, true, s.peerOf (s.vfOf t) idx, t.core, cycle, clk⟩
  (s.messageNext, { s with messages := FMap.put s.messages s.messageNext m, messageNext := s.messageNext + 1 }.pump)

/-- Read checked pieces at their homes, without a copy staying on the way; poison raises its event. A relaunchable team
sees its own buffer (R48). -/
def State.readHomes (s : State) (t : Tid) (acc : List Byte) (k : List Byte → State → LaneOut) :
    List (Check × Nat) → LaneOut
  | [] => k acc s
  | (.mem g va, n) :: rest =>
    match s.loadHome t.core g n .normal with
    | (some bs, s) =>
      s.readHomes t (acc ++ ((s.teamOf t).map fun tm => tm.bufferOver g.phys bs).getD bs) k rest
    | (none, s) => .event 0x1E (s.poisonAt g.phys n) (BitVec.ofNat 64 va) s
  | (.scratch cl off _, n) :: rest =>
    (s.scrRead cl off).readHomes t (acc ++ ((s.scrLine cl off).bytes.drop (off % 512)).take n) k rest
  | _ :: rest => s.readHomes t acc k rest

/-- Read `n` bytes that a queue word sends or launches with, checked under R259 as loads (R301). -/
def State.gatherBytes (s : State) (t : Tid) (a : DWord) (n align : Nat) (k : List Byte → State → LaneOut) : LaneOut :=
  if n == 0 then k [] s
  else match s.blockFault t a align with
  | some (e, d, x) => .event e d x s
  | none =>
    match s.checkPieces t (fun n => Acc.load n .none) (chunks a n) with
    | (.error (e, d, x), s) => .event e d x s
    | (.ok cs, s) => s.readHomes t [] k cs

/-- The effect on its team and on memory order of a word that leaves the team (R48, R302, R303, R305): the
buffer commits, and the thread's earlier accesses are performed at device scope. -/
def State.outward (s : State) (t : Tid) : State :=
  (s.endRelaunch t.core t.slot).releaseSet t.core (s.vfOf t) .device false

/-- One lane of wpost (R302); `c` of its operands is the number of the word's first message. (DEDUCED, log 93.) -/
def laneWpost : LaneStep := fun t ops s =>
  let x := (ops.data.headD 0).toNat
  let (port, idx) := (x % 256, x / 256 % 256)
  (s.outward t).gatherBytes t ops.a 64 64 fun bs s =>
    match s.sendFail (s.vfOf t) idx with
    | some why => rosterFault idx why (s.dataAddress t ops.a) s
    | none =>
      let (n, s) := s.send t ops idx 0 port 0 bs
      .wait (.ack n) false s

def execWpost (h : Hd) (a b : VReg) (s : State) : Out :=
  .next (s.laneWord (.wpost h a b)
    (fun _ x => ⟨x.rv64 a.toNat, 0, BitVec.ofNat 64 s.messageNext, [x.rv b.toNat]⟩) laneWpost)

/-- Message kind number. -/
def msendNumber : MsendKind → Nat
  | .c1 => 1
  | .c2a => 2
  | .c2w => 3
  | .c3 => 4

/-- The checks of msend on its operands, in the order of R303. -/
def State.msendFault (s : State) (t : Tid) (kind : MsendKind) (ops : LaneOps) : Option LaneEvent :=
  let x := (ops.data.headD 0).toNat
  let n := x % 2 ^ 17
  let idx := x / 2 ^ 24
  let at_ := if kind == .c1 then s.dataAddress t ops.a else 0
  let align := match kind with
    | .c1 => 16
    | .c2a => 1
    | _ => 8
  if kind == .c1 && (n < 16 || 65536 < n || n % 16 != 0) then some (0x14, 0, at_)
  else if (destOf ops.b).isNone then some (0x14, 0, at_)
  else if ops.b.toNat % align != 0 then some (0x15, 0, at_)
  else (s.sendFail (s.vfOf t) idx).map fun why => (0x1C, BitVec.ofNat 64 (why * 256 + idx), at_)

/-- One lane of msend (R303). -/
def laneMsend (kind : MsendKind) : LaneStep := fun t ops s =>
  let x := (ops.data.headD 0).toNat
  match s.msendFault t kind ops with
  | some (k, d, a) => .event k d a s
  | none =>
    let s := s.outward t
    let finish := fun bs (s : State) =>
      let (n, s) := s.send t ops (x / 2 ^ 24) (msendNumber kind) 0 ops.b bs
      LaneOut.wait (.ack n) false s
    if kind == .c1 then s.gatherBytes t ops.a (x % 2 ^ 17) 16 finish
    else finish (if kind == .c2a then [] else bytesLE 8 ops.a.toNat) s

def execMsend (h : Hd) (kind : MsendKind) (a b c : VReg) (s : State) : Out :=
  .next (s.laneWord (.msend h kind a b c)
    (fun _ x => ⟨x.rv64 a.toNat, x.rv64 b.toNat, BitVec.ofNat 64 s.messageNext, [x.rv c.toNat]⟩) (laneMsend kind))

/-- MESSAGE_ACK: the message is done; a word's tags complete when all its messages are (R302, R303), and held
messages may leave (R307). -/
def State.acknowledge (s : State) (n : Nat) : State :=
  let s := { s with messages := FMap.del s.messages n }
  let groups := (s.waits.filter fun w => w.2.cause == .ack n).map fun w => w.2.ops.c
  let s := { s with waits := FMap.mapV (fun _ w => if w.cause == .ack n then { w with cause := .acked } else w) s.waits }
  let open_ := fun (s : State) g => s.waits.any fun w =>
    w.2.ops.c == g && match w.2.cause with | .ack _ => true | _ => false
  (groups.foldl (fun s g =>
    if open_ s g then s
    else ((s.waits.filter fun w => w.2.cause == .acked && w.2.ops.c == g).map Prod.fst).foldl
      (fun s k => s.endWait k ⟨[], 0, none⟩) s) s).pump

/-! ### Operand queues (R311, R312) -/

/-- Queue `q` of an execute cohort. -/
def State.opQueue (s : State) (core slot c q : Nat) : OpQueue :=
  ((s.cohort? core slot false c).map fun k => FMap.getD k.queues q .empty).getD .empty

def State.setQueue (s : State) (core slot c q : Nat) (x : OpQueue) : State :=
  s.modCohort core slot false c fun k => { k with queues := FMap.put k.queues q x }

/-- Rows that the core's queue store holds. -/
def State.queueRows (s : State) (core : Nat) : Nat :=
  ((s.cohorts.filter fun e => e.1 / 512 == core).map fun e =>
    (e.2.queues.map fun q => q.2.rows.length).foldl (· + ·) 0).foldl (· + ·) 0

/-- Lanes that wait for a row that has come receive it (R312). -/
def State.serveRow (s : State) (core slot c q row : Nat) : State :=
  let x := s.opQueue core slot c q
  s.waits.foldl (fun s w =>
    let t := w.2.tid
    if w.2.cause == .row q && t.core == core && t.slot == slot && t.cohort == c && w.2.ops.a.toNat == row then
      s.endWait w.1 (lateRegs [(x.rows.getD (row - x.first) []).getD t.lane 0])
    else s) s

/-- A queue of a cohort, and the core's store, have room for a row more (R312). -/
def State.pushRoom (s : State) (core slot c q : Nat) : Bool :=
  (s.opQueue core slot c q).rows.length < 16 && s.queueRows core < 1024

/-- The row waits for room (R312), and for the access cohort's threads that stand at the word. (DEDUCED, log 60.) -/
def State.pushOk (s : State) (q : Nat) : Bool :=
  let g := s.gang
  g.cohorts.all fun c =>
    s.pushRoom g.core g.slot c q &&
    (lanesOf (s.liveLanes g.core g.slot g.access c)).all fun l =>
      g.members.contains (c, l) || ((s.thread? ⟨g.core, g.slot, g.access, c, l⟩).map (·.pc)) != some g.pc

def execQpush (h : Hd) (q : BitVec 3) (a : VReg) (s : State) : Out :=
  let i : Instr := .qpush h q a
  .next (s.issue i (s.pushOk q.toNat) fun _ act s1 =>
    let g := s.gang
    let s2 := g.cohorts.foldl (fun s c =>
      let row := (List.range 32).map fun l =>
        if act.contains ⟨g.core, g.slot, g.access, c, l⟩ then
          ((s1.thread? ⟨g.core, g.slot, g.access, c, l⟩).map (·.rv a.toNat)).getD 0
        else 0
      let x := s.opQueue g.core g.slot c q.toNat
      let s := s.setQueue g.core g.slot c q.toNat { x with rows := x.rows ++ [row] }
      (s.serveRow g.core g.slot c q.toNat (x.first + x.rows.length)).trimQueues g.core g.slot c) s1
    s2.deliverAll i act)

/-- One lane of qpop: its row, or a wait for it. -/
def laneQpop (q : Nat) : LaneStep := fun t ops s =>
  let x := s.opQueue t.core t.slot t.cohort q
  let row := ops.a.toNat
  let s := (s.setQueue t.core t.slot t.cohort q { x with next := FMap.put x.next t.lane (row + 1) })
  if row < x.first + x.rows.length then
    .done (lateRegs [(x.rows.getD (row - x.first) []).getD t.lane 0]) (s.trimQueues t.core t.slot t.cohort)
  else .wait (.row q) false s

def execQpop (h : Hd) (d : VReg) (q : BitVec 3) (s : State) : Out :=
  .next (s.laneWord (.qpop h d q)
    (fun t _ => ⟨BitVec.ofNat 64 ((s.opQueue t.core t.slot t.cohort q.toNat).at t.lane), 0, 0, []⟩) (laneQpop q.toNat))

/-- The access cohort of an execute cohort has exited. -/
def State.accessGone (s : State) (t : Tid) : Bool := s.liveLanes t.core t.slot true t.cohort == 0

/-- The thread waits at a word that commits or reallocates the tag of a qpop whose row will never come. -/
def State.underflow (s : State) (t : Tid) (i : Instr) : Bool :=
  match s.thread? t, i.ctl? with
  | some x, some c =>
    x.offers (s.cycle t.core) && s.accessGone t && s.waits.any fun w =>
      w.2.tid == t && (match w.2.cause with | .row _ => true | _ => false) &&
      (match w.2.instr.tag? with | some n => (Ctl.commits c).contains n | none => false)
  | _, _ => false

/-- Queue-underflow parks the threads of a cohort that have met it, one record for a word (R312). -/
def State.takeUnderflow (s : State) (ts : List Tid) : State :=
  ts.foldl (fun s t =>
    match s.thread? t with
    | some x =>
      if x.parked then s
      else
        let mates := ts.filter fun u => u.slot == t.slot && u.cohort == t.cohort && ((s.thread? u).map (·.pc)) == some x.pc
        s.takePrecise t.core t.slot t.access t.cohort (maskOf (mates.map (·.lane))) 0x0D 0x302 0 0
    | none => s) s

/-! ### FIFO-mode banks (R313, R314) -/

def State.fifo? (s : State) (cl n vf : Nat) : Option Fifo :=
  match FMap.find? (s.cluster cl).fifos n with
  | some f => if f.vf == vf then some f else none
  | none => none

def State.setFifo (s : State) (cl n : Nat) (f : Fifo) : State :=
  s.modCluster cl fun k => { k with fifos := FMap.put k.fifos n f }

/-- The requests that wait on a FIFO, in order. -/
def State.fifoWaits (s : State) (cl n : Nat) : List (Nat × Wait) :=
  s.waits.filter fun w =>
    match w.2.cause with
    | .fifo c k _ => c == cl && k == n
    | _ => false

/-- A stale entry, by its whole age in µs (R201, R207). -/
def State.fifoStale (s : State) (cl : Nat) (e : FifoEntry) : Bool :=
  s.retnLow cl e.since / 1000 < s.us - e.stamp

/-- A new entry. -/
def State.fifoEntry (s : State) (data : List Word) : FifoEntry := ⟨data, s.pkg.clk, s.us⟩

/-- Serve the requests that a FIFO can serve, in order of arrival; `fuel` bounds their number. (DEDUCED, log 81.) -/
def State.serveFifo (s : State) (cl n vf : Nat) : Nat → State
  | 0 => s
  | fuel + 1 =>
    match s.fifo? cl n vf, s.fifoWaits cl n with
    | some f, (k, w) :: _ =>
      match w.cause with
      | .fifo _ _ true =>
        if f.entries.length < 8192 then
          ((s.setFifo cl n { f with entries := f.entries ++ [s.fifoEntry w.ops.data] }).endWait k ⟨[], 0, none⟩).serveFifo
            cl n vf fuel
        else s
      | _ =>
        match f.entries with
        | [] => s
        | e :: es =>
          let s := s.setFifo cl n { f with entries := es }
          (if s.fifoStale cl e then s.failWait k 0x1B 0 0
           else (s.cacheAction w.tid.core vf .cluster).endWait k (lateRegs e.data)).serveFifo cl n vf fuel
    | _, _ => s

/-- Serve what a change of a FIFO lets be served. -/
def State.fifoMoved (s : State) (cl n vf : Nat) : State := s.serveFifo cl n vf (s.fifoWaits cl n).length

/-- Lanes of `n` that a FIFO cannot serve at once. -/
def State.fifoLeft (s : State) (cl f vf n : Nat) (push : Bool) : Nat :=
  match s.fifo? cl f vf with
  | none => 0
  | some x =>
    if (s.fifoWaits cl f).any fun w => w.2.cause == .fifo cl f push then n
    else n - (if push then 8192 - x.entries.length else x.entries.length)

/-- The request list of 1,024 lanes has room for the gang's lanes that must wait, all of them or none
(R314). (DESIGN CHOICE, log 177.) -/
def State.fifoRoom (s : State) (i : Instr) (f : Nat) (push : Bool) : Bool :=
  let cl := s.gang.core / 4
  let left := s.fifoLeft cl f ((s.gangTeam.map (·.vf)).getD 0) ((s.control i).active i).length push
  left == 0 || (s.fifoWaits cl f).length + left ≤ 1024

/-- The cluster-scope release of fpush; a relaunchable team's buffer commits first (R48, R314). -/
def State.fifoRelease (s : State) (t : Tid) : State :=
  (s.endRelaunch t.core t.slot).releaseSet t.core (s.vfOf t) .cluster false

/-- One lane of fpush. -/
def laneFpush (n : Nat) : LaneStep := fun t ops s =>
  let cl := t.core / 4
  let vf := s.vfOf t
  match s.fifo? cl n vf with
  | none => .event 0x1D 0 0 s
  | some _ =>
    let s := s.fifoRelease t
    match s.fifo? cl n vf with
    | some f =>
      if (s.fifoWaits cl n).any (fun w => w.2.cause == .fifo cl n true) || 8192 ≤ f.entries.length then
        .wait (.fifo cl n true) false s
      else .ok ((s.setFifo cl n { f with entries := f.entries ++ [s.fifoEntry ops.data] }).fifoMoved cl n vf)
    | none => .ok s

/-- One lane of fpop. -/
def laneFpop (n : Nat) : LaneStep := fun t _ s =>
  let cl := t.core / 4
  let vf := s.vfOf t
  match s.fifo? cl n vf with
  | none => .event 0x1D 0 0 s
  | some f =>
    match (s.fifoWaits cl n).any (fun w => w.2.cause == .fifo cl n false), f.entries with
    | false, e :: es =>
      let s := s.setFifo cl n { f with entries := es }
      if s.fifoStale cl e then .event 0x1B 0 0 (s.fifoMoved cl n vf)
      else .done (lateRegs e.data) ((s.cacheAction t.core vf .cluster).fifoMoved cl n vf)
    | _, _ => .wait (.fifo cl n false) false s

/-- A FIFO word, which waits where the request list is full. -/
def State.fifoWord (s : State) (i : Instr) (n : Nat) (push : Bool) (capture : Thread → LaneOps) (f : LaneStep) : State :=
  s.issue i (s.fifoRoom i n push) fun _ act s1 =>
    let jobs := (byLane act).filterMap fun t => (s1.thread? t).map fun x => (t, capture x)
    let g := s.gang
    let age := s.nextAge g.core g.slot g.access
    let (s2, us) := s1.runLanes i g.pc f age jobs
    s2.logGang g i age us

def execFpush (h : Hd) (f : BitVec 4) (a : VReg) (s : State) : Out :=
  .next (s.fifoWord (.fpush h f a) f.toNat true (fun x => ⟨0, 0, 0, x.group a.toNat 4⟩) (laneFpush f.toNat))

def execFpop (h : Hd) (d : VReg) (f : BitVec 4) (s : State) : Out :=
  .next (s.fifoWord (.fpop h d f) f.toNat false (fun _ => .none) (laneFpop f.toNat))

/-! ### glaunch, gwait (R305, R306) -/

/-- A field of a launch block out of its range, or a reserved one not 0. -/
def blockBad (b : List Byte) : Bool :=
  let n := fieldLE b 18 2
  let q := fieldLE b 16 2
  512 < n || n % 4 != 0 || (63 < q && q != 0xFFFF) || fieldLE b 20 4 != 0 || fieldLE b 32 32 != 0

/-- The queue that a launch block names. -/
def State.blockQueue (s : State) (tm : Team) (q : Nat) : Nat :=
  if q == 0xFFFF then ((FMap.find? (s.vf tm.vf).grids tm.grid).map (·.queue)).getD 0 else q

/-- A launch with its head and arguments read: refused with a code, or deposited as a child grid. -/
def State.launchChild (s : State) (t : Tid) (tm : Team) (b args : List Byte) : LaneOut :=
  let r := headOf b args
  let q := s.blockQueue tm (fieldLE b 16 2)
  match s.launchError tm.vf q .glaunch r with
  | some e => .done (lateRegs [BitVec.ofNat 32 (0x80000000 + e)]) s
  | none =>
    let (g, s) := (s.outward t).deposit tm.vf q r (some tm.grid) (tm.depth + 1) none
    .done (lateRegs [BitVec.ofNat 32 g]) s

/-- One lane of glaunch: its block, its arguments, and the launch. -/
def laneGlaunch : LaneStep := fun t ops s =>
  match s.teamOf t with
  | none => .ok s
  | some tm =>
    let s := s.outward t
    s.gatherBytes t ops.a 64 64 fun b s =>
      if blockBad b then .done (lateRegs [0x80000001]) s
      else s.gatherBytes t (addressField b 24) (fieldLE b 18 2) 1 fun args s => s.launchChild t tm b args

/-- glaunch; at depth 10 the nesting fault parks its threads at the word (R42). -/
def execGlaunch (h : Hd) (d a : VReg) (s : State) : Out :=
  let i : Instr := .glaunch h d a
  .next (s.issue i true fun s0 act s1 =>
    if ((s.gangTeam.map (·.depth)).getD 0) == 10 then s1.backOut s0 i (act.map fun t => ⟨t, 0x09, 0, 0⟩)
    else
      let jobs := (byLane act).filterMap fun t => (s1.thread? t).map fun x => (t, (⟨x.rv64 a.toNat, 0, 0, []⟩ : LaneOps))
      let g := s.gang
      let age := s.nextAge g.core g.slot g.access
      let (s2, us) := s1.runLanes i g.pc laneGlaunch age jobs
      s2.logGang g i age us)

/-- Grid `g` was launched by grid `anc` or by one of its descendants; `fuel` bounds the depth. -/
def launchedUnder (grids : FMap Grid) (anc g : Nat) : Nat → Bool
  | 0 => false
  | fuel + 1 =>
    match (FMap.find? grids g).bind (·.parent) with
    | some p => p == anc || launchedUnder grids anc p fuel
    | none => false

/-- One lane of gwait. -/
def laneGwait : LaneStep := fun t ops s =>
  match s.teamOf t with
  | none => .ok s
  | some tm =>
    let g := ops.a.toNat
    let grids := (s.vf tm.vf).grids
    match FMap.find? grids g with
    | none => .done (lateRegs [2]) s
    | some x =>
      if !launchedUnder grids tm.grid g 16 then .done (lateRegs [2]) s
      else if x.retired then .done (lateRegs [if x.killed then 1 else 0]) (s.cacheAction t.core tm.vf .device)
      else .wait (.grid tm.vf g) false s

def execGwait (h : Hd) (d a : VReg) (s : State) : Out :=
  .next (s.laneWord (.gwait h d a) (fun _ x => ⟨(x.rv a.toNat).setWidth 64, 0, 0, []⟩) laneGwait)

end Sys2Proof.Machine
end

