-- ==== Sys2Proof/Machine/Issue.lean ====
section
/-! DEFINITION. Fetching a word, gathering a gang, and the sector cycle (spec/02_execution_model.md R31 to
R36, spec/03_encoding.md R54, R69 to R76, spec/12_queues.md R309). -/

namespace Sys2Proof.Machine

/-! ### Fetch -/

/-- Whether the trailer of a line is right (R69, R70). -/
def trailerOk (bs : List Byte) : Bool :=
  (bs.take 61).foldl (· ^^^ ·) 0 == bs.getD 61 0 && bs.getD 62 0 == 0 && bs.getD 63 0 == 0 &&
  (bs.getD 60 0).extractLsb' 6 2 == 0#2

/-- The landing bit of a slot (R69). -/
def ILine.lands (l : ILine) (slot : Nat) : Bool := (l.bytes.getD 60 0).getLsbD slot

/-- The 80 bits of a slot. -/
def ILine.word (l : ILine) (slot : Nat) : BitVec 80 := wordOfBytes ((l.bytes.drop (10 * slot)).take 10)

/-- The line of a core's instruction cache that holds a word of a VF, for a team of a compartment whose right
to fetch it has been checked (R76, R192). -/
def State.iline? (s : State) (core vf comp pc : Nat) : Option ILine :=
  match FMap.find? (s.core core).icache (icacheKey vf (pc / 6)) with
  | some l => if l.comps.contains comp then some l else none
  | none => none

/-- What a fetch finds in the instruction cache. -/
inductive Fetch where
  /-- The line is not cached. -/
  | absent
  /-- The line fails its check (R70). -/
  | broken
  | word (w : BitVec 80)
  deriving DecidableEq, Repr

/-- THE FETCH of a word from the instruction cache. -/
def State.fetch (s : State) (core vf comp pc : Nat) : Fetch :=
  match s.iline? core vf comp pc with
  | none => .absent
  | some l => if l.intact then .word (l.word (pc % 6)) else .broken

/-- The instruction at a word, where there is one. -/
def State.instrAt (s : State) (core vf comp pc : Nat) : Option Instr :=
  match s.fetch core vf comp pc with
  | .word w => (decode w).toOption
  | _ => none

/-- Put a line into the instruction cache of 2,048 lines for a team of a compartment that may fetch it; of a
full one a line of free choice leaves. A line that is cached already stays as it is, admitted to that
compartment too. -/
def State.icachePut (s : State) (core vf comp line : Nat) (bs : List Byte) : State :=
  match FMap.find? (s.core core).icache (icacheKey vf line) with
  | some l => s.modCore core fun c =>
      { c with icache := FMap.put c.icache (icacheKey vf line) { l with comps := comp :: l.comps } }
  | none =>
    let s := if (s.core core).icache.length < 2048 then s
      else { s with draws := s.draws + 1 }.modCore core fun c =>
        { c with icache := c.icache.eraseIdx (Config.choose s.draws 2048 % 2048) }
    s.modCore core fun c => { c with icache := FMap.put c.icache (icacheKey vf line) ⟨vf, bs, trailerOk bs, [comp]⟩ }

/-- Threads of a VF on a core that wait for a word of a line, that is, stand at it, could fetch it and find it
not cached for their compartment. -/
def State.waitersOf (s : State) (core vf line : Nat) : List Tid :=
  (s.threads.map Prod.fst).filterMap fun k =>
    let t := tidOfKey k
    match s.thread? t, s.teamOf t with
    | some x, some tm =>
      if t.core == core && tm.vf == vf && !x.exited && !x.exitIssued && !x.parked && x.pc / 6 == line &&
        x.pc < wordLimit && (s.iline? core vf tm.kern.compartment x.pc).isNone then some t
      else none
    | _, _ => none

/-- A precise event of the fetch: each waiting thread parks with its PC at its word, one record for each
cohort and word (R72, R192, R219). -/
def State.takeFetch (s : State) (ts : List Tid) (kind : Nat) (detail : DWord) (host : Bool) : State :=
  ts.foldl (fun s t =>
    match s.thread? t with
    | some x =>
      if x.parked then s
      else
        let mates := ts.filter fun u => u.slot == t.slot && u.access == t.access && u.cohort == t.cohort &&
          ((s.thread? u).map (·.pc)) == some x.pc
        s.takeEvent t.core t.slot t.access t.cohort (maskOf (mates.map (·.lane))) kind 0 (codeAddress x.pc) detail host
    | none => s) s

/-- An event of a fetch: kind, Detail, and whether it belongs to the host complex whatever its kind. -/
abbrev FetchEvent := Nat × DWord × Bool

/-- What a fetch may do with a leaf: execute permission and the rights of R215 (R192). (DEDUCED, log 35.) -/
def State.fetchTarget (s : State) (core : Nat) (tm : Team) (e : TlbEntry) (va : Nat) :
    Except FetchEvent Target × State :=
  let leaf := e.leafFor va
  if leafKind leaf == 2 then (.error (0x12, BitVec.ofNat 64 (leafPayload leaf), false), s)
  else if !leafX leaf then (.error (0x18, 0, false), s)
  else
    -- the read rights of R215, whatever the Read bit
    match s.permit core tm ⟨1, false, false, false, .none, false⟩ e va with
    | (.ok g, s) => (.ok g, s)
    | (.error (k, d), s) => (.error (k, d, false), s)

/-- The translation of a code line by its waiting threads: the target, or the event that they raise. The
walk of an absent or remote leaf raises fetch (R72). -/
def State.fetchPlace (s : State) (core : Nat) (tm : Team) (line : Nat) : Except FetchEvent Target × State :=
  let va := line * 64
  match s.translate core tm.vf va true with
  | (.invalid _, s) => (.error (0x19, 0, false), s)
  | (.absent (some ns), s) => (.error (0x12, regionKey ns va, false), s)
  | (.absent none, s) => (.error (0x12, 0, true), s)
  | (.leaf e, s) => s.fetchTarget core tm e va

/-- The line is translated by the instruction TLB or the second level, without a walk. -/
def State.itlbHas (s : State) (core vf line : Nat) : Bool :=
  ((s.core core).itlb.any (·.hits vf (line * 64))) || (s.cluster (core / 4)).tlb2.any (·.hits vf (line * 64))

/-- The fill of a code line for its waiting threads, which `lost` lets fail on the way (R214). -/
def State.fillWith (s : State) (core vf line : Nat) (lost : Bool) : State :=
  match s.waitersOf core vf line with
  | [] => s
  | t :: ts =>
    match s.teamOf t with
    | none => s
    | some tm =>
      let mates := (t :: ts).filter fun u =>
        ((s.teamOf u).map (·.kern.compartment)) == some tm.kern.compartment
      match s.fetchPlace core tm line with
      | (.error (k, d, host), s) => s.takeFetch mates k d host
      | (.ok g, s) =>
        let phys := g.phys / 64 * 64
        if lost || s.poisoned phys 64 then s.takeFetch mates 0x1E (s.poisonAt phys 64) false
        else s.icachePut core vf tm.kern.compartment line (s.homeBytes phys 64)

/-- ICACHE_FILL: the waiting threads' line is translated, read from its home and checked (R70, R72, R192,
R219). Teams of different compartments are served apart. -/
def State.fillLine (s : State) (core vf line : Nat) : State := s.fillWith core vf line false

/-- What a due landing check finds on the cached line of its target (R70, R73, R131). -/
inductive Landing where
  | none
  | lands
  /-- The line is broken. -/
  | broken
  /-- The bit is clear: the transferring word's number and opcode. -/
  | misses (from_ op : Nat)
  deriving DecidableEq, Repr

/-- The landing check of a thread. -/
def State.landing (s : State) (t : Tid) : Landing :=
  match s.thread? t, s.teamOf t with
  | some x, some tm =>
    match x.landing, s.iline? t.core tm.vf tm.kern.compartment x.pc with
    | some (from_, op), some l =>
      if x.parked || x.exited then .none
      else if !l.intact then .broken
      else if l.lands (x.pc % 6) then .lands
      else .misses from_ op
    | _, _ => .none
  | _, _ => .none

/-- Due landing checks are made: a thread that lands may issue, the others park at their targets with the check still
due, one record for the lanes of a cohort and transferring word, or of a cohort and fetched word (R73, R131, R316);
Detail and Address are the lowest lane's. (DESIGN CHOICE, log 179.) -/
def State.landChecks (s : State) (ts : List Tid) : State :=
  ts.foldl (fun s t =>
    match s.landing t, s.thread? t with
    | .lands, _ => s.modThread t fun x => { x with landing := none }
    | .broken, some x =>
      let mates := ts.filter fun u => u.slot == t.slot && u.access == t.access && u.cohort == t.cohort &&
        s.landing u == .broken && ((s.thread? u).map (·.pc)) == some x.pc
      s.takePrecise t.core t.slot t.access t.cohort (maskOf (mates.map (·.lane))) 0x04 0 (codeAddress x.pc) 0
    | .misses from_ op, some x =>
      let mates := ts.filter fun u => u.slot == t.slot && u.access == t.access && u.cohort == t.cohort &&
        s.landing u == .misses from_ op
      s.takePrecise t.core t.slot t.access t.cohort (maskOf (mates.map (·.lane))) 0x06 op (codeAddress x.pc)
        (codeAddress from_)
    | _, _ => s) s

/-! ### Readiness and rank (R28, R32) -/

/-- Threads of a place: a sector's execute threads, or with sector 4 the access threads. -/
def State.threadsAt (s : State) (core sector : Nat) : List Tid :=
  (s.threads.map Prod.fst).filterMap fun k =>
    let t := tidOfKey k
    if t.core != core then none
    else match s.teamOf t with
      | some tm =>
        if sector == 4 then (if t.access then some t else none)
        else if !t.access && sectorOf t.cohort tm.baseSector == sector then some t else none
      | none => none

/-- The word a thread stands at is cached, or its fetch has an event to raise. -/
inductive Offer where
  /-- Nothing to issue: the line is not cached, or the thread does not offer a word. -/
  | none
  /-- The word raises a decode fault; the instruction, where it decodes. -/
  | fault (i : Option Instr)
  /-- A word of mma's opcode that is illegal-instruction: the event is precise for its cohort (R176, R181). -/
  | matrix
  | word (i : Instr)
  deriving DecidableEq, Repr

/-- A raw word of mma's opcode, in the full format. -/
def matrixWord (w : BitVec 80) : Bool := !w.getLsbD 60 && w.extractLsb' 50 10 == 0x200#10

/-- What a thread offers its decoder. -/
def State.offer (s : State) (t : Tid) : Offer :=
  match s.thread? t, s.teamOf t with
  | some x, some tm =>
    if !x.offers (s.cycle t.core) then .none
    else match s.fetch t.core tm.vf tm.kern.compartment x.pc with
      | .absent => .none
      | .broken => .fault none
      | .word w =>
        match decode w with
        | .error _ => if matrixWord w then .matrix else .fault none
        | .ok i => if (tm.decodeEvent i t.access).isSome then .fault (some i) else .word i
  | _, _ => .none

/-- The word's cohort has a free log entry, if it may need one. -/
def State.cohortLogOk (s : State) (t : Tid) (i : Instr) : Bool :=
  !i.needsLog || ((s.cohort? t.core t.slot t.access t.cohort).bind Cohort.logFree).isSome

/-- A word's own condition on its gang, beyond tags, log room and pipe. -/
def extraOk (i : Instr) (s : State) : Bool :=
  match i with
  | .call .. | .callx .. | .ret .. => s.stackFree i
  | .fence .. => s.gang.tids.all fun t => s.settled t
  | .qpush _ q _ => s.pushOk q.toNat
  | .fpush _ f _ => s.fifoRoom i f.toNat true
  | .fpop _ _ f => s.fifoRoom i f.toNat false
  | .tcopy .. | .tcopyq .. | .tmcast .. => s.tceRoom i
  | .mma .. => s.mmaOk i
  | .acczero _ t | .accchk _ _ t | .accld _ _ _ t _ => s.mauOk t
  | .accst _ _ _ t _ => s.accstFree t
  | _ => true

/-- What of that condition holds a thread by itself: a qpush waits for room, whatever its mates do. -/
def selfOk (t : Tid) (i : Instr) (s : State) : Bool :=
  match i with
  | .qpush _ q _ => s.pushRoom t.core t.slot t.cohort q.toNat
  | i => extraOk i s

/-- One thread as a gang of its own. -/
def soloGang (t : Tid) (pc : Nat) : Gang := ⟨t.core, t.slot, t.access, pc, [(t.cohort, t.lane)]⟩

/-- A thread is held by nothing but the other lanes of its word (R28, R54): its tags have their results, its
cohort's log and the word's own queue have room. -/
def State.selfReady (s : State) (t : Tid) (i : Instr) : Bool :=
  s.threadReady t i && s.cohortLogOk t i &&
  selfOk t i { s with gang := soloGang t (((s.thread? t).map (·.pc)).getD 0) }

/-- The lanes that a thread's collective word names, exited lanes dropped (R36): for mjoin and mleave its own. -/
def State.namedLanes (s : State) (t : Tid) (i : Instr) : LaneMask :=
  { s with gang := soloGang t 0 }.collectiveMask i t.cohort

/-- The lanes that a thread's collective word names and that have arrived: they stand at it, otherwise ready. -/
def State.arrivedLanes (s : State) (t : Tid) (i : Instr) : LaneMask :=
  let pc := (s.thread? t).map (·.pc)
  maskOf ((lanesOf (s.namedLanes t i)).filter fun l =>
    let u := { t with lane := l }
    ((s.thread? u).map (·.pc)) == pc && s.selfReady u i)

/-- A collective does not hold the thread: the thread's lane is not named, or every named lane has arrived
(R36, R122). -/
def State.allArrived (s : State) (t : Tid) (i : Instr) : Bool :=
  !i.collective || !(s.namedLanes t i).getLsbD t.lane || s.arrivedLanes t i == s.namedLanes t i

/-- The live lanes of an mma's cohort have all reached the word that faults: each parks at it (R179, R181). -/
def State.faultReady (s : State) (t : Tid) : Bool :=
  let pc := (s.thread? t).map (·.pc)
  (lanesOf (s.liveLanes t.core t.slot t.access t.cohort)).all fun l =>
    match s.thread? { t with lane := l } with
    | some x => some x.pc == pc && x.offers (s.cycle t.core)
    | none => false

/-- The word is an mma. -/
def isMma : Instr → Bool
  | .mma .. => true
  | _ => false

/-- A thread is ready in the sense of R28: it may be gathered in this cycle. -/
def State.ready (s : State) (t : Tid) : Bool :=
  match s.offer t with
  | .none => false
  | .fault none => true
  | .fault (some i) => !isMma i || s.faultReady t
  | .matrix => s.faultReady t
  | .word i => s.selfReady t i && s.allArrived t i

/-- The keys of R32, most important first, smaller first. -/
def State.rank (s : State) (t : Tid) : List Nat :=
  match s.thread? t with
  | some x =>
    let urg := ((s.cohort? t.core t.slot t.access t.cohort).map (·.urgency)).getD 0
    [if x.overdue then 0 else 1, if x.overdue then x.since.getD 0 else 0, urg, t.slot, t.cohort, t.lane]
  | none => []

/-- Lexicographic order of keys. -/
def keyLt : List Nat → List Nat → Bool
  | [], _ => false
  | _, [] => false
  | a :: as, b :: bs => a < b || (a == b && keyLt as bs)

/-- The highest-ranked of some threads. -/
def State.best (s : State) : List Tid → Option Tid
  | [] => none
  | t :: ts =>
    match s.best ts with
    | some u => if keyLt (s.rank u) (s.rank t) then some u else some t
    | none => some t

/-! ### The gang (R33, R34, R309) -/

/-- The gang that a seed gathers from the ready threads: its team's threads at its PC, one a lane, of the
seed's cohort alone for a collective word or an access cohort. Where lanes that a collective names are still
missing, the arrived ones are not ready, and the lanes outside its mask go alone (R122). -/
def State.gather (s : State) (seed : Tid) (ready : List Tid) : Gang :=
  let pc := ((s.thread? seed).map (·.pc)).getD 0
  let alone := seed.access || match s.offer seed with
    | .word i | .fault (some i) => i.collective
    | .matrix => true
    | _ => false
  let mates := ready.filter fun t =>
    t.slot == seed.slot && t.access == seed.access && ((s.thread? t).map (·.pc)) == some pc &&
    (!alone || t.cohort == seed.cohort)
  { core := seed.core, slot := seed.slot, access := seed.access, pc := pc
    members := (List.range 32).filterMap fun l =>
      (s.best (mates.filter (·.lane == l))).map fun t => (t.cohort, t.lane) }

/-- The gathered gang's word can issue: a decode fault always can. -/
def State.gangCan (s : State) (g : Gang) : Bool :=
  match g.tids with
  | [] => false
  | t :: _ =>
    match s.offer t with
    | .none => false
    | .fault _ | .matrix => true
    | .word i =>
      let s := { s with gang := g }
      s.canIssue i && extraOk i s

/-- The gangs that can issue and pass a test, seeds taken in rank order; `n` bounds the seeds. -/
def State.gangs (s : State) (ok : Gang → Bool) (ready seeds : List Tid) : Nat → List Gang
  | 0 => []
  | n + 1 =>
    match s.best seeds with
    | none => []
    | some seed =>
      let g := s.gather seed ready
      let rest := s.gangs ok ready (seeds.filter fun t => t != seed && !g.tids.contains t) n
      if s.gangCan g && ok g then g :: rest else rest

/-- The first of those gangs. -/
def State.pick (s : State) (ready seeds : List Tid) : Nat → Option Gang
  | 0 => none
  | n + 1 =>
    match s.best seeds with
    | none => none
    | some seed =>
      let g := s.gather seed ready
      if s.gangCan g then some g
      else s.pick ready (seeds.filter fun t => t != seed && !g.tids.contains t) n

/-- The pipe of a gang's word; a word that faults takes I. -/
def State.gangPipe (s : State) (g : Gang) : Pipe :=
  match g.tids with
  | t :: _ =>
    match s.offer t with
    | .word i => i.pipe.1
    | _ => .i
  | [] => .i

/-- Two words can issue in one cycle (R33, R34, R68). -/
def pipesApart (a b : Pipe) : Bool :=
  match a, b with
  | .f, .f => true
  | .paired, .f | .f, .paired | .paired, .i | .i, .paired => false
  | a, b => a != b

/-- The first decoder's gang of a sector, or the access engine's. -/
def State.firstGang (s : State) (core sector : Nat) : Option Gang :=
  let ready := (s.threadsAt core sector).filter s.ready
  s.pick ready ready ready.length

/-- The gangs that the second decoder may take beside a first one of the given lanes and pipe, ranked on the
same counts as the first (R32, R34). -/
def State.secondGangs (s : State) (core sector : Nat) (lanes : LaneMask) (pipe : Pipe) : List Gang :=
  let ready := ((s.threadsAt core sector).filter s.ready).filter fun t => !lanes.getLsbD t.lane
  s.gangs (fun g => pipesApart pipe (s.gangPipe g)) ready ready ready.length

/-- The lanes of a gang. -/
def Gang.laneMask (g : Gang) : LaneMask := maskOf (g.members.map Prod.snd)

/-- Bring a place's due landing checks up to date. -/
def State.landAll (s : State) (core sector : Nat) : State :=
  s.landChecks (s.threadsAt core sector)

/-- The place has taken its turn in this cycle. -/
def State.serveTurn (s : State) (core sector : Nat) : State :=
  if sector == 4 then s.modCore core fun c => { c with aseServed := true }
  else s.modSector core sector fun x => { x with served := true }

/-- A collective at which arrived lanes wait for lanes that wait at other collectives (R36): the arrived lanes as
a gang, the word and the cohort. -/
def State.mismatchAt (s : State) (core sector : Nat) : Option (Gang × Instr × Nat) :=
  (s.threadsAt core sector).findSome? fun t =>
    match s.offer t with
    | .word i =>
      if i.collective && (s.namedLanes t i).getLsbD t.lane && s.selfReady t i then
        let here := s.arrivedLanes t i
        let away := s.namedLanes t i &&& ~~~here
        let crossed := fun l =>
          let u := { t with lane := l }
          match s.offer u with
          | .word w =>
            ((s.thread? u).map (·.pc)) != ((s.thread? t).map (·.pc)) && w.collective && s.selfReady u w &&
            (s.namedLanes u w).getLsbD l && s.namedLanes u w &&& here != 0
          | _ => false
        if away != 0 && (lanesOf away).all crossed then
          some (⟨t.core, t.slot, t.access, ((s.thread? t).map (·.pc)).getD 0, (lanesOf here).map fun l => (t.cohort, l)⟩,
            i, t.cohort)
        else none
      else none
    | _ => none

/-- Some thread of a place is ready. -/
def State.anyReady (s : State) (core sector : Nat) : Bool := (s.threadsAt core sector).any s.ready

/-- A gang with an overdue thread is counted (R384). -/
def State.countSeed (s : State) (g : Gang) : State :=
  if g.tids.any fun t => ((s.thread? t).map (·.overdue)).getD false then s.count g.core 0x0005 1 else s

/-- A SECTOR CYCLE OPENS: both decoders' gangs are ranked and gathered, and the first one will issue. -/
def State.openTurn (s : State) (core sector : Nat) : State :=
  let s := s.landAll core sector
  let s := match s.mismatchAt core sector with
    | some (g, i, c) => { s with gang := g }.takeMismatch i c
    | none => s
  match s.firstGang core sector with
  | some g =>
    let plan := if sector == 4 then [] else s.secondGangs core sector g.laneMask (s.gangPipe g)
    { s.countSeed g with gang := g, turn := some ⟨core, sector, false, plan⟩ }
  | none => (if sector == 4 || s.anyReady core sector then s else s.count core 0x0006 1).serveTurn core sector

/-- After the first gang has issued, the second decoder takes the highest-ranked of its gangs that still can;
then the cycle's turn is over (R34). -/
def State.nextTurn (s : State) (t : Turn) : State :=
  match t.plan.find? s.gangCan with
  | some g => ({ s with gang := g, turn := some ⟨t.core, t.sector, true, []⟩ }.count t.core 0x0004 1).countSeed g
  | none => { s with turn := none }.serveTurn t.core t.sector

/-- A gang whose fetched line is broken, or whose word does not decode (R70, R75): the word's raw opcode
field stands in the record. -/
def State.fetchFault (s : State) (w : Option (BitVec 80)) : State :=
  match w with
  | none => s.gangPrecise 0x04 0 (codeAddress s.gang.pc) 0
  | some w => s.gangPrecise 0x01 (if w.getLsbD 60 then 0 else (w.extractLsb' 50 10).toNat) 0 0

/-! ### The cycle -/

/-- A pending thread parks: its next word waits on the tag of an access of its own that is held unresolved, or finds
its cohort's log full; after its exit word, where its cohort's log is full (R28, R59, R133). -/
def State.parksAt (s : State) (t : Tid) : Bool :=
  match s.thread? t, s.cohort? t.core t.slot t.access t.cohort with
  | some x, some c =>
    let mine := (c.logOf t.lane).filterMap (·.tag)
    !x.events.isEmpty &&
    if x.exitIssued then c.logFree.isNone && s.unresolved t
    else match s.offer t with
      | .word i => (i.needsLog && c.logFree.isNone) ||
          (match i.ctl? with
            | some w => (Ctl.commits w).any mine.contains
            | none => false)
      | _ => false
  | _, _ => false

/-- A thread that could issue is counted as ready from now on (R35), unless it is pending and issuing; one that R28 parks
is parked. -/
def State.markReady (s : State) (t : Tid) : State :=
  let r := s.ready t && !s.unresolved t
  let p := s.parksAt t
  s.modThread t fun x =>
    if r then { x with since := some (x.since.getD (s.cycle t.core)) }
    else { x with since := none, overdue := false, parked := x.parked || p }

/-- The thread waits on a tag that its word names (R57). -/
def State.tagWait (s : State) (t : Tid) : Bool :=
  match s.offer t, s.thread? t with
  | .word i, some x =>
    match i.ctl? with
    | some c => !x.tagsReady c (s.cycle t.core)
    | none => false
  | _, _ => false

/-- The events of R384 that a sector cycle itself counts; a sector that has had its turn has counted its own cycle
without a ready thread. -/
def State.countCycle (s : State) (core : Nat) (ts : List Tid) : State :=
  let idle := ((List.range 4).filter fun k => !(s.sector core k).served && !s.anyReady core k).length
  let s := (s.count core 0x0001 4).count core 0x0006 idle
  let s := s.count core 0x0007 (ts.filter s.tagWait).length
  s.count core 0x0008 (s.waits.filter fun w =>
    w.2.tid.core == core && match w.2.cause with
      | .barrier .. => true
      | _ => false).length

/-- THE NEXT SECTOR CYCLE of a core: results fall due, sectors may take another turn (R54, R55), and messages
of the cycle that ends may leave (R307). Threads that became
ready in the cycle that ends count from it, the others from the new one (R35).
(DESIGN CHOICE, log 15.) -/
def State.tick (s : State) (core : Nat) : State :=
  let ts := ((s.threads.map Prod.fst).filter fun k => k / 16384 == core).map tidOfKey
  let s := s.countCycle core ts
  let fresh := ts.filter fun t => ((s.thread? t).map fun x => x.since.isNone && x.offers (s.cycle core)).getD false
  let s := fresh.foldl State.markReady s
  let s := s.modCore core fun c => { c with cycle := c.cycle + 1, aseServed := false }
  let s := (List.range 4).foldl (fun s k =>
    if (s.sector core k).served then s.modSector core k fun x => { x with served := false } else s) s
  let now := s.cycle core
  let s := { s with
    threads := FMap.mapV (fun k t => if k / 16384 == core then t.settle now else t) s.threads
    cohorts := FMap.mapV (fun k c => if k / 512 == core then c.settle now else c) s.cohorts }
  (ts.foldl State.markReady s).pump

end Sys2Proof.Machine
end

