-- ==== Sys2Proof/Machine/Scratch.lean ====
section
/-! DEFINITION. Scratch allocation: salloc, sfree, srenew (spec/11_instr_memory.md R270 to R272). -/

namespace Sys2Proof.Machine

/-! ### salloc (R270) -/

/-- The team's reserve for a scope: its first byte in the cluster's memory, and its bytes. -/
def Team.reserve (tm : Team) (quad : Bool) : Nat × Nat :=
  if quad then (tm.resQuad, tm.kern.scratchQuad) else (tm.resCluster, tm.kern.scratchCluster)

/-- A line of the cluster's memory lies in a live allocation of the team. -/
def Team.lineTaken (tm : Team) (line : Nat) : Bool :=
  tm.allocs.any fun a => a.off / 512 ≤ line && line < (a.off + a.bytes) / 512

/-- The lowest run of `n` free lines of a reserve. -/
def Team.freeRun (tm : Team) (quad : Bool) (n : Nat) : Option Nat :=
  let (off, bytes) := tm.reserve quad
  ((List.range (bytes / 512 + 1 - n)).map (off / 512 + ·)).find? fun first =>
    (List.range n).all fun i => !tm.lineTaken (first + i)

/-- The lifetime of salloc.dflt. -/
def Kernel.dfltLife (k : Kernel) (quad : Bool) (n : Nat) : Nat :=
  ((k.decls.find? fun d => d.quad == quad && d.bytes == n).map (·.lifetime)).getD 4095

/-- A line as salloc leaves it. -/
def ScrLine.alloc (l : ScrLine) (life : Nat) : ScrLine :=
  { l with valid := true, lifetime := life, written := false, expired := false, full := 0, barType := 0
           poison := false, scopes := [] }

/-- The scratch-window address of a byte of a cluster's memory (R191, R270). -/
def windowAddress (core : Nat) (quad : Bool) (off : Nat) : DWord :=
  if quad then BitVec.ofNat 64 (0x0100000001000000 + core / 4 % 4 * 2 ^ 23 + off)
  else BitVec.ofNat 64 (0x0100000000000000 + off)

/-- A request that salloc may serve. -/
def Team.mayAlloc (tm : Team) (quad : Bool) (n life : Nat) : Bool :=
  n != 0 && n % 512 == 0 && life != 0 && life ≤ 4095 &&
  (!quad || (tm.kern.groupQuad && 2 ≤ tm.kern.groupSize))

/-- One lane of salloc: the state and the result. -/
def State.alloc (s : State) (t : Tid) (quad : Bool) (n life : Nat) : State × DWord :=
  match s.teamOf t with
  | none => (s, 0)
  | some tm =>
    if !tm.mayAlloc quad n life then (s, 0)
    else match tm.freeRun quad (n / 512) with
      | none => (s, 0)
      | some first =>
        let cl := t.core / 4
        let s := (List.range (n / 512)).foldl (fun s i =>
          let off := (first + i) * 512
          s.setScr cl off ((s.scrLine cl off).alloc life)) s
        (s.modTeam t.core t.slot fun tm => { tm with allocs := tm.allocs ++ [⟨quad, first * 512, n⟩] },
          windowAddress t.core quad (first * 512))

/-- A pair as a tag result. -/
def latePair (x : DWord) : Late := lateRegs [x.extractLsb' 0 32, x.extractLsb' 32 32]

def execSalloc (h : Hd) (quad dflt : Bool) (d a b : VReg) (s : State) : Out :=
  .next (s.valueWord (.salloc h quad dflt d a b) true fun t x s =>
    let n := (x.rv a.toNat).toNat
    let life := if dflt then ((s.teamOf t).map (·.kern.dfltLife quad n)).getD 0 else (x.rv b.toNat).toNat
    let (s, r) := s.alloc t quad n life
    (s, latePair r))

/-! ### sfree (R271) -/

/-- The lines of an allocation are freed; loads that wait on them are retried and so raise scratch-bound
(R287). -/
def State.freeAlloc (s : State) (t : Tid) (a : Alloc) : State :=
  let cl := t.core / 4
  let lines := (List.range (a.bytes / 512)).map fun i => a.off + i * 512
  let s := lines.foldl (fun s off => s.setScr cl off { s.scrLine cl off with valid := false, lifetime := 0 }) s
  let s := s.modTeam t.core t.slot fun tm => { tm with allocs := tm.allocs.filter (· != a) }
  lines.foldl (fun s off => s.serve cl off) s

/-- One lane of sfree. (DEDUCED, log 78.) -/
def laneSfree : LaneStep := fun t ops s =>
  match s.region t ops.a with
  | .bad => .event 0x14 0 ops.a s
  | .translated va => .event 0x17 0 (BitVec.ofNat 64 va) s
  | .scratch cl off _ =>
    match (s.teamOf t).bind fun tm => if cl == t.core / 4 then tm.allocs.find? (·.off == off) else none with
    | none => .event 0x17 0 ops.a s
    | some a =>
      if s.lockedScr cl cl a.off a.bytes false || s.lockedScr cl cl a.off a.bytes true then .event 0x1A 0 ops.a s
      else .ok (s.freeAlloc t a)

def execSfree (h : Hd) (a : VReg) (s : State) : Out :=
  .next (s.laneWord (.sfree h a) (fun _ t => ⟨t.rv64 a.toNat, 0, 0, []⟩) laneSfree)

/-! ### srenew (R272) -/

/-- One line of srenew; the answer says whether it was found stale. -/
def State.renewLine (s : State) (core cl off : Nat) : State × Bool :=
  let l := s.scrLine cl off
  if !l.written || s.lockedScr (core / 4) cl off 512 true then (s, false)
  else if s.stale cl l then (s, true)
  else (s.setScr cl off { l with stamp := s.nowUs, since := s.pkg.clk }, false)

/-- The lines of a range, renewed one by one; whether any was stale. -/
def State.renewLines (s : State) (core cl : Nat) : List Nat → State × Bool
  | [] => (s, false)
  | off :: rest =>
    let (s, x) := s.renewLine core cl off
    let (s, y) := s.renewLines core cl rest
    (s, x || y)

/-- One lane of srenew; a count of 0 is done before any check of the address. (DEDUCED, log 157.) -/
def laneSrenew : LaneStep := fun t ops s =>
  let n := (ops.data.headD 0).toNat
  if n == 0 then .ok s
  else match s.region t ops.a with
  | .bad => .event 0x14 0 ops.a s
  | .translated va => .event 0x17 0 (BitVec.ofNat 64 va) s
  | .scratch cl off _ =>
    if (s.allocOf t.core t.slot cl off n).isNone then .event 0x17 0 ops.a s
    else
      let lines := (List.range ((off + n + 511) / 512 - off / 512)).map fun i => (off / 512 + i) * 512
      let (s, bad) := s.renewLines t.core cl lines
      if bad then .event 0x1B 0 ops.a s else .ok s

def execSrenew (h : Hd) (a b : VReg) (s : State) : Out :=
  .next (s.laneWord (.srenew h a b) (fun _ t => ⟨t.rv64 a.toNat, 0, 0, [t.rv b.toNat]⟩) laneSrenew)

end Sys2Proof.Machine
end

