-- ==== Sys2Proof/Machine/TableInstr.lean ====
section
/-! DEFINITION. The table words tlbinv, pgprobe, kvx, gatectl and winctl, and the words that read time and the
performance counters (spec/14_tables.md R349, R350, R358 to R369, spec/15_counters.md R383 to R385). -/

namespace Sys2Proof.Machine

/-! ### The units of a partition -/

/-- The package clusters of a partition (R17, R354). -/
def State.clustersOf (s : State) (p : Nat) : List Nat :=
  (List.range (4 * (s.partition p).coreMap.length)).filterMap (s.clusterOf p)

/-- The partition of a thread's team. -/
def State.partitionOf (s : State) (t : Tid) : Nat := ((s.teamOf t).map (·.partition)).getD 0

/-- Drop entries from every TLB of a partition. -/
def State.dropTlbs (s : State) (p : Nat) (f : TlbEntry → Bool) : State :=
  (s.clustersOf p).foldl (fun s cl => s.modTlbs cl fun l => l.filter fun e => !f e) s

/-- Drop entries from every walk cache of a partition. -/
def State.dropWalks (s : State) (p : Nat) (f : WalkEntry → Bool) : State :=
  (s.clustersOf p).foldl (fun s cl =>
    if (s.cluster cl).walkCache.any f then
      s.modCluster cl fun k => { k with walkCache := k.walkCache.filter fun e => !f e }
    else s) s

/-! ### tlbinv (R349) -/

/-- The entry covers a byte of `n` pages from page `first` on. -/
def TlbEntry.covers (e : TlbEntry) (vf first n : Nat) : Bool :=
  e.vf == vf && (if e.large then overlaps (e.page / 32 * 32) 32 first n else overlaps e.page 1 first n)

/-- The upper entry stands on the walk of one of `n` pages from page `first` on. -/
def walkCovers (vf first n : Nat) (e : WalkEntry) : Bool :=
  e.1 == vf && overlaps (e.2.2.1 * 2 ^ e.2.1) (2 ^ e.2.1) (first * 65536) (n * 65536)

/-- Code lines of a VF in some pages stay in the instruction caches of a partition, and their next fetch is checked again
(R76, R192). -/
def State.recheck (s : State) (p vf : Nat) (f : Nat → Bool) : State :=
  (s.clustersOf p).foldl (fun s cl => (List.range 4).foldl (fun s k =>
    if (s.core (cl * 4 + k)).icache.isEmpty then s
    else s.modCore (cl * 4 + k) fun c => { c with
      icache := FMap.mapV (fun n l => if l.vf == vf && f (n % 2 ^ 56 / 1024) then { l with comps := [] } else l) c.icache }) s) s

/-- The frame that a leaf names, a gate's through its range. -/
def State.leafFrame (s : State) (vf leaf : Nat) : Option Nat :=
  let p := leafPayload leaf
  match leafKind leaf with
  | 0 | 3 => some p
  | 1 => some (peerBase + p)
  | 4 => (FMap.find? s.pkg.windows (bitsOf p 48 16)).map fun w => w.frames.getD (bitsOf p 0 48 / 65536) 0
  | 5 => (FMap.find? (s.vf vf).gates (bitsOf p 48 16)).bind fun g => s.physOf vf (g.base + bitsOf p 0 48)
  | _ => none

/-- The frames that a TLB entry names. -/
def State.entryFrames (s : State) (e : TlbEntry) : List Nat :=
  if e.large then (List.range 32).filterMap fun i => s.leafFrame e.vf (e.leafFor ((e.page / 32 * 32 + i) * 65536))
  else (s.leafFrame e.vf e.leaf).toList

/-- The frames that the entries of a partition's TLBs name, of those that a test picks out. -/
def State.tlbFrames (s : State) (p : Nat) (f : TlbEntry → Bool) : List Nat :=
  ((s.clustersOf p).flatMap fun cl =>
    (((List.range 4).flatMap fun k => (s.core (cl * 4 + k)).dtlb) ++ (s.cluster cl).tlb2).filter f).flatMap s.entryFrames

/-- The shoot-down of tlbinv takes the VF's lines of the frames that the dropped entries name out of the L1s (R195).
(DEDUCED, log 183.) -/
def State.dropL1 (s : State) (p vf : Nat) (frames : List Nat) : State :=
  if frames.isEmpty then s
  else (s.clustersOf p).foldl (fun s cl => (List.range 4).foldl (fun s k =>
    if (s.core (cl * 4 + k)).l1.isEmpty then s
    else s.modCore (cl * 4 + k) fun c => { c with
      l1 := FMap.drop (fun n l => l.vf == vf && frames.contains (n * 128 / 65536 * 65536)) c.l1 }) s) s

/-- Every translation of a VF leaves the TLBs and walk caches of a partition. -/
def State.dropVf (s : State) (p vf : Nat) : State :=
  ((s.dropTlbs p fun e => e.vf == vf).dropWalks p fun e => e.1 == vf).recheck p vf fun _ => true

/-- The translations of `n` pages leave them. -/
def State.dropPages (s : State) (p vf first n : Nat) : State :=
  ((s.dropTlbs p fun e => e.covers vf first n).dropWalks p (walkCovers vf first n)).recheck p vf fun x =>
    first ≤ x && x < first + n

/-- The shoot-down of tlbinv for all pages of a VF, and for `n` of them. -/
def State.shootVf (s : State) (p vf : Nat) : State :=
  (s.dropL1 p vf (s.tlbFrames p fun e => e.vf == vf)).dropVf p vf

def State.shootPages (s : State) (p vf first n : Nat) : State :=
  (s.dropL1 p vf (s.tlbFrames p fun e => e.covers vf first n)).dropPages p vf first n

/-- One lane of tlbinv: the release, then the drop; every store that used an entry is performed. (DEDUCED, log 44.) -/
def tlbinvLane (form : TlbForm) (t : Tid) (a : DWord) (n : Nat) (s : State) : State :=
  let vf := s.vfOf t
  let p := s.partitionOf t
  let s := (s.releaseSet t.core vf .device false).drain fun f => f.own == vf
  match form with
  | .vf => s.shootVf p vf
  | .page => if a.toNat < 2 ^ 56 then s.shootPages p vf (a.toNat / 65536) 1 else s
  | .range =>
    if 65536 < n then s.shootVf p vf
    else if a.toNat < 2 ^ 56 ∧ 0 < n then s.shootPages p vf (a.toNat / 65536) n
    else s

def execTlbinv (h : Hd) (form : TlbForm) (a b : VReg) (s : State) : Out :=
  .next (s.plainWord (.tlbinv h form a b) true fun t x s => tlbinvLane form t (x.rv64 a.toNat) (x.rv b.toNat).toNat s)

/-! ### pgprobe (R350) -/

/-- The field map of pgprobe: outcome, and the remote region that the walk passed. -/
def probeMap (outcome : Nat) (region : Option Nat) (leafBits : Nat) : Word :=
  BitVec.ofNat 32 (outcome + (match region with | some ns => 16 + ns * 65536 | none => 0) + leafBits * 32)

/-- The payload that pgprobe shows: at user privilege none of local, open and peer leaves. -/
def shownPayload (system : Bool) (leaf : Nat) : DWord :=
  if !system && (leafKind leaf == 0 || leafKind leaf == 1 || leafKind leaf == 3) then 0
  else BitVec.ofNat 64 (leafPayload leaf)

/-- The four registers of a probe. -/
def probeRegs (m : Word) (payload : DWord) : List Word :=
  [m, 0, payload.extractLsb' 0 32, payload.extractLsb' 32 32]

/-- One lane of pgprobe. (DEDUCED, log 45.) -/
def probeLane (t : Tid) (a : DWord) (s : State) : State × Late :=
  match s.teamOf t, s.region t a with
  | some tm, .translated va =>
    match s.translate t.core tm.vf va false with
    | (.leaf e, s) =>
      let leaf := e.leafFor va
      (s, lateRegs (probeRegs (probeMap 1 e.region (bitsOf leaf 5 11)) (shownPayload tm.kern.system leaf)))
    | (.absent r, s) => (s, lateRegs (probeRegs (probeMap 0 r 0) 0))
    | (.invalid r, s) => (s, lateRegs (probeRegs (probeMap 2 r 0) 0))
  | _, _ => (s, lateRegs (probeRegs (probeMap 3 none 0) 0))

def execPgprobe (h : Hd) (d a : VReg) (s : State) : Out :=
  .next (s.valueWord (.pgprobe h d a) true fun t x s => probeLane t (x.rv64 a.toNat) s)

/-! ### kvx (R358 to R362) -/

/-- A sequence table's header (R358). -/
structure SeqHeader where
  array : DWord
  length : Nat
  tokenBytes : Nat
  ring : Bool
  sink : Nat
  window : Nat
  capacity : Nat
  deriving DecidableEq, Repr

/-- A count of tokens or pages, rounded up. -/
def ceilDiv (a b : Nat) : Nat := (a + b - 1) / b

/-- Tokens in a page. -/
def SeqHeader.tpp (x : SeqHeader) : Nat := 65536 / x.tokenBytes

/-- Read a header; none where it breaks R358 or R362. (DEDUCED, log 42.) -/
def seqHeader (b : List Byte) : Option SeqHeader :=
  let tb := if fieldLE b 12 2 == 0 then 65536 else fieldLE b 12 2
  let x : SeqHeader :=
    { array := addressField b 0, length := fieldLE b 8 4, tokenBytes := tb, ring := fieldLE b 14 1 == 1
      sink := fieldLE b 16 4, window := fieldLE b 20 4, capacity := fieldLE b 24 4 }
  if 1 < fieldLE b 14 1 || fieldLE b 15 1 != 0 || fieldLE b 28 36 != 0 then none
  else if !((List.range 13).any fun k => 16 * 2 ^ k == tb) then none
  else if x.ring then (if x.window == 0 then none else some x)
  else if x.capacity < ceilDiv x.length x.tpp then none
  else some x

/-- A kvx result: a 64-bit value and the predicate. -/
def kvxResult (v : DWord) (p : Bool) : Late := ⟨[v.extractLsb' 0 32, v.extractLsb' 32 32], 0, some p⟩

/-- kvx.pages. -/
def SeqHeader.pages (x : SeqHeader) : Nat :=
  if x.ring then min x.length (x.sink + x.window) else ceilDiv x.length x.tpp

/-- kvx.last. -/
def SeqHeader.last (x : SeqHeader) : Nat :=
  if x.ring then (if x.sink < x.length then max x.sink (x.length - x.window) else x.length)
  else if x.length == 0 then 0 else x.length - (ceilDiv x.length x.tpp - 1) * x.tpp

/-- The array entry that a position below the length reads. -/
def SeqHeader.entryOf (x : SeqHeader) (pos : Nat) : Nat :=
  if !x.ring then pos / x.tpp
  else if pos < x.sink then pos
  else x.sink + (pos - x.sink) % x.window

/-- What an array entry gives a position; none where the entry breaks R359 or R362. -/
def SeqHeader.resolve (x : SeqHeader) (pos : Nat) (e : List Byte) : Option Late :=
  let v := fieldLE e 0 8
  if fieldLE e 12 4 != 0 || v % (if x.ring then x.tokenBytes else 65536) != 0 then none
  else if !x.ring then some (kvxResult (BitVec.ofNat 64 (v + pos % x.tpp * x.tokenBytes)) true)
  else if pos < x.sink || fieldLE e 8 4 == (pos - x.sink) / x.window then some (kvxResult (BitVec.ofNat 64 v) true)
  else some (kvxResult 0 false)

/-- One lane of kvx (R361). (DEDUCED, log 43.) -/
def laneKvx (form : KvxForm) : LaneStep := fun t ops s =>
  s.gatherBytes t ops.a 64 64 fun b s =>
    match seqHeader b with
    | none => .event 0x19 0 (s.dataAddress t ops.a) s
    | some x =>
      let pos := ops.b.toNat
      match form with
      | .pages => .done (kvxResult (BitVec.ofNat 64 x.pages) (0 < x.length)) s
      | .last => .done (kvxResult (BitVec.ofNat 64 x.last) (0 < x.length)) s
      | .addr =>
        if x.length ≤ pos then .done (kvxResult 0 false) s
        else
          let at_ := x.array + BitVec.ofNat 64 (16 * x.entryOf pos)
          s.gatherBytes t at_ 16 16 fun e s =>
            match x.resolve pos e with
            | some r => .done r s
            | none => .event 0x19 0 (s.dataAddress t at_) s

def execKvx (h : Hd) (form : KvxForm) (d a b : VReg) (c : PReg) (s : State) : Out :=
  .next (s.laneWord (.kvx h form d a b c)
    (fun _ x => ⟨x.rv64 a.toNat, (x.rv b.toNat).setWidth 64, 0, []⟩) (laneKvx form))

/-! ### gatectl (R365) -/

/-- The leaf that translates a page of a VF now, by a walk of its tables. -/
def State.leafNow (s : State) (vf va : Nat) : Option Nat :=
  match (s.publishWalk vf va 4).walk vf va with
  | .leaf e => some (e.leafFor va)
  | _ => none

/-- Every page of a range has a leaf that passes a test. -/
def State.pagesAll (s : State) (vf base len : Nat) (f : Nat → Bool) : Bool :=
  (List.range (len / 65536)).all fun i =>
    match s.leafNow vf (base + i * 65536) with
    | some e => f e
    | none => false

/-- Range fields of a gate or window descriptor: aligned, not empty, in the translated half. -/
def rangeOk (base len : Nat) : Bool :=
  base % 65536 == 0 && base + len ≤ 2 ^ 56 && len % 65536 == 0 && len != 0

/-- A gate descriptor (R365). -/
def gateOf (b : List Byte) : Option Gate :=
  let g : Gate :=
    { isOpen := true, srcComp := fieldLE b 1 1, userComp := fieldLE b 2 1, rights := fieldLE b 3 1
      base := fieldLE b 16 8, len := fieldLE b 24 4 }
  if fieldLE b 0 1 != 0 || fieldLE b 4 12 != 0 || fieldLE b 28 4 != 0 || !(g.rights == 1 || g.rights == 2) ||
      !rangeOk g.base g.len then none
  else some g

/-- Compartment `c` of a VF is valid (R364). -/
def Vf.compValid (v : Vf) (c : Nat) : Bool := (FMap.getD v.comps c (false, false)).1

/-- The open of a gate, its descriptor read. -/
def State.gateOpen (s : State) (t : Tid) (idx : Nat) (a : DWord) (b : List Byte) : LaneOut :=
  let vf := s.vfOf t
  let v := s.vf vf
  match gateOf b with
  | none => .event 0x19 0 a s
  | some g =>
    if ((FMap.find? v.gates idx).map (·.isOpen)).getD false then .event 0x19 0 a s
    else if g.srcComp == g.userComp || !v.compValid g.srcComp || !v.compValid g.userComp ||
        !s.pagesAll vf g.base g.len (fun e => leafKind e == 0 && leafComp e == g.srcComp) then .event 0x18 0 a s
    else .ok (s.modVf vf fun v => { v with gates := FMap.put v.gates idx g })

/-- The close of a gate: the stores that went through it are performed, it is closed, and its leaves leave the TLBs
(R365, R369). -/
def State.gateClose (s : State) (t : Tid) (idx : Nat) : State :=
  let vf := s.vfOf t
  match FMap.find? (s.vf vf).gates idx with
  | some g =>
    if g.isOpen then
      let s := (s.drain fun f => f.own == vf && f.gate == some idx).modVf vf fun v =>
        { v with gates := FMap.put v.gates idx { g with isOpen := false } }
      (s.dropTlbs (s.partitionOf t) fun e => e.vf == vf && leafKind e.leaf == 5 &&
        bitsOf (leafPayload e.leaf) 48 16 == idx).recheck (s.partitionOf t) vf fun _ => true
    else s
  | none => s

/-- One lane of gatectl; `b` of its operands is the index. (DEDUCED, log 38.) -/
def laneGatectl (close : Bool) : LaneStep := fun t ops s =>
  let idx := ops.b.toNat
  if close then (if 63 < idx then .event 0x19 0 0 s else .ok (s.gateClose t idx))
  else s.gatherBytes t ops.a 32 32 fun b s =>
    let a := s.dataAddress t ops.a
    if 63 < idx then .event 0x19 0 a s else s.gateOpen t idx a b

def execGatectl (h : Hd) (close : Bool) (a b : VReg) (s : State) : Out :=
  .next (s.laneWord (.gatectl h close a b)
    (fun _ x => ⟨x.rv64 a.toNat, (x.rv b.toNat).setWidth 64, 0, []⟩) (laneGatectl close))

/-! ### winctl (R216, R366, R367) -/

/-- The member words of a window descriptor; none where a reserved bit is set. -/
def memberWordsOf (b : List Byte) : Option (List Word) :=
  let ws := (List.range 7).map fun i => fieldLE b (32 + 4 * i) 4
  if ws.any fun w => bitsOf w 10 6 != 0 || bitsOf w 25 6 != 0 then none else some (ws.map (BitVec.ofNat 32))

/-- A window descriptor, its read-only fields apart (R366): member words, base, length, ZeroOnClose. -/
def windowOf (b : List Byte) : Option (List Word × Nat × Nat × Bool) :=
  let base := fieldLE b 24 8
  let len := fieldLE b 20 4
  if fieldLE b 0 12 != 0 || 1 < fieldLE b 16 1 || fieldLE b 60 4 != 0 || !rangeOk base len then none
  else (memberWordsOf b).map fun ms => (ms, base, len, fieldLE b 16 1 == 1)

/-- Why a member is refused (R300, R317): the roster index, free where no entry names it, and the reason.
(DESIGN CHOICE, log 40.) -/
def State.memberFail (s : State) (vf : Nat) (m : Nat × Nat) : Option (Nat × Nat) :=
  if m.1 == ownDevice && m.2 == vf then none
  else
    let mine := (s.vf vf).roster.filter fun e => e.1 != 0xFF && e.2.kind == 1 && e.2.device == m.1 && e.2.peerVf == m.2
    if mine.any fun e => e.2.send && e.2.receive then none
    else match mine with
      | e :: _ => some (e.1, if e.2.send then 3 else 2)
      | [] => some ((Config.freeByte s.draws).toNat, 1)

/-- The state of a window entry; one never opened is closed. -/
def State.windowState (s : State) (idx : Nat) : Nat := ((FMap.find? s.pkg.windows idx).map (·.state)).getD 0

def State.modWindow (s : State) (idx : Nat) (f : Window → Window) : State :=
  s.modPkg fun p => { p with windows := FMap.mod p.windows idx f }

/-- The open of a window, its descriptor read: the re-encryption starts. (DEDUCED, log 39.) -/
def State.windowOpen (s : State) (t : Tid) (idx : Nat) (a : DWord) (b : List Byte) : LaneOut :=
  let vf := s.vfOf t
  match windowOf b with
  | none => .event 0x19 0 a s
  | some (ms, base, len, zero) =>
    if s.windowState idx != 0 then .event 0x19 0 a s
    else if !s.pagesAll vf base len (fun e => leafKind e == 0 && leafPin e) then .event 0x18 0 a s
    else match (membersIn ms).findSome? (s.memberFail vf) with
      | some (i, why) => .event 0x1C (BitVec.ofNat 64 (why * 256 + i)) a { s with draws := s.draws + 1 }
      | none =>
        let old := ((FMap.find? s.pkg.windows idx).map (·.keyGen)).getD 0
        let frames := (List.range (len / 65536)).map fun i =>
          ((s.leafNow vf (base + i * 65536)).map leafPayload).getD 0
        let w : Window :=
          { memberWords := ms, base := base, len := len, frames := frames, ownerVf := vf, state := 1
            zeroOnClose := zero, keyGen := old + 1, closeNext := false }
        .wait (.window idx) false
          ((s.modPkg fun p => { p with windows := FMap.put p.windows idx w }).emit (.windowRekeyComplete idx))

/-- The VFs of this device that may hold a window's leaves. -/
def State.windowVfs (_s : State) (w : Window) : List Nat :=
  (w.ownerVf :: (w.members.filter fun m => m.1 == ownDevice).map Prod.snd).eraseDups

/-- Their partitions. -/
def State.windowPartitions (s : State) (w : Window) : List Nat := ((s.windowVfs w).filterMap s.partOf).eraseDups

/-- The close of a window begins: accesses in flight complete, its leaves leave the TLBs, and the re-key or
zeroing starts. -/
def State.windowClosing (s : State) (idx : Nat) : State :=
  match FMap.find? s.pkg.windows idx with
  | none => s
  | some w =>
    let s := s.drain fun f => w.frames.contains (f.phys / 65536 * 65536)
    let s := (s.windowPartitions w).foldl (fun s p => s.dropTlbs p fun e =>
      leafKind e.leaf == 4 && bitsOf (leafPayload e.leaf) 48 16 == idx) s
    let s := (s.windowVfs w).foldl (fun s v => s.recheck ((s.partOf v).getD 0) v fun _ => true) s
    (s.modWindow idx fun w => { w with state := 3, closeNext := false }).emit (.windowRekeyComplete idx)

/-- One lane of winctl; `b` of its operands is the index. -/
def laneWinctl (close : Bool) : LaneStep := fun t ops s =>
  let idx := ops.b.toNat
  if close then
    if 1023 < idx then .event 0x19 0 0 s
    else if s.windowState idx == 0 then .ok s
    else if s.windowState idx == 1 then
      .wait (.window idx) false (s.modWindow idx fun w => { w with closeNext := true })
    else if s.windowState idx == 2 then .wait (.window idx) false (s.windowClosing idx)
    else .wait (.window idx) false s
  else s.gatherBytes t ops.a 64 64 fun b s =>
    let a := s.dataAddress t ops.a
    if 1023 < idx then .event 0x19 0 a s else s.windowOpen t idx a b

def execWinctl (h : Hd) (close : Bool) (a b : VReg) (s : State) : Out :=
  .next (s.laneWord (.winctl h close a b)
    (fun _ x => ⟨x.rv64 a.toNat, (x.rv b.toNat).setWidth 64, 0, []⟩) (laneWinctl close))

/-! ### Time and performance counters (R383, R385) -/

def execRdclk (h : Hd) (us : Bool) (d : VReg) (s : State) : Out :=
  .next (s.valueWord (.rdclk h us d) true fun _ _ s' =>
    (s', lateRegs (if us then [BitVec.ofNat 32 s.nowUs] else [s.clk.extractLsb' 0 32, s.clk.extractLsb' 32 32])))

/-- Counter `n` of a core, as rdperf sees it: one whose select is written in this cycle still shows the count
before the write. -/
def State.perfSeen (s : State) (core n : Nat) : Nat :=
  match FMap.find? (s.core core).perfOld n with
  | some (c, v) => if c == s.cycle core then v else FMap.getD (s.core core).perf n 0
  | none => FMap.getD (s.core core).perf n 0

def execRdperf (h : Hd) (d : VReg) (n : BitVec 3) (s : State) : Out :=
  .next (s.valueWord (.rdperf h d n) true fun t _ s' =>
    let x := BitVec.ofNat 64 (s.perfSeen t.core n.toNat)
    (s', lateRegs [x.extractLsb' 0 32, x.extractLsb' 32 32]))

end Sys2Proof.Machine
end

