-- ==== Sys2Proof/Machine/Csr.lean ====
section
/-! DEFINITION. The control/status registers: csrr and csrw (spec/05_registers.md R101 to R110,
spec/18_platform.md R404). -/

namespace Sys2Proof.Machine

/-- The physical cluster of a logical one, within its die (R18). -/
def State.physicalCluster (s : State) (c : Nat) : Nat := FMap.getD s.pkg.clusterRemap c (c % 32)

/-- The island of a core (R19, R404). -/
def State.islandOf (s : State) (core : Nat) : Nat :=
  3 * (core / 128) + (if s.physicalCluster (core / 4) ≤ 16 then 0 else 1)

/-- An island's counters and clock. -/
def State.island (s : State) (i : Nat) : Island := FMap.getD s.pkg.islands i Island.reset

/-- FREQ (R105). -/
def State.freqWord (s : State) (core : Nat) : Word :=
  BitVec.ofNat 32 (s.islandOf core % 32 * 2 ^ 27 + (s.island (s.islandOf core)).mhz % 65536)

/-- TEAMSTAT (R103). -/
def Team.statWord (t : Team) : Word :=
  BitVec.ofNat 32 ((if t.kern.system then 128 else 0) + (if t.relaunchable then 64 else 0) +
    t.relaunches % 4 * 16 + t.kern.compartment % 4)

/-- VFCFG (R106). -/
def State.vfcfgWord (s : State) (vf : Nat) : Word :=
  let v := s.vf vf
  let p := v.partition.getD 0
  let part := s.partition p
  BitVec.ofNat 32 (part.eccMode % 4 * 2 ^ 30 + (if part.isProtected then 2 ^ 29 else 0) +
    ((v.comps.filter fun c => c.2.1).length - 1) % 4 * 2 ^ 24 + p % 64 * 2 ^ 9 + vf % 512)

/-- A 32-bit register of R101 as a thread reads it. -/
def State.csrWord (s : State) (t : Tid) (x : Thread) (n : Nat) : Word :=
  match n with
  | 0x000 => fstatWord x.fstat
  | 0x008 => match s.teamOf t with
    | some tm => tm.statWord
    | none => 0
  | 0x010 => BitVec.ofNat 32 (s.cluster (t.core / 4)).retn
  | 0x011 => (s.cluster (t.core / 4)).tj.setWidth 32
  | 0x018 => s.freqWord t.core
  | 0x030 => s.vfcfgWord (s.vfOf t)
  | n => FMap.getD (s.core t.core).perfSel (n - 0x020) 0

/-- csrr (R108): sampled at issue, after the word's commits. -/
def execCsrr (h : Hd) (d : VReg) (n : BitVec 10) (s : State) : Out :=
  .next (s.valueWord (.csrr h d n) true fun t x s' =>
    (s', lateRegs (if n == 0x40#10 then [s.clk.extractLsb' 0 32, s.clk.extractLsb' 32 32]
      else [s'.csrWord t x n.toNat])))

/-- How M combines the source with the register (R109). -/
def csrCombine {w : Nat} (m : CsrwMode) (old src : BitVec w) : BitVec w :=
  match m with
  | .write => src
  | .set => old ||| src
  | .clr => old &&& ~~~src

/-- A write of FSTAT: flags that become visible in this cycle survive it (R110). (DEDUCED, log 48.) -/
def Thread.writeFstat (t : Thread) (m : CsrwMode) (src : Word) : Thread :=
  { t with fstat := csrCombine m t.fstat (src.extractLsb' 0 6) ||| t.fresh }

/-- The fields of PERFSELn (R105). -/
def perfSelMask : Word := 0x8000FFFF#32

/-- A write of PERFSELn takes effect in the cycle of issue: counter n is zeroed; an rdperf of the same cycle still
sees the count before (R384). (DEDUCED, log 47.) (DESIGN CHOICE, log 163.) -/
def State.writePerfSel (s : State) (core n : Nat) (m : CsrwMode) (src : Word) : State :=
  s.modCore core fun c =>
    let old := FMap.getD c.perfSel n 0
    let before := match FMap.find? c.perfOld n with
      | some (cy, v) => if cy == c.cycle then v else FMap.getD c.perf n 0
      | none => FMap.getD c.perf n 0
    { c with perfSel := FMap.set c.perfSel n (csrCombine m old src &&& perfSelMask) 0
             perf := FMap.del c.perf n
             perfOld := FMap.put c.perfOld n (c.cycle, before) }

/-- One thread's csrw: FSTAT for its own flags, PERFSELn at system privilege; every other register has
read-only fields. (DEDUCED, log 46.) -/
def State.writeCsr (s : State) (t : Tid) (m : CsrwMode) (n : Nat) (src : Word) : State :=
  if n == 0 then s.modThread t (·.writeFstat m src)
  else if 0x20 ≤ n && n ≤ 0x27 && ((s.teamOf t).map (·.kern.system)).getD false then
    s.writePerfSel t.core (n - 0x20) m src
  else s

def execCsrw (h : Hd) (m : CsrwMode) (n : BitVec 10) (a : VReg) (s : State) : Out :=
  .next (s.plainWord (.csrw h m n a) true fun t x s' => s'.writeCsr t m n.toNat (x.rv a.toNat))

end Sys2Proof.Machine
end

