-- ==== Sys2Proof/Machine/StateCells.lean ====
section
/-! DEFINITION. The contents of the state items whose bytes the spec does not lay out, as cells of 8 bytes in an order
of the model's own (spec/18_platform.md R410 to R412). -/

namespace Sys2Proof.Machine

/-- A cell: its value, and whether it is plaintext contents of a VF (R412). -/
abbrev StateCell := Nat × Bool

/-- Cells of fields, and of plaintext. -/
def fields (ns : List Nat) : List StateCell := ns.map fun n => (n, false)
def secrets (ns : List Nat) : List StateCell := ns.map fun n => (n, true)

def flagNat (b : Bool) : Nat := if b then 1 else 0

/-- A number that may be absent. -/
def optNats (o : Option Nat) : List Nat :=
  match o with
  | some n => [1, n]
  | none => [0, 0]

def wordNats (ws : List Word) : List Nat := ws.map BitVec.toNat
def byteNats (bs : List Byte) : List Nat := bs.map BitVec.toNat

/-! ### Sectors -/

/-- The threads of a place, as it holds them. -/
def State.placeThreads (s : State) (core sector : Nat) : List (Tid × Thread) :=
  (s.threadsAt core sector).filterMap fun t => (s.thread? t).map fun x => (t, x)

/-- The cohorts of a place. -/
def State.placeCohorts (s : State) (core sector : Nat) : List Cohort :=
  (((s.threadsAt core sector).map fun t => cohortKey core t.slot t.access t.cohort).eraseDups).filterMap (FMap.find? s.cohorts)

/-- The v registers of a thread (R93). -/
def Thread.vCells (x : Thread) : List StateCell := secrets ((List.range 1024).map fun r => (x.rv r).toNat)

/-- Its predicates (R94). -/
def Thread.pCells (x : Thread) : List StateCell := secrets ((List.range 63).map fun q => flagNat (x.rp q))

/-- A result that has not been committed. -/
def Late.cells (r : Late) : List StateCell :=
  secrets (r.flags.toNat :: optNats (r.pred.map flagNat) ++ wordNats r.regs)

/-- A completion tag: state, destinations, buffer (R95). -/
def Tag.cells (g : Tag) : List StateCell :=
  fields (g.dests ++ optNats g.pdest ++ [g.op, flagNat g.acquire]) ++
  match g.stage with
  | .waiting => fields [1]
  | .performed r => fields [1] ++ r.cells
  | .arrived _ r => fields [2] ++ r.cells

def Thread.tagCells (x : Thread) : List StateCell :=
  (List.range 12).flatMap fun n =>
    match FMap.find? x.tags n with
    | some g => g.cells
    | none => fields [0]

/-- The state of R28 that a thread is in: 0 ready, 1 waiting, 2 pending, 3 parked, 4 exited. -/
def State.threadState (s : State) (t : Tid) (x : Thread) : Nat :=
  if x.exited then 4
  else if x.parked then 3
  else if s.unresolved t then 2
  else if s.ready t then 0
  else 1

/-- Its issue state: PC, what is left of its PD count, its state and whether its own word holds it, the call-stack pointer,
a due landing check (R28, R96, R131, R132). -/
def State.issueCells (s : State) (t : Tid) (x : Thread) : List StateCell :=
  fields ([x.pc, if x.pdRun then x.readyAt - s.cycle t.core else 0, s.threadState t x, flagNat (s.isHeld t), flagNat x.exitIssued,
    flagNat x.overdue, x.sp] ++ (match x.landing with | some (w, op) => [1, w, op] | none => [0, 0, 0]))

/-- The m registers of a cohort (R98). -/
def Cohort.mCells (c : Cohort) : List StateCell := secrets ((List.range 12).map fun r => (c.rm r).toNat)

/-- The captured operands of a lane. -/
def LaneOps.cells (o : LaneOps) : List StateCell := secrets ([o.a.toNat, o.b.toNat, o.c.toNat] ++ wordNats o.data)

/-- The operand log of a cohort (R260). -/
def Cohort.logCells (c : Cohort) : List StateCell :=
  c.log.flatMap fun e =>
    fields ([e.1, e.2.instr.opcode, e.2.pc, e.2.unfinished.toNat, e.2.own.toNat] ++ optNats e.2.tag) ++
    e.2.ops.flatMap fun o => fields [o.1] ++ o.2.cells

/-- The A latches of a cohort (R180). -/
def Cohort.latchCells (c : Cohort) : List StateCell :=
  c.latch.flatMap fun e => fields [e.1, e.2.aField] ++ secrets (wordNats e.2.row)

/-- An accumulator tile with its checksums (R99, R184). -/
def TileState.cells (t : TileState) : List StateCell :=
  secrets (wordNats (t.rows.flatten ++ t.rho ++ t.kappa ++ t.sigma ++ t.sigmac))

/-- The items of a sector (R411). -/
def State.sectorCells (s : State) (inst item : Nat) : List StateCell :=
  let (core, sector) := (inst / 4, inst % 4)
  let ts := s.placeThreads core sector
  let xs := ts.map Prod.snd
  let cs := s.placeCohorts core sector
  match item with
  | 1 => xs.flatMap Thread.vCells
  | 2 => xs.flatMap Thread.pCells
  | 3 => xs.flatMap Thread.tagCells
  | 4 => ts.flatMap fun x => s.issueCells x.1 x.2
  | 5 => fields (cs.map (·.urgency))
  | 6 => cs.flatMap Cohort.mCells
  | 7 => cs.flatMap Cohort.logCells
  | 8 => cs.flatMap Cohort.latchCells
  | 9 => (List.range 16).flatMap fun n => (FMap.getD (s.sector core sector).tiles n .zero).cells
  | 10 => secrets (xs.map fun x => x.fstat.toNat)
  | 11 => fields ((s.sector core sector).abft.toNat :: (s.sector core sector).abftLog.map BitVec.toNat)
  | _ => []

/-! ### Cores -/

/-- The state word of a slot-table entry, and the bind record last written to it (R295). -/
def Slot.image (x : Slot) : List Byte :=
  let code := match x.state with
    | .free => 0
    | .binding => 1
    | .resident => 2
    | .draining => 3
  bytesLE 4 (code + if x.queued.isSome then 4 else 0) ++ (List.range 64).map fun i => x.record.getD i 0

/-- A TLB entry (R348). -/
def TlbEntry.cells (e : TlbEntry) : List StateCell :=
  fields [e.vf, e.page, flagNat e.large, e.leaf % 2 ^ 64, e.leaf / 2 ^ 64]

/-- The operand queues of a cohort (R311). -/
def Cohort.queueCells (c : Cohort) : List StateCell :=
  c.queues.flatMap fun q =>
    fields [q.1, q.2.first] ++ secrets (wordNats q.2.rows.flatten) ++ fields (q.2.next.map Prod.snd)

/-- The items of a core (R411). -/
def State.coreCells (s : State) (inst item : Nat) : List StateCell :=
  let c := s.core inst
  match item with
  | 2 => c.l1.flatMap fun e => fields [e.1, e.2.vf]
  | 3 => (c.dtlb ++ c.itlb).flatMap TlbEntry.cells
  | 4 => c.icache.flatMap fun e => fields [e.1, flagNat e.2.intact]
  | 5 => fields ((List.range 8).flatMap fun n => [FMap.getD c.perf n 0, (FMap.getD c.perfSel n 0).toNat])
  | 7 =>
    let cs := s.placeCohorts inst 4
    (s.placeThreads inst 4).flatMap (fun x => x.2.vCells ++ x.2.pCells ++ x.2.tagCells ++ s.issueCells x.1 x.2) ++
    cs.flatMap (fun k => fields [k.urgency] ++ k.mCells ++ k.logCells) ++
    (List.range 4).flatMap fun k => (s.placeCohorts inst k).flatMap Cohort.queueCells
  | 8 => (List.range 8).flatMap fun k =>
      match s.team? inst k with
      | some tm => secrets ((List.range 128).map fun r => (FMap.getD tm.k r 0).toNat)
      | none => []
  | _ => []

/-! ### Clusters -/

/-- A copy command: its slot, descriptor, completed boxes, and those in flight with their written pieces (R277, R285). -/
def TceCmd.cells (c : TceCmd) : List StateCell :=
  fields ([c.slot, tidKey c.tid, c.tag, c.kind, c.descAddr, flagNat c.accepted] ++ optNats c.barrier ++ byteNats c.desc ++
    byteNats c.header ++ c.done ++ c.boxes.flatMap fun b => b.box :: b.written)

/-- The requests that wait at a FIFO of a cluster (R314). -/
def State.fifoRequests (s : State) (cl n : Nat) : List (Nat × Wait) :=
  s.waits.filter fun e => match e.2.cause with
    | .fifo k m _ => k == cl && m == n
    | _ => false

/-- The items of a cluster (R411). -/
def State.clusterCells (s : State) (inst item : Nat) : List StateCell :=
  let k := s.cluster inst
  match item with
  | 4 => (s.cc.filter fun e => ccCluster e.1 == inst).flatMap fun e =>
      fields [ccBase e.1, e.2.vf, e.2.compartment, e.2.stamp] ++
      fields ((List.range 8).map fun i => (e.2.dirty.extractLsb' (64 * i) 64).toNat)
  | 5 => k.tlb2.flatMap TlbEntry.cells ++ k.walkCache.flatMap fun e =>
      fields ([e.1, e.2.1, e.2.2.1, e.2.2.2.1] ++ optNats e.2.2.2.2)
  | 7 => k.tce.flatMap fun e => fields [e.1] ++ e.2.cells
  | 8 => k.fifos.flatMap fun e =>
      fields [e.1, e.2.vf, e.2.bank] ++ e.2.entries.flatMap (fun x => secrets (wordNats x.data) ++ fields [x.stamp % 65536]) ++
      (s.fifoRequests inst e.1).flatMap fun w => fields [tidKey w.2.tid] ++ w.2.ops.cells
  | 9 => fields [k.retn, k.tj.toNat, (s.island (s.islandOf (4 * inst))).guardBand]
  | 10 => fields [k.correctable.toNat, k.retentionLoss.toNat, k.barEvents.toNat]
  | _ => []

/-! ### Memory slices and hub dies -/

/-- A writer record (R234). -/
def Writer.cells (w : Writer) : List StateCell := fields [w.core, w.slot, w.vf, scopeRank w.scope]

/-- The items of a memory slice (R411). -/
def State.sliceCells (s : State) (inst item : Nat) : List StateCell :=
  let x := FMap.getD s.slices inst Slice.reset
  match item with
  | 1 => (s.l2.filter fun e => sliceOf e.1 == inst).flatMap fun e =>
      fields [e.1, e.2.vf, e.2.compartment, flagNat e.2.dirty, e.2.way, flagNat (s.poisonedLine e.1)] ++
      ((FMap.find? s.writers e.1).map Writer.cells).getD []
  | 2 => (s.tableRecords inst).flatMap fun e => fields [e.1] ++ e.2.cells
  | 3 => fields x.treeTags
  | 4 => fields [x.eccCorrected, x.macFailures]
  | 5 => s.teams.flatMap fun t => (t.2.storeBuf.filter fun b => sliceOf (b.phys / 64) == inst).flatMap fun b =>
      fields [tidKey b.tid, b.phys] ++ secrets (byteNats b.bytes)
  | _ => []

/-- A service-table entry (R325). -/
def Service.cells (e : Service) : List StateCell :=
  fields ([e.vf, e.key.toNat, e.partition, e.step, e.claimed, flagNat e.prefetch, flagNat e.retried, e.source, e.lastSent] ++
    optNats e.frame ++ e.waiters)

/-- The items of a hub die whose bytes are not laid out (R411). -/
def State.hubCells (s : State) (inst item : Nat) : List StateCell :=
  match item with
  | 2 => (s.hub inst).service.flatMap Service.cells
  | 5 => s.contextPairs.flatMap fun p => fields [p.1, p.2.1, p.2.2.1, p.2.2.2.1, p.2.2.2.2]
  | 6 => (s.hub inst).serdes.flatMap fun e => fields [e.1, e.2.1.toNat, e.2.2.toNat]
  | 8 => if inst == 0 then fields [s.pkg.hostHead, s.pkg.hostTail] else []
  | _ => []

/-! ### Partitions, VFs, package -/

/-- The items of a partition whose bytes are not laid out (R411). -/
def State.partitionCells (s : State) (inst item : Nat) : List StateCell :=
  let x := s.partition inst
  match item with
  | 1 => fields ([flagNat x.defined, x.homeHub, flagNat x.isProtected, x.eccMode, x.ways.toNat] ++ x.slices ++ x.netQueues)
  | 3 => fields (x.pointer :: x.mapping.flatMap fun e => [e.1, e.2])
  | 4 => fields ([x.preempt.step, x.preempt.vf, flagNat x.preempt.halt] ++ x.preempt.acks.flatMap fun e => [e.1, e.2])
  | _ => []

/-- A launch-queue entry (R290). -/
def LaunchEntry.cells (e : LaunchEntry) : List StateCell :=
  fields ([e.handle, e.shape.1, e.shape.2.1, e.shape.2.2, e.doneSem, e.waitSem, e.waitCount, e.grid, e.depth, e.next] ++
    optNats e.parent ++ byteNats e.args)

/-- The items of a VF whose bytes are not laid out (R411). -/
def State.vfCells (s : State) (inst item : Nat) : List StateCell :=
  let v := s.vf inst
  match item with
  | 1 => fields ([(s.vfcfgWord inst).toNat, v.wayMask.toNat, flagNat v.debugGrant] ++ optNats v.partition)
  | 8 => v.ports.flatMap fun e => fields [e.1, flagNat e.2.enabled, e.2.queue, e.2.discarded]
  | 9 => v.queues.flatMap fun e => fields [e.1, flagNat e.2.enabled, e.2.priority] ++ e.2.entries.flatMap LaunchEntry.cells
  | 12 => v.grids.flatMap fun e => fields ([e.1, e.2.depth, e.2.left, flagNat e.2.retired, flagNat e.2.killed, e.2.queue] ++
      optNats e.2.parent)
  | _ => []

/-- The items of the package whose bytes are not laid out (R411). -/
def State.packageCells (s : State) (cls item : Nat) : List StateCell :=
  match cls, item with
  | 0x08, 1 => (List.range 32).flatMap fun i =>
      let x := s.island i
      fields [x.grant.toNat, x.drawn.toNat, x.energy.toNat, x.limited.toNat]
  | 0x08, 2 => fields [s.pkg.budget - 60 * (s.pkg.inlet - 40), s.pkg.inlet]
  | _, _ => []

/-- The cells of an item. -/
def State.cells (s : State) (cls inst item : Nat) : List StateCell :=
  match cls with
  | 0x01 => s.sectorCells inst item
  | 0x02 => s.coreCells inst item
  | 0x03 => s.clusterCells inst item
  | 0x04 => s.sliceCells inst item
  | 0x05 => s.hubCells inst item
  | 0x06 => s.partitionCells inst item
  | 0x07 => s.vfCells inst item
  | _ => s.packageCells cls item

end Sys2Proof.Machine
end

