-- ==== Sys2Proof/Machine/StateRead.lean ====
section
/-! DEFINITION. State addresses, and what state read answers: the directory of each class, the items whose
bytes the spec lays out, and of the others their contents in cells of free places (spec/18_platform.md R410 to
R413). -/

namespace Sys2Proof.Machine

/-- A state address (R410). -/
structure StateAddr where
  cls : Nat
  inst : Nat
  off : Nat
  deriving DecidableEq, Repr

def stateAddr (a : DWord) : StateAddr := ⟨bitsOf a.toNat 56 8, bitsOf a.toNat 40 16, bitsOf a.toNat 0 40⟩

/-- Items that R411 lists for a class; an unused class has none. -/
def itemCount (cls : Nat) : Nat :=
  match cls with
  | 0x01 => 11 | 0x02 => 8 | 0x03 => 10 | 0x04 => 5 | 0x05 => 8
  | 0x06 => 4 | 0x07 => 13 | 0x08 => 2 | 0x09 => 3 | 0x0A => 3
  | _ => 0

/-- The unit holds an item of its class: the pointers of the host fault queue are on hub die 0 alone (R411). -/
def itemThere (cls inst item : Nat) : Bool := 1 ≤ item && item ≤ itemCount cls && (cls != 0x05 || item != 8 || inst == 0)

/-- Entry `n` of the directory of a unit: item code, length, offset (R410). -/
def directoryEntry (cls inst n : Nat) : List Byte :=
  bytesLE 4 (if itemThere cls inst (n + 1) then cls * 2 ^ 24 + n + 1 else 0) ++
  bytesLE 4 (if itemThere cls inst (n + 1) then Config.itemLength cls (n + 1) else 0) ++
  bytesLE 8 (if itemThere cls inst (n + 1) then Config.itemOffset cls (n + 1) else 0)

/-! ### Images of tables -/

/-- Byte `o` of a table of entries of `n` bytes. -/
def tableByte (n : Nat) (f : Nat → List Byte) (o : Nat) : Byte := (f (o / n)).getD (o % n) 0

/-- A scratch line's record (R199). -/
def ScrLine.record (l : ScrLine) : List Byte :=
  bytesLE 4 0 ++
  bytesLE 4 ((if l.valid then 1 else 0) + (if l.poison then 2 else 0) + (if l.expired then 4 else 0) +
    (if l.written then 8 else 0) + l.lifetime % 4096 * 16 + l.stamp % 65536 * 65536) ++
  bytesLE 4 l.full.toNat ++ bytesLE 4 l.barType.toNat

/-- A bank-mode byte (R197). -/
def BankMode.byte (b : BankMode) : Byte := BitVec.ofNat 8 (b.mode % 4 * 64 + if b.switching then 32 else 0)

/-- A range-lock entry (R355). -/
def RangeLock.image (l : RangeLock) : List Byte :=
  bytesLE 8 l.base ++ bytesLE 4 (l.len % 2 ^ 31 + l.vf / 256 % 2 * 2 ^ 31) ++ bytesLE 1 (l.vf % 256) ++
  bytesLE 1 (1 + (if l.dest then 2 else 0) + (if l.scratch then 4 else 0)) ++ bytesLE 2 l.slot

/-- A gate entry (R365). -/
def Gate.image (g : Gate) : List Byte :=
  bytesLE 1 (if g.isOpen then 1 else 0) ++ bytesLE 1 g.srcComp ++ bytesLE 1 g.userComp ++ bytesLE 1 g.rights ++
  bytesLE 12 0 ++ bytesLE 8 g.base ++ bytesLE 4 g.len ++ bytesLE 4 0

/-- A window entry (R366). -/
def Window.image (w : Window) : List Byte :=
  bytesLE 12 0 ++ bytesLE 4 w.keyGen.toNat ++ bytesLE 1 (if w.zeroOnClose then 1 else 0) ++ bytesLE 1 w.state ++
  bytesLE 2 w.ownerVf ++ bytesLE 4 w.len ++ bytesLE 8 w.base ++
  (List.range 7).flatMap (fun i => bytesLE 4 (w.memberWords.getD i 0).toNat) ++ bytesLE 4 0

/-- A roster entry (R300). -/
def Roster.image (r : Roster) : List Byte :=
  bytesLE 1 ((if r.receive then 1 else 0) + (if r.send then 2 else 0)) ++ bytesLE 1 r.kind ++ bytesLE 1 r.peerPartition ++
  bytesLE 1 0 ++ bytesLE 2 r.device ++ bytesLE 2 r.peerVf ++ bytesLE 6 r.node ++ bytesLE 2 0

/-- A trigger entry (R356). -/
def Trigger.image (t : Trigger) : List Byte :=
  t.head ++ t.args ++ bytesLE 8 t.barrier.toNat ++ bytesLE 8 t.landBase.toNat ++ bytesLE 4 0 ++ bytesLE 4 t.landLen ++
  bytesLE 1 ((if t.enabled then 1 else 0) + (if t.oneShot then 2 else 0)) ++ bytesLE 1 t.queue ++ bytesLE 2 0 ++
  bytesLE 4 t.fireCount.toNat ++ bytesLE 48 0

/-- An arrival-log entry (R339). -/
def Arrival.image (a : Arrival) : List Byte :=
  bytesLE 1 a.kind ++ bytesLE 3 0 ++ bytesLE 4 a.seq ++ bytesLE 3 0 ++ bytesLE 1 a.source ++ bytesLE 4 a.count ++
  bytesLE 8 a.barrier.toNat ++ bytesLE 8 a.time.toNat

/-- The address-space record (R342). -/
def Vf.spaceImage (v : Vf) : List Byte :=
  bytesLE 8 v.root ++ bytesLE 16 0 ++ bytesLE 8 v.privBase ++ bytesLE 8 v.handleBase ++ bytesLE 8 v.saveArea ++ bytesLE 16 0

/-- An Almanac record (R400). -/
def AlmRecord.image (r : AlmRecord) : List Byte :=
  bytesLE 1 r.outcome ++ bytesLE 1 0 ++ bytesLE 1 r.starts ++ bytesLE 1 r.attempts ++ bytesLE 2 r.inst ++ bytesLE 2 r.step

/-- A Hallmark log entry with its number (R416). -/
def HallEntry.image (e : HallEntry) (seq : Nat) : List Byte :=
  bytesLE 1 e.index ++ bytesLE 1 0 ++ bytesLE 2 e.type ++ bytesLE 4 seq ++ bytesLE 8 e.time.toNat ++ e.digest

/-- A certificate slot's header (R368). -/
def CertSlot.image (c : CertSlot) : List Byte :=
  bytesLE 1 (if c.valid then 1 else 0) ++ bytesLE 1 c.keyPair ++ bytesLE 4 c.generation.toNat ++
  bytesLE 4 c.chain.length ++ sha384 c.chain ++ bytesLE 6 0

/-- A directory entry (R352); one with a reserved bit set is shown with bit 0 of byte 0. -/
def DirEntry.image (d : DirEntry) : List Byte :=
  bytesLE 1 (if d.reserved then 1 else 0) ++ bytesLE 1 d.locKind ++ bytesLE 1 d.mode ++ bytesLE 1 d.state ++ bytesLE 18 0 ++
  (List.range 3).flatMap (fun i => bytesLE 2 (d.replicas.getD i 0xFFFF)) ++ bytesLE 2 d.sharers ++ bytesLE 2 d.ownerVf ++
  bytesLE 2 d.owner ++ bytesLE 2 d.node ++ bytesLE 4 d.version.toNat ++ bytesLE 8 d.twin.toNat ++
  bytesLE 8 d.object.toNat ++ bytesLE 8 d.key.toNat

/-- A node-table entry (R351). -/
def nodeImage (e : Nat × Nat) : List Byte := bytesLE 6 e.1 ++ bytesLE 1 e.2 ++ bytesLE 1 1

/-- One leaf of the counter tree as a slice's read port gives it: the major counter, and 64 minors of 7 bits (R387). -/
def TreeLeaf.image (t : TreeLeaf) : List Byte :=
  bytesLE 8 t.major ++ bytesLE 56 ((List.range 64).foldl (fun n i => n + FMap.getD t.minors i 0 % 128 * 2 ^ (7 * i)) 0)

/-- Where level `l` of the upper nodes of a slice begins among the bytes of its read port: after the leaves, and after the
levels below it (R212, R387). (DESIGN CHOICE, log 153.) -/
def upperBase (l : Nat) : Nat := 2 ^ 27 + ((List.range (l - 1)).map fun k => 64 * (2 ^ 21 / 8 ^ (k + 1))).foldl (· + ·) 0

/-- The 64 stored bytes of an upper node of level `l`, the `i`-th of a slice: 8 counters of 56 bits, and its MAC, whose value
no model gives (R212, R387). -/
def State.upperNode (s : State) (slice l i : Nat) : List Byte :=
  (List.range 8).flatMap (fun c => bytesLE 7 (FMap.getD s.treeUp ((l - 1) * 2 ^ 32 + slice * (2 ^ 21 / 8 ^ (l - 1)) + 8 * i + c) 0)) ++
  (List.range 8).map fun k => Config.freeByte (s.draws + 16 * i + k)

/-- Byte `o` of a slice's read port: its leaves, then its upper nodes level by level; none beyond them (R387). -/
def State.portByte (s : State) (slice o : Nat) : Option Byte :=
  if o < 2 ^ 27 then some (tableByte 64 (fun i => (FMap.getD s.tree (slice * 2 ^ 21 + i) .zero).image) o)
  else ((List.range 6).map (· + 1)).findSome? fun l =>
    if upperBase l ≤ o && o < upperBase (l + 1) then some (tableByte 64 (s.upperNode slice l) (o - upperBase l)) else none

/-- An entry of the pre-emption granularity table: the engine code and the deadline (R336). The code of a stop unit is
given nowhere, and a deadline of a number of cycles has no whole number of ns. -/
def granularityImage (code deadline : Nat) (free : Nat → Byte) : List Byte :=
  bytesLE 2 0 ++ bytesLE 1 code ++ [free 3] ++
  (if code ≤ 2 then [free 4, free 5, free 6, free 7]
   else bytesLE 4 (if code == 3 then 32 else deadline))

/-- The spare remaps: a byte of each logical cluster, then one of each logical core (R354). -/
def State.remapByte (s : State) (o : Nat) : Byte :=
  BitVec.ofNat 8 (if o < 256 then s.physicalCluster o else FMap.getD s.pkg.coreRemap (o - 256) ((o - 256) % 4))

/-- The partitions homed on a hub die. -/
def State.homedAt (s : State) (hub : Nat) : List Partition :=
  (s.partitions.filter fun e => e.2.homeHub == hub).map Prod.snd

/-! ### Items -/

/-- Byte `o` of a table of images; an unlisted entry is 0. -/
def imageByte {ν : Type} (m : FMap ν) (n : Nat) (f : ν → List Byte) (o : Nat) : Byte :=
  match FMap.find? m (o / n) with
  | some x => (f x).getD (o % n) 0
  | none => 0

/-- The window entries that a VF owns, by number. -/
def State.windowsOf (s : State) (vf : Nat) : List Window :=
  (s.pkg.windows.filter fun w => w.2.ownerVf == vf).map Prod.snd

/-- Byte `o` of a scratch line's contents as state read shows it: zeros where the line is stale or poisoned, whose bytes
no reader receives (R219, R412). (DEDUCED, log 150.) -/
def State.lineByte (s : State) (cl o : Nat) : Byte :=
  let l := s.scrLine cl o
  if l.poison || s.stale cl l then 0 else l.bytes.getD (o % 512) 0

/-- Byte `o` of an item whose bytes the spec lays out; none of another. -/
def State.itemByte (s : State) (cls inst item o : Nat) : Option Byte :=
  match cls, item with
  | 0x02, 1 => if o < 8 * 68 then some (tableByte 68 (fun k => (FMap.getD (s.core inst).slots k Slot.reset).image) o) else none
  | 0x02, 6 => if o < 4 then some ((bytesLE 4 (s.freqWord inst).toNat).getD o 0) else none
  | 0x03, 1 => if o < 64 then some (FMap.getD (s.cluster inst).banks o ⟨0, false, 0⟩).byte else none
  | 0x03, 2 => if o < 16384 * 16 then some (tableByte 16 (fun i => (s.scrLine inst (i * 512)).record) o) else none
  | 0x03, 3 => if o < 2 ^ 23 then some (s.lineByte inst o) else none
  | 0x03, 6 => if o < 32 * 16 then some (tableByte 16 (fun i => (((s.cluster inst).locks[i]?).map RangeLock.image).getD []) o)
      else none
  | 0x04, 3 => s.portByte inst o
  | 0x05, 1 => some (tableByte 64 (fun i =>
      ((((s.homedAt inst).flatMap (·.queue))[i]?).map Record.bytes).getD []) o)
  | 0x05, 3 => some (tableByte 64 (fun i => (((s.hub inst).dirCache[i]?).map DirEntry.image).getD []) o)
  | 0x05, 4 => if o < 65535 * 8 then some (imageByte (s.hub inst).nodes 8 nodeImage o) else none
  | 0x05, 7 => if o < 512 * 256 * 128 then
      some (imageByte (s.vf (o / (256 * 128))).triggers 128 Trigger.image (o % (256 * 128))) else none
  | 0x06, 2 => if o < 64 then some (BitVec.ofNat 8 ((s.partition inst).coreMap.getD o 0xFF)) else none
  | 0x07, 2 => if o < 64 then some ((s.vf inst).spaceImage.getD o 0) else none
  | 0x07, 3 => if o < 128 then
      some (imageByte (s.vf inst).keys 8 (fun k => bytesLE 4 (if k.valid then 1 else 0) ++ bytesLE 4 k.generation.toNat) o)
    else none
  | 0x07, 4 => if o < 32 then
      some (imageByte (s.vf inst).comps 8 (fun c => bytesLE 8 ((if c.1 then 1 else 0) + (if c.2 then 2 else 0))) o)
    else none
  | 0x07, 5 => if o < 64 * 32 then some (imageByte (s.vf inst).gates 32 Gate.image o) else none
  | 0x07, 6 => some (tableByte 64 (fun i => (((s.windowsOf inst)[i]?).map Window.image).getD []) o)
  | 0x07, 7 => if o < 4096 then some (imageByte (s.vf inst).roster 16 Roster.image o) else none
  | 0x07, 10 => if o < 16384 then some (imageByte (s.vf inst).sems 4 (bytesLE 4) o) else none
  | 0x07, 11 => if o < 256 * 128 then some (imageByte (s.vf inst).triggers 128 Trigger.image o) else none
  | 0x07, 13 => some (tableByte 32 (fun i => (((s.vf inst).arrivals[i]?).map Arrival.image).getD []) o)
  | 0x09, 1 => some (tableByte 8 (fun i => ((s.pkg.almanac[i]?).map AlmRecord.image).getD []) o)
  | 0x09, 2 => if o < 64 then
      some ((granularityImage (o / 8 + 1) (FMap.getD s.pkg.granularity (o / 8 + 1) 0)
        (fun k => Config.freeByte (s.draws + 8 * (o / 8) + k))).getD (o % 8) 0)
    else none
  | 0x09, 3 => if o < 1280 then some (s.remapByte o) else none
  | 0x0A, 1 => if o < 768 then some (tableByte 48 (fun i => FMap.getD s.pkg.measurements i []) o) else none
  | 0x0A, 3 => if o < 512 then some (imageByte s.pkg.certs 64 CertSlot.image o) else none
  | 0x0A, 2 => some (tableByte 64 (fun i => ((s.pkg.hallLog[i]?).map fun e => e.image i).getD []) o)
  | _, _ => none

/-- The item of a unit that holds an offset, and the byte within it. -/
def itemAt (cls inst off : Nat) : Option (Nat × Nat) :=
  ((List.range (itemCount cls)).map (· + 1)).findSome? fun k =>
    if itemThere cls inst k && Config.itemOffset cls k ≤ off && off < Config.itemOffset cls k + Config.itemLength cls k then
      some (k, off - Config.itemOffset cls k)
    else none

/-- A byte of an item as its unit shows it, and whether it is plaintext contents of a VF (R412): laid out by the spec,
or in a cell, at a place of the item that is not specified. (DESIGN CHOICE, log 153.) -/
def State.shownByte (s : State) (cls inst item o : Nat) : Byte × Bool :=
  match s.itemByte cls inst item o with
  | some b => (b, cls == 0x03 && item == 3)
  | none =>
    let k := Config.itemCell cls item o
    let c := (s.cells cls inst item).getD (k / 8) (0, false)
    ((bytesLE 8 c.1).getD (k % 8) 0, c.2)

/-- A byte of state as its unit shows it: directory, or item; between items, a free value. -/
def State.stateByte (s : State) (cls inst off : Nat) : Byte :=
  if off < 4096 then tableByte 16 (directoryEntry cls inst) off
  else match itemAt cls inst off with
    | some (k, o) => (s.shownByte cls inst k o).1
    | none => Config.freeByte (s.draws + off)

/-- The byte is plaintext contents of a VF. -/
def State.secretByte (s : State) (cls inst off : Nat) : Bool :=
  4096 ≤ off && match itemAt cls inst off with
    | some (k, o) => (s.shownByte cls inst k o).2
    | none => false

/-! ### sread (R413) -/

/-- An address that state read does not accept: a class that is not used, or an offset beyond its space.
(DESIGN CHOICE, log 49.) -/
def stateBad (a : StateAddr) (n : Nat) : Bool :=
  itemCount a.cls == 0 || (4096 ≤ a.off && Config.stateSpace a.cls < a.off + n)

/-- The item's unit belongs to the partition, or the item to the VF. -/
def State.stateVisible (s : State) (vf p : Nat) (a : StateAddr) : Bool :=
  match a.cls with
  | 0x01 => (s.clustersOf p).contains (a.inst / 16)
  | 0x02 => (s.clustersOf p).contains (a.inst / 4)
  | 0x03 => (s.clustersOf p).contains a.inst
  | 0x04 => (s.partition p).slices.contains a.inst
  | 0x05 => (s.partition p).homeHub == a.inst
  | 0x06 => a.inst == p
  | 0x07 => a.inst == vf
  | _ => false

/-- The directory of a class belongs to no unit's contents and is shown to all. -/
def StateAddr.directory (a : StateAddr) : Bool := a.off < 4096

/-- The byte comes through a slice's read port, which is not for kernels (R387). -/
def State.throughPort (s : State) (a : StateAddr) (i : Nat) : Bool :=
  a.cls == 0x04 && match itemAt a.cls a.inst (a.off + i) with
    | some (k, o) => k == 3 && (s.portByte a.inst o).isSome
    | none => false

/-- `n` bytes of state as a kernel reads them: zeros in place of what comes through a read port. -/
def State.stateBytes (s : State) (a : StateAddr) (n : Nat) : List Byte :=
  (List.range n).map fun i => if s.throughPort a i then 0 else s.stateByte a.cls a.inst (a.off + i)

/-- One lane of sread. -/
def laneSread : LaneStep := fun t ops s =>
  let a := stateAddr ops.a
  if ops.a.toNat % 8 != 0 then .event 0x15 0 ops.a s
  else if stateBad a 8 then .event 0x14 0 ops.a s
  else
    let bs := if a.directory || s.stateVisible (s.vfOf t) (s.partitionOf t) a then s.stateBytes a 8
      else List.replicate 8 0
    .done (lateRegs [BitVec.ofNat 32 (natLE (bs.take 4)), BitVec.ofNat 32 (natLE (bs.drop 4))])
      { s with draws := s.draws + 4096 }

def execSread (h : Hd) (d a : VReg) (s : State) : Out :=
  .next (s.laneWord (.sread h d a) (fun _ x => ⟨x.rv64 a.toNat, 0, 0, []⟩) laneSread)

end Sys2Proof.Machine
end

