-- ==== Sys2Proof/Machine/System.lean ====
section
/-! DEFINITION. Answering an event from a system-privilege kernel: eret (spec/13_fault_queues.md R320,
spec/18_platform.md R414). -/

namespace Sys2Proof.Machine

/-- The action of a wake record's byte 0: none for code 00 or a set reserved bit (R320). -/
def wakeAction (b : Nat) : Option WakeAction :=
  match b with
  | 1 => some .resume
  | 2 => some .replay
  | 3 => some .kill
  | _ => none

/-- The wake record that 16 bytes hold (R320). -/
def wakeOf (b : List Byte) : WakeRec where
  seq := BitVec.ofNat 32 (fieldLE b 12 4)
  vf := fieldLE b 10 2
  core := fieldLE b 8 2
  cohort := fieldLE b 7 1 % 32
  slot := fieldLE b 7 1 / 32
  action := if fieldLE b 1 6 == 0 then wakeAction (fieldLE b 0 1) else none

/-- The record is read as a device-scope acquire load (R414). -/
def eretMq : Mq := ⟨.acquire, .device, true, .none, .normal⟩

/-- The thread exits as by exit, at the word's PC (R133, R414): at once, or when its log entries are
resolved. -/
def State.leaveBy (s : State) (t : Tid) (pc : Nat) : State :=
  if s.owes t then s.modThread t fun x => { x with pc := pc, exitIssued := true }
  else (s.leaveThread t).teamLeft t.core t.slot

/-- One lane of eret; `b` of its operands is the word's number. (DEDUCED, log 50.) -/
def laneEret : LaneStep := fun t ops s =>
  match s.laneRead t ops.a 16 eretMq (fun bs => lateRegs (bytesWords bs)) with
  | .done r s =>
    let w := wakeOf (wordsBytes r.regs)
    if w.vf != s.vfOf t then .event 0x18 0 ops.a s
    else .later ((s.emit (.wakeRecord (s.partitionOf t) w true)).leaveBy t ops.b.toNat)
  | o => o

def execEret (h : Hd) (a : VReg) (s : State) : Out :=
  .next (s.laneWord (.eret h a) (fun _ x => ⟨x.rv64 a.toNat, BitVec.ofNat 64 s.gang.pc, 0, []⟩) laneEret)

end Sys2Proof.Machine
end

