-- ==== Sys2Proof/Machine/Replay.lean ====
section
/-! DEFINITION. Performing logged and waiting accesses again: replay and resume of log entries, and the acts of
the issue logic, the walker and the store path (spec/02_execution_model.md R35, R46, R47, spec/03_encoding.md
R54, R57, spec/10_consistency.md R226, R232, R234, spec/13_fault_queues.md R323, R334, R335). -/

namespace Sys2Proof.Machine

/-! ### One lane of any word -/

/-- How one lane of a word is performed from its logged operands (R260); a word that never leaves a lane
unfinished has no lane step of its own. -/
def laneStep (i : Instr) : LaneStep :=
  match i with
  | .ld _ sz q _ _ _ | .ldg _ sz q _ _ _ => laneLoad sz q
  | .st _ sz q _ _ _ | .stg _ sz q _ _ _ => laneStore sz q i.tag?
  | .atomAdd _ ty q _ _ _ => laneRmw .add ty q true
  | .atomSub _ ty q _ _ _ => laneRmw .sub ty q true
  | .atomMin _ ty q _ _ _ => laneRmw .min ty q true
  | .atomMax _ ty q _ _ _ => laneRmw .max ty q true
  | .atomAnd _ ty q _ _ _ => laneRmw .and ty q true
  | .atomOr _ ty q _ _ _ => laneRmw .or ty q true
  | .atomXor _ ty q _ _ _ => laneRmw .xor ty q true
  | .atomExch _ ty q _ _ _ => laneRmw .exch ty q true
  | .atomCas _ ty q _ _ _ => laneRmw .cas ty q true
  | .redAdd _ ty q _ _ => laneRmw .add ty q false
  | .redSub _ ty q _ _ => laneRmw .sub ty q false
  | .redMin _ ty q _ _ => laneRmw .min ty q false
  | .redMax _ ty q _ _ => laneRmw .max ty q false
  | .redAnd _ ty q _ _ => laneRmw .and ty q false
  | .redOr _ ty q _ _ => laneRmw .or ty q false
  | .redXor _ ty q _ _ => laneRmw .xor ty q false
  | .ldmx _ fmt q _ _ _ => laneLdmx fmt q
  | .stmx _ fmt q _ _ _ => laneStmx fmt q i.tag?
  | .accld _ fmt q t _ => laneAccld i fmt q t.toNat
  | .accst _ _ q _ _ => laneAccst q i.tag?
  | .poison .. => lanePoison
  | .sfree .. => laneSfree
  | .srenew .. => laneSrenew
  | .wpost .. => laneWpost
  | .msend _ kind _ _ _ => laneMsend kind
  | .qpop _ _ q => laneQpop q.toNat
  | .fpush _ f _ => laneFpush f.toNat
  | .fpop _ _ f => laneFpop f.toNat
  | .glaunch .. => laneGlaunch
  | .gwait .. => laneGwait
  | .kvx _ form _ _ _ _ => laneKvx form
  | .gatectl _ close _ _ => laneGatectl close
  | .winctl _ close _ _ => laneWinctl close
  | .barInit .. => laneBarInit
  | .barArrive _ leave form _ _ _ => laneBarArrive leave form
  | .barExpect .. => laneBarExpect
  | .barWait _ reach _ _ => laneBarWait reach
  | .barTry _ reach _ _ _ => laneBarTry reach
  | .barInval .. => laneBarInval
  | .semSig .. => laneSemSig
  | .semWait .. => laneSemWait
  | .sread .. => laneSread
  | .eret .. => laneEret
  | _ => fun _ _ s => .ok s

/-! ### Log entries (R260, R334, R335) -/

/-- Where a cohort stands: core, slot, slice, cohort. -/
structure CohortId where
  core : Nat
  slot : Nat
  access : Bool
  cohort : Nat
  deriving DecidableEq, Repr

/-- A thread of a cohort. -/
def CohortId.tid (c : CohortId) (lane : Nat) : Tid := ⟨c.core, c.slot, c.access, c.cohort, lane⟩

def State.cohortOf (s : State) (c : CohortId) : Option Cohort := s.cohort? c.core c.slot c.access c.cohort

/-- An entry of a cohort's log. -/
def State.logEntry (s : State) (c : CohortId) (idx : Nat) : Option LogEntry :=
  (s.cohortOf c).bind fun k => FMap.find? k.log idx

/-- Change an entry; one without unfinished lanes is freed. -/
def State.modEntry (s : State) (c : CohortId) (idx : Nat) (f : LogEntry → LogEntry) : State :=
  s.modCohort c.core c.slot c.access c.cohort fun k =>
    { k with log := match (FMap.find? k.log idx).map f with
        | some e => if e.unfinished == 0 then FMap.del k.log idx else FMap.put k.log idx e
        | none => k.log }

/-- Lanes leave an entry, performed or resumed. -/
def State.clearLanes (s : State) (c : CohortId) (idx : Nat) (lanes : LaneMask) : State :=
  s.modEntry c idx fun e => { e with unfinished := e.unfinished &&& ~~~lanes, own := e.own &&& ~~~lanes }

/-- The lanes that pending replays of an entry already name. -/
def State.replayPending (s : State) (c : CohortId) (idx : Nat) : LaneMask :=
  s.pending.foldl (fun m e =>
    match e with
    | .replay core slot access k log lanes => if (⟨core, slot, access, k⟩ : CohortId) = c ∧ log = idx then m ||| lanes else m
    | _ => m) 0

/-- A block word, whose groups complete together (R173). -/
def blockInstr (i : Instr) : Bool :=
  match i with
  | .ldmx .. | .stmx .. => true
  | _ => false

/-- The unfinished lanes of a block's group, in every cohort of the slot: entries of one word that name one block
(R173, R190). -/
def State.blockMates (s : State) (c : CohortId) (e : LogEntry) (lane : Nat) : List (CohortId × Nat × Nat) :=
  match FMap.find? e.ops lane with
  | none => []
  | some o =>
    (List.range 32).flatMap fun k =>
      let c' : CohortId := { c with cohort := k }
      match s.cohortOf c' with
      | none => []
      | some x => x.log.flatMap fun (f : Nat × LogEntry) =>
          if f.2.instr == e.instr && f.2.pc == e.pc then
            (lanesOf f.2.unfinished).filterMap fun l =>
              match FMap.find? f.2.ops l with
              | some p => if p.a == o.a && p.b == o.b then some (c', f.1, l) else none
              | none => none
          else []

/-- An unfinished lane of an entry stands behind an older one of its cohort (R232). -/
def State.stillBehind (s : State) (c : CohortId) (idx lane : Nat) : Bool :=
  match s.logEntry c idx with
  | some e =>
    match FMap.find? e.ops lane with
    | some o => s.behind (c.tid lane) e.instr o e.age
    | none => false
  | none => false

/-- A lane logged behind may replay: nothing on its page holds it back, and of a block nothing holds back any lane of
its group, nor is an event of one unanswered. -/
def State.laneFree (s : State) (c : CohortId) (idx : Nat) (e : LogEntry) (lane : Nat) : Bool :=
  if blockInstr e.instr then
    (s.blockMates c e lane).all fun m =>
      !s.stillBehind m.1 m.2.1 m.2.2 &&
      (!((s.logEntry m.1 m.2.1).map fun x => x.own.getLsbD m.2.2).getD false ||
        (s.replayPending m.1 m.2.1).getLsbD m.2.2)
  else !s.stillBehind c idx lane

/-- Lanes of a cohort logged behind an older entry that nothing holds back any more replay (R334). -/
def State.releaseCohort (s : State) (c : CohortId) : State :=
  match s.cohortOf c with
  | none => s
  | some k => k.log.foldl (fun s e =>
      let todo := e.2.unfinished &&& ~~~e.2.own &&& ~~~s.replayPending c e.1
      let free := maskOf ((lanesOf todo).filter fun l => (FMap.find? e.2.ops l).isSome && s.laneFree c e.1 e.2 l)
      if free == 0 then s else s.emit (.replay c.core c.slot c.access c.cohort e.1 free)) s

/-- The same for every cohort of the slot, whose blocks may have been held back by this one. -/
def State.releaseBehind (s : State) (c : CohortId) : State :=
  (List.range 32).foldl (fun s k => s.releaseCohort { c with cohort := k }) s

/-- After lanes have left an entry: those behind it may replay, and threads whose exit word has issued exit. -/
def State.afterEntry (s : State) (c : CohortId) (lanes : LaneMask) : State :=
  (lanesOf lanes).foldl (fun s l => s.finishExit (c.tid l)) (s.releaseBehind c)

/-- A pinned page without a wake that has been replayed. -/
def PinnedPage.without (x : PinnedPage) (vf seq : Nat) : PinnedPage :=
  if x.vf == vf then { x with seqs := x.seqs.filter (· != seq) } else x

/-- A wake's replay has been made: pages that no replay needs any more are unpinned (R330). -/
def State.unpinSeq (s : State) (vf seq : Nat) : State :=
  if s.pinned.any fun x => x.vf == vf && x.seqs.contains seq then
    { s with pinned := (s.pinned.map fun x => x.without vf seq).filter fun x => !x.seqs.isEmpty }
  else s

/-- A thread that a handler has resumed stands past the last word: its address is misaligned (R71). -/
def State.pastLast (s : State) (t : Tid) : Bool :=
  match s.thread? t with
  | some x => wordLimit ≤ x.pc && !x.parked && !x.exited && !x.exitIssued
  | none => false

/-- A resume past the last word transfers to a misaligned address, so the fault stands against the last word again
(R71). (DEDUCED, log 149.) -/
def State.resumePast (s : State) (r : Record) : State :=
  let ls := (lanesOf r.lanes).filter fun l => s.pastLast ⟨r.core, r.slot, r.access, r.cohort, l⟩
  if ls.isEmpty then s
  else
    let comp := ((s.team? r.core r.slot).map (·.kern.compartment)).getD 0
    let op := if r.kind == 0x05 then r.opcode else ((s.instrAt r.core r.vf comp (wordLimit - 1)).map (·.opcode)).getD 0
    s.takePrecise r.core r.slot r.access r.cohort (maskOf ls) 0x05 op (codeAddress (wordLimit - 1)) (codeAddressInt wordLimit)

/-- An answered event stands no longer against its threads (R324). -/
def State.endEvent (s : State) (p : Nat) (seq : Nat) : State :=
  match FMap.find? (s.partition p).standing seq with
  | none => s
  | some e =>
    let s := (s.modPartition p fun x => { x with standing := FMap.del x.standing seq }).unpinSeq e.record.vf seq
    (s.modThreads ((lanesOf e.record.lanes).map fun l =>
      ⟨e.record.core, e.record.slot, e.record.access, e.record.cohort, l⟩) fun _ t => t.unpark seq).resumePast e.record

/-- The answered events whose replay these lanes of an entry were. -/
def State.endReplayed (s : State) (c : CohortId) (idx : Nat) (lanes : LaneMask) : State :=
  let p := ((s.team? c.core c.slot).map (·.partition)).getD 0
  let done := (s.partition p).standing.filter fun e =>
    e.2.answered && e.2.record.core == c.core && e.2.record.slot == c.slot && e.2.record.access == c.access &&
    e.2.record.cohort == c.cohort && e.2.record.log == some idx && e.2.record.lanes == lanes
  done.foldl (fun s e => s.endEvent p e.1) s

/-- One lane of an entry is performed again; one that raises an event stays unfinished (R335). A condition that does not
hold registers the access without holding its thread, which has gone on (R54). (DEDUCED, log 52.) -/
def State.replayLane (s : State) (c : CohortId) (idx : Nat) (e : LogEntry) (l : Nat) : State × Option Unfinished :=
  let t := c.tid l
  match FMap.find? e.ops l with
  | none => (s, none)
  | some ops =>
    match laneStep e.instr t ops s with
    | .done r s => ((s.deliver t e.tag r).clearLanes c idx (laneBit l), none)
    | .later s => (s.clearLanes c idx (laneBit l), none)
    | .wait cause _ s => ((s.addWait t e.instr ops e.pc e.age cause false).clearLanes c idx (laneBit l), none)
    | .event k d a s => (s, some ⟨t, ops, some (k, d, a)⟩)

/-- Lanes in ascending order. -/
def State.replayAll (s : State) (c : CohortId) (idx : Nat) (e : LogEntry) : List Nat → State × List Unfinished
  | [] => (s, [])
  | l :: rest =>
    let (s, u) := s.replayLane c idx e l
    let (s, us) := s.replayAll c idx e rest
    (s, u.toList ++ us)

/-- THE REPLAY OF LANES OF A LOG ENTRY (R334, R335). -/
def State.replayLanes (s : State) (c : CohortId) (idx : Nat) (lanes : LaneMask) : State :=
  match s.logEntry c idx with
  | none => s
  | some e =>
    let (s, us) := s.replayAll c idx e (lanesOf (lanes &&& e.unfinished))
    let s := s.endReplayed c idx lanes
    let s := if us.isEmpty then s
      else (s.modEntry c idx fun e => { e with own := e.own ||| maskOf (us.map (·.t.lane)) }).reportLanes e.instr idx us
    s.afterEntry c lanes

/-- A pending replay takes in lanes of a block's group that another one of the slot performs. -/
def State.mateReplays (s : State) (c : CohortId) (idx : Nat) (lanes : LaneMask) : List (CohortId × Nat × LaneMask) :=
  match s.logEntry c idx with
  | none => []
  | some e =>
    if !blockInstr e.instr then []
    else
      let mates := (lanesOf lanes).flatMap (s.blockMates c e)
      s.pending.filterMap fun x =>
        match x with
        | .replay core slot a k n ls =>
          let c' : CohortId := ⟨core, slot, a, k⟩
          if (lanesOf ls).any fun l => mates.contains (c', n, l) then some (c', n, ls) else none
        | _ => none

/-- The replays of a block word's lanes come about together, once every lane of their groups is to be replayed
(R173, R190). -/
def State.replayReady (s : State) (c : CohortId) (idx : Nat) (lanes : LaneMask) : Bool :=
  match s.logEntry c idx with
  | none => true
  | some e =>
    !blockInstr e.instr || (lanesOf (lanes &&& e.unfinished)).all fun l =>
      (s.blockMates c e l).all fun m =>
        (m.1 == c && m.2.1 == idx && lanes.getLsbD m.2.2) || (s.replayPending m.1 m.2.1).getLsbD m.2.2

/-- REPLAY: the lanes of an entry are performed again, with those of other cohorts that share a block with them. -/
def execReplay (core slot : Nat) (access : Bool) (cohort log : Nat) (lanes : LaneMask) (s : State) : Out :=
  let c : CohortId := ⟨core, slot, access, cohort⟩
  .next ((s.mateReplays c log lanes).foldl (fun s m =>
    (s.taken (.replay m.1.core m.1.slot m.1.access m.1.cohort m.2.1 m.2.2)).replayLanes m.1 m.2.1 m.2.2)
      (s.replayLanes c log lanes))

/-! ### Resume of a logged event (R323) -/

/-- What a resumed lane's tag receives. -/
def resumeResult (i : Instr) : Late :=
  match i with
  | .kvx .. => ⟨[0, 0], 0, some false⟩
  | .glaunch .. => lateRegs [0x80000000]
  | i => lateRegs (List.replicate i.dests.length 0)

/-- The lanes are taken out of their entry unperformed, and their tags complete. -/
def State.resumeLanes (s : State) (c : CohortId) (idx : Nat) (lanes : LaneMask) : State :=
  match s.logEntry c idx with
  | none => s
  | some e =>
    let out := lanes &&& e.unfinished
    let s := (lanesOf out).foldl (fun s l => s.deliver (c.tid l) e.tag (resumeResult e.instr)) s
    (s.clearLanes c idx out).afterEntry c lanes

/-! ### Acts of the issue logic (R35, R54, R57) -/

/-- PD_EXPIRY: the count of a thread's last word has run out; where nothing else holds the thread, it is ready
from this cycle on (R28, R35). -/
def execPdExpiry (t : Tid) (s : State) : Out :=
  .next (match s.thread? t with
    | some x => if x.readyAt ≤ s.cycle t.core then (s.modThread t fun x => { x with pdRun := false }).markReady t else s
    | none => s)

/-- OVERDUE: a thread has been ready for 3,840 cycles without being gathered. -/
def execOverdue (t : Tid) (s : State) : Out :=
  .next (s.modThread t fun x =>
    match x.since with
    | some c => if c + 3840 ≤ s.cycle t.core then { x with overdue := true } else x
    | none => x)

/-- RESULT_ARRIVAL. (DEDUCED, log 23.) -/
def execResultArrival (t : Tid) (tag : Nat) (s : State) : Out :=
  .next (s.modThread t (·.arrive tag (s.cycle t.core)))

/-- ICACHE_FILL. -/
def execIcacheFill (core vf line : Nat) (s : State) : Out :=
  .next ((s.fillLine core vf line).modPkg fun k =>
    { k with netFails := k.netFails.filter fun e => e.1 != .fetch core vf line })

/-- PAGE_WALK_COMPLETE: the walk of a fetch raises its event or fills the TLB; a data walk fills the TLB, and
the access that asked for it acts on the leaf (R193). -/
def execPageWalkComplete (core vf va : Nat) (forFetch : Bool) (s : State) : Out :=
  .next (if forFetch then
      match s.waitersOf core vf (va / 64) with
      | [] => s
      | t :: ts =>
        match s.teamOf t with
        | none => s
        | some tm =>
          let mates := (t :: ts).filter fun u => ((s.teamOf u).map (·.kern.compartment)) == some tm.kern.compartment
          match s.fetchPlace core tm (va / 64) with
          | (.error (k, d, host), s) => s.takeFetch mates k d host
          | (.ok _, s) => s
    else (s.translate core vf va false).2)

/-- MAU_OP_COMPLETE. -/
def execMauOpComplete (core sector : Nat) (s : State) : Out := .next (s.mauStep core sector)

/-! ### Acts of the store path and the homes (R226, R234) -/

/-- STORE_PERFORMED: a store in flight is performed, after the core's older stores to its bytes. -/
def execStorePerformed (id : Nat) (s : State) : Out :=
  .next (match FMap.find? s.stores id with
    | some f => if s.storeBlocked id f then s else s.performStore id
    | none => s)

/-- The record that a line's key names, of home memory or of scratch. -/
def State.anyWriter (s : State) (line : Nat) : Option Writer :=
  if 2 ^ 60 ≤ line then FMap.find? s.scratchWriters (line - 2 ^ 60) else FMap.find? s.writers line

/-- Write a line's record, or clear it. -/
def State.putWriter (s : State) (line : Nat) (w : Option Writer) : State :=
  if 2 ^ 60 ≤ line then
    { s with scratchWriters := match w with
        | some w => FMap.put s.scratchWriters (line - 2 ^ 60) w
        | none => FMap.del s.scratchWriters (line - 2 ^ 60) }
  else
    match w with
    | some w => { s with writers := FMap.put s.writers line w }
    | none => s.clearWriter line

/-- FORCED_PUBLISH: the recorded cluster performs the release set of the recorded release, and acknowledges. -/
def execForcedPublish (cluster vf line : Nat) (s : State) : Out :=
  let s := s.publish cluster vf
  .next ((match s.anyWriter line with
    | some w => if w.core / 4 == cluster && w.vf == vf then s.putWriter line (some { w with published := true }) else s
    | none => s).emit (.publishAck line))

/-- PUBLISH_ACK: the record is cleared, unless a later release has made a new one, and the acquires that waited for it
are performed. -/
def execPublishAck (line : Nat) (s : State) : Out :=
  let s := match s.anyWriter line with
    | some w => if w.published then s.putWriter line none else s
    | none => s
  .next ((s.waitsOn fun c => c == .publish line).foldl (fun s n =>
    match FMap.find? s.waits n with
    | some w => (s.retryWait n (laneStep w.instr)).finishExit w.tid
    | none => s) s)

/-! ### Accesses performed after their issue (R206, R222, R224, R239, R260) -/

/-- What an access on its way touches. -/
def Wait.spans (w : Wait) : List (DWord × Nat) := spansAt w.instr w.ops.a w.ops.b

/-- Accesses on their way of one block group of a block word (R173). -/
def Wait.sameGroup (a b : Wait) : Bool :=
  blockInstr a.instr && a.instr == b.instr && a.pc == b.pc && a.tid.core == b.tid.core && a.tid.slot == b.tid.slot &&
  a.ops.a == b.ops.a && a.ops.b == b.ops.b

/-- Older accesses on their way of the same word to a common byte come first: its lanes act in ascending order
(R261). -/
def State.flightBlocked (s : State) (n : Nat) (w : Wait) : Bool :=
  s.waits.any fun e =>
    e.1 < n && e.2.cause == .flight && e.2.tid.core == w.tid.core && e.2.tid.slot == w.tid.slot &&
    e.2.instr == w.instr && e.2.pc == w.pc && !e.2.sameGroup w && s.spansMeet e.2.tid w.tid e.2.spans w.spans

/-- A waiting access can be performed now. -/
def State.flightOk (s : State) (n : Nat) (w : Wait) : Bool :=
  match w.cause with
  | .flight => !s.flightBlocked n w
  | .logRoom _ => s.logRoom w && !(s.waits.any fun e => e.2.cause == .flight && e.2.sameWord w) &&
      !s.recordsFull (((s.teamOf w.tid).map (·.partition)).getD 0) (s.vfOf w.tid)
  | _ => false

/-- The lanes of a block group on their way are performed together, or all left unfinished (R173, R190); those that have
waited for it at exit then exit (R133). -/
def State.flyGroup (s : State) (w : Wait) : State :=
  let g := s.waits.filter fun e => e.2.cause == .flight && e.2.sameGroup w
  let s :=
    if g.any fun e => s.behind e.2.tid e.2.instr e.2.ops e.2.age then g.foldl (fun s e => s.logWait e.1 none) s
    else match laneStep w.instr w.tid (((g.head?).map fun e => e.2.ops).getD w.ops) s with
      | .event k d a s => g.foldl (fun s e => s.failWait e.1 k d a) s
      | _ => g.foldl (fun s e => s.retryWait e.1 (laneStep e.2.instr)) s
  g.foldl (fun s e => s.finishExit e.2.tid) s

/-- An access on its way is performed, or the unfinished lanes of its word are logged; then a thread that has waited for
it at exit exits (R133). -/
def State.fly (s : State) (n : Nat) : State :=
  match FMap.find? s.waits n with
  | some w =>
    if w.cause == .flight && blockInstr w.instr then s.flyGroup w
    else (if w.cause != .flight then s.logWord w else s.retryWait n (laneStep w.instr)).finishExit w.tid
  | none => s

/-- Accesses on their way that a test names are performed, in order of their issue. -/
def State.flyAll (s : State) (p : State → Wait → Bool) : State :=
  ((s.waits.filter fun e => e.2.cause == .flight && p s e.2).map Prod.fst).foldl State.fly s

/-- An access on its way goes to a frame. -/
def State.toFrame (s : State) (frame : Nat) (w : Wait) : Bool :=
  w.spans.any fun y => [y.1, y.1 + BitVec.ofNat 64 (y.2 - 1)].any fun a =>
    match (s.place w.tid a).1 with
    | some g => g.phys / 65536 == frame / 65536
    | none => false

/-- The operation and type of a red. -/
def redOp : Instr → Option (RmwOp × AtomTy)
  | .redAdd _ ty _ _ _ => some (.add, ty)
  | .redSub _ ty _ _ _ => some (.sub, ty)
  | .redMin _ ty _ _ _ => some (.min, ty)
  | .redMax _ ty _ _ _ => some (.max, ty)
  | .redAnd _ ty _ _ _ => some (.and, ty)
  | .redOr _ ty _ _ _ => some (.or, ty)
  | .redXor _ ty _ _ _ => some (.xor, ty)
  | _ => none

/-- The home target of a red on its way, if its checks pass. -/
def State.redTarget (s : State) (w : Wait) : Option (RmwOp × AtomTy × Target) :=
  match w.cause, redOp w.instr with
  | .flight, some (op, ty) =>
    match (s.check w.tid (Acc.rmw (atomBytes ty) false) w.ops.a).1 with
    | .mem g _ => some (op, ty, g)
    | _ => none
  | _, _ => none

/-- Operands combined pair by pair, in an order of free choice, until one is left: some binary tree (R239). -/
def mergeTree (op : RmwOp) (ty : AtomTy) (draw : Nat) : List Nat → Nat → Option Nat
  | [], _ => none
  | [x], _ => some x
  | x :: _, 0 => some x
  | xs, n + 1 =>
    let i := Config.choose (draw + 2 * n) xs.length % xs.length
    let rest := xs.eraseIdx i
    let j := Config.choose (draw + 2 * n + 1) rest.length % rest.length
    mergeTree op ty draw (mergeOperands op ty (xs.getD i 0) (rest.getD j 0) :: rest.eraseIdx j) n

/-- THE ROUTERS MERGE REDS on their way to one address, of one operation and type: those that free choice takes beside
red `n` are applied with it as one (R239). (DESIGN CHOICE, log 22.) -/
def State.mergeReds (s : State) (n : Nat) : State :=
  match FMap.find? s.waits n with
  | none => s
  | some w =>
    match s.redTarget w with
    | none => s
    | some (op, ty, g) =>
      let mates := s.waits.filter fun e => e.1 != n && s.redTarget e.2 == some (op, ty, g) &&
        Config.choose (s.draws + e.1) 2 % 2 == 1
      let vals := ((n, w) :: mates).map fun e => (rmwOperands ty e.2.ops).1
      let s := { s with draws := s.draws + s.waitNext + 2 * vals.length }
      match mergeTree op ty s.draws vals vals.length with
      | none => s
      | some v =>
        let ops : LaneOps := { w.ops with data := [BitVec.ofNat 32 v, BitVec.ofNat 32 (v / 2 ^ 32)] }
        match s.rmwMem w.tid op ty ⟨.relaxed, .device, false, .none, .normal⟩ false g (w.ops.a.toNat) ops with
        | .done r s => ((n, w) :: mates).foldl (fun s e => ((s.endWait e.1 r).logWord e.2).finishExit e.2.tid) s
        | _ => s

end Sys2Proof.Machine
end

