-- ==== Sys2Proof/Machine/Sched.lean ====
section
/-! DEFINITION. Grids and launch queues as the scheduler core handles them: deposits, mapping, the kill of a
grid, retirement, and the lending of R294 (spec/02_execution_model.md R42 to R44, spec/12_queues.md R289 to
R294). -/

namespace Sys2Proof.Machine

/-! ### Partition-relative cores (R38, R354) -/

/-- The package core of a partition-relative one; none on an unused entry. (DEDUCED, log 72.) -/
def State.coreOf (s : State) (p rel : Nat) : Option Nat :=
  match (s.partition p).coreMap[rel / 16]? with
  | some q => if q < 64 then some (q * 16 + rel % 16) else none
  | none => none

/-- The partition-relative number of a package core. -/
def State.relCore (s : State) (p core : Nat) : Nat :=
  match (s.partition p).coreMap.findIdx? (· == core / 16) with
  | some q => q * 16 + core % 16
  | none => core

/-- The partition-relative number of a package cluster. -/
def State.relCluster (s : State) (p cl : Nat) : Nat := s.relCore p (cl * 4) / 4

/-- The package cores of a partition. -/
def State.coresOf (s : State) (p : Nat) : List Nat :=
  (List.range (16 * (s.partition p).coreMap.length)).filterMap (s.coreOf p)

/-! ### Deposits (R42, R289) -/

/-- An argument block that a launch may carry. -/
def argsOk (r : LaunchReq) : Bool := r.args.length ≤ 512 && r.args.length % 4 == 0

/-- LAUNCH_DEPOSIT: the host complex or the scheduler core deposits a grid of depth 0; a refused launch
deposits nothing (R42, R289). -/
def execLaunchDeposit (vf queue : Nat) (_byScheduler : Bool) (r : LaunchReq) (s : State) : Out :=
  .next (if s.pkg.inService && argsOk r && (s.launchError vf queue .system r).isNone then (s.deposit vf queue r none 0 none).2 else s)

/-- Deposits wait at a queue that has room. -/
def LaunchQueue.canMove (l : LaunchQueue) : Bool := !l.waiting.isEmpty && l.entries.length < 65536

/-- Say that a waiting deposit can be placed. -/
def State.offerRoom (s : State) (vf queue : Nat) : State :=
  match FMap.find? (s.vf vf).queues queue with
  | some l =>
    let e := Instr.queueRoomDeposit vf queue
    if l.canMove && !s.pending.contains e then s.emit e else s
  | none => s

/-- QUEUE_ROOM_DEPOSIT: the first waiting deposit enters its queue (R289, R299). -/
def execQueueRoomDeposit (vf queue : Nat) (s : State) : Out :=
  .next (match FMap.find? (s.vf vf).queues queue with
    | some l =>
      if l.canMove then
        let s := s.modQueue vf queue fun l =>
          { l with entries := l.entries ++ (l.waiting.take 1).map Prod.fst, waiting := l.waiting.drop 1 }
        let s := (s.remapVf vf).offerRoom vf queue
        if s.mapped vf queue then s.placeHead vf queue else s
      else s
    | none => s)

/-! ### Mapping slots (R291 to R293) -/

/-- A request that the head of a queue has placed. -/
def Cause.headOf (c : Cause) (vf queue : Nat) : Bool :=
  match c with
  | .head v q _ _ => v == vf && q == queue
  | _ => false

/-- An unserved request of a queue's head is withdrawn, and the next one of its semaphore may be served (R293, R381). -/
def State.withdrawHead (s : State) (vf queue : Nat) : State :=
  let gone := s.waits.filter fun w => w.2.cause.headOf vf queue
  let s := { s with waits := s.waits.filter fun w => !w.2.cause.headOf vf queue }.modQueue vf queue fun l =>
    { l with headSince := none }
  gone.foldl (fun s w =>
    match w.2.cause with
    | .head v _ i _ => s.semTest v i
    | _ => s) s

/-- A queue loses its mapping slot. -/
def State.unmap (s : State) (p vf queue : Nat) : State :=
  (s.withdrawHead vf queue).modPartition p fun x => { x with mapping := x.mapping.filter fun e => e.2 != queue }

/-- A queue's entries have changed: an empty one gives up its slot and its loan, another one's head places its
request (R291, R293). -/
def State.queueChanged (s : State) (vf queue : Nat) : State :=
  let s := s.offerRoom vf queue
  match s.partOf vf, FMap.find? (s.vf vf).queues queue with
  | some p, some l =>
    let s := if l.entries.isEmpty then s.modQueue vf queue fun l => { l with lent := none } else s
    if !s.mapped vf queue then s
    else if l.entries.isEmpty then (s.unmap p vf queue).remap p
    else s.placeHead vf queue
  | _, _ => s

/-! ### Retirement (R43, R293, R306) -/

/-- The threads that wait for a grid receive its outcome, with a device-scope acquire (R306). -/
def State.answerGwait (s : State) (vf grid : Nat) (killed : Bool) : State :=
  (s.waitsOn fun c => c == .grid vf grid).foldl (fun s n =>
    match FMap.find? s.waits n with
    | some w => (s.cacheAction w.tid.core vf .device).endWait n (lateRegs [if killed then 1 else 0])
    | none => s) s

/-- A retired grid's children leave the grid table, and a grid of depth 0 leaves it itself (R305). -/
def State.forgetGrids (s : State) (vf grid : Nat) : State :=
  s.modVf vf fun v =>
    { v with grids := FMap.drop (fun n g => g.parent == some grid || (n == grid && g.parent.isNone)) v.grids }

/-- GRID_RETIRE: the grid's stores are performed at device scope, its semaphore is signalled, those that wait
for it are answered, and its parent may retire (R43, R293, R306). -/
def State.retireGrid (s : State) (vf grid : Nat) : State :=
  match FMap.find? (s.vf vf).grids grid with
  | none => s
  | some g =>
    if !s.gridDone vf grid then s
    else
      let s := ((s.partOf vf).map s.clustersOf).getD [] |>.foldl (fun s cl => s.publish cl vf) s
      let s := s.modVf vf fun v => { v with grids := FMap.mod v.grids grid fun g => { g with retired := true } }
      let s := if g.doneSem == 0xFFFF then s else s.semAdd vf g.doneSem 1
      let s := (s.answerGwait vf grid g.killed).forgetGrids vf grid
      match g.parent with
      | some q => if s.gridDone vf q then s.emit (.gridRetire vf q) else s
      | none => s

def execGridRetire (vf grid : Nat) (s : State) : Out := .next (s.retireGrid vf grid)

/-! ### The kill of a grid (R44) -/

/-- A grid with its descendants. -/
def State.doomed (s : State) (vf grid : Nat) : List Nat :=
  let m := (s.vf vf).grids
  (m.map Prod.fst).filter fun x => x == grid || launchedUnder m grid x m.length

/-- Read a bind record (R295). -/
def BindRec.of (b : List Byte) : BindRec where
  handle := fieldLE b 0 8
  team := fieldLE b 12 4
  grid := fieldLE b 16 4
  depth := fieldLE b 22 1
  baseSector := fieldLE b 23 1 % 4
  restore := natBit (fieldLE b 23 1) 2
  relaunches := fieldLE b 23 1 / 8 % 4
  vf := fieldLE b 24 2
  privBlock := fieldLE b 26 2
  scratchCluster := fieldLE b 28 4
  scratchQuad := fieldLE b 32 4
  argsLen := fieldLE b 38 2
  argsAddr := fieldLE b 40 8
  reservedOk := fieldLE b 8 4 == 0 && fieldLE b 20 2 == 0 && fieldLE b 36 2 == 0 && fieldLE b 48 16 == 0 &&
    fieldLE b 23 1 < 32 && b.length == 64

/-- The bytes of a bind record (R295). -/
def BindRec.image (r : BindRec) : List Byte :=
  bytesLE 8 r.handle ++ bytesLE 4 0 ++ bytesLE 4 r.team ++ bytesLE 4 r.grid ++ bytesLE 2 0 ++ bytesLE 1 r.depth ++
  bytesLE 1 (r.baseSector % 4 + (if r.restore then 4 else 0) + r.relaunches % 4 * 8) ++ bytesLE 2 r.vf ++
  bytesLE 2 r.privBlock ++ bytesLE 4 r.scratchCluster ++ bytesLE 4 r.scratchQuad ++ bytesLE 2 0 ++ bytesLE 2 r.argsLen ++
  bytesLE 8 r.argsAddr ++ List.replicate 16 0

/-- A change of one slot-table entry. -/
def State.modSlot (s : State) (core slot : Nat) (f : Slot → Slot) : State :=
  s.modCore core fun c => { c with slots := FMap.put c.slots slot (f (FMap.getD c.slots slot Slot.reset)) }

def State.slot (s : State) (core slot : Nat) : Slot := FMap.getD (s.core core).slots slot Slot.reset

/-- An act that belongs to the threads of a slot: a result on its way, a replay, a clock act. -/
def actOfSlot (core slot : Nat) (e : Instr) : Bool :=
  match e with
  | .resultArrival t _ => t.core == core && t.slot == slot
  | .replay c k _ _ _ _ => c == core && k == slot
  | _ => false

/-- A request of a thread of a slot. -/
def Wait.ofSlot (w : Wait) (core slot : Nat) : Bool :=
  w.tid.lane < 32 && w.tid.core == core && w.tid.slot == slot

/-- The sectors' queued octets and transfers of a slot are discarded (R190). -/
def State.dropMau (s : State) (core slot : Nat) : State :=
  (List.range 4).foldl (fun s k =>
    if (s.sector core k).mau.any (·.slot == slot) then
      s.modSector core k fun x => { x with mau := x.mau.filter fun e => e.slot != slot }
    else s) s

/-- Requests behind those of a removed team move up (R391). -/
def State.moveUp (s : State) (gone : List Wait) : State :=
  gone.foldl (fun s w =>
    match w.cause with
    | .semaphore vf i _ => s.semTest vf i
    | .fifo cl n _ => match FMap.find? (s.cluster cl).fifos n with
      | some f => s.fifoMoved cl n f.vf
      | none => s
    | _ => s) s

/-- A resident team is removed: its threads exit without a trace, its buffer and its unfinished accesses are
dropped, and its slot drains. -/
def State.removeTeam (s : State) (core slot : Nat) : State :=
  let k := teamKey core slot
  let gone := (s.waits.filter fun w => w.2.ofSlot core slot).map Prod.snd
  let s := { s with
    threads := FMap.mapV (fun n t => if n / 2048 == k then t.leave else t) s.threads
    cohorts := FMap.mapV (fun n c => if n / 64 == k then { c with log := [], queues := [], pendM := [] } else c) s.cohorts
    waits := s.waits.filter fun w => !w.2.ofSlot core slot
    pending := s.pending.filter fun e => !actOfSlot core slot e }
  let s := ((s.modTeam core slot fun tm => { tm with storeBuf := [] }).dropMau core slot).moveUp gone
  let waiting := ((s.cluster (core / 4)).tce.filter fun e =>
    e.2.tid.core == core && e.2.tid.slot == slot && e.2.waitSeq.isSome).map Prod.fst
  (waiting.foldl (fun s id => s.tceEnd (core / 4) id 6) s).modSlot core slot fun e => { e with state := .draining }

/-- Records that a kill cancels: those of events, not those that inform (R44, R322). -/
def Record.cancellable (r : Record) : Bool := r.kind < 0x32 || r.kind == 0x36

/-- The records and standing events of teams that a test names are cancelled; claimed records find no event
for their wake (R44). -/
def State.cancelRecords (s : State) (p : Nat) (f : Record → Bool) : State :=
  s.modPartition p fun x =>
    { x with queue := x.queue.filter fun r => !(r.cancellable && f r)
             standing := x.standing.filter fun e => !f e.2.record }

/-- A bind record on its way for a team of killed grids. -/
def bindsFor (vf : Nat) (gs : List Nat) (e : Instr) : Bool :=
  match e with
  | .bindRecordDispatch _ _ b => (BindRec.of b).vf == vf && gs.contains (BindRec.of b).grid
  | _ => false

/-- Bind records of killed grids that wait for a slot are discarded. -/
def Core.dropQueued (c : Core) (vf : Nat) (gs : List Nat) : Core :=
  { c with slots := c.slots.map fun e =>
      match e.2.queued with
      | some b => if bindsFor vf gs (.bindRecordDispatch 0 0 b) then (e.1, { e.2 with queued := none }) else e
      | none => e }

/-- Bind records of killed grids are discarded, and their slots are given back. -/
def State.dropBinds (s : State) (vf : Nat) (gs : List Nat) : State :=
  let mine := s.pending.filter (bindsFor vf gs)
  let s := { s with pending := s.pending.filter fun e => !bindsFor vf gs e }
  let s := mine.foldl (fun s e =>
    match e with
    | .bindRecordDispatch c k _ => s.modSlot c k fun x => if x.state == .binding then { x with state := .free } else x
    | _ => s) s
  { s with cores := FMap.mapV (fun _ c => c.dropQueued vf gs) s.cores }

/-- Launch-queue entries and waiting deposits of killed grids are discarded. -/
def State.dropEntries (s : State) (vf : Nat) (gs : List Nat) : State :=
  (s.vf vf).queues.foldl (fun s e =>
    let headGone := (e.2.entries.head?.map fun (x : LaunchEntry) => gs.contains x.grid).getD false
    let s := if headGone then s.withdrawHead vf e.1 else s
    let s := s.modQueue vf e.1 fun l =>
      { l with entries := l.entries.filter fun x => !gs.contains x.grid
               waiting := l.waiting.filter fun x => !gs.contains x.1.grid }
    s.queueChanged vf e.1) s

/-- A saved team of a killed grid: its slot is saved too where another record waits for it. -/
def SavedTeam.kept (t : SavedTeam) (vf : Nat) (gs : List Nat) : Option SavedTeam :=
  let q := t.queued.filter fun b => !bindsFor vf gs (.bindRecordDispatch 0 0 b)
  if !gs.contains t.team.grid then some { t with queued := q }
  else if q.isSome then
    some { t with state := .draining, team := { t.team with storeBuf := [], allocs := [] }, cohorts := [], threads := []
                  pdLeft := [], tiles := [], waits := [], queued := q }
  else none

/-- Saved teams of killed grids go, with their commands and allocations. -/
def SaveArea.dropTeams (a : SaveArea) (vf : Nat) (gs : List Nat) : SaveArea :=
  let gone := a.teams.filter fun t => gs.contains t.team.grid
  { a with
    teams := a.teams.filterMap fun t => t.kept vf gs
    tce := a.tce.filter fun c => !gone.any fun t => c.2.2.tid.core == t.core && c.2.2.tid.slot == t.slot
    lines := a.lines.filter fun l => !gone.any fun t => t.core / 4 == l.cluster && t.team.lineTaken l.line }

/-- THE KILL of a grid and of every descendant (R44). (DEDUCED, log 77.) -/
def State.killGrid (s : State) (vf grid : Nat) : State :=
  let gs := s.doomed vf grid
  let s := (s.dropBinds vf gs).dropEntries vf gs
  let mine := s.teams.filter fun e => e.2.vf == vf && gs.contains e.2.grid
  let s := mine.foldl (fun s e => (s.removeTeam (e.1 / 8) (e.1 % 8)).emit (.slotFree (e.1 / 8) (e.1 % 8))) s
  let s := match s.partOf vf with
    | some p => s.cancelRecords p fun r => r.vf == vf && gs.contains r.grid
    | none => s
  let gone := ((s.vf vf).save.teams.filter fun t => gs.contains t.team.grid).flatMap fun t => t.waits.map Prod.snd
  let s := s.modVf vf fun v =>
    { v with save := v.save.dropTeams vf gs
             grids := FMap.mapV (fun n g =>
               if gs.contains n && !g.retired then { g with left := 0, killed := true } else g) v.grids }
  let s := s.moveUp gone
  (gs.filter (s.gridDone vf)).foldl (fun s g => s.emit (.gridRetire vf g)) s

/-- Every grid of a VF is killed. -/
def State.killAll (s : State) (vf : Nat) : State :=
  (((s.vf vf).grids.filter fun e => e.2.parent.isNone).map Prod.fst).foldl (fun s g => s.killGrid vf g) s

/-! ### The lending of R294 -/

/-- An entry names a semaphore as DoneSem. -/
def LaunchQueue.names (l : LaunchQueue) (sem : Nat) : Bool := l.entries.any fun e => e.doneSem == sem

/-- A grid is resident, a team of it bound and not exited, or draining (R43). -/
def State.underway (s : State) (vf grid : Nat) (g : Grid) : Bool :=
  !g.retired && (g.left == 0 || (s.teams.any fun e => e.2.vf == vf && e.2.grid == grid && !s.teamExited (e.1 / 8) (e.1 % 8)) ||
    ((s.vf vf).save.teams.any fun t => t.team.grid == grid && t.state != .draining) || s.pending.any (bindsFor vf [grid]))

/-- The semaphore and the count on which a queue's head has waited for 50 µs. -/
def State.starvedOn (s : State) (l : LaunchQueue) : Option (Nat × Nat) :=
  match l.headSince, l.entries with
  | some t, e :: _ => if !e.served && t + 50000 ≤ s.pkg.clk then some (e.waitSem, e.waitCount) else none
  | _, _ => none

/-- The conditions of R294 for a mapped queue; the semaphore and count come back. (DEDUCED, log 76.) -/
def State.starved (s : State) (p vf : Nat) (l : LaunchQueue) : Option (Nat × Nat) :=
  let v := s.vf vf
  let mapped := (s.partition p).mapping.map Prod.snd
  match s.starvedOn l with
  | none => none
  | some (sem, n) =>
    if (v.queues.any fun e => !mapped.contains e.1 && e.2.names sem) &&
        !(v.queues.any fun e => mapped.contains e.1 && e.2.names sem) &&
        !(v.grids.any fun e => e.2.doneSem == sem && s.underway vf e.1 e.2) then some (sem, n)
    else none

/-- The signaller: the unmapped queue of highest priority that names the semaphore, the lower number on a tie. -/
def State.signaller (s : State) (p vf sem : Nat) : Option Nat :=
  let mapped := (s.partition p).mapping.map Prod.snd
  (((s.vf vf).queues.filter fun e => !mapped.contains e.1 && e.2.names sem).foldl
    (fun (best : Option (Nat × Nat)) e =>
      match best with
      | some (_, r) => if r < e.2.rank then some (e.1, e.2.rank) else best
      | none => some (e.1, e.2.rank)) none).map Prod.fst

/-- The slot that step 1 frees: its number, and its queue. -/
def State.spareSlot (s : State) (p vf q : Nat) : Option (Nat × Nat) :=
  ((s.partition p).mapping.foldl (fun (best : Option (Nat × Nat × Nat)) e =>
    match FMap.find? (s.vf vf).queues e.2 with
    | some l =>
      let partly := (l.entries.head?.map fun (x : LaunchEntry) => x.next != 0).getD false
      if e.2 == q || partly || !(l.entries.isEmpty || (s.starved p vf l).isSome) then best
      else match best with
        | some (_, _, r) => if l.rank ≤ r then some (e.1, e.2, l.rank) else best
        | none => some (e.1, e.2, l.rank)
    | none => best) none).map fun x => (x.1, x.2.1)

/-- One mapped queue is tested, and its signaller is mapped. -/
def State.donateFor (s : State) (p vf q : Nat) : State :=
  match FMap.find? (s.vf vf).queues q with
  | none => s
  | some l =>
    match s.starved p vf l with
    | none => s
    | some (sem, n) =>
      match s.signaller p vf sem with
      | none => s
      | some sig =>
        let own := (((s.partition p).mapping.filter (·.2 == q)).map Prod.fst).headD 0
        let (slot, s) := match s.spareSlot p vf q with
          | some (slot, out) => (slot, s.unmap p vf out)
          | none => (own, (s.unmap p vf q).modQueue vf q fun l => { l with ahead := true })
        let s := s.modPartition p fun x => { x with mapping := FMap.put x.mapping slot sig }
        let s := s.modQueue vf sig fun x =>
          { x with lent := if x.rank < l.rank then some (l.rank, sem, n) else x.lent }
        s.placeHead vf sig

/-- DONATION_TEST (R294). -/
def execDonationTest (p : Nat) (s : State) : Out :=
  let s := s.modPartition p fun x => { x with tested := s.pkg.clk }
  .next (match (s.partition p).resident with
    | some vf =>
      if (s.partition p).preempt.step != 0 then s
      else (s.partition p).mapping.foldl (fun s e => if s.mapped vf e.2 then s.donateFor p vf e.2 else s) s
    | none => s)

end Sys2Proof.Machine
end

