-- ==== Sys2Proof/Machine/Save.lean ====
section
/-! DEFINITION. Moving a team between its core and the context save area, as step P4, step P6 and R51 do it
(spec/01_machine.md R25, R26, spec/02_execution_model.md R41, R46, R51, spec/09_memories.md R203,
spec/13_fault_queues.md R336 to R340). -/

namespace Sys2Proof.Machine

/-! ### What a stopped thread holds -/

/-- A tag as it is saved: a known result stands in the buffer. -/
def Tag.pack (g : Tag) : Tag :=
  let g := { g with least := 0 }
  match g.stage with
  | .performed r => { g with stage := .arrived 0 r }
  | .arrived _ r => { g with stage := .arrived 0 r }
  | .waiting => g

/-- The last cycle of a list. -/
def lastOf (ns : List Nat) : Nat := ns.foldl max 0

/-- A thread as it is saved: what its issued words produced is in its registers and tag buffers, its flags are visible,
and overdue timing starts again (R96, R109). -/
def Thread.pack (t : Thread) : Thread :=
  let t := t.settle (lastOf (t.pend.map (·.due)))
  { t with fresh := 0, tags := FMap.mapV (fun _ g => g.pack) t.tags, since := none, overdue := false }

/-- A cohort as it is saved. -/
def Cohort.pack (c : Cohort) : Cohort := c.settle (lastOf (c.pendM.map (·.due)))

/-- The sectors that hold cohorts of a team. -/
def Team.sectors (tm : Team) : List Nat :=
  (List.range 4).filter fun k => (List.range ((tm.kern.threads + 31) / 32)).any fun c => sectorOf c tm.baseSector == k

/-- The declared tiles of a team. -/
def Team.tiles (tm : Team) : List Nat := (List.range 16).filter fun a => tm.kern.tiles.getLsbD a

/-- The tiles of a team that are not clear, by sector. -/
def State.teamTiles (s : State) (core : Nat) (tm : Team) : List (Nat × Nat × TileState) :=
  tm.sectors.flatMap fun k => tm.tiles.filterMap fun a =>
    (FMap.find? (s.sector core k).tiles a).map fun x => (k, a, x)

/-- Every declared tile of a team reads +0.0 (R99). -/
def State.clearTiles (s : State) (core : Nat) (tm : Team) : State :=
  tm.sectors.foldl (fun s k => s.modSector core k fun x =>
    { x with tiles := x.tiles.filter fun e => !tm.tiles.contains e.1 }) s

/-- A core is entered by teams of a VF: what it holds of another VF is dropped (R195, R269, R384). -/
def State.enterCore (s : State) (core vf : Nat) : State :=
  if (s.core core).vf == some vf then s
  else s.modCore core fun c =>
    { c with vf := some vf, l1 := [], icache := [], perf := [], perfOld := [] }

/-! ### Saving -/

/-- A copy command in the save area, under its team's partition-relative core. -/
def TceCmd.pack (c : TceCmd) (rel : Nat) : TceCmd := { c with tid := { c.tid with core := rel }, boxes := [] }

/-- Commands of a slot in its cluster's engine. -/
def State.slotCmds (s : State) (core slot : Nat) : List (Nat × TceCmd) :=
  (s.cluster (core / 4)).tce.filter fun e => e.2.tid.core == core && e.2.tid.slot == slot

/-- Move the commands of a slot to the save area; their locks go. -/
def State.saveCmds (s : State) (p vf core slot : Nat) : State :=
  (s.slotCmds core slot).foldl (fun s e =>
    let s := (s.unlock (core / 4) e.1).modCluster (core / 4) fun k => { k with tce := FMap.del k.tce e.1 }
    s.modVf vf fun v => { v with save := { v.save with
      tce := v.save.tce ++ [(s.relCluster p (core / 4), e.1, e.2.pack (s.relCore p core))] } }) s

/-- A team as it is saved. A draining slot keeps only the team's identity (R41). -/
def State.teamImage (s : State) (core slot : Nat) (tm : Team) (donated : Bool) : SavedTeam :=
  let k := teamKey core slot
  let now := s.cycle core
  let st := (s.slot core slot).state
  let mine := if st == .draining then [] else s.threads.filter fun e => e.1 / 2048 == k
  { donated := donated, core := s.relCore tm.partition core, slot := slot, state := st, team := tm
    cohorts := if st == .draining then [] else
      (s.cohorts.filter fun e => e.1 / 64 == k).map fun e => (e.1 % 64, e.2.pack)
    threads := mine.map fun e => (e.1 % 2048, e.2.pack)
    pdLeft := (mine.filter fun e => now < e.2.readyAt).map fun e => (e.1 % 2048, e.2.readyAt - now)
    tiles := s.teamTiles core tm
    waits := s.waits.filter fun w => w.2.ofSlot core slot && !(st == .draining && w.2.cause == .flight)
    record := (s.slot core slot).record
    queued := (s.slot core slot).queued }

/-- A slot loses its team and everything of it on the core. -/
def State.vacate (s : State) (core slot : Nat) (tm : Team) : State :=
  let k := teamKey core slot
  ({ s with
    threads := s.threads.filter fun e => e.1 / 2048 != k
    cohorts := s.cohorts.filter fun e => e.1 / 64 != k
    teams := FMap.del s.teams k
    waits := s.waits.filter fun w => !w.2.ofSlot core slot
    pending := s.pending.filter fun e => !actOfSlot core slot e }.clearTiles core tm).modSlot core slot fun _ => .reset

/-- The boxes in flight of a command finish (R285). -/
def State.finishBoxes (s : State) (cl id : Nat) (c : TceCmd) : State :=
  if c.waitSeq.isSome then s
  else c.flying.foldl (fun s b =>
    match FMap.find? (s.cluster cl).tce id with
    | some c => if c.waitSeq.isSome then s else s.tceBox cl id c b
    | none => s) s

/-- The engines of a slot's team reach their stop units (R336): its MAU queues are empty, its boxes in flight done. -/
def State.quietTeam (s : State) (core slot : Nat) : State :=
  let s := (List.range 4).foldl (fun s k =>
    let q := (s.sector core k).mau
    if q.any (·.slot == slot) then s.mauFinish core k q.length else s) s
  (s.slotCmds core slot).foldl (fun s e => s.finishBoxes (core / 4) e.1 e.2) s

/-- The replays that stand pending for a slot are made (R26). -/
def State.finishReplays (s : State) (core slot : Nat) : State :=
  (s.pending.filter fun e => actOfSlot core slot e).foldl (fun s e =>
    match e with
    | .replay c k a n idx ls => (s.taken e).replayLanes ⟨c, k, a, n⟩ idx ls
    | _ => s) s

/-- SAVE A TEAM: its stores in flight are performed, and its state moves to the save area. -/
def State.saveTeam (s : State) (core slot : Nat) (donated : Bool) : State :=
  match s.team? core slot with
  | none => s
  | some tm =>
    let s := s.drain fun f => f.core == core && (f.tid.map (·.slot)) == some slot
    let s := if donated then (s.finishReplays core slot).quietTeam core slot else s
    let img := s.teamImage core slot tm donated
    let s := (s.saveCmds tm.partition tm.vf core slot).vacate core slot tm
    let s := s.modVf tm.vf fun v => { v with save := { v.save with teams := v.save.teams ++ [img] } }
    if donated then s.moveUp (img.waits.map Prod.snd) else s

/-! ### The context save area in the VF's memory (R338) -/

/-- The frame of a page of a VF's context save area, and its compartment: none where no pinned local leaf names one, so that
no save takes the fault path. -/
def State.savePage (s : State) (vf va : Nat) : Option (Nat × Nat) :=
  if 2 ^ 56 ≤ va then none
  else match s.leafNow vf va with
    | some e => if leafKind e == 0 && leafPin e then some (leafPayload e, leafComp e) else none
    | none => none

/-- WHAT A SAVE LEAVES IN MEMORY: a number of bytes from the translated address of the save area on hold contents that are
not specified, since no rule lays them out (R338). (DESIGN CHOICE, log 173.) -/
def State.fillSaveArea (s : State) (vf : Nat) : State :=
  let n := Config.choose s.draws 0
  let d := s.draws + 1
  (List.range ((n + 65535) / 65536)).foldl (fun s i =>
    match s.savePage vf ((s.vf vf).saveArea + 65536 * i) with
    | some (frame, comp) => s.homeWrite vf comp false frame
        ((List.range (min 65536 (n - 65536 * i))).map fun k => Config.freeByte (d + 65536 * i + k))
    | none => s) { s with draws := d + n }

/-! ### Lines (R203) -/

/-- A line as it is saved: with its age, and Expired where it is stale. -/
def State.lineImage (s : State) (p cl line : Nat) (l : ScrLine) : SavedLine :=
  ⟨s.relCluster p cl, line, s.ageOf l.stamp, { l with expired := l.expired || s.stale cl l }⟩

/-- A saved line as it is written back: stamped with now minus its age. -/
def State.lineBack (s : State) (x : SavedLine) : ScrLine :=
  { x.data with stamp := (s.nowUs + 65536 - x.age % 65536) % 65536, since := s.pkg.clk }

/-- Write a saved line into a cluster. -/
def State.putLine (s : State) (cl : Nat) (x : SavedLine) : State :=
  { s with scratch := FMap.put s.scratch (cl * 16384 + x.line) (s.lineBack x) }

/-- The valid lines of a team's allocations move to the save area. -/
def State.saveTeamLines (s : State) (core : Nat) (tm : Team) : State :=
  let cl := core / 4
  let mine := s.scratch.filter fun e => e.1 / 16384 == cl && e.2.valid && tm.lineTaken (e.1 % 16384)
  let imgs := mine.map fun e => s.lineImage tm.partition cl (e.1 % 16384) e.2
  { s with scratch := s.scratch.filter fun e => !(e.1 / 16384 == cl && tm.lineTaken (e.1 % 16384)) }.modVf tm.vf fun v =>
    { v with save := { v.save with lines := v.save.lines ++ imgs } }

/-- A saved line of a team. -/
def SavedTeam.owns (t : SavedTeam) (x : SavedLine) : Bool := x.cluster == t.core / 4 && t.team.lineTaken x.line

/-- The lines of a saved team are written into a cluster. -/
def State.restoreTeamLines (s : State) (vf cl : Nat) (t : SavedTeam) : State :=
  let mine := (s.vf vf).save.lines.filter t.owns
  (mine.foldl (fun s x => s.putLine cl x) s).modVf vf fun v =>
    { v with save := { v.save with lines := v.save.lines.filter fun x => !t.owns x } }

/-! ### Reloading -/

/-- A saved cause, in the clusters that the team is now on. -/
def Cause.moved (c : Cause) (core : Nat) : Cause :=
  let at_ := fun cl => core / 16 * 4 + cl % 4
  match c with
  | .granule cl l => .granule (at_ cl) l
  | .barrier cl o r t => .barrier (at_ cl) o r t
  | .fifo cl n p => .fifo (at_ cl) n p
  | c => c

/-- A reloaded request takes its place again: what has come about meanwhile ends it. -/
def State.reviveWait (s : State) (n : Nat) : State :=
  match FMap.find? s.waits n with
  | none => s
  | some w =>
    let t := w.tid
    match w.cause with
    | .granule .. | .barrier .. | .publish _ | .grid .. | .flight => (s.retryWait n (laneStep w.instr)).finishExit t
    | .semaphore vf i _ => s.semTest vf i
    | .row q => s.serveRow t.core t.slot t.cohort q w.ops.a.toNat
    | .fifo cl k _ => s.fifoMoved cl k (s.vfOf t)
    | .window i => if s.windowState i == 1 || s.windowState i == 3 then s else s.endWait n ⟨[], 0, none⟩
    | .ack m =>
      if (FMap.find? s.messages m).isSome then s
      else
        let s := { s with waits := FMap.mod s.waits n fun w => { w with cause := .acked } }
        let open_ := s.waits.any fun x => x.2.ops.c == w.ops.c && match x.2.cause with | .ack k => (FMap.find? s.messages k).isSome | _ => false
        if open_ then s else s.endWait n ⟨[], 0, none⟩
    | .acked =>
      if s.waits.any fun x => x.2.ops.c == w.ops.c && match x.2.cause with | .ack k => (FMap.find? s.messages k).isSome | _ => false
      then s else s.endWait n ⟨[], 0, none⟩
    | .head .. | .logRoom _ => s

/-- The requests of a saved team, in the slot that it returns to. -/
def SavedTeam.requests (t : SavedTeam) (core slot : Nat) : List (Nat × Wait) :=
  t.waits.map fun e => (e.1, { e.2 with tid := { e.2.tid with core := core, slot := slot }, cause := e.2.cause.moved core })

/-- Saved requests take again the places that they had (R381). (DEDUCED, log 121.) -/
def State.reviveWaits (s : State) (ws : List (Nat × Wait)) : State :=
  let ordered := ws.foldl (fun (m : FMap Wait) (e : Nat × Wait) => FMap.put m e.1 e.2) []
  let s := { s with waits := ordered.foldl (fun (m : FMap Wait) (e : Nat × Wait) => FMap.put m e.1 e.2) s.waits }
  ordered.foldl (fun s e => s.reviveWait e.1) s

/-- Saved commands of a team join the engine again at their places in its order, and the accepted ones that it can run
take their locks (R285). (DEDUCED, log 92.) -/
def State.reloadCmds (s : State) (vf core : Nat) (t : SavedTeam) (teamSlot : Nat) : State :=
  let own := fun (c : Nat × Nat × TceCmd) => c.2.2.tid.core == t.core && c.2.2.tid.slot == t.slot
  let cl := core / 4
  let back := (s.vf vf).save.tce.filter own
  let s := back.foldl (fun s e =>
    let q := (s.cluster cl).tce
    let id := if (FMap.find? q e.2.1).isNone then e.2.1 else (s.cluster cl).tceNext
    let slot := if q.any fun x => x.2.slot == e.2.2.slot then ((List.range 64).find? fun k => !q.any fun x => x.2.slot == k).getD 0
      else e.2.2.slot
    let c := { e.2.2 with tid := { e.2.2.tid with core := core, slot := teamSlot }, slot := slot }
    s.modCluster cl fun k => { k with tce := FMap.put k.tce id c, tceNext := max k.tceNext (id + 1) }) s
  let s := back.foldl (fun s _ => s.resumeCmd cl) s
  s.modVf vf fun v => { v with save := { v.save with tce := v.save.tce.filter fun c => !own c } }

/-- Events that stand against a team follow it to its slot. -/
def State.moveStanding (s : State) (p vf : Nat) (t : SavedTeam) (core slot : Nat) : State :=
  s.modPartition p fun x => { x with standing := FMap.mapV (fun _ e =>
    if e.record.vf == vf && e.record.grid == t.team.grid && e.record.team == t.team.index then
      { e with record := { e.record with core := core, slot := slot } } else e) x.standing }

/-- RELOAD A TEAM into a slot of a core, its lines and requests apart: threads go on with the PD counts they had
left. -/
def State.reloadTeam (s : State) (t : SavedTeam) (core slot : Nat) (record : List Byte) : State :=
  let vf := t.team.vf
  let k := teamKey core slot
  let now := s.cycle core
  let s := s.enterCore core vf
  let s := { s with
    teams := FMap.put s.teams k t.team
    cohorts := t.cohorts.foldl (fun (m : FMap Cohort) (e : Nat × Cohort) => FMap.put m (k * 64 + e.1) e.2) s.cohorts
    threads := (t.threads.map fun (e : Nat × Thread) =>
      (k * 2048 + e.1, { e.2 with readyAt := now + FMap.getD t.pdLeft e.1 0 })).foldl
        (fun (m : FMap Thread) (e : Nat × Thread) => FMap.put m e.1 e.2) s.threads }
  let s := t.tiles.foldl (fun s x => s.setTile core x.1 x.2.1 x.2.2) (s.clearTiles core t.team)
  let s := (s.modSlot core slot fun e => { e with state := t.state, record := record, queued := t.queued }).moveStanding t.team.partition vf t core slot
  let s := s.modVf vf fun v => { v with save := { v.save with teams := v.save.teams.filter fun x =>
    !(x.core == t.core && x.slot == t.slot && x.team.grid == t.team.grid && x.team.index == t.team.index) } }
  let s := s.reloadCmds vf core t slot
  if t.state == .draining then s.emit (.slotFree core slot) else s

end Sys2Proof.Machine
end

