-- ==== Sys2Proof/Machine/Banks.lean ====
section
/-! DEFINITION. Bank modes of cluster memory, and where a team's reserves are placed (spec/09_memories.md R197,
R198, spec/12_queues.md R296, R313). -/

namespace Sys2Proof.Machine

def State.bank (s : State) (cl b : Nat) : BankMode := FMap.getD (s.cluster cl).banks b ⟨0, false, 0⟩

def State.setBank (s : State) (cl b : Nat) (m : BankMode) : State :=
  s.modCluster cl fun k => { k with banks := FMap.set k.banks b m ⟨0, false, 0⟩ }

/-- A scratch line, by its key, lies in a bank of a cluster: a bank has 256 lines. -/
def inBank (cl b key : Nat) : Bool := key / 16384 == cl && key % 16384 / 256 == b

/-- Some line of the bank belongs to a live allocation. -/
def State.bankLive (s : State) (cl b : Nat) : Bool := s.scratch.any fun e => inBank cl b e.1 && e.2.valid

/-- The FIFO of a bank, by number. -/
def State.fifoOf (s : State) (cl b : Nat) : Option (Nat × Fifo) :=
  List.find? (fun (e : Nat × Fifo) => e.2.bank == b) (s.cluster cl).fifos

/-- The partition whose core map holds a cluster. -/
def State.partitionAt (s : State) (cl : Nat) : Option Nat :=
  (List.find? (fun (e : Nat × Partition) => e.2.coreMap.contains (cl / 4)) s.partitions).map Prod.fst

/-- The lowest FIFO number of a cluster that is not created. -/
def State.nextFifo (s : State) (cl : Nat) : Option Nat := FMap.fresh (s.cluster cl).fifos 0 16

/-- A bank enters a mode: its lines start invalid, and a FIFO bank is created for the resident VF (R198,
R313). -/
def State.enterMode (s : State) (cl b mode : Nat) : State :=
  let s := { s with scratch := s.scratch.filter fun e => !inBank cl b e.1 }
  let s := s.modCluster cl fun k => { k with fifos := k.fifos.filter fun e => e.2.bank != b }
  let s := s.setBank cl b ⟨mode, false, 0⟩
  if mode == 2 then
    match s.nextFifo cl, (s.partitionAt cl).bind fun p => (s.partition p).resident with
    | some n, some vf => s.setFifo cl n ⟨vf, b, []⟩
    | _, _ => s
  else s

/-- A refused change is reported to the scheduler core (R198), in a record with VF 0 and core 0. (DESIGN CHOICE, log 180.) -/
def State.bankRefused (s : State) (cl : Nat) : State :=
  match s.partitionAt cl with
  | some p => (s.report p (s.bareRecord 0 0x38 0 0)).2
  | none => s

/-- A WRITE OF A BANK'S MODE by the scheduler core (R197, R198): cache mode drains first; a bank with live lines
or entries refuses; 11 is ignored, and so is any write to a disabled bank. -/
def State.setMode (s : State) (cl b mode : Nat) : State :=
  let m := s.bank cl b
  if m.mode == 3 || 3 ≤ mode then s
  else if m.switching then (if m.next == mode then s else s.setBank cl b { m with next := mode })
  else if m.mode == mode then s
  else match m.mode with
    | 0 => (s.setBank cl b ⟨0, true, mode⟩).emit (.bankModeDrainComplete cl b)
    | 1 => if s.bankLive cl b then s.bankRefused cl else s.enterMode cl b mode
    | _ => if ((s.fifoOf cl b).map fun e => !e.2.entries.isEmpty).getD false then s.bankRefused cl else s.enterMode cl b mode

/-- The lines of the cluster cache that a drained bank held: a free choice, with as many as the other banks
cannot hold. (DESIGN CHOICE, log 79.) -/
def State.drainLines (s : State) (cl : Nat) : State :=
  let keys := (s.cc.filter fun e => ccCluster e.1 == cl).map Prod.fst
  let gone := (keys.zipIdx.filter fun e => Config.choose (s.draws + e.2) 2 % 2 == 1).map Prod.fst
  let rest := keys.filter fun k => !gone.contains k
  (gone ++ rest.take (rest.length - s.ccCapacity cl)).foldl (fun s k => (s.ccBack k).ccDrop k)
    { s with draws := s.draws + keys.length }

/-- BANK_MODE_DRAIN_COMPLETE (R198). -/
def execBankModeDrainComplete (cl b : Nat) (s : State) : Out :=
  .next (let m := s.bank cl b
    if m.switching then (s.drainLines cl).enterMode cl b m.next else s)

/-! ### Reserves (R296) -/

/-- The first and one past the last bank of a reserve. -/
def bankSpan (off bytes : Nat) : Nat × Nat := (off / 131072, off / 131072 + (bytes + 131071) / 131072)

/-- The spans of a kernel's reserves at given offsets. -/
def Kernel.spans (k : Kernel) (res : Nat × Nat) : List (Nat × Nat) :=
  [bankSpan res.1 k.scratchCluster, bankSpan res.2 k.scratchQuad]

/-- A bank lies in one of some spans. -/
def inSpans (ss : List (Nat × Nat)) (b : Nat) : Bool := ss.any fun x => x.1 ≤ b && b < x.2

/-- The bind records that a core has been given and not obeyed yet, with their kernels. -/
def State.coming (s : State) (core : Nat) : List (BindRec × Kernel) :=
  (s.core core).slots.flatMap fun e =>
    ((if e.2.state == .binding then [e.2.record] else []) ++ e.2.queued.toList).filterMap fun b =>
      let r := BindRec.of b
      (s.kernelAt r.vf r.handle).map fun k => (r, k)

/-- The spans that the teams of a cluster hold, those about to come among them. -/
def State.heldSpans (s : State) (cl : Nat) : List (Nat × Nat) :=
  ((s.teams.filter fun e => e.1 / 32 == cl).flatMap fun e => e.2.kern.spans (e.2.resCluster, e.2.resQuad)) ++
  (List.range 4).flatMap fun i => (s.coming (cl * 4 + i)).flatMap fun x =>
    x.2.spans (x.1.scratchCluster, x.1.scratchQuad)

/-- A bank that a reserve may take: enabled, of no FIFO, held by no team. -/
def State.bankFree (s : State) (cl : Nat) (held : List (Nat × Nat)) (b : Nat) : Bool :=
  let m := s.bank cl b
  m.mode != 3 && m.mode != 2 && !(m.switching && m.next == 2) && !inSpans held b

/-- The lowest run of `n` free banks. -/
def State.bankRun (s : State) (cl : Nat) (held : List (Nat × Nat)) (from_ n : Nat) : Option Nat :=
  if n == 0 then some from_
  else ((List.range (65 - n)).filter (from_ ≤ ·)).find? fun first =>
    (List.range n).all fun i => s.bankFree cl held (first + i)

/-- The offsets of a team's reserves on a core (R296); none where it cannot have them. -/
def State.reserves (s : State) (core : Nat) (k : Kernel) (held : List (Nat × Nat)) : Option (Nat × Nat) :=
  let cl := core / 4
  let rc := bankRound k.scratchCluster / 131072
  let rq := bankRound k.scratchQuad / 131072
  if k.align then
    let p := core % 4
    let ok := (List.range rc).all (fun i => s.bankFree cl held (p * rc + i)) &&
      (List.range rq).all fun i => s.bankFree cl held (4 * rc + p * rq + i)
    if ok then some (p * rc * 131072, (4 * rc + p * rq) * 131072) else none
  else
    match s.bankRun cl held 0 rc with
    | none => none
    | some a =>
      let next := if rc == 0 then 0 else a + rc
      match s.bankRun cl held next rq with
      | some q => some (if rc == 0 then 0 else a * 131072, if rq == 0 then 0 else q * 131072)
      | none => none

/-- FIFO banks that a cluster still needs for a kernel. -/
def State.fifosMissing (s : State) (cl vf n : Nat) : Nat :=
  let made := ((s.cluster cl).fifos.filter fun e => e.2.vf == vf).length +
    ((List.range 64).filter fun b => (s.bank cl b).switching && (s.bank cl b).next == 2).length
  n - made

/-- The free banks that become FIFO banks: a free choice of the scheduler core. (DESIGN CHOICE, log 80.) -/
def State.fifoBanks (s : State) (cl : Nat) (held : List (Nat × Nat)) (n : Nat) : List Nat :=
  ((((List.range 64).map fun i => (Config.choose s.draws 64 + i) % 64)).filter (s.bankFree cl held)).take n

/-- Every bank of some spans is in scratch mode. -/
def State.scratchReady (s : State) (cl : Nat) (spans : List (Nat × Nat)) : Bool :=
  (List.range 64).all fun b => !inSpans spans b || ((s.bank cl b).mode == 1 && !(s.bank cl b).switching)

/-- The FIFOs of a kernel are created. -/
def State.fifosReady (s : State) (cl vf n : Nat) : Bool :=
  (List.range n).all fun i => (s.fifo? cl i vf).isSome

/-- The modes that a team's binding needs are set (R197): scratch for its reserves, FIFO for its queues. -/
def State.prepareBanks (s : State) (cl vf : Nat) (k : Kernel) (spans held : List (Nat × Nat)) : State :=
  let s := ((List.range 64).filter (inSpans spans)).foldl (fun s b => s.setMode cl b 1) s
  (s.fifoBanks cl (held ++ spans) (s.fifosMissing cl vf k.fifoBanks)).foldl (fun s b => s.setMode cl b 2)
    { s with draws := s.draws + 1 }

/-- Scratch banks that no reserve holds any more, and that hold no live line, return to cache mode (R197); a FIFO-mode bank
returns at no moment of its own. (DESIGN CHOICE, log 175.) -/
def State.returnBanks (s : State) (cl : Nat) (held : List (Nat × Nat)) : State :=
  ((List.range 64).filter fun b =>
    (s.bank cl b).mode == 1 && !(s.bank cl b).switching && !inSpans held b && !s.bankLive cl b).foldl
    (fun s b => s.setMode cl b 0) s

end Sys2Proof.Machine
end

