-- ==== Sys2Proof/Machine/Bind.lean ====
section
/-! DEFINITION. Binding: placement and admission, bind records and dispatch, the freeing of slots, and the saving
of a team of a blocked partition (spec/02_execution_model.md R29, R30, R37 to R41, R51, spec/12_queues.md R292,
R293, R295). -/

namespace Sys2Proof.Machine

/-! ### Admission (R37) -/

/-- The cohorts of a kernel that reside in a sector (R29). -/
def Kernel.cohortsIn (k : Kernel) (base sec : Nat) : List Nat :=
  (List.range ((k.threads + 31) / 32)).filter fun c => sectorOf c base == sec

/-- The threads of a kernel that reside in a sector. -/
def Kernel.threadsIn (k : Kernel) (base sec : Nat) : Nat :=
  ((k.cohortsIn base sec).map fun c => min 32 (k.threads - 32 * c)).foldl (· + ·) 0

/-- No two of some kernels declare a common tile. -/
def tilesApart : List Kernel → Bool
  | [] => true
  | k :: ks => ks.all (fun j => j.tiles &&& k.tiles == 0) && tilesApart ks

/-- The limits of one sector for the teams of a core. -/
def sectorFits (ts : List (Kernel × Nat)) (sec : Nat) : Bool :=
  let here := ts.filter fun t => !(t.1.cohortsIn t.2 sec).isEmpty
  (here.map fun t => t.1.threadsIn t.2 sec).foldl (· + ·) 0 ≤ 512 &&
  (here.map fun t => (t.1.cohortsIn t.2 sec).length).foldl (· + ·) 0 ≤ 16 &&
  (here.map fun t => t.1.threadsIn t.2 sec * t.1.regs).foldl (· + ·) 0 ≤ 65536 &&
  here.all (fun t => (t.1.cohortsIn t.2 sec).length ≤ 8) && tilesApart (here.map Prod.fst)

/-- The teams of a core, one that has exited and not left its slot among them, with those about to come. -/
def State.coreTeams (s : State) (core : Nat) (extra : List (Kernel × Nat)) : List (Kernel × Nat) :=
  (s.teams.filter fun e => e.1 / 8 == core).map (fun e => (e.2.kern, e.2.baseSector)) ++ extra

/-- A core admits some more teams (R37). -/
def State.admits (s : State) (core : Nat) (extra : List (Kernel × Nat)) : Bool :=
  let ts := s.coreTeams core extra
  ts.length ≤ 8 && (List.range 4).all (sectorFits ts)

/-! ### Plans (R38, R39) -/

/-- Where one team would be bound. -/
structure Plan where
  core : Nat
  slot : Nat
  base : Nat
  index : Nat
  res : Nat × Nat
  deriving DecidableEq, Repr

/-- Free slots of a core that no plan takes. -/
def State.freeSlots (s : State) (core : Nat) (plans : List Plan) : List Nat :=
  (List.range 8).filter fun k => (s.slot core k).state == .free && !plans.any fun p => p.core == core && p.slot == k

/-- A core will take some more teams once those about to come are there. -/
def State.willAdmit (s : State) (core : Nat) (extra : List (Kernel × Nat)) : Bool :=
  s.admits core ((s.coming core).map (fun x => (x.2, x.1.baseSector)) ++ extra)

/-- One team on one core: the first of the base sectors, from a preferred one on, that the core admits, and its
reserves. (DESIGN CHOICE, log 71.) -/
def State.planOn (s : State) (k : Kernel) (plans : List Plan) (index base draw core : Nat) : Option Plan :=
  let cl := core / 4
  let mine := (plans.filter (·.core == core)).map fun p => (k, p.base)
  let held := s.heldSpans cl ++ (plans.filter (·.core / 4 == cl)).flatMap fun p => k.spans p.res
  let slots := s.freeSlots core plans
  if slots.isEmpty then none
  else
    match ((List.range 4).map fun i => (base + i) % 4).find? fun b => s.willAdmit core (mine ++ [(k, b)]) with
    | none => none
    | some b => (s.reserves core k held).map fun r =>
        ⟨core, slots.getD (Config.choose draw slots.length % slots.length) 0, b, index, r⟩

/-- The first of some cores that takes a team. -/
def State.planFirst (s : State) (k : Kernel) (plans : List Plan) (index base draw : Nat) (cores : List Nat) :
    Option Plan := cores.findSome? (s.planOn k plans index base draw)

/-- The teams of a group on a unit's cores: each on a core of its own where one admits it (R39). -/
def State.planGroup (s : State) (k : Kernel) (base draw : Nat) (cores : List Nat) :
    List Plan → List Nat → Option (List Plan)
  | plans, [] => some plans
  | plans, i :: rest =>
    let fresh := cores.filter fun c => !plans.any (·.core == c)
    match s.planFirst k plans i (base / 4 ^ plans.length) draw fresh with
    | some p => s.planGroup k base draw cores (plans ++ [p]) rest
    | none =>
      match s.planFirst k plans i (base / 4 ^ plans.length) draw cores with
      | some p => s.planGroup k base draw cores (plans ++ [p]) rest
      | none => none

/-- Numbers from `a` on, around `n`. -/
def around (a n : Nat) : List Nat := (List.range n).map fun i => (a + i) % n

/-- The placement entry of a team or group: none is "any" (R38, R39). -/
def Kernel.placed (k : Kernel) (i : Nat) : Option Nat :=
  if k.place.isEmpty then none
  else
    let e := k.place.getD (i % k.place.length) 0xFFFF
    if e == 0xFFFF then none else some e

/-- The teams that bind together, from the next one of an entry. -/
def Kernel.together (k : Kernel) (next : Nat) : List Nat := (List.range (max k.groupSize 1)).map (next + ·)

/-- WHERE THE NEXT TEAM OR GROUP OF A KERNEL WOULD BE BOUND (R37 to R39); `any` and `base` are the scheduler
core's preferences. A group stands in the unit that GroupQuad names, whatever its size. (DESIGN CHOICE, log 174.) -/
def State.plan (s : State) (p : Nat) (k : Kernel) (next any base draw : Nat) : Option (List Plan) :=
  let count := 16 * (s.partition p).coreMap.length
  if count == 0 then none
  else if k.groupSize == 0 then
    let cores := match k.placed next with
      | some e => [e % count]
      | none => around any count
    (s.planFirst k [] next base draw (cores.filterMap (s.coreOf p))).map fun x => [x]
  else
    let unit := if k.groupQuad then 16 else 4
    let units := count / unit
    let us := match k.placed (next / k.groupSize) with
      | some e => [e % units]
      | none => around any units
    us.findSome? fun u =>
      s.planGroup k base draw ((List.range unit).filterMap fun i => s.coreOf p (u * unit + i)) [] (k.together next)

/-! ### Bind records (R40, R295) -/

/-- The banks that a plan needs are in their modes. -/
def State.planReady (s : State) (vf : Nat) (k : Kernel) (p : Plan) : Bool :=
  s.scratchReady (p.core / 4) (k.spans p.res) && s.fifosReady (p.core / 4) vf k.fifoBanks

/-- The spans of some plans on a cluster. -/
def planSpans (k : Kernel) (ps : List Plan) (cl : Nat) : List (Nat × Nat) :=
  (ps.filter (·.core / 4 == cl)).flatMap fun p => k.spans p.res

/-- Set the modes that some plans need. -/
def State.preparePlans (s : State) (vf : Nat) (k : Kernel) (ps : List Plan) : State :=
  ((ps.map (·.core / 4)).eraseDups).foldl (fun s cl => s.prepareBanks cl vf k (planSpans k ps cl) (s.heldSpans cl)) s

/-- Private blocks of a VF in use: by teams, saved teams and bind records on their way (R194). -/
def State.usedBlocks (s : State) (vf : Nat) : FMap Unit :=
  let live := (s.teams.filter fun e => e.2.vf == vf).map fun e => e.2.privBlock
  let saved := (s.vf vf).save.teams.map fun t => t.team.privBlock
  let coming := s.pending.filterMap fun e =>
    match e with
    | .bindRecordDispatch _ _ b => if (BindRec.of b).vf == vf then some (BindRec.of b).privBlock else none
    | _ => none
  (live ++ saved ++ coming).foldl (fun m b => FMap.put m b ()) []

/-- Write a bind record into a slot table: the slot is claimed, and dispatch follows. -/
def State.writeBind (s : State) (core slot : Nat) (r : BindRec) : State :=
  (s.modSlot core slot fun e => { e with state := .binding, record := r.image }).emit
    (.bindRecordDispatch core slot r.image)

/-- What a team is bound with, apart from its place. -/
structure BindJob where
  partition : Nat
  vf : Nat
  kern : Kernel
  grid : Nat
  depth : Nat
  args : List Byte
  relaunches : Nat
  /-- The private block of a team that has one. -/
  block : Option Nat
  restore : Bool
  deriving DecidableEq, Repr

/-- The bind record of one plan, its argument bytes laid down. (DESIGN CHOICE, log 70.) -/
def State.bindPlan (s : State) (j : BindJob) (p : Plan) : State :=
  let used := s.usedBlocks j.vf
  let block := j.block.getD (freeFrom used 8192 (Config.choose s.draws 8192) used.length)
  let m := (s.partition j.partition).args
  let addr := freeFrom m (2 ^ 32) 0 m.length
  let s := { s with draws := s.draws + 1 }.modPartition j.partition fun x => { x with args := FMap.put x.args addr j.args }
  s.writeBind p.core p.slot
    { handle := j.kern.handle, team := p.index, grid := j.grid, depth := j.depth, baseSector := p.base
      restore := j.restore, relaunches := j.relaunches, vf := j.vf, privBlock := block
      scratchCluster := p.res.1, scratchQuad := p.res.2, argsLen := j.args.length, argsAddr := addr, reservedOk := true }

/-- The records of some plans; banks that nobody needs return to cache mode. -/
def State.bindPlans (s : State) (j : BindJob) (ps : List Plan) : State :=
  let s := ps.foldl (fun s p => s.bindPlan j p) s
  ((ps.map (·.core / 4)).eraseDups).foldl (fun s cl => s.returnBanks cl (s.heldSpans cl ++ planSpans j.kern ps cl)) s

/-! ### Selection (R292, R293) -/

/-- The kernel of a queue's head whose request, if any, has been served; a head whose handle has become invalid stays.
(DESIGN CHOICE, log 178.) -/
def State.headKernel (s : State) (vf : Nat) (l : LaunchQueue) : Option (LaunchEntry × Kernel) :=
  match l.entries with
  | e :: _ =>
    if e.waitSem == 0xFFFF || e.served then (s.kernelAt vf (s.handleAddr vf e.handle)).map fun k => (e, k) else none
  | [] => none

/-- The plan of a ready mapped queue. -/
def State.queuePlan (s : State) (p vf q any base : Nat) : Option (LaunchEntry × Kernel × List Plan) :=
  match (FMap.find? (s.vf vf).queues q).bind (s.headKernel vf) with
  | some (e, k) => (s.plan p k e.next any base s.draws).map fun ps => (e, k, ps)
  | none => none

/-- The winner of a selection: the slot of the ready queue of highest priority, the first met from the pointer
on (R292). -/
def State.winner (s : State) (p vf any base : Nat) : Option (Nat × Nat) :=
  let x := s.partition p
  ((around x.pointer 16).filterMap fun k => (FMap.find? x.mapping k).map fun q => (k, q)).foldl
    (fun (best : Option (Nat × Nat)) e =>
      match FMap.find? (s.vf vf).queues e.2 with
      | some l =>
        let better := match best with
          | some (_, b) => ((FMap.find? (s.vf vf).queues b).map LaunchQueue.rank).getD 0 < l.rank
          | none => true
        if better && (s.queuePlan p vf e.2 any base).isSome then some e else best
      | none => best) none

/-- An entry has bound `n` more teams; a fully bound one leaves its queue. -/
def LaunchQueue.advance (l : LaunchQueue) (n : Nat) : LaunchQueue :=
  match l.entries with
  | e :: es =>
    let (x, y, z) := e.shape
    if x * y * z ≤ e.next + n then { l with entries := es, headSince := none }
    else { l with entries := { e with next := e.next + n } :: es }
  | [] => l

/-- Bind from the winner, or set the banks it needs. -/
def State.bindWinner (s : State) (p vf any base : Nat) : State :=
  match s.winner p vf any base with
  | none => s
  | some (slot, q) =>
    match s.queuePlan p vf q any base with
    | none => s
    | some (e, k, ps) =>
      if !ps.all (s.planReady vf k) then s.preparePlans vf k ps
      else
        let j : BindJob := ⟨p, vf, k, e.grid, e.depth, e.args, 0, none, false⟩
        let s := (s.bindPlans j ps).modQueue vf q fun l => l.advance ps.length
        let s := s.modPartition p fun x => { x with pointer := (slot + 1) % 16 }
        s.queueChanged vf q

/-! ### Saved teams of R51 -/

/-- A saved team's banks on a cluster are free (R296). -/
def State.ownBanksFree (s : State) (t : SavedTeam) (cl : Nat) (held : List (Nat × Nat)) : Bool :=
  let spans := t.team.kern.spans (t.team.resCluster, t.team.resQuad)
  (List.range 64).all fun b => !inSpans spans b || s.bankFree cl held b

/-- A saved team fits a core again: a slot, its limits, and its own offsets (R296); a team of a swap-out returns to its
own slot (R38). -/
def State.refits (s : State) (t : SavedTeam) (core : Nat) : Option Nat :=
  if !s.ownBanksFree t (core / 4) (s.heldSpans (core / 4)) || !s.willAdmit core [(t.team.kern, t.team.baseSector)] then none
  else ((s.freeSlots core []).filter fun k => t.donated || k == t.slot).head?

/-- The saved teams that return with a team: of a donated one its group, itself among them. -/
def State.savedGroup (s : State) (vf : Nat) (t : SavedTeam) : List SavedTeam :=
  let g := t.team.kern.groupSize
  if !t.donated then [t]
  else (s.vf vf).save.teams.filter fun x =>
    x.donated && x.team.grid == t.team.grid &&
      (x.team.index == t.team.index || (1 < g && x.team.index / g == t.team.index / g))

/-- The cores on which a saved team may be restored, in order of preference; a team of a swap-out and the teams of a
group return to their own (R38). -/
def State.restoreCores (s : State) (p any : Nat) (t : SavedTeam) : List Nat :=
  let count := 16 * (s.partition p).coreMap.length
  if !t.donated || 1 < t.team.kern.groupSize then (s.coreOf p t.core).toList
  else match t.team.kern.placed t.team.index with
    | some e => (s.coreOf p (e % count)).toList
    | none => (around any count).filterMap (s.coreOf p)

/-- Where a saved team returns. -/
def State.restorePlan (s : State) (p any : Nat) (t : SavedTeam) : Option Plan :=
  (s.restoreCores p any t).findSome? fun core => (s.refits t core).map fun slot =>
    ⟨core, slot, t.team.baseSector, t.team.index, (t.team.resCluster, t.team.resQuad)⟩

/-- The record that restores a saved team. -/
def State.bindSaved (s : State) (p : Nat) (t : SavedTeam) (x : Plan) : State :=
  s.bindPlan ⟨p, t.team.vf, t.team.kern, t.team.grid, t.team.depth, t.team.argBytes, t.team.relaunches,
    some t.team.privBlock, true⟩ x

/-- A saved team or group that a freed slot lets return; none returns in part. -/
def State.restoreOne (s : State) (p vf any : Nat) : Option State :=
  let ts := (s.vf vf).save.teams.filter fun t => !s.pending.any fun e =>
    match e with
    | .bindRecordDispatch _ _ b => (BindRec.of b).vf == vf && (BindRec.of b).grid == t.team.grid && (BindRec.of b).team == t.team.index
    | _ => false
  ts.findSome? fun t =>
    let g := s.savedGroup vf t
    let xs := g.filterMap fun x => (s.restorePlan p any x).map fun y => (x, y)
    if xs.length != g.length || (xs.map fun x => (x.2.core, x.2.slot)).eraseDups.length != xs.length then none
    else if xs.all fun x => s.scratchReady (x.2.core / 4) (x.1.team.kern.spans x.2.res) then
      some (xs.foldl (fun s x => s.bindSaved p x.1 x.2) s)
    else some (xs.foldl (fun s x => s.prepareBanks (x.2.core / 4) vf x.1.team.kern (x.1.team.kern.spans x.2.res)
      (s.heldSpans (x.2.core / 4))) s)

/-- The partition's dispatch runs: a VF is resident, and no pre-emption or freeze holds it (R25, R415). -/
def State.dispatching (s : State) (p : Nat) : Option Nat :=
  let x := s.partition p
  if x.preempt.step == 0 && !x.frozen then x.resident else none

/-- TEAM_BIND: a saved team returns, or one team or group of the winning queue is bound (R51, R292, R293).
(DEDUCED, log 73.) -/
def State.bindOne (s : State) (p any base : Nat) : State :=
  match s.dispatching p with
  | none => s
  | some vf =>
    match s.restoreOne p vf any with
    | some s => s
    | none => s.bindWinner p vf any base

def execTeamBind (p any base : Nat) (s : State) : Out := .next (s.bindOne p any base)

/-! ### Dispatch (R30, R40, R97) -/

/-- The argument registers that bytes fill (R97). -/
def argRegs (k : Kernel) (bs : List Byte) : FMap Word :=
  (List.range (min k.args (bs.length / 4))).foldl (fun m i => FMap.set m i (BitVec.ofNat 32 (fieldLE bs (4 * i) 4)) 0) []

/-- The lanes of a cohort that hold threads. -/
def Kernel.lanes (k : Kernel) (c : Nat) : LaneMask := maskOf ((List.range 32).filter fun l => 32 * c + l < k.threads)

/-- The team that a record describes (R295). -/
def BindRec.team? (r : BindRec) (k : Kernel) (p : Nat) (args : List Byte) (l2 : Bool) (bound : Nat) : Team where
  kern := k
  vf := r.vf
  partition := p
  grid := r.grid
  index := r.team
  depth := r.depth
  baseSector := r.baseSector
  privBlock := r.privBlock
  argBytes := args
  k := argRegs k args
  relaunchable := k.relaunch && l2
  relaunches := r.relaunches
  storeBuf := []
  resCluster := r.scratchCluster
  resQuad := r.scratchQuad
  allocs := []
  bound := bound

/-- The threads and cohorts of one slice at launch (R30, R309). -/
def State.launchSlice (s : State) (core slot : Nat) (access : Bool) (k : Kernel) : State :=
  let now := s.cycle core
  let entry := if access then k.accessEntry else k.entry
  (List.range ((k.threads + 31) / 32)).foldl (fun s c =>
    { s with
      cohorts := FMap.put s.cohorts (cohortKey core slot access c) (.launch (k.lanes c))
      threads := (lanesOf (k.lanes c)).foldl (fun (m : FMap Thread) l =>
        FMap.put m (tidKey ⟨core, slot, access, c, l⟩) (.launch entry now)) s.threads }) s

/-- A NEW TEAM IS LAUNCHED in a slot. -/
def State.launchTeam (s : State) (core slot p : Nat) (r : BindRec) (k : Kernel) (args : List Byte) : State :=
  let s := (s.enterCore core r.vf).modPartition p fun x => { x with bindCount := x.bindCount + 1 }
  let tm := r.team? k p args ((s.vf r.vf).wayMask != 0) (s.partition p).bindCount
  let s := ({ s with teams := FMap.put s.teams (teamKey core slot) tm }.clearTiles core tm).cacheAction core r.vf .device
  let s := s.launchSlice core slot false k
  if k.accessEntry != 0 then s.launchSlice core slot true k else s

/-- The saved team that a record restores. -/
def State.savedFor (s : State) (r : BindRec) : Option SavedTeam :=
  (s.vf r.vf).save.teams.find? fun t => t.team.grid == r.grid && t.team.index == r.team

/-- Wake records stored for a team go to the wake port again (R26). -/
def State.releaseWakes (s : State) (p vf grid index : Nat) : State :=
  let mine := fun (w : WakeRec) =>
    ((FMap.find? (s.partition p).standing w.seq.toNat).map fun e =>
      e.record.vf == vf && e.record.grid == grid && e.record.team == index).getD false
  let ws := (s.vf vf).save.wakes.filter mine
  let s := s.modVf vf fun v => { v with save := { v.save with wakes := v.save.wakes.filter fun w => !mine w } }
  ws.foldl (fun s w => s.emit (.wakeRecord p w false)) s

/-- A SAVED TEAM IS RESTORED in a slot, with its lines and its stored wakes. -/
def State.restoreTeam (s : State) (core slot p : Nat) (r : BindRec) (record : List Byte) (t : SavedTeam) : State :=
  let s := s.restoreTeamLines r.vf (core / 4) t
  let s := (s.modPartition p fun x => { x with bindCount := x.bindCount + 1 })
  let t := { t with team := { t.team with bound := (s.partition p).bindCount } }
  ((s.reloadTeam t core slot record).reviveWaits (t.requests core slot)).releaseWakes p r.vf r.grid r.team

/-- A rejected record is reported, and its slot given back (R37). -/
def State.refuseBind (s : State) (core slot p : Nat) (r : BindRec) : State :=
  let x := { s.bareRecord r.vf 0x37 0 0 with core := core, slot := slot, grid := r.grid, team := r.team }
  (s.report p x).2.modSlot core slot fun e => { e with state := .free }

/-- The argument bytes of a record are taken from the hub SRAM. -/
def State.takeArgs (s : State) (p : Nat) (r : BindRec) : List Byte × State :=
  ((FMap.getD (s.partition p).args r.argsAddr []).take r.argsLen,
    s.modPartition p fun x => { x with args := FMap.del x.args r.argsAddr })

/-- DISPATCH obeys a record on a claimed slot. -/
def State.obeyBind (s : State) (core slot : Nat) (record : List Byte) : State :=
  let r := BindRec.of record
  let p := (s.partOf r.vf).getD 0
  let (args, s) := s.takeArgs p r
  let s := s.modSlot core slot fun e => { e with state := .binding, record := record }
  match if r.reservedOk then s.kernelAt r.vf r.handle else none with
  | none => s.refuseBind core slot p r
  | some k =>
    if !s.admits core [(k, r.baseSector)] then s.refuseBind core slot p r
    else if r.restore then
      match s.savedFor r with
      | some t => s.restoreTeam core slot p r record t
      | none => s.refuseBind core slot p r
    else (s.launchTeam core slot p r k args).modSlot core slot fun e => { e with state := .resident }

/-- BIND_RECORD_DISPATCH: on an occupied slot the record waits (R40). -/
def execBindRecordDispatch (core slot : Nat) (record : List Byte) (s : State) : Out :=
  .next (let e := s.slot core slot
    if e.state == .free || (e.state == .binding && e.record == record) then s.obeyBind core slot record
    else s.modSlot core slot fun e => { e with queued := some record })

/-! ### Freeing a slot (R41) -/

/-- A record that waited for a slot is obeyed once the slot is free (R40). -/
def State.obeyQueued (s : State) (core slot : Nat) (queued : Option (List Byte)) : State :=
  match queued with
  | some b => s.obeyBind core slot b
  | none => s

/-- Some access of the slot's threads has not completed. -/
def State.slotBusy (s : State) (core slot : Nat) : Bool :=
  (s.stores.any fun e => e.2.core == core && (e.2.tid.map (·.slot)) == some slot) ||
  !(s.slotCmds core slot).isEmpty ||
  (List.range 4).any (fun k => (s.sector core k).mau.any (·.slot == slot)) ||
  s.waits.any fun w => w.2.ofSlot core slot

/-- A team's allocations end with it: their lines are invalid. -/
def State.endAllocs (s : State) (core slot : Nat) (tm : Team) : State :=
  tm.allocs.foldl (fun s a => s.freeAlloc ⟨core, slot, false, 0, 0⟩ a) s

/-- SLOT_FREE. -/
def State.freeSlot (s : State) (core slot : Nat) : State :=
  match s.team? core slot with
  | none => s
  | some tm =>
    if (s.slot core slot).state != .draining || s.slotBusy core slot then s
    else
      let queued := (s.slot core slot).queued
      ((s.endAllocs core slot tm).vacate core slot tm).obeyQueued core slot queued

def execSlotFree (core slot : Nat) (s : State) : Out := .next (s.freeSlot core slot)

/-! ### Blocked partitions (R51) -/

/-- A thread waits or is parked in the sense of R28: it could not be gathered, and no fetch is due for it. -/
def State.idle (s : State) (t : Tid) : Bool :=
  match s.thread? t with
  | none => true
  | some x =>
    x.exited || x.parked || x.exitIssued ||
    match s.offer t with
    | .none => !x.offers (s.cycle t.core)
    | _ => !s.ready t

/-- Every thread of the team in a slot waits or is parked (R51). -/
def State.teamIdle (s : State) (core slot : Nat) : Bool :=
  (s.slot core slot).state == .resident && (teamTids s core slot).all s.idle

/-- Every slot of a partition is held by such a team. -/
def State.allIdle (s : State) (p : Nat) : Bool :=
  !(s.coresOf p).isEmpty && (s.coresOf p).all fun c => (List.range 8).all (s.teamIdle c)

/-- The priority of a team: that of its grid's queue. -/
def State.teamRank (s : State) (tm : Team) : Nat :=
  match FMap.find? (s.vf tm.vf).grids tm.grid with
  | some g => ((FMap.find? (s.vf tm.vf).queues g.queue).map LaunchQueue.rank).getD 0
  | none => 0

/-- The occupying team of lowest priority, the most recently bound among equals. -/
def State.victim (s : State) (p : Nat) : Option (Nat × Team) :=
  (s.teams.filter fun e => e.2.partition == p).foldl (fun (best : Option (Nat × Team)) e =>
    match best with
    | some (_, b) =>
      if s.teamRank e.2 < s.teamRank b || (s.teamRank e.2 == s.teamRank b && b.bound < e.2.bound) then some e else best
    | none => some e) none

/-- A victim is saved with its whole group, its copies in flight done, lines and all. (DEDUCED, log 75.) -/
def State.donate (s : State) (core slot : Nat) : State :=
  (s.groupTeams core slot).foldl (fun s e =>
    let q := (s.slot (e.1 / 8) (e.1 % 8)).queued
    let s := (s.modSlot (e.1 / 8) (e.1 % 8) fun x => { x with queued := none }).quietTeam (e.1 / 8) (e.1 % 8)
    (((s.saveTeamLines (e.1 / 8) e.2).saveTeam (e.1 / 8) (e.1 % 8) true).fillSaveArea e.2.vf).obeyQueued (e.1 / 8) (e.1 % 8) q) s

/-- BLOCKED_CHECK: of a blocked partition one team is saved, and the waiting team is bound in its place. Where
the waiting team's banks are not in their modes yet, they are set first. -/
def State.unblock (s : State) (p any base : Nat) : State :=
  match s.dispatching p, s.victim p with
  | some vf, some (k, _) =>
    if !s.allIdle p then s
    else
      let saved := s.donate (k / 8) (k % 8)
      match saved.winner p vf any base with
      | none => s
      | some (_, q) =>
        match saved.queuePlan p vf q any base with
        | some (_, kern, ps) =>
          if ps.all (saved.planReady vf kern) then saved.bindWinner p vf any base
          else s.preparePlans vf kern ps
        | none => s
  | _, _ => s

def execBlockedCheck (p : Nat) (s : State) : Out :=
  .next ((s.modPartition p fun x => { x with checked := s.pkg.clk }).unblock p 0 0)

end Sys2Proof.Machine
end

