-- ==== Sys2Proof/Machine/Fabric.lean ====
section
/-! DEFINITION. The receiving side of the links: work tokens, landings, signals, remote atomics and
acknowledgements (spec/01_machine.md R24, R26, spec/12_queues.md R297 to R300, R304, R307, R308,
spec/13_fault_queues.md R339, spec/14_tables.md R357, spec/15_counters.md R371). -/

namespace Sys2Proof.Machine

/-! ### The roster (R300) -/

/-- Why a receiving port refuses a peer: 1 Kind invalid, 3 Receive clear (R317). -/
def State.receiveFail (s : State) (vf idx : Nat) : Option Nat :=
  if idx == 0xFF then none
  else match FMap.find? (s.vf vf).roster idx with
    | some r => if r.kind == 0 then some 1 else if r.receive then none else some 3
    | none => some 1

/-- The VF that an arrival names: an Ultra Ethernet peer names it by its JobID, with the VF's partition in bits 14:9 and
zeros in 23:15 (R308). -/
def State.jobVf (s : State) (job idx : Nat) : Option Nat :=
  let vf := job % 512
  let ethernet := idx != 0xFF && ((FMap.find? (s.vf vf).roster idx).map (·.kind == 2)).getD false
  if if ethernet then s.partOf vf == some (job / 512) else job < 512 then some vf else none

/-- Refused traffic is discarded, counted and reported. (DEDUCED, log 95.) -/
def State.refusePeer (s : State) (vf idx why : Nat) : State :=
  (s.modPkg fun k => { k with refusals := k.refusals + 1 }).reportBare vf 0x34 0 (BitVec.ofNat 64 (why * 256 + idx))

/-- A PACKET ARRIVES: one whose JobID names no VF is discarded and counted, one whose sender the VF's roster does not accept
is refused, and the others act (R300, R308). -/
def State.admitPacket (s : State) (job idx : Nat) (f : Nat → State) : State :=
  match s.jobVf job idx with
  | none => s.modPkg fun k => { k with jobDiscards := k.jobDiscards + 1 }
  | some vf =>
    match s.receiveFail vf idx with
    | some why => s.refusePeer vf idx why
    | none => f vf

/-- A landing that fails its checks writes nothing; it is counted and reported (R304). -/
def State.landingError (s : State) (vf idx : Nat) : State :=
  (s.modPkg fun k => { k with landingErrors := k.landingErrors + 1 }).reportBare vf 0x35 0 (BitVec.ofNat 64 (4 * 256 + idx))

/-! ### Work tokens (R297 to R299) -/

/-- A token is discarded and counted at its port. -/
def State.discardToken (s : State) (vf port : Nat) : State :=
  s.modVf vf fun v =>
    let p := FMap.getD v.ports port ⟨false, 0, 0⟩
    { v with ports := FMap.put v.ports port { p with discarded := p.discarded + 1 } }

/-- The roster index of a token's source. -/
def sourceIndex : TokenSource → Nat
  | .own | .ownPcie => 0xFF
  | .peer i => i

/-- WORK_TOKEN. -/
def State.token (s : State) (vf port : Nat) (src : TokenSource) (aligned : Bool) (bs : List Byte) : State :=
  if !aligned || bs.length != 64 then
    (s.modPkg fun k => { k with portErrors := k.portErrors + 1 }).reportBare vf 0x33 0 0
  else match s.receiveFail vf (sourceIndex src) with
    | some why => (s.discardToken vf port).refusePeer vf (sourceIndex src) why
    | none =>
      match FMap.find? (s.vf vf).ports port with
      | some p =>
        if p.enabled then s.launch vf p.queue .token (headOf (bs.take 16) (bs.drop 16)) (some port)
        else s.discardToken vf port
      | none => s.discardToken vf port

/-- An external host is attached: Almanac has not disabled the PCIe port (R403). -/
def State.hostAttached (s : State) : Bool := !s.pkg.disabled.contains (0x09, 0)

def execWorkToken (vf port : Nat) (src : TokenSource) (aligned : Bool) (bytes : List Byte) (s : State) : Out :=
  .next (if src == .ownPcie && !s.hostAttached then s
    else match s.jobVf vf (sourceIndex src) with
    | some v => s.token v port src aligned bytes
    | none => s.modPkg fun k => { k with jobDiscards := k.jobDiscards + 1 })

/-! ### Copies of a scratch line (R304) -/

/-- The bank holds the current copy of a cluster's lines: the collector has not streamed them. -/
def State.liveCopy (s : State) (vf rel : Nat) : Bool :=
  match s.partOf vf with
  | some p => (s.partition p).resident == some vf && !(s.vf vf).save.streamed.contains rel
  | none => false

/-- The saved image of a line. -/
def SaveArea.line? (a : SaveArea) (rel off : Nat) : Option SavedLine :=
  a.lines.find? fun l => l.cluster == rel && l.line == off / 512

/-- A saved line is stale. -/
def ScrLine.imageStale (l : ScrLine) : Bool := !l.written || l.expired

/-- The current copy of the line of a cluster destination, and whether it is stale. -/
def State.currentLine (s : State) (vf rel cl off : Nat) : Option (ScrLine × Bool) :=
  if s.liveCopy vf rel then
    let l := s.scrLine cl off
    if l.valid then some (l, s.stale cl l) else none
  else ((s.vf vf).save.line? rel off).bind fun x => if x.data.valid then some (x.data, x.data.imageStale) else none

/-- A write of a saved line: Full bits, and an age of 0. -/
def SavedLine.write (x : SavedLine) (off : Nat) (bs : List Byte) (fill : Bool) : SavedLine :=
  let l := x.data
  let o := off % 512
  let old := l.imageStale
  { x with age := 0, data := { l with
    bytes := overlay 0 (if old then List.replicate 512 0 else l.bytes) o bs
    full := (if old then 0 else l.full) ||| (if fill then granules o bs.length else 0)
    written := true, expired := false, poison := l.poison && bs.length != 512 } }

/-- Write into the current copy of one line; waiting loads on filled granules are served. -/
def State.landLine (s : State) (vf rel cl off : Nat) (bs : List Byte) (fill : Bool) : State :=
  if s.liveCopy vf rel then
    let s := s.scrWrite cl off bs fill
    if fill then s.serve cl off else s
  else s.modVf vf fun v => { v with save := { v.save with
    lines := v.save.lines.map fun x => if x.cluster == rel && x.line == off / 512 then x.write off bs fill else x } }

/-! ### Barrier effects (R24, R26, R339, R357, R371) -/

/-- A cluster destination: partition-relative cluster, package cluster, byte. -/
def State.landPlace (s : State) (vf : Nat) (x : DWord) : Option (Nat × Nat × Nat) :=
  match destOf x, s.destPlace vf x with
  | some (.cluster rel _), some (cl, off) => some (rel, cl, off)
  | _, _ => none

/-- A barrier that an arrival or a count may change: a barrier granule of a fresh line, in its current copy. -/
def State.barrierFresh (s : State) (vf : Nat) (x : DWord) : Bool :=
  match s.landPlace vf x with
  | some (rel, cl, off) =>
    match s.currentLine vf rel cl off with
    | some (l, stale) => !stale && l.barType.getLsbD (off % 512 / 16)
    | none => false
  | none => false

/-- The entry of the arrival log that a landing adds to, or the one it appends (R339). -/
def Vf.logArrival (v : Vf) (clk : DWord) (kind : Nat) (barrier : DWord) (count source : Nat) : Vf :=
  match v.arrivals.getLast? with
  | some e =>
    if kind == 1 && e.kind == 1 && e.barrier == barrier && e.source == source then
      { v with arrivals := v.arrivals.dropLast ++ [{ e with count := e.count + count }] }
    else { v with arrivals := v.arrivals ++ [⟨clk, barrier, count, source, v.arrivalSeq, kind⟩], arrivalSeq := (v.arrivalSeq + 1) % 2 ^ 32 }
  | none => { v with arrivals := [⟨clk, barrier, count, source, v.arrivalSeq, kind⟩], arrivalSeq := (v.arrivalSeq + 1) % 2 ^ 32 }

/-- The log has no room for an entry of its own. -/
def Vf.logFull (v : Vf) : Bool := 65536 ≤ v.arrivals.length

/-- One barrier effect of a landing: an arrival (kind 2), or a count of bytes (kind 1). -/
def State.barrierEffect (s : State) (vf kind : Nat) (barrier : DWord) (count source : Nat) : State :=
  if !s.barrierFresh vf barrier then s.landingError vf source
  else if s.away vf then s.modVf vf fun v => v.logArrival s.clk kind barrier count source
  else match s.landPlace vf barrier with
    | some (_, cl, off) =>
      if kind == 2 then s.barApply vf cl (off / 16 * 16) 1 0 0 false .device
      else s.barApply vf cl (off / 16 * 16) 0 count 0 false .device
    | none => s

/-- The barrier of the lowest Enabled trigger entry whose landing range holds a landing's first byte, and the bytes
inside the range (R357). -/
def State.landingBarrier (s : State) (vf : Nat) (dest : DWord) (n : Nat) : Option (DWord × Nat) :=
  (s.vf vf).triggers.findSome? fun e =>
    let t := e.2
    let b := t.landBase.toNat
    let d := dest.toNat
    if t.enabled && b ≤ d && d < b + t.landLen then some (t.barrier, min (d + n) (b + t.landLen) - d) else none

/-! ### Landings (R304) -/

/-- The lines of a cluster landing: first byte and bytes of each. -/
def linePieces (off : Nat) (bs : List Byte) : List (Nat × List Byte) :=
  (List.range ((off + bs.length + 511) / 512 - off / 512)).map fun i =>
    let lo := max off ((off / 512 + i) * 512)
    let hi := min (off + bs.length) ((off / 512 + i + 1) * 512)
    (lo, (bs.drop (lo - off)).take (hi - lo))

/-- Every line of a cluster landing may be written: valid, and no granule touched is a barrier. -/
def State.mayLand (s : State) (vf rel cl off : Nat) (bs : List Byte) : Bool :=
  off + bs.length ≤ 2 ^ 23 && (linePieces off bs).all fun x =>
    match s.currentLine vf rel cl x.1 with
    | some (l, _) => l.barType &&& granules (x.1 % 512) x.2.length == 0
    | none => false

/-- The pages of a translated landing: physical address, leaf, and bytes; none where one is not local and writable. -/
def State.pagePieces (s : State) (vf va : Nat) (bs : List Byte) : Option (List (Nat × TlbEntry × List Byte)) :=
  ((List.range ((va + bs.length + 65535) / 65536 - va / 65536)).map fun i =>
    let lo := max va ((va / 65536 + i) * 65536)
    let hi := min (va + bs.length) ((va / 65536 + i + 1) * 65536)
    match s.walk vf lo with
    | .leaf e =>
      let leaf := e.leafFor lo
      if leafKind leaf == 0 && leafW leaf && !s.windowed (leafPayload leaf) then
        some (leafPayload leaf + lo % 65536, { e with leaf := leaf }, (bs.drop (lo - va)).take (hi - lo))
      else none
    | _ => none).foldr (fun x acc => match x, acc with | some x, some l => some (x :: l) | _, _ => none) (some [])

/-- The walk's home marks the leaf Dirty (R346). (DEDUCED, log 96.) -/
def State.landDirty (s : State) (e : TlbEntry) : State :=
  if leafDirty e.leaf || s.entryAt e.leafAddr != e.leaf then s
  else s.homeWrite e.vf 0 false e.leafAddr (bytesLE 16 (dirtyLeaf e.leaf))

/-- The bytes of a translated landing are written at their homes. -/
def State.landPages (s : State) (ps : List (Nat × TlbEntry × List Byte)) : State :=
  ps.foldl (fun s x => (s.landDirty x.2.1).homeWrite x.2.1.vf (leafComp x.2.1.leaf) false x.1 x.2.2) s

/-- Bytes land at a destination; none where the checks fail. -/
def State.landBytes (s : State) (vf : Nat) (dest : DWord) (bs : List Byte) : Option State :=
  match destOf dest with
  | none => none
  | some (.translated va) =>
    if 2 ^ 56 < va + bs.length then none else (s.pagePieces vf va bs).map fun ps => s.landPages ps
  | some (.cluster _ _) =>
    match s.landPlace vf dest with
    | some (rel, cl, off) =>
      if s.mayLand vf rel cl off bs then some ((linePieces off bs).foldl (fun s x => s.landLine vf rel cl x.1 x.2 true) s)
      else none
    | none => none

/-- The barrier on which a landing is counted fails the staleness check, which so fails at arrival (R304, R371). -/
def State.countFails (s : State) (vf : Nat) (dest : DWord) (n : Nat) : Bool :=
  match s.landingBarrier vf dest n with
  | some (b, _) => !s.barrierFresh vf b
  | none => false

/-- A full arrival log withholds a landing that it would log (R339). -/
def State.landingHeld (s : State) (vf : Nat) (dest : DWord) (n : Nat) : Bool :=
  s.away vf && (s.vf vf).logFull && (s.landingBarrier vf dest n).isSome && !s.countFails vf dest n

/-- The bytes of a C1 land, and are counted on a trigger's barrier. -/
def State.c1Land (s : State) (vf roster : Nat) (dest : DWord) (bytes : List Byte) : State :=
  if s.countFails vf dest bytes.length then s.landingError vf roster
  else match s.landBytes vf dest bytes with
    | none => s.landingError vf roster
    | some s =>
      match s.landingBarrier vf dest bytes.length with
      | some (b, n) => s.barrierEffect vf 1 b n roster
      | none => s

/-- C1_LANDING: the bytes land, and are counted on a trigger's barrier; where the arrival log is full the landing
waits (R339). -/
def execC1Landing (vf roster : Nat) (dest : DWord) (bytes : List Byte) (s : State) : Out :=
  .next (s.admitPacket vf roster fun v =>
    if s.landingHeld v dest bytes.length then s.emit (.c1Landing vf roster dest bytes)
    else s.c1Land v roster dest bytes)

/-- A full arrival log withholds an arrival that it would log. -/
def State.signalHeld (s : State) (vf : Nat) (dest : DWord) : Bool :=
  s.away vf && (s.vf vf).logFull && s.barrierFresh vf dest

/-- C2_SIGNAL: one arrival at a barrier (R303, R304). -/
def execC2Signal (vf roster : Nat) (dest : DWord) (s : State) : Out :=
  .next (s.admitPacket vf roster fun v =>
    if s.signalHeld v dest then s.emit (.c2Signal vf roster dest) else s.barrierEffect v 2 dest 0 roster)

/-- C2W_WRITE: eight bytes land (R303). -/
def execC2wWrite (vf roster : Nat) (dest value : DWord) (s : State) : Out :=
  .next (s.admitPacket vf roster fun v => (s.landBytes v dest (bytesLE 8 value.toNat)).getD (s.landingError v roster))

/-- The sum that a C3 leaves. -/
def c3Sum (old : List Byte) (value : DWord) : List Byte := bytesLE 8 ((natLE old + value.toNat) % 2 ^ 64)

/-- A C3 on cluster memory: on the current copy, whose Full bits stay; a stale line takes none. (DEDUCED, log 94.) -/
def State.c3Cluster (s : State) (vf : Nat) (dest value : DWord) : Option State :=
  match s.landPlace vf dest with
  | some (rel, cl, off) =>
    match s.currentLine vf rel cl off with
    | some (l, stale) =>
      if stale || !s.mayLand vf rel cl off (bytesLE 8 0) then none
      else some (s.landLine vf rel cl off (c3Sum ((l.bytes.drop (off % 512)).take 8) value) false)
    | none => none
  | none => none

/-- The atomic at the destination's home. -/
def State.c3Land (s : State) (vf roster : Nat) (dest value : DWord) : State :=
  match destOf dest with
  | some (.translated va) =>
    match if 2 ^ 56 < va + 8 then none else s.pagePieces vf va (bytesLE 8 0) with
    | some ps =>
      let old := ps.flatMap fun x => memBytes s.mem x.1 x.2.2.length
      s.landPages ((s.pagePieces vf va (c3Sum old value)).getD [])
    | none => s.landingError vf roster
  | some (.cluster _ _) => (s.c3Cluster vf dest value).getD (s.landingError vf roster)
  | none => s.landingError vf roster

/-- C3_ATOMIC: atom.add.n64 without return at the destination's home (R303, R304). -/
def execC3Atomic (vf roster : Nat) (dest value : DWord) (s : State) : Out :=
  .next (s.admitPacket vf roster fun v => s.c3Land v roster dest value)

/-! ### Acknowledgements (R299, R307) -/

/-- A message is not acknowledged yet: it has not arrived, or its token waits at a full queue. -/
def State.ackHeld (s : State) (n : Nat) : Bool :=
  match FMap.find? s.messages n with
  | some m =>
    m.held || (m.roster == 0xFF && (s.pending.contains m.arrival ||
      (m.kind == 0 && (s.vf m.vf).queues.any fun q => q.2.waiting.any fun w => w.2 == some m.port)))
  | none => false

def execMessageAck (n : Nat) (s : State) : Out :=
  .next (if s.ackHeld n then s.emit (.messageAck n) else s.acknowledge n)

end Sys2Proof.Machine
end

