-- ==== Sys2Proof/Machine/Wake.lean ====
section
/-! DEFINITION. Wake records, the scheduler core's own records and the relaunch of a team, and the host fault queue
(spec/02_execution_model.md R45, R49, spec/13_fault_queues.md R318 to R324, R334, R341). -/

namespace Sys2Proof.Machine

/-! ### What an event allows (R322) -/

/-- The actions that a wake record may take on an event; `host` says that it belongs to the host complex.
(DEDUCED, log 100.) -/
def allows (kind : Nat) (host : Bool) (a : WakeAction) : Bool :=
  match kind, a with
  | 0x04, .resume | 0x05, .resume | 0x06, .resume | 0x07, .resume | 0x08, .resume | 0x0B, .resume | 0x0C, .resume => true
  | 0x10, .replay | 0x11, _ | 0x12, .replay | 0x13, .replay => true
  | 0x10, _ => host
  | 0x12, .kill => host
  | 0x14, .resume | 0x15, .resume | 0x16, .resume | 0x1B, .resume | 0x1C, .resume => true
  | 0x17, _ | 0x18, _ | 0x19, _ => true
  | 0x1A, .replay => true
  | 0x31, .replay => true
  | 0x31, _ => host
  | 0x12, .resume | 0x13, _ | 0x1A, _ => false
  | _, .kill => true
  | _, _ => false

/-! ### Wake records (R26, R320, R323, R341) -/

/-- The engine code and unit that stop the threads of a cohort: its sector, or the access stream engine
(R336). -/
def stopUnit (core : Nat) (access : Bool) (sector : Nat) : Nat × Nat :=
  if access then (2, core) else (1, core * 4 + sector)

/-- The cohort of an event has stopped, or is not on a core: its wake is stored (R26, R341, R415). -/
def State.wakeStored (s : State) (p : Nat) (r : Record) : Bool :=
  let x := s.partition p
  x.resident != some r.vf || x.frozen ||
  match s.team? r.core r.slot with
  | some tm =>
    !(tm.vf == r.vf && tm.grid == r.grid && tm.index == r.team) ||
      x.preempt.acks.contains (stopUnit r.core r.access (sectorOf r.cohort tm.baseSector))
  | none => true

/-- A wake record that changes nothing is counted. -/
def State.discardWake (s : State) (p : Nat) : State :=
  s.modPartition p fun x => { x with wakesDiscarded := x.wakesDiscarded + 1 }

/-- Where an event's cohort stands. -/
def Record.cohortId (r : Record) : CohortId := ⟨r.core, r.slot, r.access, r.cohort⟩

/-- The command that waits for an engine record: cluster and number. -/
def State.waitingCmd (s : State) (p seq : Nat) : Option (Nat × Nat) :=
  (s.clustersOf p).findSome? fun cl =>
    (List.find? (fun (e : Nat × TceCmd) => e.2.waitSeq == some seq) (s.cluster cl).tce).map fun e => (cl, e.1)

/-- An engine record is answered: the command goes on, or ends with status 6 (R283). -/
def State.wakeEngine (s : State) (p seq : Nat) (go : Bool) : State :=
  let s' := s.endEvent p seq
  match s.waitingCmd p seq with
  | some (cl, id) => if go then s'.modCmd cl id fun c => { c with waitSeq := none } else s'.tceEnd cl id 6
  | none => s'

/-- An action on a standing event (R323). -/
def State.actOn (s : State) (p seq : Nat) (e : Standing) (a : WakeAction) : State :=
  let r := e.record
  match a with
  | .kill => if r.kind == 0x31 then s.wakeEngine p seq false else s.killGrid r.vf r.grid
  | .resume =>
    if r.kind == 0x31 then s.wakeEngine p seq false
    else match r.log with
      | some idx => (s.resumeLanes r.cohortId idx r.lanes).endEvent p seq
      | none => s.endEvent p seq
  | .replay =>
    if r.kind == 0x31 then s.wakeEngine p seq true
    else match r.log with
      | some idx =>
        (s.modPartition p fun x => { x with standing := FMap.mod x.standing seq fun e => { e with answered := true } }).emit
          (.replay r.core r.slot r.access r.cohort idx r.lanes)
      | none => s.endEvent p seq

/-- The standing event that a wake record names: by its Seq, VF and cohort. A restore may have changed the
core. -/
def State.wokenEvent (s : State) (p : Nat) (w : WakeRec) : Option Standing :=
  match FMap.find? (s.partition p).standing w.seq.toNat with
  | some e => if e.record.vf == w.vf && e.record.cohort == w.cohort && !e.answered then some e else none
  | none => none

/-- WAKE_RECORD at a partition's wake port. (DEDUCED, log 51.) -/
def State.wake (s : State) (p : Nat) (w : WakeRec) (viaEret : Bool) : State :=
  match s.wokenEvent p w, w.action with
  | some e, some a =>
    if (viaEret && !e.host) || !allows e.record.kind e.host a then s.discardWake p
    else if if e.record.kind == 0x31 then (s.waitingCmd p w.seq.toNat).isNone else s.wakeStored p e.record then
      s.modVf w.vf fun v => { v with save := { v.save with wakes := v.save.wakes ++ [w] } }
    else s.actOn p w.seq.toNat e a
  | _, _ => s.discardWake p

def execWakeRecord (p : Nat) (w : WakeRec) (viaEret : Bool) (s : State) : Out := .next (s.wake p w viaEret)

/-- The wake record that answers a record. -/
def Record.answer (r : Record) (a : WakeAction) : WakeRec :=
  ⟨BitVec.ofNat 32 r.seq, r.vf, r.core, r.cohort, r.slot, some a⟩

/-! ### Relaunch (R49) -/

/-- The clusters' cores on which a team may be relaunched: any of its partition, on another cluster. -/
def State.relaunchCores (s : State) (core : Nat) (tm : Team) : List Nat :=
  let all := s.coresOf tm.partition
  ((around (Config.choose s.draws (all.length + 1)) all.length).map fun i => all.getD i 0).filter (· / 4 != core / 4)

/-- An error relaunches a team that is still relaunchable and has not been relaunched twice: it came through a load, a
fetch or a tile (R49, R219). -/
def relaunches (tm : Team) : Bool := tm.relaunchable && tm.relaunches < 2

/-- The record's team, on its core. -/
def State.recordTeam (s : State) (r : Record) : Option Team :=
  match s.team? r.core r.slot with
  | some tm => if tm.vf == r.vf && tm.grid == r.grid && tm.index == r.team then some tm else none
  | none => none

/-- Where a team would be relaunched. (DEDUCED, log 74.) -/
def State.relaunchPlan (s : State) (r : Record) (tm : Team) : Option Plan :=
  s.planFirst tm.kern [] tm.index (Config.choose s.draws 4) s.draws (s.relaunchCores r.core tm)

/-- THE RELAUNCH: buffer, records, commands and allocations of the team go, and it is bound anew. -/
def State.relaunch (s : State) (r : Record) (tm : Team) (x : Plan) : State :=
  let cl := r.core / 4
  let s := (s.modTeam r.core r.slot fun tm => { tm with storeBuf := [] }).cancelRecords tm.partition fun q =>
    q.vf == tm.vf && q.grid == tm.grid && q.team == tm.index
  let s := ((s.slotCmds r.core r.slot).map Prod.fst).foldl (fun s id => s.tceCancel cl id) s
  let s := (s.dropMau r.core r.slot).endAllocs r.core r.slot tm
  let s := s.vacate r.core r.slot tm
  { s with draws := s.draws + 1 }.bindPlans
    ⟨tm.partition, tm.vf, tm.kern, tm.grid, tm.depth, tm.argBytes, tm.relaunches + 1, some tm.privBlock, false⟩ [x]

/-! ### The scheduler core's records (R318, R322) -/

/-- Some lock of a cluster's table lies on the 64 KiB of an address. (DEDUCED, log 106.) -/
def State.lockNear (s : State) (core vf : Nat) (a : DWord) : Bool :=
  (s.cluster (core / 4)).locks.any fun l =>
    (l.scratch || l.vf == vf) && overlaps l.base l.len (a.toNat / 65536 * 65536) 65536

/-- What the scheduler core does with a record. -/
inductive SchedAct where
  | kill
  | inform
  /-- Drop the code line, and resume. -/
  | refetch
  | replay
  | relaunch (tm : Team) (x : Plan)
  | prepare (tm : Team) (x : Plan)
  /-- Not yet. -/
  | later
  deriving DecidableEq, Repr

/-- Instruction-integrity was answered at the same word, and the word has raised it again within 1 ms of the answer: records
of one raise that were written before the answer are not a second raise (R322). (DESIGN CHOICE, log 166.) -/
def State.integrityAgain (s : State) (p : Nat) (r : Record) : Bool :=
  (s.partition p).integrity.any fun e =>
    e.1 == r.vf && e.2.1 == r.address.toNat && e.2.2.2 ≤ r.seq && r.time.toNat ≤ e.2.2.1 + 1000000

/-- The answer to a record of a kind of the scheduler core. -/
def State.schedAct (s : State) (p : Nat) (r : Record) : SchedAct :=
  if r.kind == 0x37 || r.kind == 0x38 then .inform
  else if r.kind == 0x04 then (if s.integrityAgain p r then .kill else .refetch)
  else if r.kind == 0x1A then (if s.lockNear r.core r.vf r.address then .later else .replay)
  else if r.kind == 0x1E then
    if 65536 ≤ s.pkg.hostQueue.length then .later
    else match s.recordTeam r with
      | some tm =>
        if !relaunches tm then .kill
        else if (s.dispatching p).isNone then .later
        else match s.relaunchPlan r tm with
          | some x => if s.planReady tm.vf tm.kern x then .relaunch tm x else .prepare tm x
          | none => .later
      | none => if (s.vf r.vf).save.teams.any fun t => t.team.grid == r.grid && t.team.index == r.team then .later else .kill
  else .kill

/-- The record is one of the scheduler core's. -/
def Record.scheds (r : Record) : Bool := handlerOf r.kind == .scheduler && !r.host

/-- The first record that the scheduler core can answer now. -/
def State.nextSched (s : State) (p : Nat) : Option (Record × SchedAct) :=
  (s.partition p).queue.findSome? fun r =>
    if r.scheds then match s.schedAct p r with
      | .later => none
      | a => some (r, a)
    else none

/-- The record leaves its queue. -/
def State.takeRecord (s : State) (p seq : Nat) : State :=
  s.modPartition p fun x => { x with queue := x.queue.filter fun r => r.seq != seq }

/-- A copy of a record goes to the host fault queue: into its place of the ring, once the resident kernel has written the
ring's address (R319). (DESIGN CHOICE, log 171.) -/
def State.toHost (s : State) (r : Record) : State :=
  let s := match s.pkg.hostRing with
    | some a => { s with mem := memWrite s.mem (a + 64 * (s.pkg.hostTail % 65536)) r.bytes }
    | none => s
  s.modPkg fun k => { k with hostQueue := k.hostQueue ++ [r], hostTail := (k.hostTail + 1) % 65536 }

/-- The code line of a record is dropped from the instruction cache, and the answer remembered: that of a raise's first
record stands for its others. -/
def State.refetch (s : State) (p : Nat) (r : Record) : State :=
  let s := s.modCore r.core fun c => { c with icache := FMap.del c.icache (icacheKey r.vf (r.address.toNat / 64)) }
  if (s.partition p).integrity.any fun e => e.1 == r.vf && e.2.1 == r.address.toNat && r.seq < e.2.2.2 then s
  else s.modPartition p fun x => { x with integrity := (x.integrity.filter fun e => !(e.1 == r.vf && e.2.1 == r.address.toNat)) ++
    [(r.vf, r.address.toNat, s.pkg.clk, x.seq.toNat)] }

/-- SCHEDULER_RECORD_CLAIM. -/
def State.claimSched (s : State) (p : Nat) : State :=
  match s.nextSched p with
  | none => s
  | some (r, a) =>
    match a with
    | .later => s
    | .prepare tm x => s.preparePlans tm.vf tm.kern [x]
    | .inform => s.takeRecord p r.seq
    | .refetch => ((s.takeRecord p r.seq).refetch p r).emit (.wakeRecord p (r.answer .resume) false)
    | .replay => (s.takeRecord p r.seq).emit (.wakeRecord p (r.answer .replay) false)
    | .relaunch tm x => ((s.takeRecord p r.seq).toHost r).relaunch r tm x
    | .kill =>
      let s := s.takeRecord p r.seq
      (if r.kind == 0x1E then s.toHost r else s).killGrid r.vf r.grid

def execSchedulerRecordClaim (p : Nat) (s : State) : Out := .next (s.claimSched p)

/-! ### The host fault queue (R318, R319) -/

/-- HOST_RECORD_MOVE: a record of a host kind at the head moves while the ring has room. -/
def execHostRecordMove (p : Nat) (s : State) : Out :=
  .next (match (s.partition p).queue with
    | r :: _ =>
      if r.host && s.pkg.hostQueue.length < 65536 then (s.takeRecord p r.seq).toHost r else s
    | [] => s)

/-- HOST_FAULT_QUEUE_CONSUME: the resident kernel takes the oldest record. -/
def execHostFaultQueueConsume (s : State) : Out :=
  .next (if s.pkg.hostQueue.isEmpty then s
    else s.modPkg fun k => { k with hostQueue := k.hostQueue.drop 1, hostHead := (k.hostHead + 1) % 65536 })

end Sys2Proof.Machine
end

