-- ==== Sys2Proof/Machine/Reset.lean ====
section
/-! DEFINITION. The three resets (spec/00_scope.md R9, and the Reset lines of the inventories). -/

namespace Sys2Proof.Machine

/-! ### The memory of a VF (R9, R347) -/

/-- The entries of a table that hold a byte other than 0. -/
def State.entriesIn (s : State) (table n : Nat) : List Nat :=
  ((s.mem.filter fun c => table ≤ c.1 && c.1 < table + 16 * n).map fun c => (c.1 - table) / 16).eraseDups

/-- The local and open frames that the leaves of a table name (R193): first byte and length. -/
def State.framesIn (s : State) (table n : Nat) : List (Nat × Nat) :=
  (s.entriesIn table n).filterMap fun i =>
    let e := s.entryAt (table + 16 * i)
    if bitsOf e 0 2 == 2 && (leafKind e == 0 || leafKind e == 3) then some (leafPayload e, 65536) else none

/-- The tables below a table, itself among them, and the local frames that they name. -/
def State.spaceFrom (s : State) (table : Nat) : List Nat → List (Nat × Nat)
  | [] => []
  | [n] => (table, 16 * n) :: s.framesIn table n
  | n :: rest => (table, 16 * n) :: (s.entriesIn table n).flatMap fun i =>
      let e := s.entryAt (table + 16 * i)
      if bitsOf e 0 2 == 1 then s.spaceFrom (bitsOf e 64 52) rest else []

/-- The bytes that a VF's tables, and its local and open leaves, name. -/
def State.vfSpace (s : State) (vf : Nat) : List (Nat × Nat) := s.spaceFrom (s.vf vf).root [2048, 1024, 1024, 1024]

/-- An address lies in one of some ranges. -/
def inRanges (rs : List (Nat × Nat)) (a : Nat) : Bool := rs.any fun r => r.1 ≤ a && a < r.1 + r.2

/-- Some ranges of home memory are zeroed. -/
def State.zeroRanges (s : State) (rs : List (Nat × Nat)) : State :=
  { s with mem := s.mem.filter fun c => !inRanges rs c.1
           poison := FMap.drop (fun l _ => inRanges rs (l * 64)) s.poison
           writers := FMap.drop (fun l _ => inRanges rs (l * 64)) s.writers
           authors := FMap.drop (fun a _ => inRanges rs a) s.authors }

/-- What is left of a run of leaves, first and number, without those from `x` to before `y`. -/
def cutLeaves (x y : Nat) (e : Nat × Nat) : List (Nat × Nat) :=
  [(e.1, min x (e.1 + e.2) - e.1), (max y e.1, e.1 + e.2 - max y e.1)].filter fun e => e.2 != 0

/-- The lines of some ranges no longer lie beneath a failed node of the counter tree: their VF is reset (R213). -/
def State.treeWhole (s : State) (rs : List (Nat × Nat)) : State :=
  let left := rs.foldl (fun (l : List (Nat × Nat)) r => l.flatMap (cutLeaves (r.1 / 4096) ((r.1 + r.2 + 4095) / 4096))) s.treeFailed
  { s with treeFailed := left.foldl (fun (m : FMap Nat) (e : Nat × Nat) => FMap.put m e.1 e.2) [] }

/-! ### The units that a VF leaves -/

/-- Every valid key is discarded, and the fresh one has the next Generation (R217, R363). -/
def freshKeys (m : FMap Key) : FMap Key :=
  FMap.mapV (fun _ k => if k.valid then { k with generation := k.generation + 1 } else k) m

/-- A core without teams: registers, tiles, queues, counters and PERFSEL0-7 are cleared; the ABFT counter and log
stay (R386). (DEDUCED, log 126.) -/
def State.emptyCore (s : State) (core : Nat) : State :=
  let s := s.modCore core fun c =>
    { c with slots := [], l1 := [], icache := [], perfSel := [], perf := [], perfOld := [], vf := none }
  (List.range 4).foldl (fun s k => s.modSector core k fun x => { x with tiles := [], mau := [] }) s

/-- A cluster without a VF: lines and FIFOs go, every bank that is not disabled is in cache mode, and the engine
is idle. -/
def State.emptyCluster (s : State) (cl : Nat) : State :=
  let s := { s with
    scratch := FMap.drop (fun k _ => k / 16384 == cl) s.scratch
    scratchWriters := FMap.drop (fun k _ => k / 16384 == cl) s.scratchWriters
    scratchAuthors := FMap.drop (fun k _ => k / 2 ^ 23 == cl) s.scratchAuthors }
  s.modCluster cl fun k =>
    { k with banks := FMap.drop (fun _ m => m.mode != 3) k.banks, locks := [], tce := [], fifos := [] }

/-- The resident VF of a partition leaves it without being saved. -/
def State.evictVf (s : State) (p : Nat) : State :=
  let s := (s.coresOf p).foldl State.emptyCore s
  let s := (s.clustersOf p).foldl State.emptyCluster s
  s.modPartition p fun x =>
    { x with resident := none, mapping := [], preempt := .none, frozen := false, missed := [] }

/-- An act that stands pending for a VF. -/
def actOfVf (vf : Nat) (e : Instr) : Bool :=
  match e with
  | .workToken v _ _ _ _ | .c1Landing v _ _ _ | .c2Signal v _ _ | .c2wWrite v _ _ _ | .c3Atomic v _ _ _ => v % 512 == vf
  | .icacheFill _ v _ | .pageWalkComplete _ v _ _ | .queueRoomDeposit v _ | .gridRetire v _ | .forcedPublish _ v _
  | .invalidate _ v _ _ => v == vf
  | .wakeRecord _ w _ => w.vf == vf
  | .bindRecordDispatch _ _ b => (BindRec.of b).vf == vf
  | _ => false

/-- A VF after its own reset: what the hypervisor assigned to it stays, with its address-space record (R347);
queues, tables and counts are as after reset, and its keys are fresh. -/
def Vf.afterReset (v : Vf) : Vf :=
  { Vf.reset with
    partition := v.partition, wayMask := v.wayMask, debugGrant := v.debugGrant
    root := v.root, privBase := v.privBase, handleBase := v.handleBase, saveArea := v.saveArea
    keys := freshKeys v.keys }

/-- What the partition holds of a VF is discarded. -/
def Partition.without (x : Partition) (vf : Nat) : Partition :=
  { x with
    queue := x.queue.filter fun r => r.vf != vf
    standing := x.standing.filter fun e => e.2.record.vf != vf
    integrity := x.integrity.filter fun e => e.1 != vf
    args := if x.resident == some vf then [] else x.args }

/-- A request of the VF: of one of its teams, or of the head of one of its queues. -/
def State.waitOfVf (s : State) (vf : Nat) (w : Wait) : Bool :=
  match w.cause with
  | .head v _ _ _ => v == vf
  | _ => s.vfOf w.tid == vf

/-- A window of a VF that is reset closes at once and its key is discarded, the next one having the next Generation (R9,
R217); what waits for it is answered. (DEDUCED, log 126.) -/
def State.dropWindow (s : State) (idx : Nat) : State :=
  let s := (s.windowClosing idx).modWindow idx fun w => { w with state := 0, keyGen := w.keyGen + 1 }
  { s with pending := s.pending.eraseDups }

/-- The windows that a VF owns and that are not closed. -/
def State.openWindows (s : State) (vf : Nat) : List Nat :=
  (s.pkg.windows.filter fun w => w.2.ownerVf == vf && w.2.state != 0).map Prod.fst

/-- VF_RESET (R9): the VF's teams, records, queues, tables and caches go, its memory is zeroed under fresh keys,
and a freeze ends (R415). (DEDUCED, log 126.) -/
def State.resetVf (s : State) (vf : Nat) : State :=
  let space := s.vfSpace vf
  let s := { s with
    stores := FMap.drop (fun _ f => f.vf == vf || f.own == vf) s.stores
    waits := FMap.drop (fun _ w => s.waitOfVf vf w) s.waits
    pending := s.pending.filter fun e => !actOfVf vf e }
  let mine := s.teams.filter fun e => e.2.vf == vf
  let s := mine.foldl (fun s e => (s.dropMau (e.1 / 8) (e.1 % 8)).vacate (e.1 / 8) (e.1 % 8) e.2) s
  let s := match s.partOf vf with
    | some p =>
      let s := (s.modPartition p fun x => x.without vf).dropVf p vf
      if (s.partition p).resident == some vf then s.evictVf p else s
    | none => s
  let s := { s with
    cc := FMap.drop (fun _ l => l.vf == vf) s.cc
    l2 := FMap.drop (fun _ g => g.vf == vf) s.l2
    writers := FMap.drop (fun _ w => w.vf == vf) s.writers
    messages := FMap.drop (fun _ m => m.vf == vf) s.messages
    hubs := FMap.mapV (fun _ h => { h with
      service := h.service.filter fun e => e.vf != vf, held := h.held.filter fun e => e.vf != vf
      writeBacks := h.writeBacks.filter fun e => e.vf != vf }) s.hubs
    pinned := s.pinned.filter fun x => x.vf != vf }
  let s := (s.openWindows vf).foldl State.dropWindow s
  ((s.zeroRanges space).treeWhole space).modVf vf Vf.afterReset

def execVfReset (vf : Nat) (s : State) : Out := .next (s.resetVf vf)

/-! ### Module and cold reset -/

/-- An island's counters survive a module reset; its clock and guard band do not (R9, R388). -/
def Island.afterModule (i : Island) : Island :=
  { Island.reset with grant := i.grant, drawn := i.drawn, energy := i.energy, limited := i.limited }

/-- A cluster after a module reset: disabled banks and the counters of R386 stay. -/
def Cluster.afterModule (k : Cluster) : Cluster :=
  { Cluster.reset with
    banks := k.banks.filter fun e => e.2.mode == 3
    correctable := k.correctable, retentionLoss := k.retentionLoss, barEvents := k.barEvents }

/-- The package after a module reset. The coolant inlet temperature in effect is kept too: it is the coolant's.
(DEDUCED, log 127.) -/
def Package.afterModule (k : Package) : Package :=
  { Package.reset with
    clk := k.clk, clusterRemap := k.clusterRemap, coreRemap := k.coreRemap, granularity := k.granularity
    almanac := k.almanac, almanacAt := k.almanacAt, starts := k.starts, inService := k.inService
    measurements := k.measurements, hallLog := k.hallLog, certs := k.certs
    islands := FMap.mapV (fun _ i => i.afterModule) k.islands, disabled := k.disabled, inlet := k.inlet
    linkKeys := freshKeys k.linkKeys }

/-- The VFs after a reset of the package: only their keys' Generations are kept (R363). -/
def keysOnly (vs : FMap Vf) : FMap Vf :=
  (FMap.mapV (fun _ v => { Vf.reset with keys := freshKeys v.keys }) vs).filter fun e => !e.2.keys.isEmpty

/-- MODULE_RESET (R9). (DEDUCED, log 127.) -/
def State.afterModule (s : State) : State :=
  { State.reset with
    draws := s.draws, inputs := s.inputs
    clusters := FMap.mapV (fun _ k => k.afterModule) s.clusters
    slices := FMap.mapV (fun _ x => { Slice.reset with disabled := x.disabled }) s.slices
    vfs := keysOnly s.vfs
    pkg := s.pkg.afterModule }

def execModuleReset (s : State) : Out := .next s.afterModule

/-- A cold reset (R9): the whole package, and Almanac runs again; its records of earlier starts are kept (R400),
and key Generations rise (R363). (DEDUCED, log 128.) -/
def State.afterCold (s : State) (starts : Nat) : State :=
  { State.reset with
    draws := s.draws, inputs := s.inputs, vfs := keysOnly s.vfs
    pkg := { Package.reset with almanac := s.pkg.almanac, starts := starts } }

/-- POWER_ON: a cold reset with no start behind it. -/
def execPowerOn (s : State) : Out := .next (s.afterCold 0)

end Sys2Proof.Machine
end

