-- ==== Sys2Proof/Machine/Preempt.lean ====
section
/-! DEFINITION. Pre-emption: the stop of a partition's engines, the save of its clusters, the restore of a VF, and
halt (spec/01_machine.md R25, R26, spec/13_fault_queues.md R333, R336 to R340, spec/18_platform.md R415). -/

namespace Sys2Proof.Machine

/-! ### The engines of a partition (R336) -/

/-- Engine codes. -/
def engineCode : Engine → Nat
  | .sector => 1 | .ase => 2 | .mau => 3 | .tce => 4 | .walker => 5 | .banks => 6 | .storeBuffers => 7 | .hukotil => 8

/-- Every engine that a partition's collector asks to stop: code and unit. A sector or MAU is core × 4 + sector,
an ASE its core, a TCE, walker or bank set its cluster, the store buffers the partition, Hukotil its hub die. -/
def State.enginesOf (s : State) (p : Nat) : List (Nat × Nat) :=
  let cores := s.coresOf p
  let cls := s.clustersOf p
  (cores.flatMap fun c => (List.range 4).map fun k => (1, c * 4 + k)) ++ cores.map (fun c => (2, c)) ++
  (cores.flatMap fun c => (List.range 4).map fun k => (3, c * 4 + k)) ++
  (cls.flatMap fun cl => [(4, cl), (5, cl), (6, cl)]) ++ [(7, p), (8, (s.partition p).homeHub)]

/-- A replay that has not been performed, of a cohort that a sector, or the access stream engine as sector 4,
runs. -/
def State.replayAt (s : State) (core sector : Nat) : Bool :=
  s.pending.any fun e =>
    match e with
    | .replay c k a n _ _ =>
      c == core && (if a then sector == 4 else
        ((s.team? c k).map fun tm => sectorOf n tm.baseSector) == some sector)
    | _ => false

/-- A bind record is on its way to a core. -/
def State.bindAt (s : State) (core : Nat) : Bool :=
  s.pending.any fun e =>
    match e with
    | .bindRecordDispatch c _ _ => c == core
    | _ => false

/-- A box of a cluster's engine is in flight. -/
def State.boxFlying (s : State) (cl : Nat) : Bool :=
  (s.cluster cl).tce.any fun e => e.2.accepted && e.2.waitSeq.isNone && !e.2.boxes.isEmpty

/-- The sectors, access stream engines and MAUs of a cluster, and its TCE. -/
def clusterEngines (cl : Nat) : List (Nat × Nat) :=
  ((List.range 4).flatMap fun i =>
    let c := cl * 4 + i
    (2, c) :: (List.range 4).flatMap fun k => [(1, c * 4 + k), (3, c * 4 + k)]) ++ [(4, cl)]

/-- Every one of some engines has acknowledged. -/
def Preempt.acked (x : Preempt) (es : List (Nat × Nat)) : Bool := es.all x.acks.contains

/-- An engine stands at its stop unit. -/
def State.atStop (s : State) (x : Preempt) (code unit : Nat) : Bool :=
  match code with
  | 1 => !s.replayAt (unit / 4) (unit % 4) && !s.bindAt (unit / 4)
  | 2 => !s.replayAt unit 4 && !s.bindAt unit
  | 3 => x.acks.contains (1, unit) && (s.sector (unit / 4) (unit % 4)).mau.isEmpty
  | 4 => !s.boxFlying unit
  | 6 => x.acked (clusterEngines unit)
  | _ => true

/-- The collector waits for engines: step P2, or P3 and P4 of other clusters. -/
def Preempt.stopping (x : Preempt) : Bool := x.step == 2 || x.step == 3

/-- The engine may acknowledge now. (DEDUCED, log 118.) -/
def State.ackOk (s : State) (p code unit : Nat) : Bool :=
  let x := (s.partition p).preempt
  x.stopping && (s.enginesOf p).contains (code, unit) && !x.acks.contains (code, unit) && s.atStop x code unit

/-- A sector, or with 4 the access stream engine, has stopped (R25, R415). -/
def State.placeStopped (s : State) (core sector : Nat) : Bool :=
  match s.partitionAt (core / 4) with
  | some p =>
    (s.partition p).frozen ||
      (s.partition p).preempt.acks.contains (if sector == 4 then (2, core) else (1, core * 4 + sector))
  | none => false

def State.modPreempt (s : State) (p : Nat) (f : Preempt → Preempt) : State :=
  s.modPartition p fun x => { x with preempt := f x.preempt }

/-! ### P1 and P2 -/

/-- P1 freezes trigger dispatch and binding, and P2 asks every engine to stop. -/
def State.beginStop (s : State) (p vf : Nat) (halt : Bool) : State :=
  s.modPartition p fun x => { x with preempt := ⟨2, vf, halt, s.pkg.clk, [], []⟩, missed := [] }

/-- PREEMPT_START. (DESIGN CHOICE, log 124.) -/
def execPreemptStart (p : Nat) (s : State) : Out :=
  .next (match s.dispatching p with
    | some vf => s.beginStop p vf false
    | none => s)

/-- P5: every engine has acknowledged and every cluster is saved; the VF is swapped out. -/
def State.swapOut (s : State) (p : Nat) : State :=
  let x := s.partition p
  let vf := x.preempt.vf
  let s := x.mapping.foldl (fun s e => s.unmap p vf e.2) s
  let s := s.modVf vf fun v => { v with save := { v.save with pointer := x.pointer, streamed := [] } }
  s.modPartition p fun x => { x with resident := none, preempt := .none }

/-- The stop is complete: a halt freezes the VF in place, a pre-emption swaps it out. -/
def State.finishStop (s : State) (p : Nat) : State :=
  let x := (s.partition p).preempt
  if !x.stopping || !x.acked (s.enginesOf p) then s
  else if x.halt then s.modPartition p fun x => { x with preempt := .none, frozen := true }
  else if (s.clustersOf p).all x.saved.contains then s.swapOut p
  else s

/-- The banks of a cluster drain: its stores are performed, and its cache-mode lines go home (R198). -/
def State.drainBanks (s : State) (cl vf : Nat) : State := (s.drain fun f => f.core / 4 == cl).ccFlush cl vf

/-- ENGINE_STOP_ACK. -/
def execEngineStopAck (p : Nat) (engine : Engine) (unit : Nat) (s : State) : Out :=
  .next (let code := engineCode engine
    if s.ackOk p code unit then
      let s := if code == 6 then s.drainBanks unit (s.partition p).preempt.vf else s
      (s.modPreempt p fun x => { x with acks := x.acks ++ [(code, unit)] }).finishStop p
    else s)

/-! ### P3 and P4 (R203, R337) -/

/-- P3: a fresh line older than 20 µs is renewed. -/
def State.collectorRenew (s : State) (cl : Nat) : State :=
  { s with scratch := FMap.mapV (fun k l =>
      if k / 16384 == cl && !s.stale cl l && 20 < s.ageOf l.stamp then { l with stamp := s.nowUs, since := s.pkg.clk }
      else l) s.scratch }

/-- A FIFO as it is saved: each entry's age stands in its stamp. -/
def State.fifoImage (s : State) (f : Fifo) : Fifo :=
  { f with entries := f.entries.map fun e => { e with stamp := s.us - e.stamp } }

/-- A saved FIFO as it is pushed again, with the saved ages. -/
def State.fifoBack (s : State) (f : Fifo) : Fifo :=
  { f with entries := f.entries.map fun e =>
      { e with stamp := s.us - e.stamp, since := s.pkg.clk } }

/-- P4, scratch and FIFOs: the cluster's valid lines, its bank modes and its FIFOs move to the save area. -/
def State.saveBanks (s : State) (p vf cl : Nat) : State :=
  let rel := s.relCluster p cl
  let mine := s.scratch.filter fun e => e.1 / 16384 == cl && e.2.valid
  let lines := mine.map fun e => s.lineImage p cl (e.1 % 16384) e.2
  let modes := ((s.cluster cl).banks.filter fun e => e.2.mode == 1 || e.2.mode == 2).map fun e => (rel, e.1, e.2.mode)
  let fifos := (s.cluster cl).fifos.map fun e => (rel, e.1, s.fifoImage e.2)
  s.modVf vf fun v => { v with save := { v.save with
    lines := v.save.lines ++ lines, banks := v.save.banks ++ modes, fifos := v.save.fifos ++ fifos
    streamed := v.save.streamed ++ [rel] } }

/-- P4, the rest: the teams of the cluster's cores. -/
def State.saveTeams (s : State) (cl : Nat) : State :=
  ((s.teams.filter fun e => e.1 / 32 == cl).map Prod.fst).foldl (fun s k => s.saveTeam (k / 8) (k % 8) false) s

/-- The cluster's engines have stopped, and it has not been saved. -/
def State.saveOk (s : State) (p cl : Nat) : Bool :=
  let x := (s.partition p).preempt
  x.stopping && !x.halt && (s.clustersOf p).contains cl && !x.saved.contains cl && x.acked (clusterEngines cl)

/-- CLUSTER_SAVE: P3 and P4 of one cluster; its L1s and instruction caches are invalidated (R195, R269). -/
def execClusterSave (p cl : Nat) (s : State) : Out :=
  .next (if s.saveOk p cl then
      let vf := (s.partition p).preempt.vf
      let s := (s.collectorRenew cl).saveBanks p vf cl
      let s := ((s.saveTeams cl).emptyCluster cl).fillSaveArea vf
      let s := (List.range 4).foldl (fun s i => s.modCore (cl * 4 + i) fun c => { c with l1 := [], icache := [] }) s
      (s.modPreempt p fun x => { x with step := 3, saved := x.saved ++ [cl] }).finishStop p
    else s)

/-! ### Deadlines (R336) -/

/-- The deadline of an engine in ns: cycles of the sectors' clock for codes 1 to 3. (DEDUCED, log 119.) -/
def State.deadline (s : State) (code unit : Nat) : Nat :=
  let d := FMap.getD s.pkg.granularity code 0
  if code ≤ 3 then
    let core := if code == 2 then unit else unit / 4
    d * 1000 / max (s.island (s.islandOf core)).mhz 1
  else d

/-- The running boxes of a cluster's TCE may be cut: its deadline has passed and it has not stopped. -/
def State.tceLate (s : State) (p cl : Nat) : Bool :=
  let x := (s.partition p).preempt
  x.stopping && (s.clustersOf p).contains cl && !x.acks.contains (4, cl) && x.began + s.deadline 4 cl ≤ s.pkg.clk

/-- TCE_DEADLINE: running boxes stop at 16-byte granularity, and the engine has stopped. -/
def execTceDeadline (p cl : Nat) (s : State) : Out :=
  .next (if s.tceLate p cl then
      let s := (s.cluster cl).tce.foldl (fun s e => if e.2.waitSeq.isNone then s.tceStopBoxes cl e.1 e.2 else s) s
      (s.modPreempt p fun x => { x with acks := x.acks ++ [(4, cl)] }).finishStop p
    else s)

/-- An engine has missed its deadline by a factor of 10 and has not been reported. -/
def State.missOk (s : State) (p code unit : Nat) : Bool :=
  let x := s.partition p
  x.preempt.stopping && (s.enginesOf p).contains (code, unit) && !x.preempt.acks.contains (code, unit) &&
    !x.missed.contains (code, unit) && x.preempt.began + 10 * s.deadline code unit < s.pkg.clk

/-- DEADLINE_MISS: the engine is reported to the scheduler core. -/
def execDeadlineMiss (p : Nat) (engine : Engine) (unit : Nat) (s : State) : Out :=
  .next (if s.missOk p (engineCode engine) unit then
      s.modPartition p fun x => { x with missed := x.missed ++ [(engineCode engine, unit)] }
    else s)

/-- 100 ms have passed since P2 began. -/
def State.preemptLate (s : State) (p : Nat) : Bool :=
  let x := (s.partition p).preempt
  x.stopping && x.began + 100000000 ≤ s.pkg.clk

/-- PREEMPT_TIMEOUT: the scheduler core resets the VF. -/
def execPreemptTimeout (p : Nat) (s : State) : Out :=
  .next (if s.preemptLate p then s.resetVf (s.partition p).preempt.vf else s)

/-! ### The life check (R333) -/

/-- The lines of a team's live allocations: bytes within the cluster's memory. -/
def Team.lineOffsets (tm : Team) : List Nat :=
  tm.allocs.flatMap fun a => (List.range ((a.off + a.bytes + 511) / 512 - a.off / 512)).map fun i => (a.off / 512 + i) * 512

/-- S9 for one waiter: a stale-report for its team, if any line of it is stale. (DEDUCED, log 102.) -/
def State.lifeCheck (s : State) (r : Record) : State :=
  match s.recordTeam r with
  | none => s
  | some tm =>
    let cl := r.core / 4
    let bad := tm.lineOffsets.filter fun off => s.stale cl (s.scrLine cl off)
    match bad with
    | [] => s
    | off :: rest =>
      let x := s.teamRecord r.core r.slot false 0 0x36 0 0 (BitVec.ofNat 64 (0x0100000000000000 + rest.foldl min off))
        (BitVec.ofNat 64 bad.length)
      (s.report tm.partition x).2

/-- The life check for the teams of some records, each team once. -/
def State.lifeChecks (s : State) (rs : List Record) : State :=
  (rs.foldl (fun (acc : State × List (Nat × Nat × Nat)) r =>
    let k := (r.vf, r.grid, r.team)
    if acc.2.contains k then acc else (acc.1.lifeCheck r, k :: acc.2)) (s, [])).1

/-! ### P6 (R340) -/

/-- Lines of the L2 that other VFs hold in ways of the incoming VF's mask are written back and dropped (R210).
(DEDUCED, log 123.) -/
def State.clearWays (s : State) (p vf : Nat) : State :=
  let mask := (s.vf vf).wayMask
  { s with l2 := FMap.drop (fun _ g => g.vf != vf && s.partOf g.vf == some p && mask.getLsbD g.way) s.l2 }

/-- The saved bank modes are set. -/
def State.restoreModes (s : State) (p vf : Nat) : State :=
  (s.vf vf).save.banks.foldl (fun s x =>
    match s.clusterOf p x.1 with
    | some cl => if (s.bank cl x.2.1).mode == 3 then s else s.setBank cl x.2.1 ⟨x.2.2, false, 0⟩
    | none => s) s

/-- The saved FIFOs are created again. -/
def State.restoreFifos (s : State) (p vf : Nat) : State :=
  (s.vf vf).save.fifos.foldl (fun s x =>
    match s.clusterOf p x.1 with
    | some cl => s.setFifo cl x.2.1 (s.fifoBack x.2.2)
    | none => s) s

/-- A swapped-out team returns to the core that the map now gives it, beside the teams that return with it (R38). -/
def State.returnsTo (s : State) (p : Nat) (ts : List (SavedTeam × Nat)) (t : SavedTeam) : Option Nat :=
  (s.coreOf p t.core).bind fun c =>
    let here := (ts.filter fun x => x.2 == c).map fun x => (x.1.team.kern, x.1.team.baseSector)
    let held := (ts.filter fun x => x.2 / 4 == c / 4).flatMap fun x => x.1.team.kern.spans (x.1.team.resCluster, x.1.team.resQuad)
    if s.admits c (here ++ [(t.team.kern, t.team.baseSector)]) && s.ownBanksFree t (c / 4) held then some c else none

/-- The swapped-out teams that return at P6, with their cores; the others wait until their cores accept them (R38).
(DEDUCED, log 125.) -/
def State.returning (s : State) (p vf : Nat) : List (SavedTeam × Nat) :=
  (s.vf vf).save.teams.foldl (fun ts t =>
    if t.donated then ts
    else match s.returnsTo p ts t with
      | some c => ts ++ [(t, c)]
      | none => ts) []

/-- The teams return: lines first, then registers, slot tables and commands, then their requests. -/
def State.restoreTeams (s : State) (p vf : Nat) : State :=
  let ts := s.returning p vf
  let s := ts.foldl (fun s x => s.restoreTeamLines vf (x.2 / 4) x.1) s
  let s := ts.foldl (fun s x => s.reloadTeam x.1 x.2 x.1.slot x.1.record) s
  let s := s.modVf vf fun v => { v with save := { v.save with banks := [], fifos := [] } }
  s.reviveWaits (ts.flatMap fun x => x.1.requests x.2 x.1.slot)

/-- The arrival log is applied entry by entry, and is empty again (R339). -/
def State.replayArrivals (s : State) (vf : Nat) : State :=
  let log := (s.vf vf).arrivals
  let s := s.modVf vf fun v => { v with arrivals := [] }
  log.foldl (fun s e => s.barrierEffect vf e.kind e.barrier e.count e.source) s

/-- The records that stored wakes answer. -/
def State.storedRecords (s : State) (p vf : Nat) : List Record :=
  (s.vf vf).save.wakes.filterMap fun w => (s.wokenEvent p w).map (·.record)

/-- The stored wake records go to the wake port, in the order stored. (DEDUCED, log 122.) -/
def State.deliverWakes (s : State) (p vf : Nat) : State :=
  let ws := (s.vf vf).save.wakes
  let s := s.modVf vf fun v => { v with save := { v.save with wakes := [] } }
  ws.foldl (fun s w => s.wake p w false) s

/-- The launches of triggers that fired while dispatch was frozen are deposited, in their order. -/
def State.releaseLaunches (s : State) (vf : Nat) : State :=
  let ls := (s.vf vf).heldLaunches
  ls.foldl (fun s e => s.launch vf e.1 .token e.2 none) (s.modVf vf fun v => { v with heldLaunches := [] })

/-- Steps 3 to 5 of R340: the launches of phases that completed before the stop, the arrival log, the life check of each
stored wake, the stored wakes. (DEDUCED, log 65.) -/
def State.catchUp (s : State) (p vf : Nat) : State :=
  let s := (s.releaseLaunches vf).replayArrivals vf
  (s.lifeChecks (s.storedRecords p vf)).deliverWakes p vf

/-- Step 6 of R340: trigger dispatch and binding are unfrozen. -/
def State.resumeDispatch (s : State) (p vf : Nat) : State :=
  let s := s.remap p
  (s.partition p).mapping.foldl (fun s e => s.placeHead vf e.2) s

/-- A VF of the partition may be swapped in. -/
def State.restoreOk (s : State) (p vf : Nat) : Bool :=
  let x := s.partition p
  x.defined && x.resident.isNone && x.preempt.step == 0 && s.partOf vf == some p && !x.coreMap.isEmpty

/-- THE RESTORE (R340). -/
def State.restoreVf (s : State) (p vf : Nat) : State :=
  let v := s.vf vf
  let s := s.clearWays p vf
  let s := (s.coresOf p).foldl (fun s c => s.enterCore c vf) s
  let s := s.modPartition p fun x =>
    { x with resident := some vf, pointer := if v.seen then v.save.pointer else 0, frozen := false, mapping := [] }
  let s := s.modVf vf fun v => { v with seen := true, haltAtRestore := false }
  let s := ((s.restoreModes p vf).restoreFifos p vf).restoreTeams p vf
  let s := s.catchUp p vf
  if v.haltAtRestore then s.modPartition p fun x => { x with frozen := true } else s.resumeDispatch p vf

def execRestore (p vf : Nat) (s : State) : Out := .next (if s.restoreOk p vf then s.restoreVf p vf else s)

/-! ### halt (R415) -/

/-- The freeze ends: the engines' boxes start again, and then what a restore does from step 3 of R340 on. -/
def State.unfreeze (s : State) (p vf : Nat) : State :=
  let s := s.modPartition p fun x => { x with frozen := false }
  let s := (s.clustersOf p).foldl (fun s cl => s.modCluster cl fun k =>
    { k with tce := FMap.mapV (fun _ c => if c.accepted then c.openBoxes else c) k.tce }) s
  (s.catchUp p vf).resumeDispatch p vf

/-- A halt of the VF of a partition. (DEDUCED, log 120.) -/
def State.haltVf (s : State) (p vf : Nat) : State :=
  let x := s.partition p
  if x.resident != some vf || x.frozen then s
  else if x.preempt.step == 0 then s.beginStop p vf true
  else if x.preempt.halt then s
  else s.modVf vf fun v => { v with haltAtRestore := true }

def execHalt (h : Hd) (s : State) : Out :=
  .next (s.issue (.halt h) true fun _ act s1 =>
    match act, s1.gangTeam with
    | _ :: _, some tm =>
      (act.foldl (fun s t => s.deliver t (Instr.halt h).tag? (lateRegs [])) s1).haltVf tm.partition tm.vf
    | _, _ => s1)

end Sys2Proof.Machine
end

