-- ==== Sys2Proof/Machine/Hukotil.lean ====
section
/-! DEFINITION. The remote page service of the hub dies' Hukotil cores: claims, the directory, frames and victims,
fetches, installs, wakes and declines, with the requests of other nodes (spec/01_machine.md R23,
spec/13_fault_queues.md R325 to R333, spec/14_tables.md R351 to R353, R369). -/

namespace Sys2Proof.Machine

/-! ### The directory (R351, R352) -/

/-- fold12 of R351. -/
def fold12 (k : DWord) : Nat :=
  (k.extractLsb' 0 12 ^^^ k.extractLsb' 12 12 ^^^ k.extractLsb' 24 12 ^^^ k.extractLsb' 36 12 ^^^ k.extractLsb' 48 12 ^^^
    (k.extractLsb' 60 4).setWidth 12).toNat

/-- The node that owns a key's shard entry, or 0xFFFF. -/
def Hub.shardNode (h : Hub) (key : DWord) : Nat :=
  FMap.getD h.shards ((key.extractLsb' 48 16).toNat * 4096 + fold12 key) 0xFFFF

/-- A node index with a Valid node-table entry. -/
def Hub.validNode (h : Hub) (n : Nat) : Bool := n != 0xFFFF && (FMap.find? h.nodes n).isSome

/-- The fields of an entry are those of R352, and its nodes are Valid. -/
def Hub.entryOk (h : Hub) (d : DirEntry) : Bool :=
  !d.reserved && 1 ≤ d.state && d.state ≤ 3 && d.mode ≤ 2 && 1 ≤ d.locKind && d.locKind ≤ 3 && h.validNode d.node &&
    (d.owner == 0xFFFF || h.validNode d.owner)

/-- A VF may exchange pages with a node: it is this device, or on the roster with Send and Receive. -/
def State.nodeAllowed (s : State) (h : Hub) (vf n : Nat) : Bool :=
  n == h.selfNode ||
  match (FMap.find? h.nodes n).bind fun x => FMap.find? (s.vf vf).roster x.2 with
  | some r => r.kind != 0 && r.send && r.receive
  | none => false

def Hub.ownedEntry (h : Hub) (key : DWord) : Option DirEntry := h.owned.find? fun d => d.key == key
def Hub.cached (h : Hub) (key : DWord) : Option DirEntry := h.dirCache.find? fun d => d.key == key

/-- What this hub die knows of a key. -/
def Hub.known (h : Hub) (key : DWord) : Option DirEntry := (h.ownedEntry key).or (h.cached key)

/-- Put an entry into the directory cache of 16,384 entries; the oldest leaves a full one. -/
def Hub.cache (h : Hub) (d : DirEntry) : Hub :=
  { h with dirCache := (d :: h.dirCache.filter fun x => x.key != d.key).take 16384 }

/-- A new version of an entry replaces the copies that the hub die holds. -/
def Hub.updateEntry (h : Hub) (d : DirEntry) : Hub :=
  { h with owned := h.owned.map fun x => if x.key == d.key then d else x
           dirCache := h.dirCache.map fun x => if x.key == d.key then d else x }

/-- The entry of a key whose shard this node owns, on a hub die or on another one of the package (R353). -/
def State.ownedEntry (s : State) (hub : Nat) (key : DWord) : Option DirEntry :=
  ((s.hub hub).ownedEntry key).or (s.hubs.findSome? fun h => h.2.ownedEntry key)

/-- What this node knows of a key at a hub die. -/
def State.known (s : State) (hub : Nat) (key : DWord) : Option DirEntry := ((s.hub hub).known key).or (s.ownedEntry hub key)

/-- This node changes an entry whose shard it owns; those of other nodes are changed by their owners. -/
def State.changeOwned (s : State) (hub : Nat) (key : DWord) (f : DirEntry → DirEntry) : State :=
  match s.ownedEntry hub key with
  | some d => { s with hubs := FMap.mapV (fun _ h => h.updateEntry (f d)) s.hubs }
  | none => s

/-! ### Pages and frames -/

/-- A page's bytes by offset; unlisted bytes are 0. -/
abbrev Page := FMap Byte

/-- A page of bytes by offset, in the form in which equal pages are equal data. -/
def keptBytes (bytes : List (Nat × Byte)) : Page := bytes.foldl (fun m c => FMap.set m c.1 c.2 0) []

/-- What a frame holds. -/
def State.framePage (s : State) (frame : Nat) : Page :=
  (s.mem.filter fun c => frame ≤ c.1 && c.1 < frame + 65536).map fun c => (c.1 - frame, c.2)

/-- The poisoned lines of a frame, 0 to 1,023. -/
def State.framePoison (s : State) (frame : Nat) : List Nat :=
  (List.range 1024).filter fun i => s.poisonedLine (frame / 64 + i)

/-- A frame holds a page's bytes and nothing else. -/
def State.setFrame (s : State) (frame : Nat) (page : Page) (poison : List Nat) : State :=
  let s := s.zeroRanges [(frame, 65536)]
  { s with
    mem := page.foldl (fun (m : List Host.Cell) (c : Nat × Byte) => if c.1 < 65536 then memPut m (frame + c.1) c.2 else m) s.mem
    poison := poison.foldl (fun (m : FMap Bool) i => if i < 1024 then FMap.put m (frame / 64 + i) true else m) s.poison
    l2 := FMap.drop (fun l _ => l / 1024 == frame / 65536) s.l2 }

/-- The counter tree is kept for a frame: by the EccMode of the partition that has its slice (R211). -/
def State.treeKeptAt (s : State) (frame : Nat) : Bool :=
  match List.find? (fun (e : Nat × Partition) => e.2.slices.contains (frame / 2 ^ 33)) s.partitions with
  | some e => e.2.eccMode != 2
  | none => true

/-- Lines of a frame, 0 to 1,023, are written: each counts in the tree (R213). -/
def State.countLines (s : State) (frame : Nat) (ls : List Nat) : State :=
  if s.treeKeptAt frame then
    ls.foldl (fun s i => (s.countLine (frame / 64 + i)).countNode ((frame / 64 + i) / 64)) s
  else s

/-- A page comes home: its frame holds it, with its poison map, and the lines that this writes are counted. -/
def State.homePage (s : State) (frame : Nat) (page : Page) (poison ls : List Nat) : State :=
  (s.setFrame frame page poison).countLines frame ls

/-- The counters of an installed page: each leaf's major rises, and every line has been written once (R213,
R332). (DEDUCED, log 113.) -/
def State.countPage (s : State) (vf frame : Nat) : State :=
  if !s.treeKept vf then s
  else (List.range 16).foldl (fun s i =>
    let k := frame / 4096 + i
    let leaf := FMap.getD s.tree k .zero
    { s with tree := FMap.put s.tree k ⟨leaf.major + 1, (List.range 64).map fun j => (j, 1), false⟩ }.countNode k) s

/-- The address of the leaf entry of a translated address: none where the walk ends above it. -/
def State.leafFrom (s : State) (va table : Nat) : List (Nat × Nat) → Option Nat
  | [] => some (table + bitsOf va 16 10 * 16)
  | (lo, n) :: rest =>
    let e := s.entryAt (table + bitsOf va lo n * 16)
    if bitsOf e 0 2 == 1 && !upperInvalid e then s.leafFrom va (bitsOf e 64 52) rest else none

/-- The leaf of a page of a VF: its address and value. -/
def State.leafOf (s : State) (vf va : Nat) : Option (Nat × Nat) :=
  (s.leafFrom va (s.vf vf).root upperLevels).map fun a => (a, s.entryAt a)

/-- Frames of one slice below its counter-tree area (R208). -/
def sliceFrames : Nat := 128512

/-- The frame of a partition under a number. -/
def Partition.frame (x : Partition) (i : Nat) : Nat := x.slices.getD (i / sliceFrames) 0 * 2 ^ 33 + i % sliceFrames * 65536

/-- The number of a frame of a partition. -/
def Partition.frameNo (x : Partition) (f : Nat) : Option Nat :=
  (x.slices.findIdx? (· == f / 2 ^ 33)).bind fun k =>
    if f % 2 ^ 33 / 65536 < sliceFrames then some (k * sliceFrames + f % 2 ^ 33 / 65536) else none

/-- Frames of a partition that hold something or are named by a leaf or an entry in service. -/
def State.usedFrames (s : State) (p : Nat) : FMap Unit :=
  let x := s.partition p
  let named := (s.vfs.filter fun e => e.2.partition == some p).flatMap fun e => (s.vfSpace e.1).map Prod.fst
  let served := s.hubs.flatMap fun h => h.2.service.filterMap (·.frame)
  (s.mem.map (·.1) ++ named ++ served).foldl (fun (m : FMap Unit) a =>
    match x.frameNo a with
    | some i => FMap.put m i ()
    | none => m) []

/-- A free frame of the partition's slices: which one is not specified. (DESIGN CHOICE, log 108.) -/
def State.freeFrame (s : State) (p : Nat) : Option Nat :=
  let x := s.partition p
  let n := x.slices.length * sliceFrames
  let used := s.usedFrames p
  if n ≤ used.length then none
  else
    let i := freeFrom used n (Config.choose s.draws n) used.length
    if (FMap.find? used i).isSome then none else some (x.frame i)

/-! ### A page leaves the device (R330, R331) -/

/-- Accesses to a frame in flight complete, and no cache keeps a line of it. -/
def State.quietFrame (s : State) (frame : Nat) : State :=
  let s := (s.flyAll fun s w => s.toFrame frame w).drain fun f => f.phys / 65536 == frame / 65536
  let keys := (s.cc.filter fun e => ccBase e.1 / 65536 == frame / 65536).map Prod.fst
  let s := keys.foldl (fun s k => (s.ccBack k).ccDrop k) s
  { s with cores := FMap.mapV (fun _ c => { c with l1 := FMap.drop (fun l _ => l / 512 == frame / 65536) c.l1 }) s.cores }

/-- The hub die whose Hukotil holds a page: that of its VF's partition. -/
def State.holder (s : State) (hub : Nat) (x : HeldPage) : Nat := ((s.partOf x.vf).map fun p => (s.partition p).homeHub).getD hub

/-- A page's leaf is made absent, its translations leave the partition's TLBs, and its frame is free: its bytes,
its poisoned lines, and whether it was dirty come back. -/
def State.takeOne (s : State) (hub : Nat) (x : HeldPage) : Page × List Nat × Bool × State :=
  let va := x.page * 65536
  let s := match s.partOf x.vf with
    | some p => s.dropPages p x.vf x.page 1
    | none => s
  let s := s.quietFrame x.frame
  let (dirty, s) := match s.leafOf x.vf va with
    | some (a, e) => (leafDirty e, s.homeWrite x.vf 0 false a (bytesLE 16 0))
    | none => (false, s)
  let page := s.framePage x.frame
  let poison := s.framePoison x.frame
  let s := s.zeroRanges [(x.frame, 65536)]
  (page, poison, dirty, { s with l2 := FMap.drop (fun l _ => l / 1024 == x.frame / 65536) s.l2 }.modHub (s.holder hub x) fun h =>
    { h with held := h.held.filter fun y => !(y.vf == x.vf && y.page == x.page) })

/-- The frame of a page's home copy, if this device homes it. -/
def Hub.homeFrame (h : Hub) (d : DirEntry) : Option Nat := if d.node == h.selfNode then some d.object.toNat else none

/-- A check-in at the home: the bytes that differ from the twin are written into the current copy. -/
def mergeIn (now twin page : Page) : Page :=
  let keys := (twin.map Prod.fst ++ page.map Prod.fst).eraseDups
  keys.foldl (fun (m : Page) k =>
    if FMap.getD page k 0 == FMap.getD twin k 0 then m else FMap.set m k (FMap.getD page k 0) 0) now

/-- A page's twin is freed where its entry counts no check-out (R331). -/
def State.freeTwin (s : State) (d : DirEntry) : State :=
  if d.sharers == 0 then { s with twins := FMap.del s.twins d.key.toNat } else s

/-- The count of a merge page falls by one; the twin is freed at 0. -/
def State.endCheckOut (s : State) (hub : Nat) (key : DWord) (rise : Bool) : State :=
  let s := s.changeOwned hub key fun d =>
    { d with sharers := d.sharers - 1, version := if rise then d.version + 1 else d.version }
  match s.known hub key with
  | some d => s.freeTwin d
  | none => s

/-- The lines of a checked-in page that differ from the twin. -/
def changedLines (twin page : Page) : List Nat :=
  (List.range 1024).filter fun l => (List.range 64).any fun i =>
    FMap.getD page (64 * l + i) 0 != FMap.getD twin (64 * l + i) 0

/-- A check-in at the home's frame: the bytes that differ from the twin, and the poison map (R218, R331). -/
def State.mergeHome (s : State) (frame : Nat) (key : DWord) (page : Page) (poison : List Nat) : State :=
  let twin := FMap.getD s.twins key.toNat []
  s.homePage frame (mergeIn (s.framePage frame) twin page) ((s.framePoison frame ++ poison).eraseDups)
    ((changedLines twin page ++ poison).eraseDups)

/-- A page travels to its home on another node, and is sent again until its arrival shows in the directory (R326). -/
def State.awaitHome (s : State) (hub : Nat) (w : WriteBack) : State :=
  s.modHub hub fun h => { h with writeBacks := h.writeBacks.filter (fun x => !(x.vf == w.vf && x.key == w.key)) ++ [w] }

/-- A page of this device goes home, or leaves without, by its mode (R331). Where another node homes it, the page
travels there, and its entry changes when it has arrived; where the mode is not known, the directory entry is read
first. (DEDUCED, log 111.) -/
def State.sendHome (s : State) (hub vf : Nat) (key : DWord) (page : Page) (poison : List Nat) (dirty : Bool) : State :=
  let away := fun (s : State) (v : Option (BitVec 32)) => s.awaitHome hub ⟨vf, key, page, poison, v, s.pkg.clk, s.pkg.clk⟩
  match s.known hub key with
  | none => if dirty then away s none else s
  | some d =>
    match d.mode with
    | 0 =>
      if !dirty then s
      else match (s.hub hub).homeFrame d with
        | some f =>
          (s.homePage f page poison (List.range 1024)).changeOwned hub key fun d => { d with version := d.version + 1 }
        | none => away s (some d.version)
    | 1 => s.changeOwned hub key fun d => { d with sharers := d.sharers - 1 }
    | _ =>
      if !dirty then s.endCheckOut hub key false
      else match (s.hub hub).homeFrame d with
        | some f => (s.mergeHome f key page poison).endCheckOut hub key true
        | none => away s (some d.version)

/-- A page of this node's own shard has reached its home on another node: its entry changes (R331). -/
def State.backArrives (s : State) (hub : Nat) (key : DWord) : State :=
  match s.ownedEntry hub key with
  | some d =>
    if d.mode == 2 then s.endCheckOut hub key true
    else s.changeOwned hub key fun d => { d with version := d.version + 1 }
  | none => s

/-- What a directory entry says of the pages on their way home: one whose mode was not known goes its way, one whose
version has risen has arrived. -/
def State.settleBacks (s : State) (hub : Nat) (d : DirEntry) : State :=
  let mine := (s.hub hub).writeBacks.filter fun w => w.key == d.key && w.version != some d.version
  let s := s.modHub hub fun h => { h with writeBacks := h.writeBacks.filter fun w => !mine.contains w }
  mine.foldl (fun s w =>
    if w.version.isNone then s.sendHome hub w.vf w.key w.page w.poison true else s.backArrives hub w.key) s

/-- The other members of a large page (R192). -/
def HeldPage.mates (x : HeldPage) : List HeldPage :=
  if x.large then ((List.range 32).filter (· != x.page % 32)).map fun i =>
    ⟨x.vf, x.page / 32 * 32 + i, x.key + BitVec.ofNat 64 i - BitVec.ofNat 64 (x.page % 32),
      x.frame + i * 65536 - x.page % 32 * 65536, x.version, true⟩
  else []

/-- A page counts as dirty: a large one where any of its leaves does (R192). -/
def State.pageDirty (s : State) (x : HeldPage) : Bool :=
  (x :: x.mates).any fun y => ((s.leafOf y.vf (y.page * 65536)).map fun e => leafDirty e.2).getD false

/-- A page leaves: of a large one the other members go home, each under its own key. -/
def State.takePage (s : State) (hub : Nat) (x : HeldPage) : Page × List Nat × Bool × State :=
  let dirty := s.pageDirty x
  let s := x.mates.foldl (fun (s : State) y =>
    let (page, poison, _, s) := s.takeOne hub y
    s.sendHome (s.holder hub y) y.vf y.key page poison dirty) s
  let (page, poison, _, s) := s.takeOne hub x
  (page, poison, dirty, s)

/-- S4 on a held page. -/
def State.evict (s : State) (hub : Nat) (x : HeldPage) : State :=
  let (page, poison, dirty, s) := s.takePage hub x
  s.sendHome (s.holder hub x) x.vf x.key page poison dirty

/-- A held page whose leaf still names its frame as a local one. -/
def State.stillHeld (s : State) (x : HeldPage) : Bool :=
  match s.leafOf x.vf (x.page * 65536) with
  | some (_, e) => bitsOf e 0 2 == 2 && leafKind e == 0 && leafPayload e == x.frame
  | none => false

/-- A 64 KiB page may not leave: locked, pinned, in service, of a VF that is being saved, or with a check-in pending. -/
def State.memberLocked (s : State) (hub : Nat) (x : HeldPage) : Bool :=
  let pinned := (((s.leafOf x.vf (x.page * 65536)).map fun e => leafPin e.2).getD false) ||
    s.pinned.any fun y => y.vf == x.vf && y.page == x.page
  let clusters := ((s.partOf x.vf).map s.clustersOf).getD []
  let locked := clusters.any fun cl => (s.cluster cl).locks.any fun l =>
    !l.scratch && l.vf == x.vf && overlaps l.base l.len (x.page * 65536) 65536
  let saving := ((s.partOf x.vf).map fun p =>
    (s.partition p).preempt.step == 3 && (s.partition p).preempt.vf == x.vf).getD false
  let served := s.hubs.any fun h => h.2.service.any fun e => e.vf == x.vf && (e.va / 65536 == x.page || e.key == x.key)
  let pending := ((s.known hub x.key).map (·.state == 3)).getD false
  pinned || locked || saving || served || pending

/-- A page may not leave: it, or a member of a large page beside it. -/
def State.pageLocked (s : State) (hub : Nat) (x : HeldPage) : Bool := (x :: x.mates).any (s.memberLocked hub)

/-- The hub die of a partition. -/
def State.hubOf (s : State) (p : Nat) : Nat := (s.partition p).homeHub

/-- The local pages of remote regions below a table, each under its region's key (R345); `base` is the first address
below the table. -/
def State.pagesBelow (s : State) (vf base table : Nat) (region : Option Nat) : List (Nat × Nat) → List HeldPage
  | [] =>
    match region with
    | none => []
    | some ns => (s.entriesIn table 1024).filterMap fun i =>
        let e := s.entryAt (table + 16 * i)
        let va := base + i * 65536
        if bitsOf e 0 2 == 2 && leafKind e == 0 then
          some ⟨vf, va / 65536, regionKey ns va, leafPayload e, none, leafLarge e⟩
        else none
  | (lo, n) :: rest => (s.entriesIn table (2 ^ n)).flatMap fun i =>
      let e := s.entryAt (table + 16 * i)
      if bitsOf e 0 2 == 1 && !upperInvalid e then
        s.pagesBelow vf (base + i * 2 ^ lo) (bitsOf e 64 52)
          (if bitsOf e 2 1 == 1 then some (bitsOf e 48 16) else region) rest
      else []

/-- The pages of a hub die's VFs that others placed in a remote region and no TLB has used yet. -/
def State.unusedPages (s : State) (hub : Nat) : List HeldPage :=
  let mine := s.vfs.filter fun e => (e.2.partition.map s.hubOf) == some hub
  (mine.flatMap fun e => s.pagesBelow e.1 0 e.2.root none upperLevels).filter fun x =>
    !(s.hub hub).held.any fun y => y.vf == x.vf && y.page == x.page && y.frame == x.frame

/-- The pages that may be victims, the one that has gone longest without a TLB access first (R330); pages outside the
remote regions have no directory key, and stay. (DEDUCED, log 107.) -/
def State.victims (s : State) (hub p : Nat) : List HeldPage :=
  (s.unusedPages hub ++ (s.hub hub).held).filter fun x => s.partOf x.vf == some p && s.stillHeld x &&
    !s.pageLocked hub x

/-! ### The service table (R325) -/

/-- An entry of the table, by VF and key; window-pending entries stand apart. (DEDUCED, log 117.) -/
def Service.is (e : Service) (vf : Nat) (key : DWord) (window : Bool) : Bool :=
  e.vf == vf && e.key == key && (e.step == 20) == window

def State.service? (s : State) (hub vf : Nat) (key : DWord) (window : Bool) : Option Service :=
  (s.hub hub).service.find? fun e => e.is vf key window

def State.setService (s : State) (hub : Nat) (e : Service) : State :=
  s.modHub hub fun h => { h with service := h.service.map fun x => if x.is e.vf e.key (e.step == 20) then e else x }

def State.closeService (s : State) (hub : Nat) (e : Service) : State :=
  s.modHub hub fun h => { h with service := h.service.filter fun x => !x.is e.vf e.key (e.step == 20) }

/-- The records of an entry's waiters that still stand. -/
def State.waiterRecords (s : State) (e : Service) : List Record :=
  e.waiters.filterMap fun q => (FMap.find? (s.partition e.partition).standing q).map (·.record)

/-- A declined record: it belongs to the host complex now, and goes to the host fault queue, or waits for room in
its own (R318, R319). (DEDUCED, log 110.) -/
def State.declineRecord (s : State) (p code seq : Nat) : State :=
  match FMap.find? (s.partition p).standing seq with
  | none => s
  | some e =>
    let r := { e.record with decline := code, host := true }
    let s := s.modPartition p fun x =>
      { x with standing := FMap.put x.standing seq { e with record := r, host := true } }
    if s.pkg.hostQueue.length < 65536 then s.toHost r else s.modPartition p fun x => { x with queue := x.queue ++ [r] }

/-- DECLINE of an entry: its records go to the host complex, and the entry closes; a prefetch without waiters is
dropped and counted (R326). -/
def State.declineService (s : State) (hub : Nat) (e : Service) (code : Nat) : State :=
  let s := s.closeService hub e
  if e.waiters.isEmpty then s.modHub hub fun h => { h with droppedPrefetch := h.droppedPrefetch + 1 }
  else e.waiters.foldl (fun s q => s.declineRecord e.partition code q) s

/-- A page is pinned for some wakes (R330). -/
def State.pinPage (s : State) (vf page : Nat) (seqs : List Nat) : State :=
  if seqs.isEmpty then s
  else { s with pinned := (s.pinned.filter fun x => !(x.vf == vf && x.page == page)) ++
    [⟨vf, page, s.pkg.clk, ((s.pinned.filter fun x => x.vf == vf && x.page == page).flatMap (·.seqs)) ++ seqs⟩] }

/-- S9 and S10: the life check, then the wakes in the order of the waiters' records; the entry closes. -/
def State.wakeService (s : State) (hub : Nat) (e : Service) (pin : Bool) : State :=
  let rs := s.waiterRecords e
  let s := (s.lifeChecks rs).closeService hub e
  let s := rs.foldl (fun s r => s.emit (.wakeRecord e.partition (r.answer .replay) false)) s
  if pin then s.pinPage e.vf (e.va / 65536) (rs.map (·.seq)) else s

/-! ### S5 to S8 -/

/-- The leaf that S7 installs (R326): permissions by the mode, X kept or given. -/
def installedLeaf (old mode frame comp : Nat) (fetch : Bool) : Nat :=
  let remote := bitsOf old 0 2 == 2
  let c := if remote then leafComp old else comp
  let x := if remote then leafX old else fetch
  2 + 2 ^ 8 + (if mode == 1 then 0 else 2 ^ 9) + (if x then 2 ^ 10 else 0) + c % 4 * 2 ^ 14 + frame * 2 ^ 64

/-- The compartment under which a page is installed. -/
def Service.comp (e : Service) : Nat :=
  match e.leaf with
  | some (_, old) => if bitsOf old 0 2 == 2 then leafComp old else e.compartment
  | none => e.compartment

/-- The directory, where this node owns the entry, records the fetch of a page by this device. -/
def State.recordFetch (s : State) (hub vf : Nat) (d : DirEntry) : State :=
  let self := (s.hub hub).selfNode
  s.changeOwned hub d.key fun x =>
    match x.mode with
    | 0 => { x with owner := self, ownerVf := vf
                    version := if x.owner != 0xFFFF && x.owner != self then x.version + 1 else x.version }
    | _ => { x with sharers := x.sharers + 1 }

/-- The first check-out of a merge page keeps a twin of the home copy. -/
def State.keepTwin (s : State) (hub : Nat) (d : DirEntry) : State :=
  if d.mode != 2 || (FMap.find? s.twins d.key.toNat).isSome then s
  else match (s.hub hub).homeFrame d with
    | some f => { s with twins := FMap.put s.twins d.key.toNat (s.framePage f) }
    | none => s

/-- S7, S8: the page is written under its compartment and its leaf made local by compare-and-swap; where the leaf
has changed, the page leaves again (R369). Then the waiters wake. (DEDUCED, log 109.) (DEDUCED, log 114.) -/
def State.installPage (s : State) (hub : Nat) (e : Service) (d : DirEntry) (frame : Nat) (page : Page)
    (poison : List Nat) : State :=
  let fetch := (s.waiterRecords e).any fun r => r.kind == 0x12
  match e.leaf with
  | some (a, old) =>
    if s.entryAt a != old then (s.sendHome hub e.vf e.key page poison (d.mode == 0)).wakeService hub e false
    else
      let s := (s.setFrame frame page poison).countPage e.vf frame
      let s := s.homeWrite e.vf 0 false a (bytesLE 16 (installedLeaf old d.mode frame e.comp fetch))
      let s := s.dropPages e.partition e.vf (e.va / 65536) 1
      let s := s.modHub hub fun h =>
        { h with held := (h.held.filter fun x => !(x.vf == e.vf && x.page == e.va / 65536)) ++
            [⟨e.vf, e.va / 65536, e.key, frame, some d.version, false⟩] }
      s.wakeService hub e true
  | none => (s.sendHome hub e.vf e.key page poison (d.mode == 0)).wakeService hub e false

/-- The page's home copy is on this device and no other device holds it. -/
def Hub.atHome (h : Hub) (d : DirEntry) : Option Nat :=
  if d.mode == 0 && d.owner != 0xFFFF && d.owner != h.selfNode then none else h.homeFrame d

/-- S5: with a frame in hand the page is requested, or taken from this device's home copy. -/
def State.fetchPage (s : State) (hub : Nat) (e : Service) (d : DirEntry) (frame : Nat) : State :=
  let e := { e with step := 5, entry := some d, frame := some frame, source := 0, lastSent := s.pkg.clk }
  let s := s.setService hub e
  match (s.hub hub).atHome d with
  | some f =>
    let s := (s.keepTwin hub d).recordFetch hub e.vf d
    s.installPage hub e d frame (s.framePage f) (s.framePoison f)
  | none => s

/-- S3 and S4: a free frame, or a victim's; without either the entry waits. -/
def State.framePhase (s : State) (hub : Nat) (e : Service) (d : DirEntry) : State :=
  match s.freeFrame e.partition with
  | some f => { s with draws := s.draws + 1 }.fetchPage hub e d f
  | none =>
    match (s.victims hub e.partition).head? with
    | some x => (s.evict hub x).fetchPage hub e d x.frame
    | none => s.setService hub { e with step := 3, entry := some d
                                        lastSent := if e.step == 3 then e.lastSent else s.pkg.clk }

/-! ### S2 -/

/-- The compartment of the remote leaf forbids the access of every waiter (R328). -/
def State.compForbids (s : State) (e : Service) : Bool :=
  let cs := (s.waiterRecords e).map (·.compartment)
  match e.leaf with
  | some (_, old) =>
    bitsOf old 0 2 == 2 && leafKind old == 2 && (if cs.isEmpty then [e.compartment] else cs).all (· != leafComp old)
  | none => false

/-- What follows from a directory entry. -/
def State.entryPhase (s : State) (hub : Nat) (e : Service) (d : DirEntry) : State :=
  let h := s.hub hub
  if !h.entryOk d then s.declineService hub e 1
  else if d.state != 1 then s.setService hub { e with step := 2, entry := some d, lastSent := s.pkg.clk }
  else if (d.mode == 1 && (s.waiterRecords e).any (·.write)) || s.compForbids e then s.declineService hub e 2
  else if !(s.nodeAllowed h e.vf d.node && (d.owner == 0xFFFF || s.nodeAllowed h e.vf d.owner)) then s.declineService hub e 6
  else s.framePhase hub e d

/-- S2: the page may be local already; else the shard entry is read, from the cache or at its owning node. -/
def State.directoryPhase (s : State) (hub : Nat) (e : Service) : State :=
  let h := s.hub hub
  let leaf := s.leafOf e.vf e.va
  let e := { e with leaf := leaf }
  let here := (leaf.map fun x => bitsOf x.2 0 2 == 2 && leafKind x.2 != 2).getD false
  let n := h.shardNode e.key
  if here then s.wakeService hub e ((leaf.map fun x => leafKind x.2 == 0).getD false)
  else if !h.validNode n then s.declineService hub e 1
  else if !s.nodeAllowed h e.vf n then s.declineService hub e 6
  else if n == h.selfNode then
    match s.ownedEntry hub e.key with
    | some d => s.entryPhase hub e d
    | none => s.declineService hub e 1
  else match h.cached e.key with
    | some d => s.entryPhase hub e d
    | none => s.setService hub { e with step := 2, entry := none, lastSent := s.pkg.clk }

/-! ### Claims (S1) -/

/-- The record is one of Hukotil's. -/
def Record.hukotils (r : Record) : Bool := handlerOf r.kind == .hukotil && !r.host

/-- A page of this key is still on its way home, which keeps the key in service (R326). -/
def Hub.goingHome (h : Hub) (vf : Nat) (key : DWord) : Bool := h.writeBacks.any fun w => w.vf == vf && w.key == key

/-- Hukotil can claim the record now: its key is in service with room in the waiter list, or a packet core has
room for a new entry. -/
def State.claimable (s : State) (p : Nat) (r : Record) : Bool :=
  r.hukotils && (r.kind == 0x13 || !(s.hub (s.hubOf p)).goingHome r.vf r.detail) &&
  match s.service? (s.hubOf p) r.vf r.detail (r.kind == 0x13) with
  | some e => e.waiters.length < 1024
  | none => (s.hub (s.hubOf p)).service.length < 512

/-- The first record of a partition that can be claimed. -/
def State.nextClaim (s : State) (p : Nat) : Option Record := (s.partition p).queue.find? (s.claimable p)

/-- A record joins an entry as a waiter. -/
def State.joinService (s : State) (p : Nat) (r : Record) (e : Service) : State :=
  let s := s.modPartition p fun x => { x with standing := FMap.mod x.standing r.seq fun y =>
    { y with claimed := some e.claimed, record := { y.record with coalesced := true } } }
  s.setService (s.hubOf p) { e with waiters := e.waiters ++ [r.seq], prefetch := false }

/-- RECORD_CLAIM. -/
def State.claimHukotil (s : State) (p : Nat) : State :=
  match s.nextClaim p with
  | none => s
  | some r =>
    let hub := s.hubOf p
    let s := s.takeRecord p r.seq
    match s.service? hub r.vf r.detail (r.kind == 0x13) with
    | some e =>
      if r.kind == 0x30 then s.modHub hub fun h => { h with droppedPrefetch := h.droppedPrefetch + 1 }
      else s.joinService p r e
    | none =>
      let e : Service :=
        { vf := r.vf, key := r.detail, partition := p, va := r.address.toNat / 65536 * 65536
          compartment := r.compartment, leaf := none, step := if r.kind == 0x13 then 20 else 2, claimed := s.pkg.clk
          waiters := if r.kind == 0x30 then [] else [r.seq], prefetch := r.kind == 0x30, retried := false
          entry := none, frame := none, source := 0, lastSent := s.pkg.clk }
      let s := s.modPartition p fun x => { x with standing := FMap.mod x.standing r.seq fun y =>
        { y with claimed := some s.pkg.clk } }
      let s := s.modHub hub fun h => { h with service := h.service ++ [e] }
      if r.kind != 0x13 then s.directoryPhase hub e
      else if s.windowState r.detail.toNat == 1 then s
      else s.wakeService hub e false

def execRecordClaim (p : Nat) (s : State) : Out := .next (s.claimHukotil p)

/-! ### Directory answers -/

/-- Entries that wait in S2 for a key. -/
def State.waitingOn (s : State) (hub : Nat) (key : DWord) : List Service :=
  (s.hub hub).service.filter fun e => e.step == 2 && e.key == key

/-- Entries that wait for a frame try again. -/
def State.retryFrames (s : State) (hub : Nat) : State :=
  ((s.hub hub).service.filter fun e => e.step == 3).foldl (fun s e =>
    match e.entry with
    | some d => s.framePhase hub e d
    | none => s) s

/-- The hub dies of the package that a page may be held at, the one asked first. -/
def State.hubsFrom (s : State) (hub : Nat) : List Nat :=
  (hub :: (s.hubs.map Prod.fst ++ s.partitions.map fun e => e.2.homeHub)).eraseDups

/-- The pages that VFs of this device hold under a key. -/
def State.holding (s : State) (hub : Nat) (key : DWord) : List HeldPage :=
  (s.hubsFrom hub).flatMap fun k => ((s.hub k).held ++ s.unusedPages k).filter fun x => x.key == key && s.stillHeld x

/-- The page that a VF of this device holds under a key. -/
def State.heldUnder (s : State) (hub : Nat) (key : DWord) (vf : Option Nat) : Option HeldPage :=
  (s.holding hub key).find? fun x => vf.isNone || vf == some x.vf

/-- The directory sends invalidates to the holders of a shared-read page on this device. -/
def State.invalidateHere (s : State) (hub : Nat) (key : DWord) : State :=
  match s.known hub key with
  | some d =>
    if d.mode != 1 then s
    else ((s.holding hub key).map (·.vf)).eraseDups.foldl (fun s v => s.emit (.invalidate hub v key d.version)) s
  | none => s

/-- A page comes home; copies of shared-read holders here run S4. -/
def State.pageHome (s : State) (hub : Nat) (key : DWord) (frame : Nat) (page : PageImage) : State :=
  ((s.homePage frame (keptBytes page.bytes) page.poison (List.range 1024)).changeOwned hub key fun d =>
    { d with version := d.version + 1 }).invalidateHere hub key

/-- A merge page is checked in. -/
def State.pageIn (s : State) (hub : Nat) (key : DWord) (frame : Nat) (page : PageImage) (clean : Bool) : State :=
  ((if clean then s else s.mergeHome frame key (keptBytes page.bytes) page.poison).endCheckOut hub key !clean).retryFrames hub

/-- A page is fetched by another node: a copy that a VF of this device holds exclusively leaves straight for it. -/
def State.pageOut (s : State) (hub : Nat) (key : DWord) (d : DirEntry) (node : Nat) : State :=
  if d.state != 1 then s
  else match if d.mode == 0 then s.heldUnder hub key none else none with
    | some x =>
      if s.pageLocked hub x then s
      else
        let (_, _, _, s) := s.takePage hub x
        (s.changeOwned hub key fun d => { d with owner := node, version := d.version + 1 }).retryFrames hub
    | none =>
      (s.keepTwin hub d).changeOwned hub key fun d => match d.mode with
        | 0 => { d with owner := node }
        | _ => { d with sharers := d.sharers + 1 }

/-- An act of another node on the home copy of a page: it waits until this node knows the page's entry. -/
def State.homeAct (s : State) (hub : Nat) (key : DWord) (a : HomeAct) : State :=
  match s.known hub key with
  | none => s.modHub hub fun h => { h with homeActs := h.homeActs ++ [(key, a)] }
  | some d =>
    match (s.hub hub).homeFrame d with
    | none => s
    | some f =>
      match a with
      | .writeBack page => s.pageHome hub key f page
      | .checkIn page clean => s.pageIn hub key f page clean
      | .request node => s.pageOut hub key d node

/-- The acts that have waited for an entry come about. -/
def State.runHomeActs (s : State) (hub : Nat) (key : DWord) : State :=
  let mine := (s.hub hub).homeActs.filter fun a => a.1 == key
  mine.foldl (fun s a => s.homeAct hub key a.2)
    (s.modHub hub fun h => { h with homeActs := h.homeActs.filter fun a => a.1 != key })

/-- What this node keeps of an entry that it reads or is told of, for pages on their way home and for acts on the home copy
that wait for it. -/
def State.learn (s : State) (hub : Nat) (d : DirEntry) : State :=
  let s := if ((s.hub hub).writeBacks.any fun w => w.key == d.key) || (s.hub hub).homeActs.any fun a => a.1 == d.key then
      s.modHub hub fun h => h.cache d
    else s
  ((s.settleBacks hub d).freeTwin d).runHomeActs hub d.key

/-- DIRECTORY_ENTRY_RECEIVED from the owning node. -/
def execDirectoryEntryReceived (hub vf : Nat) (key : DWord) (entry : Option DirEntry) (s : State) : Out :=
  let s := match entry with
    | some d => if d.key == key then s.learn hub d else s
    | none => s
  .next (match s.service? hub vf key false with
    | some e =>
      if e.step != 2 then s
      else match entry with
        | some d => if d.key == key then (s.modHub hub fun h => h.cache d).entryPhase hub e d else s
        | none => s.declineService hub e 1
    | none => s)

/-- DIRECTORY_UPDATE: the owning node reports a change, or the home of a page of this node's own shard its arrival (R331,
R353); pages on their way home and entries that wait for it go on. (DEDUCED, log 111.) -/
def execDirectoryUpdate (hub : Nat) (entry : DirEntry) (s : State) : Out :=
  .next (let s := s.modHub hub fun h => { h with
            dirCache := h.dirCache.map fun x => if x.key == entry.key then entry else x }
    let s := s.learn hub entry
    (s.waitingOn hub entry.key).foldl (fun s e => s.entryPhase hub e entry) s)

/-- A reply or an update has been waited for since 20 µs. -/
def State.waited (s : State) (e : Service) : Bool := e.lastSent + 20000 ≤ s.pkg.clk

/-- DIRECTORY_WAIT_TIMEOUT: the entry is read again after 20 µs. -/
def execDirectoryWaitTimeout (hub vf : Nat) (key : DWord) (s : State) : Out :=
  .next (match s.service? hub vf key false with
    | some e =>
      if e.step == 2 && s.waited e then
        (s.modHub hub fun h => { h with dirCache := h.dirCache.filter fun d => d.key != key }).directoryPhase hub e
      else s
    | none => s)

/-- FRAME_WAIT_TIMEOUT: after 20 µs without a frame or a victim the entry is declined. -/
def execFrameWaitTimeout (hub vf : Nat) (key : DWord) (s : State) : Out :=
  .next (match s.service? hub vf key false with
    | some e =>
      if e.step == 3 && s.waited e then
        if (s.freeFrame e.partition).isSome || !(s.victims hub e.partition).isEmpty then
          s.framePhase hub e (e.entry.getD ⟨0, 0, 0, 0, 0, 0, 0, 0, [], 0, 0, 0, false⟩)
        else s.declineService hub e 5
      else s
    | none => s)

/-- A hub die where an entry waits for a frame and there is one for it, or a victim (R26). -/
def State.frameFree (s : State) : Option Nat :=
  s.hubs.findSome? fun h =>
    if h.2.service.any fun e => e.step == 3 && e.entry.isSome &&
      ((s.freeFrame e.partition).isSome || !(s.victims h.1 e.partition).isEmpty) then some h.1 else none

/-! ### Pages (S6) -/

/-- PAGE_RECEIVED: the version is compared, and the page installed; after one mismatch S2 runs again, after a
second the entry is declined (S6). A page that no entry waits for is discarded. -/
def execPageReceived (hub vf : Nat) (key : DWord) (version : BitVec 32) (page : List (Nat × Byte)) (poison : List Nat)
    (s : State) : Out :=
  .next (match s.service? hub vf key false with
    | some e =>
      match e.step, e.entry, e.frame with
      | 5, some d, some f =>
        if version == d.version then
          (s.recordFetch hub vf d).installPage hub e d f (keptBytes page) poison
        else if e.retried then s.declineService hub e 4
        else
          let s := s.modHub hub fun h => { h with dirCache := h.dirCache.filter fun d => d.key != key }
          s.directoryPhase hub { e with retried := true, frame := none, step := 2 }
      | _, _, _ => s
    | none => s)

/-! ### Timeouts (R327) -/

/-- An entry waits for a page. -/
def State.fetching (s : State) (hub vf : Nat) (key : DWord) : Option Service :=
  (s.service? hub vf key false).bind fun e => if e.step == 5 then some e else none

/-- The next of the moments 20 µs apart from a beginning on that follows the last request (R327). -/
def retryAt (began last : Nat) : Nat := began + ((last - began) / 20000 + 1) * 20000

/-- A page on its way home is due to be sent again. -/
def State.backDue (s : State) (w : WriteBack) : Bool := retryAt w.began w.lastSent ≤ s.pkg.clk

/-- The request of an entry is due to be sent again. -/
def State.retryDue (s : State) (e : Service) : Bool := retryAt e.claimed e.lastSent ≤ s.pkg.clk

/-- Pages on their way home under a key are sent again. -/
def State.resendBacks (s : State) (hub vf : Nat) (key : DWord) : State :=
  if (s.hub hub).goingHome vf key then
    s.modHub hub fun h => { h with writeBacks := h.writeBacks.map fun w =>
      if w.vf == vf && w.key == key && s.backDue w then { w with lastSent := s.pkg.clk } else w }
  else s

/-- RETRY_TIMEOUT: within 200 µs the same source is asked again every 20 µs, and a page that has not come home is sent
again. -/
def execRetryTimeout (hub vf : Nat) (key : DWord) (s : State) : Out :=
  let s := s.resendBacks hub vf key
  .next (match s.fetching hub vf key with
    | some e =>
      if s.retryDue e && s.pkg.clk < e.claimed + 200000 then s.setService hub { e with lastSent := s.pkg.clk } else s
    | none => s)

/-- The sources of a page: 0 its location, and each replica that may be asked (R326). -/
def State.sources (s : State) (hub vf : Nat) (d : DirEntry) : List Nat :=
  let h := s.hub hub
  0 :: ((d.replicas.takeWhile (· != 0xFFFF)).zipIdx.filter fun x => h.validNode x.1 && s.nodeAllowed h vf x.1).map (·.2 + 1)

/-- The source after one, in entry order and around. -/
def nextSource (ns : List Nat) (n : Nat) : Nat := ((ns.filter (n < ·)).head?).getD 0

/-- REPLICA_TIMEOUT: from 200 µs on the next replica is asked every 20 µs. -/
def execReplicaTimeout (hub vf : Nat) (key : DWord) (s : State) : Out :=
  .next (match s.fetching hub vf key with
    | some e =>
      if s.retryDue e && e.claimed + 200000 ≤ s.pkg.clk then
        s.setService hub { e with lastSent := s.pkg.clk
                                  source := nextSource ((e.entry.map (s.sources hub vf)).getD [0]) e.source }
      else s
    | none => s)

/-- DECLINE_TIMEOUT: no reply within 2 ms. -/
def execDeclineTimeout (hub vf : Nat) (key : DWord) (s : State) : Out :=
  .next (match s.service? hub vf key false with
    | some e => if e.claimed + 2000000 ≤ s.pkg.clk then s.declineService hub e 7 else s
    | none => s)

/-- When the 50 ms of a record began: its entry's claim, or its Time where it went straight to the host
complex. (DEDUCED, log 115.) -/
def Standing.since (e : Standing) : Option Nat :=
  if e.answered then none
  else if e.record.kind == 0x11 then some e.record.time.toNat
  else if e.record.kind == 0x10 || e.record.kind == 0x12 || e.record.kind == 0x13 || e.record.kind == 0x31 then e.claimed
  else none

/-- A wake for an event is stored in its VF's save area (R26). -/
def State.wakeStands (s : State) (vf seq : Nat) : Bool := (s.vf vf).save.wakes.any fun w => w.seq.toNat == seq

/-- 50 ms have passed for a standing event without a wake. -/
def State.remoteLate (s : State) (p seq : Nat) : Bool :=
  match (FMap.find? (s.partition p).standing seq).bind Standing.since with
  | some t => t + 50000000 ≤ s.pkg.clk && !(s.partition p).queue.any (fun r => r.kind == 0x20 && r.detail.toNat == seq) &&
    !(((FMap.find? (s.partition p).standing seq).map fun e => s.wakeStands e.record.vf seq).getD false)
  | none => false

/-- REMOTE_TIMEOUT: the event remote-timeout stands against the waiter, and the scheduler core kills its grid.
(DEDUCED, log 112.) -/
def execRemoteTimeout (p : Nat) (seq : BitVec 32) (s : State) : Out :=
  .next (if s.remoteLate p seq.toNat then
      match FMap.find? (s.partition p).standing seq.toNat with
      | some e =>
        let r := { e.record with kind := 0x20, time := s.clk, detail := 0, log := none, decline := 0, host := false }
        (s.modPartition p fun x => { x with standing := FMap.mod x.standing seq.toNat fun y =>
          { y with answered := true } }).report p r |>.2
      | none => s
    else s)

/-! ### Requests of other nodes (R331) -/

/-- OWNERSHIP_REQUEST: an exclusive page leaves for the requester, unless it is locked or pinned, which delays
it. -/
def execOwnershipRequest (hub vf : Nat) (key : DWord) (requester requesterVf : Nat) (s : State) : Out :=
  .next (match s.heldUnder hub key (some vf) with
    | some x =>
      if s.pageLocked hub x then s
      else
        let (_, _, _, s) := s.takePage hub x
        (s.changeOwned hub key fun d =>
          { d with owner := requester, ownerVf := requesterVf, version := d.version + 1 }).retryFrames hub
    | none => s.changeOwned hub key fun d => { d with owner := requester, ownerVf := requesterVf, version := d.version + 1 })

/-- A copy that this device holds is older than a version. -/
def HeldPage.olderThan (x : HeldPage) (version : BitVec 32) : Bool := x.version != some version

/-- An invalidate waits while the copy is locked. -/
def State.invalidHeld (s : State) (hub vf : Nat) (key : DWord) (version : BitVec 32) : Bool :=
  match s.heldUnder hub key (some vf) with
  | some x => x.olderThan version && s.pageLocked hub x
  | none => false

/-- INVALIDATE: S4 runs on a copy of an older version; one that is locked leaves when it is free. -/
def execInvalidate (hub vf : Nat) (key : DWord) (version : BitVec 32) (s : State) : Out :=
  .next (match s.heldUnder hub key (some vf) with
    | some x =>
      if !x.olderThan version then s
      else if s.pageLocked hub x then s.emit (.invalidate hub vf key version)
      else (s.evict hub x).retryFrames hub
    | none => s)

/-- CHECK_IN at the home of a merge page. -/
def execCheckIn (hub : Nat) (key : DWord) (page : PageImage) (clean : Bool) (s : State) : Out :=
  .next (s.homeAct hub key (.checkIn page clean))

/-- PIN_EXPIRY: after 1 ms a page is no longer pinned. -/
def execPinExpiry (vf page : Nat) (s : State) : Out :=
  .next (let late := s.pinned.filter fun x => x.vf == vf && x.page == page && x.since + 1000000 ≤ s.pkg.clk
    if late.isEmpty then s
    else
      let s := { s with pinned := s.pinned.filter fun x => !late.contains x }
      match s.partOf vf with
      | some p => s.retryFrames (s.hubOf p)
      | none => s)

/-- DIRECTORY_QUERY: another node reads an entry of this node's shard; the answer leaves the package. -/
def execDirectoryQuery (_hub : Nat) (_key : DWord) (_node : Nat) (s : State) : Out := .next s

/-- PAGE_REQUEST: another node fetches a page that this device homes. -/
def execPageRequest (hub : Nat) (key : DWord) (node : Nat) (s : State) : Out := .next (s.homeAct hub key (.request node))

/-- PAGE_WRITE_BACK: a page comes home with its poison map. -/
def execPageWriteBack (hub : Nat) (key : DWord) (page : PageImage) (s : State) : Out :=
  .next (s.homeAct hub key (.writeBack page))

/-- STORAGE_ERROR_REPORT of the location that an entry has asked. (DEDUCED, log 116.) -/
def execStorageErrorReport (hub vf : Nat) (key : DWord) (s : State) : Out :=
  .next (match s.fetching hub vf key with
    | some e => if ((e.entry.map (·.locKind)).getD 0) == 2 then s.declineService hub e 3 else s
    | none => s)

/-! ### Windows (R216, R366, R369) -/

/-- The window-pending entries of a window wake their waiters. -/
def State.wakeWindow (s : State) (idx : Nat) : State :=
  s.hubs.foldl (fun s h =>
    (h.2.service.filter fun e => e.step == 20 && e.key.toNat == idx).foldl (fun s e => s.wakeService h.1 e false) s) s

/-- The words that wait for a window are done. -/
def State.answerWindow (s : State) (idx : Nat) : State :=
  (s.waitsOn fun c => c == .window idx).foldl (fun s n => s.endWait n ⟨[], 0, none⟩) s

/-- WINDOW_REKEY_COMPLETE: an opening window is ready, or its waiting close begins; a closing one is closed, its
frames re-keyed or zeroed; what waits for one that a VF reset has closed is answered. -/
def execWindowRekeyComplete (idx : Nat) (s : State) : Out :=
  .next (match FMap.find? s.pkg.windows idx with
    | some w =>
      if w.state == 1 then
        let s := s.modWindow idx fun w => { w with state := 2 }
        if w.closeNext then (s.windowClosing idx).wakeWindow idx else (s.wakeWindow idx).answerWindow idx
      else if w.state == 3 then
        let s := if w.zeroOnClose then s.zeroRanges (w.frames.map fun f => (f, 65536)) else s
        (s.modWindow idx fun w => { w with state := 0 }).answerWindow idx
      else if w.state == 0 then (s.wakeWindow idx).answerWindow idx
      else s
    | none => s)

end Sys2Proof.Machine
end

