-- ==== Sys2Proof/Machine/Loops.lean ====
section
/-! DEFINITION. The hardware loops: retention, the aging scan, the cluster-cache sweeper, re-encryption, the power
arbiter, and the clock and droop loops (spec/05_registers.md R104, R105, spec/09_memories.md R201, R202, R206, R213,
spec/15_counters.md R388, spec/18_platform.md R404 to R407). -/

namespace Sys2Proof.Machine

/-! ### Retention (R104, R201) -/

/-- The updates that still count: those of the last 4,096 µs, and the one in force before them. -/
def keepUpdates (clk : Nat) : List (Nat × Nat) → List (Nat × Nat)
  | [] => []
  | e :: rest => if e.1 + 4096000 < clk then [e] else e :: keepUpdates clk rest

/-- RETN_UPDATE: never below 40,000. -/
def execRetnUpdate (cl : Nat) (ns : BitVec 32) (tj : BitVec 16) (s : State) : Out :=
  .next (let v := max ns.toNat 40000
    s.modCluster cl fun k => { k with retn := v, tj := tj, retnLog := (s.pkg.clk, v) :: keepUpdates s.pkg.clk k.retnLog })

/-- AGING_SCAN: every valid line that is stale is marked (R202). -/
def execAgingScan (cl : Nat) (s : State) : Out :=
  .next ({ s with scratch := FMap.mapV (fun k l =>
    if k / 16384 == cl && l.valid && s.stale cl l then { l with expired := true } else l) s.scratch }.modCluster cl fun k =>
      { k with scanned := s.pkg.clk })

/-- The key of a line of a cluster's cache. -/
def lineKey (cl line : Nat) : Nat := cl * 2 ^ 60 + line

/-- A test of the line of a cluster's cache. -/
def State.ccTest (s : State) (cl line : Nat) (f : State → Nat → CcLine → Bool) : Bool :=
  ((FMap.find? s.cc (lineKey cl line)).map (f s (lineKey cl line))).getD false

/-- The sweeper's visit of a line cannot wait longer: its next microsecond is the limit (R206). -/
def State.sweepLate (s : State) (k : Nat) (l : CcLine) : Bool :=
  s.ccDue k l && decide (s.retnLow (ccCluster k) l.stamp / 1000 ≤ s.ccAge l + 1)

/-- SWEEPER_VISIT of a line that is due: the dirty sectors go home and the line is dropped (R206). -/
def execSweeperVisit (cl line : Nat) (s : State) : Out :=
  .next (if s.ccTest cl line State.ccDue then (s.ccBack (lineKey cl line)).ccDrop (lineKey cl line) else s)

/-- RETENTION_LOSS: a line that has reached its limit is lost (R206). (DEDUCED, log 131.) -/
def execRetentionLoss (cl line : Nat) (s : State) : Out :=
  .next (if s.ccTest cl line State.ccLost then s.ccLose (lineKey cl line) else s)

/-- REENCRYPT_COMPLETE: writes of the leaf's 4 KiB go on (R213). -/
def execReencryptComplete (leaf : Nat) (s : State) : Out :=
  .next { s with tree := FMap.mod s.tree leaf fun x => { x with busy := false } }

/-! ### The power arbiter (R388, R405) -/

/-- Hub islands are 24 to 31 (R404). -/
def hubIsland (i : Nat) : Bool := 24 ≤ i

/-- The lowest clock of an island: 400 MHz, or full speed for a hub island. -/
def floorClock (i : Nat) : Nat := if hubIsland i then 2000 else 400

/-- The floor grant. -/
def floorGrant (i : Nat) : Nat := Config.current i (floorClock i)

/-- What is left of an island's demand above its floor. -/
def restDemand (demand : List (BitVec 32)) (i : Nat) : Nat := (demand.getD i 0).toNat - floorGrant i

/-- The share of one island in what is left: in proportion to the demand that remains, and no more than it. -/
def shareOf (rest total need : Nat) : Nat := if total == 0 then 0 else min need (rest * need / total)

/-- The budget in effect: 60 W less for each degree of coolant above 40 °C. -/
def budgetNow (budget inlet : Nat) : Nat := budget - 60 * (inlet - 40)

/-- The grants of steps 2 to 4. (DESIGN CHOICE, log 129.) -/
def grants (budget inlet draw : Nat) (demand : List (BitVec 32)) (hot : List Nat) : List Nat :=
  let ids := List.range 32
  let sum := fun (l : List Nat) => l.foldl (· + ·) 0
  let rest := Config.budgetCurrent (budgetNow budget inlet) - sum (ids.map floorGrant)
  let hubTotal := sum ((ids.filter hubIsland).map (restDemand demand))
  let hubShare := fun i => shareOf rest hubTotal (restDemand demand i)
  let left := rest - sum ((ids.filter hubIsland).map hubShare)
  let total := sum ((ids.filter fun i => !hubIsland i).map (restDemand demand))
  ids.map fun i =>
    let g := floorGrant i + (if hubIsland i then hubShare i else shareOf left total (restDemand demand i))
    if hot.contains i then min g (Config.hotCap draw i) else g

/-- The compute islands with a cluster whose Tj exceeds 100 °C, in units of 0.125 °C (R405). -/
def State.hotIslands (s : State) : List Nat :=
  ((s.clusters.filter fun e => 800 < e.2.tj.toInt).map fun e => s.islandOf (4 * e.1)).eraseDups

/-- POWER_GRANT: the arbiter's microsecond; `hot` adds islands whose temperature no register of a cluster shows, those of
the hub dies among them. (DESIGN CHOICE, log 129.) -/
def execPowerGrant (demand drawn : List (BitVec 32)) (hot : List Nat) (inlet : Nat) (s : State) : Out :=
  .next (let gs := grants s.pkg.budget inlet s.draws demand (s.hotIslands ++ hot)
    { s with draws := s.draws + 73 }.modPkg fun k =>
      { k with
        inlet := inlet
        granted := k.clk
        islands := (List.range 32).foldl (fun (m : FMap Island) i =>
          let x := s.island i
          let g := gs.getD i 0
          let d := demand.getD i 0
          let w := drawn.getD i 0
          FMap.put m i { x with
            grant := BitVec.ofNat 32 g, drawn := w, demand := d
            energy := x.energy + BitVec.ofNat 64 (Config.energyStep i w.toNat)
            limited := if g < d.toNat then satInc x.limited else x.limited }) k.islands })

/-- The clocks of a compute island, highest first: 1,250 down to 400 MHz in steps of 25. -/
def clocks : List Nat := (List.range 35).map fun i => 1250 - 25 * i

/-- The highest clock that fits a grant. -/
def fitClock (i grant : Nat) : Nat := (clocks.find? fun m => Config.current i m ≤ grant).getD 400

/-- The clock that the loop sets for an island: one whose demand exceeds its grant runs at the highest that fits.
(DEDUCED, log 130.) -/
def loopClock (i : Nat) (x : Island) : Nat :=
  if hubIsland i then x.mhz else if x.grant.toNat < x.demand.toNat then fitClock i x.grant.toNat else 1250

/-- FREQUENCY_LOOP. -/
def execFrequencyLoop (i : Nat) (s : State) : Out :=
  .next (let x := s.island i
    s.modPkg fun k => { k with islands := FMap.put k.islands i { x with mhz := loopClock i x } })

/-- The arbiter's next microsecond: demand, drawn current and hot hub islands are free, the inlet temperature is the one in
effect (R405). -/
def State.nextGrant (s : State) : Instr :=
  let free := fun k => (List.range 32).map fun i => Config.freeWord (s.draws + k + i)
  .powerGrant (free 1) (free 33) ((List.range 8).filterMap fun i =>
    if Config.choose (s.draws + 65 + i) 2 % 2 == 0 then some (24 + i) else none) s.pkg.inlet

/-- A microsecond has passed since the arbiter's last grant. -/
def State.grantDue (s : State) : Bool := s.pkg.granted + 1000 ≤ s.pkg.clk

/-- SERDES EQUALISATION: the tap settings and the eye margin of some lane of some hub die are new, with values that are free
(R407). (DESIGN CHOICE, log 172.) -/
def State.equalise (s : State) : State :=
  let lane := Config.choose (s.draws + 1) 64 % 64
  { s with draws := s.draws + 4 }.modHub (Config.choose s.draws 4 % 4) fun h =>
    { h with serdes := FMap.put h.serdes lane (Config.freeWord (s.draws + 2), Config.freeWord (s.draws + 3)) }

/-- DROOP_LOOP: the guard band of an island (R407). -/
def execDroopLoop (i mv : Nat) (s : State) : Out :=
  .next (s.modPkg fun k => { k with islands := FMap.put k.islands i { s.island i with guardBand := mv } })

end Sys2Proof.Machine
end

