-- ==== Sys2Proof/Machine/Manage.lean ====
section
/-! DEFINITION. The management window: Hallmark, table writes, the other commands and SPDM
(spec/18_platform.md R408 to R419, with the tables' own rules). -/

namespace Sys2Proof.Machine

/-! ### Hallmark (R416, R417) -/

/-- A measured change: the value is extended and the log entry appended; none where the log is full. -/
def State.extend (s : State) (type index : Nat) (m : List Byte) : Option State :=
  if 65536 ≤ s.pkg.hallLog.length then none
  else
    let old := FMap.getD s.pkg.measurements index (List.replicate 48 0)
    some (s.modPkg fun k =>
      { k with measurements := FMap.put k.measurements index (sha384 (old ++ m))
               hallLog := k.hallLog ++ [⟨m, s.clk, type, index⟩] })

/-- A digest of contents whose bytes the spec does not lay out. (DESIGN CHOICE, log 134.) -/
def State.freeDigest (s : State) : List Byte := (List.range 48).map fun i => Config.freeByte (s.draws + i)

/-- An event that Hallmark records if it can: an integrity event (R213, R214), a step of Almanac. -/
def State.record (s : State) (type index : Nat) (m : List Byte) : State :=
  { (s.extend type index m).getD s with draws := s.draws + 48 }

/-! ### Answers (R408) -/

/-- The command ends with a status; detail and result are 0 unless the command says otherwise. -/
def State.answer (s : State) (status : Nat) : State :=
  s.modPkg fun k => { k with mgmt := { k.mgmt with status := status, detail := 0, result := List.replicate 56 0 } }

/-- The command is done, and the data buffer holds bytes. -/
def State.answerData (s : State) (bs : List Byte) : State :=
  (s.answer 0).modPkg fun k => { k with mgmt := { k.mgmt with buffer := bs } }

/-- A command: the external host may use some always and the others while the external-access flag is set; while a
signed exchange is unfinished the status word reads 1, and the command is ignored and counted. (DEDUCED, log 138.) -/
def State.command (s : State) (r : Reader) (always : Bool) (f : State → State) : State :=
  if r.outside && !s.hostAttached then s
  else if s.pkg.mgmt.bound.isSome then s.modPkg fun k => { k with mgmt := { k.mgmt with ignored := k.mgmt.ignored + 1 } }
  else if r.outside && !always && !s.pkg.mgmt.external then s.answer 2
  else f s

/-! ### Table writes (R409) -/

/-- What a table write does: the new state, or the status that refuses it. -/
abbrev Written := Except Nat State

/-- The write goes on only where a condition holds. -/
def whenOk (b : Bool) (f : Written) : Written := if b then f else .error 1

/-- A measured write: Hallmark is extended first. -/
def State.measured (s : State) (type index : Nat) (m : List Byte) (f : State → State) : Written :=
  match s.extend type index m with
  | some s => .ok (f s)
  | none => .error 4

/-- Every VF assigned to a partition is swapped out (R20, R38). -/
def State.suspended (s : State) (p : Nat) : Bool := (s.partition p).resident.isNone && (s.partition p).preempt.step == 0

/-- The VF is swapped out. -/
def State.swappedOut (s : State) (vf : Nat) : Bool :=
  match s.partOf vf with
  | some p => (s.partition p).resident != some vf
  | none => true

/-- The first bytes and lengths of a partition's slices. -/
def sliceRanges (slices : List Nat) : List (Nat × Nat) := slices.map fun x => (x * 2 ^ 33, 2 ^ 33)

/-- The keys of every VF of a partition are fresh. -/
def State.rekeyPartition (s : State) (p : Nat) : State :=
  { s with vfs := FMap.mapV (fun _ v => if v.partition == some p then { v with keys := freshKeys v.keys } else v) s.vfs }

/-- A partition descriptor (R20, R211). -/
def State.writePartition (s : State) (id : Nat) (slices queues : List Nat) (ways : BitVec 16) (hub : Nat) (prot : Bool)
    (ecc : Nat) : Written :=
  let old := s.partition id
  let shared := s.partitions.any fun e =>
    e.1 != id && (e.2.slices.any slices.contains || e.2.netQueues.any queues.contains)
  let absent := slices.any fun x => 128 ≤ x || (FMap.getD s.slices x Slice.reset).disabled
  whenOk (id < 48 && hub < 4 && ecc ≤ 2 && !(prot && ecc == 2) && s.suspended id && !shared && !absent &&
      slices.eraseDups.length == slices.length && queues.eraseDups.length == queues.length) <|
    match s.extend 0x0007 4 s.freeDigest with
    | none => .error 4
    | some s =>
      let write := fun (s : State) => s.modPartition id fun x =>
        { x with
          defined := true
          slices := slices
          netQueues := queues
          ways := ways
          homeHub := hub
          isProtected := prot
          eccMode := ecc }
      let s := { s with draws := s.draws + 48 }
      if old.defined && ecc != old.eccMode then
        s.measured 0x0008 5 s.freeDigest fun s =>
          (((write { s with draws := s.draws + 48 }).zeroRanges (sliceRanges slices)).rekeyPartition id)
      else .ok (write s)

/-- The keys of a new VF: the network key, and those of compartment 0 (R217). -/
def newKeys (m : FMap Key) : FMap Key :=
  [0, 1, 5].foldl (fun (m : FMap Key) i =>
    let k := FMap.getD m i ⟨0, false⟩
    if k.valid then m else FMap.put m i { k with valid := true }) m

/-! ### Custody of keys (R22, R217) -/

/-- A key of the package; `comp` is a compartment of the VF. -/
inductive KeyName where
  | memory (vf comp : Nat)
  | mac (vf comp : Nat)
  | window (index : Nat)
  | network (vf : Nat)
  | transport (vf roster : Nat)
  | link (port : Nat)
  deriving DecidableEq, Repr

/-- A unit that can hold a key. -/
inductive KeyHolder where
  | slice (n : Nat)
  | clusterPort (cluster : Nat)
  | slicePort (n : Nat)
  | router
  | ethernetPort (n : Nat)
  | cipher (hub : Nat)
  | ualinkPort (n : Nat)
  | securityCore
  deriving DecidableEq, Repr

/-- The key is installed. -/
def State.keyValid (s : State) (k : KeyName) : Bool :=
  let entry := fun (vf i : Nat) => (FMap.getD (s.vf vf).keys i ⟨0, false⟩).valid
  match k with
  | .memory vf comp => entry vf (1 + comp)
  | .mac vf comp => entry vf (5 + comp)
  | .network vf => entry vf 0
  | .window i => ((FMap.find? s.pkg.windows i).map fun w => w.state != 0).getD false
  | .transport vf i => (FMap.getD (s.vf vf).transport i ⟨0, false⟩).valid
  | .link port => (FMap.getD s.pkg.linkKeys port ⟨0, false⟩).valid

/-- THE CUSTODY TABLE: a unit holds a key (R22). Compute cores, L1s, cluster memory and L2 arrays are no holders. -/
def State.holds (s : State) (u : KeyHolder) (k : KeyName) : Bool :=
  let slices := fun vf => ((s.partOf vf).map fun p => (s.partition p).slices).getD []
  let clusters := fun vf => ((s.partOf vf).map s.clustersOf).getD []
  s.keyValid k &&
  match u, k with
  | .securityCore, _ => true
  | .slice n, .memory vf _ | .slice n, .mac vf _ => (slices vf).contains n
  | .slice n, .window i => (slices (((FMap.find? s.pkg.windows i).map (·.ownerVf)).getD 0)).contains n
  | .slicePort n, .network vf => (slices vf).contains n
  | .clusterPort cl, .network vf => (clusters vf).contains cl
  | .router, .network _ => true
  | .ethernetPort _, .transport _ _ | .cipher _, .transport _ _ => true
  | .ualinkPort n, .link port => n == port
  | _, _ => false

/-- The VF descriptor and its way mask (R21, R210): lines in a lost way are dropped first. -/
def State.writeVf (s : State) (vf p : Nat) (mask : BitVec 16) : Written :=
  let v := s.vf vf
  let change := fun (s : State) =>
    let s := { s with l2 := FMap.drop (fun _ g => g.vf == vf && !mask.getLsbD g.way) s.l2 }
    s.modVf vf fun v => { v with partition := some p, wayMask := mask, keys := newKeys v.keys }
  whenOk (vf < 512 && p < 48 && (s.partition p).defined && (v.partition == some p || s.swappedOut vf)) <|
    if mask == v.wayMask then .ok (change s)
    else s.measured 0x0011 11 s.freeDigest fun s => change { s with draws := s.draws + 48 }

/-- The address-space record (R342). -/
def State.writeSpace (s : State) (vf : Nat) (b : List Byte) : Written :=
  let root := fieldLE b 0 8
  let priv := fieldLE b 24 8
  let handles := fieldLE b 32 8
  let save := fieldLE b 40 8
  whenOk (vf < 512 && b.length == 64 && s.swappedOut vf && fieldLE b 8 16 == 0 && fieldLE b 48 16 == 0 &&
      root % 32768 == 0 && priv % 65536 == 0 && handles % 65536 == 0 && save % 65536 == 0) <|
    s.measured 0x0010 10 (sha384 b) fun s =>
      s.modVf vf fun v => { v with root := root, privBase := priv, handleBase := handles, saveArea := save }

/-- A package quad with all its logical units: one with a disabled unit enters no core map. (DEDUCED, log 155.) -/
def State.quadWhole (s : State) (q : Nat) : Bool :=
  (List.range 4).all fun i =>
    FMap.getD s.pkg.clusterRemap (q * 4 + i) 0 != 0xFF &&
      (List.range 4).all fun j => FMap.getD s.pkg.coreRemap ((q * 4 + i) * 4 + j) 0 != 0xFF

/-- Trailing unused entries of a core map are not listed. -/
def trimMap (quads : List Nat) : List Nat := (quads.reverse.dropWhile (· == 0xFF)).reverse

/-- The partition core map (R354): a write while a VF is resident is refused and counted; the L1s of the old and new
cores are invalidated (R195). -/
def State.writeCoreMap (s : State) (id : Nat) (quads : List Nat) : Written × State :=
  let used := quads.filter (· != 0xFF)
  let shared := s.partitions.any fun e => e.1 != id && e.2.coreMap.any fun q => q != 0xFF && used.contains q
  let image := quads.map (BitVec.ofNat 8) ++ List.replicate (64 - quads.length) 0xFF#8
  if !s.suspended id then (.error 1, s.modPkg fun k => { k with coreMapRefused := k.coreMapRefused + 1 })
  else
    (whenOk (id < 48 && quads.length ≤ 64 && used.all (fun q => q < 64 && s.quadWhole q) &&
        used.eraseDups.length == used.length && !shared) <|
      s.measured 0x000B 7 (sha384 image) fun s =>
        let cores := s.coresOf id
        let s := s.modPartition id fun x => { x with coreMap := trimMap quads }
        (cores ++ s.coresOf id).foldl State.l1Flush s, s)

/-- The mode of a bank (R197, R198). -/
def State.writeBankMode (s : State) (cl b mode : Nat) : Written :=
  whenOk (cl < 256 && b < 64 && mode ≤ 3) <|
    let t := s.setMode cl b mode
    let m := t.bank cl b
    if mode == 3 || m.mode == 3 || m.mode == mode || (m.switching && m.next == mode) then .ok t else .error 1

/-- A launch-queue descriptor (R290). -/
def State.writeQueue (s : State) (vf q : Nat) (on : Bool) (prio : Nat) : Written :=
  whenOk (vf < 512 && q < 64 && prio ≤ 7) <| .ok <|
    s.modVf vf fun v =>
      let l := FMap.getD v.queues q ⟨false, 0, [], [], none, false, none⟩
      { v with queues := FMap.put v.queues q { l with enabled := on, priority := prio } }

/-- A work-port descriptor (R297). -/
def State.writePort (s : State) (vf port : Nat) (on : Bool) (q : Nat) : Written :=
  whenOk (vf < 512 && port < 256 && q < 64) <| .ok <|
    s.modVf vf fun v =>
      let p := FMap.getD v.ports port ⟨false, 0, 0⟩
      { v with ports := FMap.put v.ports port { p with enabled := on, queue := q } }

/-- Read a roster entry; none where it breaks R300. -/
def rosterOf (b : List Byte) : Option Roster :=
  let r : Roster :=
    { kind := fieldLE b 1 1, device := fieldLE b 4 2, node := fieldLE b 8 6, peerVf := fieldLE b 6 2
      peerPartition := fieldLE b 2 1, send := natBit (fieldLE b 0 1) 1, receive := natBit (fieldLE b 0 1) 0 }
  if b.length == 16 && fieldLE b 14 2 == 0 && fieldLE b 3 1 == 0 && fieldLE b 0 1 < 4 && r.kind ≤ 2 && r.peerVf < 512 &&
    r.device < 1024 && r.peerPartition < 48 then some r else none

/-- The security core installs a transport key for an entry of Kind 2, and discards that of another (R22, R308).
(DESIGN CHOICE, log 154.) -/
def newTransport (m : FMap Key) (i : Nat) (r : Roster) : FMap Key :=
  let k := FMap.getD m i ⟨0, false⟩
  if r.kind == 2 then FMap.put m i ⟨k.generation + 1, true⟩
  else if k.valid then FMap.put m i { k with valid := false } else m

def State.writeRoster (s : State) (vf i : Nat) (b : List Byte) : Written :=
  match rosterOf b with
  | none => .error 1
  | some r => whenOk (vf < 512 && i < 256) <| s.measured 0x000C 8 (sha384 b) fun s =>
      s.modVf vf fun v => { v with roster := FMap.put v.roster i r, transport := newTransport v.transport i r, sent := FMap.del v.sent i }

/-- A node-table entry (R351): the fabric address in bytes 5:0, the roster index, Valid. -/
def State.writeNode (s : State) (hub i : Nat) (b : List Byte) : Written :=
  whenOk (hub < 4 && i < 65535 && b.length == 8 && fieldLE b 7 1 ≤ 1) <|
    s.measured 0x000D 8 (sha384 b) fun s => s.modHub hub fun h =>
      { h with nodes := if fieldLE b 7 1 == 1 then FMap.put h.nodes i (fieldLE b 0 6, fieldLE b 6 1) else FMap.del h.nodes i }

/-- A shard-map entry (R351). -/
def State.writeShard (s : State) (hub ns i node : Nat) : Written :=
  whenOk (hub < 4 && ns < 65536 && i < 4096 && node < 65536) <|
    s.measured 0x000D 8 (sha384 (bytesLE 2 node)) fun s => s.modHub hub fun h =>
      { h with shards := FMap.put h.shards (ns * 4096 + i) node }

/-- Read a trigger entry; none where it breaks R356. -/
def triggerOf (b : List Byte) : Option Trigger :=
  let flags := fieldLE b 72 1
  let t : Trigger :=
    { head := b.take 16, args := (b.drop 16).take 32, barrier := addressField b 48, landBase := addressField b 56
      landLen := fieldLE b 68 4, enabled := natBit flags 0, oneShot := natBit flags 1, queue := fieldLE b 73 1, fireCount := 0 }
  let cluster := match destOf t.barrier with
    | some (.cluster _ _) => true
    | _ => false
  if b.length == 128 && fieldLE b 80 48 == 0 && fieldLE b 74 2 == 0 && fieldLE b 64 4 == 0 && flags < 4 && t.queue < 64 &&
    cluster && (destOf t.landBase).isSome then some t else none

def State.writeTrigger (s : State) (vf i : Nat) (b : List Byte) : Written :=
  match triggerOf b with
  | none => .error 1
  | some t => whenOk (vf < 512 && i < 256) <| .ok <| s.modVf vf fun v =>
      let n := ((FMap.find? v.triggers i).map fun (x : Trigger) => x.fireCount).getD 0
      { v with triggers := FMap.put v.triggers i { t with fireCount := n } }

/-- A queue semaphore (R381): a loan that the new value ends is over (R294), and what waits on it may be served. -/
def State.writeSem (s : State) (vf i : Nat) (x : BitVec 32) : Written :=
  whenOk (vf < 512 && i < 4096) <| .ok (((s.setSem vf i x.toNat).endLoans vf i).semTest vf i)

/-- The compartment table (R364): Valid on the next entry, or Declassify; a set reserved bit breaks the entry (R8). -/
def State.writeComp (s : State) (vf i : Nat) (entry : DWord) : Written :=
  let v := s.vf vf
  let valid := entry.getLsbD 0
  let declassify := entry.getLsbD 1
  let old := FMap.getD v.comps i (false, false)
  let next := (v.comps.filter fun c => c.2.1).length
  let install := fun (m : FMap Key) => [1 + i, 5 + i].foldl (fun (m : FMap Key) k =>
    let x := FMap.getD m k ⟨0, false⟩
    FMap.put m k ⟨x.generation + 1, true⟩) m
  whenOk (vf < 512 && i < 4 && s.swappedOut vf && entry.toNat < 4 && valid && (old.1 || i == next)) <|
    s.measured 0x0012 12 (sha384 (bytesLE 8 entry.toNat)) fun s => s.modVf vf fun v =>
      { v with comps := FMap.put v.comps i (true, declassify), keys := if old.1 then v.keys else install v.keys }

/-- The debug grant (R412): refused for a protected partition. -/
def State.writeGrant (s : State) (vf : Nat) (on : Bool) : Written :=
  let prot := ((s.partOf vf).map fun p => (s.partition p).isProtected).getD true
  whenOk (vf < 512 && !(on && prot)) <| s.measured 0x0013 13 s.freeDigest fun s =>
    { s with draws := s.draws + 48 }.modVf vf fun v => { v with debugGrant := on }

/-- The host complex creates a directory entry, or puts it in place of the one with its key, in a shard that this node
owns; a change of Version goes to every copy (R352, R353). (DESIGN CHOICE, log 168.) -/
def State.writeDirectory (s : State) (hub : Nat) (d : DirEntry) : Written :=
  let h := s.hub hub
  whenOk (hub < 4 && h.entryOk d && bitsOf d.key.toNat 41 7 == 0 && h.shardNode d.key == h.selfNode) <| .ok <|
    match s.ownedEntry hub d.key with
    | some _ => s.changeOwned hub d.key fun _ => d
    | none => s.modHub hub fun h => { h with owned := h.owned ++ [d] }

/-- It deletes one; one that stands nowhere is none to delete. -/
def State.deleteDirectory (s : State) (hub : Nat) (key : DWord) : Written :=
  whenOk (hub < 4 && (s.ownedEntry hub key).isSome) <| .ok
    { s with hubs := FMap.mapV (fun _ h => { h with owned := h.owned.filter fun d => d.key != key }) s.hubs }

/-- A table write; a core-map write may count its refusal. (DEDUCED, log 137.) -/
def State.writeTable (s : State) (q : TableWriteReq) : Written × State :=
  match q with
  | .partition id slices queues ways hub prot ecc => (s.writePartition id slices queues ways hub prot ecc, s)
  | .vfDescriptor vf p mask => (s.writeVf vf p mask, s)
  | .addressSpace vf b => (s.writeSpace vf b, s)
  | .coreMap id quads => s.writeCoreMap id quads
  | .bankMode cl b mode =>
    (s.writeBankMode cl b mode, if cl < 256 && b < 64 && mode ≤ 3 then s.setMode cl b mode else s)
  | .queueDescriptor vf q on prio => (s.writeQueue vf q on prio, s)
  | .portDescriptor vf port on q => (s.writePort vf port on q, s)
  | .roster vf i b => (s.writeRoster vf i b, s)
  | .node hub i b => (s.writeNode hub i b, s)
  | .selfNode hub i => (whenOk (hub < 4 && i < 65536) (.ok (s.modHub hub fun h => { h with selfNode := i })), s)
  | .shard hub ns i node => (s.writeShard hub ns i node, s)
  | .trigger vf i b => (s.writeTrigger vf i b, s)
  | .semaphore vf i x => (s.writeSem vf i x, s)
  | .compartment vf i e => (s.writeComp vf i e, s)
  | .debugGrant vf on => (s.writeGrant vf on, s)
  | .externalAccess on => (.ok (s.modPkg fun k => { k with mgmt := { k.mgmt with external := on } }), s)
  | .directoryEntry hub d => (s.writeDirectory hub d, s)
  | .directoryDelete hub key => (s.deleteDirectory hub key, s)
  | .hostRing a => (whenOk (a % 64 == 0 && !s.badFrame a && !s.badFrame (a + 64 * 65536 - 1))
      (.ok (s.modPkg fun k => { k with hostRing := some a })), s)

/-- What the host complex alone writes: the flag, directory entries (R353), and the address of its ring (R319). -/
def hostOnly : TableWriteReq → Bool
  | .externalAccess _ | .directoryEntry .. | .directoryDelete .. | .hostRing _ => true
  | _ => false

/-- TABLE_WRITE, command 0x0003. -/
def execTableWrite (r : Reader) (q : TableWriteReq) (s : State) : Out :=
  .next (s.command r false fun s =>
    if r.outside && hostOnly q then s.answer 2
    else match s.writeTable q with
      | (.ok t, _) => t.answer 0
      | (.error e, t) => t.answer e)

/-! ### The other commands (R409, R412) -/

/-- The VF whose plaintext a unit of a class holds: the resident one of its partition. -/
def State.plainVf (s : State) (cls inst : Nat) : Option Nat :=
  let p := match cls with
    | 0x01 => s.partitionAt (inst / 16)
    | 0x02 => s.partitionAt (inst / 4)
    | 0x03 => s.partitionAt inst
    | 0x04 => (List.find? (fun (e : Nat × Partition) => e.2.slices.contains inst) s.partitions).map Prod.fst
    | _ => none
  p.bind fun p => (s.partition p).resident

/-- A byte as the management window shows it: plaintext of a VF only under its debug grant. -/
def State.windowByte (s : State) (cls inst off : Nat) : Byte :=
  let granted := ((s.plainVf cls inst).map fun v => (s.vf v).debugGrant).getD false
  if s.secretByte cls inst off && !granted then 0 else s.stateByte cls inst off

/-- STATE_READ, command 0x0001. -/
def execStateRead (r : Reader) (target : DWord) (len : Nat) (s : State) : Out :=
  .next (s.command r true fun s =>
    let a := stateAddr target
    if 32768 < len || stateBad a len then s.answer 3
    else { s with draws := s.draws + a.off + len }.answerData
      ((List.range len).map fun i => s.windowByte a.cls a.inst (a.off + i)))

/-- The directories of the ten classes, as item code, length and offset. -/
def directories : List Nat :=
  (List.range 10).flatMap fun c => (List.range (itemCount (c + 1))).flatMap fun n =>
    [(c + 1) * 2 ^ 24 + n + 1, Config.itemLength (c + 1) (n + 1), Config.itemOffset (c + 1) (n + 1)]

/-- The logical clusters and cores that Almanac could map. -/
def State.enabledClusters (s : State) : List Nat := (List.range 256).filter fun c => s.physicalCluster c != 0xFF

def State.enabledCores (s : State) : List Nat :=
  (List.range 1024).filter fun n => s.physicalCluster (n / 4) != 0xFF && FMap.getD s.pkg.coreRemap n (n % 4) != 0xFF

/-- Units of a step that Almanac has not disabled, of `n` (R403). -/
def State.enabledOf (s : State) (step n : Nat) : List Nat :=
  (List.range n).filter fun i => !s.pkg.disabled.contains (step, i)

/-- THE HEADLINE COUNTS that the inventory gives, reduced by the disabled units (R3, R18, R403): cores, clusters,
quads, sectors, lanes, cluster memory and L2 in KiB, HBM4E in GiB, ports of Ultra Ethernet, UALink and PCIe. -/
def State.headline (s : State) : List Nat :=
  let cores := s.enabledCores.length
  let banks := (s.enabledClusters.flatMap fun c => (List.range 64).filter fun b => (s.bank c b).mode != 3).length
  let hbm := (s.enabledOf 0x03 16).length
  let quads := (List.range 64).filter fun q => (List.range 4).all fun i => s.enabledClusters.contains (4 * q + i)
  [cores, s.enabledClusters.length, quads.length, 4 * cores, 128 * cores, 128 * banks, 16384 * hbm, 64 * hbm,
    (s.enabledOf 0x08 8).length, (s.enabledOf 0x07 32).length, (s.enabledOf 0x09 1).length]

/-- What the inventory lists: the directories, the headline counts, and the enabled units of each kind. -/
def State.inventory (s : State) : List Nat :=
  directories ++ s.headline ++ s.enabledClusters ++ s.enabledCores ++
  s.enabledOf 0x03 16 ++ s.enabledOf 0x06 16384 ++ s.enabledOf 0x07 32 ++ s.enabledOf 0x08 8 ++ s.enabledOf 0x09 1

/-- INVENTORY_READ, command 0x0002: what stands where in the inventory is not specified. (DESIGN CHOICE, log 140.) -/
def execInventoryRead (r : Reader) (s : State) : Out :=
  .next (s.command r true fun s =>
    if 32768 < r.dataLen then s.answer 3
    else s.answerData ((List.range r.dataLen).map (Config.inventoryByte s.inventory)))

/-- WAKE, command 0x0004. -/
def execWake (r : Reader) (p : Nat) (rec : WakeRec) (s : State) : Out :=
  .next (s.command r false fun s => if p < 48 then (s.wake p rec false).answer 0 else s.answer 3)

/-- SHOOT_DOWN, command 0x0005. -/
def execShootDown (r : Reader) (vf va pages : Nat) (s : State) : Out :=
  .next (s.command r false fun s =>
    match s.partOf vf with
    | some p =>
      let s := (s.flyAll fun s w => s.vfOf w.tid == vf).drain fun f => f.own == vf
      (if pages == 0 then s.dropVf p vf else s.dropPages p vf (va / 65536) pages).answer 0
    | none => s.answer 0)

/-- POWER_BUDGET, command 0x0006: a number of watts outside the range is refused with status 1, and the digest is that of
the watts as 4 bytes. (DESIGN CHOICE, log 167.) -/
def execPowerBudget (r : Reader) (watts : Nat) (s : State) : Out :=
  .next (s.command r false fun s =>
    if watts < 1000 || 4400 < watts then s.answer 1
    else match s.extend 0x000A 6 (sha384 (bytesLE 4 watts)) with
      | some s => (s.modPkg fun k => { k with budget := watts }).answer 0
      | none => s.answer 4)

/-- The freeze of a VF ends, if there is one. -/
def State.release (s : State) (vf : Nat) : State :=
  let s := s.modVf vf fun v => { v with haltAtRestore := false }
  match s.partOf vf with
  | some p => if (s.partition p).frozen && (s.partition p).resident == some vf then s.unfreeze p vf else s
  | none => s

/-- The VF is frozen, or will be at its restore. -/
def State.frozenVf (s : State) (vf : Nat) : Bool :=
  (s.vf vf).haltAtRestore ||
    ((s.partOf vf).map fun p => (s.partition p).frozen && (s.partition p).resident == some vf).getD false

/-- UNFREEZE, command 0x0007 with bit 0 clear: a VF that is not frozen, or whose halt is not complete, is not unfrozen,
with status 1. (DESIGN CHOICE, log 167.) -/
def execUnfreeze (r : Reader) (vf : Nat) (s : State) : Out :=
  .next (s.command r false fun s => if s.frozenVf vf then (s.release vf).answer 0 else s.answer 1)

/-- KILL, command 0x0007 with bit 0 set: the VF's grids are killed, which also releases a freeze (R415).
(DEDUCED, log 141.) -/
def execKill (r : Reader) (vf : Nat) (s : State) : Out :=
  .next (s.command r false fun s => ((s.killAll vf).release vf).answer 0)

/-- HALLMARK_LOG_READ, command 0x0008: DataLen bytes of the entries. -/
def execHallmarkLogRead (r : Reader) (first : Nat) (s : State) : Out :=
  .next (s.command r true fun s =>
    if 32768 < r.dataLen then s.answer 3
    else s.answerData ((((s.pkg.hallLog.zipIdx.drop first).take 512).flatMap fun e => e.1.image e.2).take r.dataLen))

/-- ALMANAC_RECORDS_CLEAR, command 0x0009. -/
def execAlmanacRecordsClear (r : Reader) (s : State) : Out :=
  .next (s.command r false fun s =>
    match s.extend 0x0004 1 s.freeDigest with
    | some s => ({ s with draws := s.draws + 48 }.modPkg fun k => { k with almanac := [] }).answer 0
    | none => s.answer 4)

/-- COLD_RESET, command 0x000A. -/
def execColdReset (r : Reader) (s : State) : Out := .next (s.command r false fun s => s.afterCold s.pkg.starts)

/-! ### SPDM (R368, R418, R419) -/

/-- A response whose bytes the SPDM standard lays out, not this spec, from bytes that are free. (DESIGN CHOICE, log 139.) -/
def State.freeResponseOf (s : State) (f : List Byte → List Byte) : State :=
  { s with draws := s.draws + 65536 }.answerData
    (f ((List.range (Config.choose s.draws 4096 % 4096)).map fun i => Config.freeByte (s.draws + 1 + i)))

def State.freeResponse (s : State) : State := s.freeResponseOf id

/-- The answer to NEGOTIATE_ALGORITHMS: the base asymmetric field is 0, and one extended algorithm announces the curve
(R418). Where the fields stand is the standard's. (PRESUMED, log 169.) -/
def algorithms (curve bs : List Byte) : List Byte :=
  let at_ := fun i => bs.getD i 0
  (List.range 12).map at_ ++ List.replicate 4 0 ++ (List.range 16).map (fun i => at_ (16 + i)) ++ [1, at_ 33, at_ 34, at_ 35] ++
    curve ++ bs.drop 40

def State.cert (s : State) (slot : Nat) : CertSlot := FMap.getD s.pkg.certs slot ⟨false, 0, 0, []⟩

/-- The ASCII bytes of slot-changed. -/
def slotChanged : List Byte := [0x73, 0x6C, 0x6F, 0x74, 0x2D, 0x63, 0x68, 0x61, 0x6E, 0x67, 0x65, 0x64]

/-- ERROR with the vendor-defined code: slot-changed, and the new Generation. -/
def State.slotError (s : State) (slot : Nat) : State :=
  s.answerData (slotChanged ++ bytesLE 4 (s.cert slot).generation.toNat)

/-- The measurement blocks asked for: block i + 1 carries value i. -/
def State.blocks (s : State) (index : Option Nat) : List Byte :=
  let block := fun (i : Nat) => bytesLE 1 (i + 1) ++ FMap.getD s.pkg.measurements i (List.replicate 48 0)
  match index with
  | none => (List.range 16).flatMap block
  | some 0 => [16#8]
  | some i => if i ≤ 16 then block (i - 1) else []

def State.modMgmt (s : State) (f : Mgmt → Mgmt) : State := s.modPkg fun k => { k with mgmt := f k.mgmt }

/-- The signing of the exchange in progress: an error where the slot's Generation has changed.
(DESIGN CHOICE, log 139.) -/
def State.signNow (s : State) : State :=
  match s.pkg.mgmt.bound with
  | none => s
  | some (slot, g, body) =>
    let s := s.modMgmt fun m => { m with bound := none }
    if (s.cert slot).generation != g then s.slotError slot
    else { s with draws := s.draws + 1 }.answerData
      (body ++ (List.range 96).map fun i => Config.signatureByte s.draws i)

/-- A write of a certificate slot (R368). -/
def State.setCert (s : State) (slot pair : Nat) (chain : List Byte) : State :=
  if 8 ≤ slot || 65536 < chain.length || 256 ≤ pair then s.answer 1
  else
    let c : CertSlot := ⟨true, pair, (s.cert slot).generation + 1, chain⟩
    match s.extend 0x0014 14 (sha384 c.image) with
    | some s => (s.modPkg fun k => { k with certs := FMap.put k.certs slot c }).answerData []
    | none => s.answer 4

/-- A part of a certificate chain; the Generation is bound at the first part. -/
def State.readCert (s : State) (slot offset len : Nat) : State :=
  let c := s.cert slot
  if !c.valid then s.freeResponse
  else
    let s := if offset == 0 then s.modMgmt fun m => { m with reading := FMap.put m.reading slot c.generation } else s
    match FMap.find? s.pkg.mgmt.reading slot with
    | some g => if g != c.generation then s.slotError slot else s.answerData ((c.chain.drop offset).take len)
    | none => s.answerData ((c.chain.drop offset).take len)

/-- SPDM, command 0x000B. The responder signs in an act of its own. -/
def State.spdm (s : State) (q : SpdmReq) : State :=
  match q with
  | .getVersion | .getCapabilities => s.freeResponse
  | .negotiateAlgorithms => s.freeResponseOf (algorithms ((List.range 4).map fun i => Config.freeByte (s.draws + 5000 + i)))
  | .getDigests => s.answerData ((List.range 8).flatMap fun i =>
      if (s.cert i).valid then sha384 (s.cert i).chain else [])
  | .getCertificate slot offset len => s.readCert slot offset len
  | .challenge slot => s.modMgmt fun m => { m with bound := some (slot, (s.cert slot).generation, []) }
  | .getMeasurements index none => s.answerData (s.blocks index)
  | .getMeasurements index (some slot) =>
    s.modMgmt fun m => { m with bound := some (slot, (s.cert slot).generation, s.blocks index) }
  | .setCertificate slot pair chain => s.setCert slot pair chain
  | .sign => s.signNow

def execSpdm (r : Reader) (q : SpdmReq) (s : State) : Out :=
  .next (if q == .sign then s.signNow else s.command r true fun s => s.spdm q)

/-! ### The window's region (R408) -/

/-- First byte and length of the region in the host complex's local addresses. -/
def windowBase : Nat := 0x000F800000000000
def windowBytes : Nat := 0x10000

/-- Bytes written over a list at an offset; what lies before it is 0 where the list is shorter. -/
def splice (old : List Byte) (o : Nat) (bs : List Byte) : List Byte :=
  (List.range (max old.length (o + bs.length))).map fun i =>
    if o ≤ i && i < o + bs.length then bs.getD (i - o) 0 else old.getD i 0

/-- The bytes of a write at offset `o` that lie in an area of the region, and where they begin in it. -/
def areaPart (o : Nat) (bs : List Byte) (base n : Nat) : Nat × List Byte :=
  (o - base, ((bs.drop (base - o)).take (base + n - max o base)))

/-- THE COMMAND of the command slot runs: every code that R409 does not list, a DataLen above 32,768 and a reserved byte
that is not 0 are malformed. (DESIGN CHOICE, log 170.) -/
def State.runSlot (s : State) (outside : Bool) : Out :=
  let b := s.pkg.mgmt.slot
  let target := fieldLE b 8 8
  let len := fieldLE b 16 8
  let op := fun (lo n : Nat) => bitsOf (fieldLE b 24 32) lo n
  let data := (List.range len).map fun i => s.pkg.mgmt.buffer.getD i 0
  let r : Reader := if outside then .external len else .hostComplex len
  let malformed := Host.Outcome.next (s.command r true fun s => s.answer 3)
  if 32768 < len || fieldLE b 2 6 != 0 then malformed
  else match fieldLE b 0 2 with
    | 0x0001 => execStateRead r (BitVec.ofNat 64 target) len s
    | 0x0002 => execInventoryRead r s
    | 0x0003 => match Config.tableWrite (BitVec.ofNat 64 target) data with
      | some q => execTableWrite r q s
      | none => malformed
    | 0x0004 => execWake r (op 0 6) (wakeOf data) s
    | 0x0005 => execShootDown r (op 0 9) target (op 16 32) s
    | 0x0006 => execPowerBudget r (op 0 32) s
    | 0x0007 => if op 0 1 == 1 then execKill r (op 16 9) s else execUnfreeze r (op 16 9) s
    | 0x0008 => execHallmarkLogRead r (op 0 32) s
    | 0x0009 => execAlmanacRecordsClear r s
    | 0x000A => execColdReset r s
    | 0x000B => match (Config.spdmRequest data).filter (· != .sign) with
      | some q => execSpdm r q s
      | none => .next (s.command r true State.freeResponse)
    | _ => malformed

/-- A WRITE OF THE REGION: bytes of the command slot and of the data buffer take their places, and one of the Start bytes
starts the command. While the status word reads 1 a write to the slot is ignored and counted. -/
def State.writeWindow (s : State) (outside : Bool) (o : Nat) (bs : List Byte) : Out :=
  let (so, sb) := areaPart o bs 0 64
  let (d, db) := areaPart o bs 0x8000 0x8000
  let s := if db.isEmpty then s else s.modMgmt fun m => { m with buffer := splice m.buffer d db }
  if sb.isEmpty then .next s
  else if s.pkg.mgmt.bound.isSome then .next (s.modMgmt fun m => { m with ignored := m.ignored + 1 })
  else
    let s := s.modMgmt fun m => { m with slot := splice m.slot so sb }
    if so + sb.length ≤ 56 then .next s else s.runSlot outside

end Sys2Proof.Machine
end

