-- ==== Sys2Proof/Machine/Platform.lean ====
section
/-! DEFINITION. Almanac's bring-up steps, the accesses of the host complex, the external host and peer devices, and
soft errors (spec/01_machine.md R18, spec/09_memories.md R193, R211, R213, R220, spec/10_consistency.md R243,
spec/12_queues.md R297, spec/18_platform.md R400 to R403). -/

namespace Sys2Proof.Machine

/-! ### Almanac (R400 to R403) -/

/-- The steps in order, with the number of units each has: dies have 33 physical clusters of 5 physical cores.
(DEDUCED, log 133.) -/
def almanacSteps : List (Nat × Nat) :=
  [(0x01, 1), (0x02, 1), (0x03, 16), (0x04, 264), (0x05, 1320), (0x06, 16384), (0x07, 32), (0x08, 8), (0x09, 1),
   (0x0A, 1), (0x0B, 1)]

/-- The step and unit of position `n`. -/
def stepAt (n : Nat) : List (Nat × Nat) → Option (Nat × Nat)
  | [] => none
  | (step, count) :: rest => if n < count then some (step, n) else stepAt (n - count) rest

def requiredStep (step : Nat) : Bool := step != 0x06 && step != 0x07
def hasAlternate (step : Nat) : Bool := step == 0x03 || step == 0x04 || step == 0x05 || step == 0x08 || step == 0x09

/-- The step's units can be disabled (R403). -/
def namesUnit (step : Nat) : Bool := 0x03 ≤ step && step ≤ 0x09

/-- The record of a step and unit. -/
def State.almRecord (s : State) (step inst : Nat) : AlmRecord :=
  (s.pkg.almanac.find? fun r => r.step == step && r.inst == inst).getD ⟨step, inst, 0, 0, 0⟩

/-- Write a record; each is measured (R417). -/
def State.putRecord (s : State) (r : AlmRecord) : State :=
  (s.record 0x0003 1 (sha384 r.image)).modPkg fun k =>
    { k with almanac := (k.almanac.filter fun x => !(x.step == r.step && x.inst == r.inst)) ++ [r] }

/-- What a step's try comes to: outcome, and attempts. -/
inductive StepEnd where
  | passed | alternate | failed | skipped
  deriving DecidableEq, Repr

/-- The outcome of a step in this start, from the record of the previous one (R402). (DEDUCED, log 132.) -/
def stepEnd (old : Nat) (step : Nat) (passed altPassed : Bool) : StepEnd :=
  if old == 2 || old == 3 then
    if !requiredStep step then .skipped
    else if hasAlternate step then (if altPassed then .alternate else .failed)
    else if passed then .passed else .failed
  else if passed then .passed else .failed

def StepEnd.outcome : StepEnd → Nat
  | .passed => 1 | .failed => 2 | .skipped => 3 | .alternate => 4

/-- A unit leaves the package (R403); the disabling is measured. -/
def State.disable (s : State) (step inst : Nat) : State :=
  let s := (s.record 0x000F 9 s.freeDigest).modPkg fun k =>
    { k with disabled := if k.disabled.contains (step, inst) then k.disabled else k.disabled ++ [(step, inst)] }
  match step with
  | 0x07 => s.modPkg fun k => { k with linkKeys := FMap.del k.linkKeys inst }
  | 0x03 => { s with slices := (List.range 8).foldl (fun (m : FMap Slice) i =>
      FMap.put m (8 * inst + i) { FMap.getD m (8 * inst + i) Slice.reset with disabled := true }) s.slices }
  | 0x06 => s.setBank (inst / 64) (inst % 64) ⟨3, false, 0⟩
  | _ => s

/-- A physical unit failed its own step: the spare takes its place (R18). -/
def State.unitFailed (s : State) (step inst : Nat) : Bool :=
  (s.almRecord step inst).outcome == 2 || (s.almRecord step inst).outcome == 4

/-- Almanac has disabled a unit: its alternate, the spare, failed for it too (R402, R403). -/
def State.unitOff (s : State) (step inst : Nat) : Bool := s.pkg.disabled.contains (step, inst)

/-- The failed units among `n` of a group, rising: the first takes the spare, if that has not failed by its own record or
for that unit. -/
def spareMap (failed : List Nat) (spareOk : Bool) (off : Nat → Bool) (spare i : Nat) : Nat :=
  if !failed.contains i then i
  else if spareOk && failed.head? == some i && !off i then spare else 0xFF

/-- The physical cluster of each logical one (R18). -/
def State.clusterMap (s : State) : FMap Nat :=
  (List.range 256).foldl (fun (m : FMap Nat) c =>
    let die := c / 32
    let failed := (List.range 32).filter fun k => s.unitFailed 0x04 (die * 33 + k)
    let x := spareMap failed (!s.unitFailed 0x04 (die * 33 + 32)) (fun i => s.unitOff 0x04 (die * 33 + i)) 32 (c % 32)
    if x == c % 32 then m else FMap.put m c x) []

/-- The physical core of each logical one (R18). -/
def State.coreMap (s : State) (clusters : FMap Nat) : FMap Nat :=
  (List.range 1024).foldl (fun (m : FMap Nat) n =>
    let c := n / 4
    let phys := c / 32 * 33 + FMap.getD clusters c (c % 32)
    let failed := (List.range 4).filter fun k => s.unitFailed 0x05 (phys * 5 + k)
    let x := spareMap failed (!s.unitFailed 0x05 (phys * 5 + 4)) (fun i => s.unitOff 0x05 (phys * 5 + i)) 4 (n % 4)
    if x == n % 4 then m else FMap.put m n x) []

/-- The bytes of the remap tables that two maps make (R354). -/
def remapImage (clusters cores : FMap Nat) : List Byte :=
  ((List.range 256).map fun c => BitVec.ofNat 8 (FMap.getD clusters c (c % 32))) ++
  (List.range 1024).map fun n => BitVec.ofNat 8 (FMap.getD cores n (n % 4))

/-- What a passed step does besides its record: loads are measured, and the last step fills Almanac's tables; a UALink
port has its link key from the moment its training passes (R22). (DESIGN CHOICE, log 154.) -/
def State.stepDone (s : State) (step inst : Nat) : State :=
  match step with
  | 0x07 => s.modPkg fun k => { k with linkKeys := FMap.put k.linkKeys inst ⟨1, true⟩ }
  | 0x01 => (s.record 0x0001 0 s.freeDigest).record 0x0002 1 s.freeDigest
  | 0x0A => (s.record 0x0005 2 s.freeDigest).record 0x0006 3 s.freeDigest
  | 0x0B =>
    let cl := s.clusterMap
    let co := s.coreMap cl
    let s := if cl.isEmpty && co.isEmpty then s else s.record 0x000E 9 (sha384 (remapImage cl co))
    s.modPkg fun k => { k with clusterRemap := cl, coreRemap := co, granularity := Package.reset.granularity }
  | _ => s

/-- A start ends early: a cold reset, at most 4 times after power-on; then the package stays out of service. -/
def State.startFails (s : State) : State :=
  if s.pkg.starts < 4 then s.afterCold (s.pkg.starts + 1) else s.modPkg fun k => { k with inService := false }

/-- ALMANAC_STEP: the next step of the start ends; `passed` says whether one of its attempts passes, `altPassed`
the same of its alternate path. -/
def State.almanac (s : State) (passed altPassed : Bool) : State :=
  match stepAt s.pkg.almanacAt almanacSteps with
  | none => s
  | some (step, inst) =>
    if !s.pkg.inService then s
    else
      let old := s.almRecord step inst
      let e := stepEnd old.outcome step passed altPassed
      let tries := match e with
        | .skipped => 0
        | .failed => 3
        | _ => 1 + Config.choose s.draws 3 % 3
      let r : AlmRecord := ⟨step, inst, tries, if e == .failed then min (old.starts + 1) 255 else old.starts, e.outcome⟩
      let s := ({ s with draws := s.draws + 1 }.putRecord r).modPkg fun k => { k with almanacAt := k.almanacAt + 1 }
      match e with
      | .passed | .alternate => s.stepDone step inst
      | .skipped => if namesUnit step then s.disable step inst else s
      | .failed =>
        if !requiredStep step then s.disable step inst
        else if (old.outcome == 2 || old.outcome == 3) && hasAlternate step && namesUnit step then s.disable step inst
        else s.startFails

def execAlmanacStep (passed altPassed : Bool) (s : State) : Out := .next (s.almanac passed altPassed)

/-! ### Accesses from outside the cores -/

/-- A range lies in home memory that frames may use (R208). -/
def State.framesOk (s : State) (phys n : Nat) : Bool := n == 0 || (!s.badFrame phys && !s.badFrame (phys + n - 1))

/-- HOST_COMPLEX_ACCESS: a load or a store at device scope, performed at the home; a store in the region of the management
window is a write of that window (R408). A package out of service answers in the window only (R402). -/
def execHostComplexAccess (vf phys : Nat) (write : Option (List Byte)) (_len : Nat) (s : State) : Out :=
  match write with
  | some bs =>
    if windowBase ≤ phys && phys < windowBase + windowBytes then s.writeWindow false (phys - windowBase) bs
    else .next (if s.pkg.inService && s.framesOk phys bs.length then s.homeWrite vf 0 false phys bs else s)
  | none => .next s

/-- The leaves of some kind that a VF's tables hold: the frames they name. -/
def State.kindFrames (s : State) (vf kind : Nat) : List Nat :=
  let tables := (s.vfSpace vf).filter fun r => r.2 == 16384
  tables.flatMap fun r => (s.entriesIn r.1 1024).filterMap fun i =>
    let e := s.entryAt (r.1 + 16 * i)
    if bitsOf e 0 2 == 2 && leafKind e == kind then some (leafPayload e) else none

/-- Some VF's open leaf names the frame of every byte of a range. -/
def State.openRange (s : State) (phys n : Nat) : Bool :=
  let frames := s.vfs.flatMap fun v => s.kindFrames v.1 3
  n == 0 || (frames.contains (phys / 65536 * 65536) && frames.contains ((phys + n - 1) / 65536 * 65536))

/-- OPEN_FRAME_ACCESS: the external host reads or writes an open frame, in plaintext. -/
def execOpenFrameAccess (phys : Nat) (write : Option (List Byte)) (_len : Nat) (s : State) : Out :=
  .next (match write with
    | some bs => if s.pkg.inService && s.hostAttached && s.openRange phys bs.length then s.homeWrite 0 0 true phys bs else s
    | none => s)

/-- The VF whose local leaf names a frame. -/
def State.frameVf (s : State) (phys : Nat) : Nat :=
  ((List.find? (fun (v : Nat × Vf) => (s.kindFrames v.1 0).contains (phys / 65536 * 65536)) s.vfs).map Prod.fst).getD 0

/-- The work-port aperture of a device (R297). -/
def portBase : Nat := 0x000F000000000000

/-- The roster index of a UALink device, or one that names no entry. -/
def State.rosterOfDevice (s : State) (vf device : Nat) : Nat :=
  let m := (s.vf vf).roster
  ((List.find? (fun (e : Nat × Roster) => e.2.kind == 1 && e.2.device == device) m).map Prod.fst).getD
    (freeFrom (m.foldl (fun (x : FMap Unit) (e : Nat × Roster) => FMap.put x e.1 ()) []) 255 0 m.length)

/-- The windows whose frames hold a byte, and are not closed, serve a peer only as a member (R366). -/
def State.peerMay (s : State) (device phys : Nat) : Bool :=
  let ws := s.pkg.windows.filter fun w => w.2.state != 0 && w.2.frames.contains (phys / 65536 * 65536)
  ws.all fun w => w.2.state == 2 && w.2.members.any fun m => m.1 == device

/-- A peer's acquire meets the record of a line: the recorded cluster publishes, and the record is cleared (R234). -/
def State.peerAcquire (s : State) (line : Nat) : State :=
  match FMap.find? s.writers line with
  | some w => (s.publish (w.core / 4) w.vf).clearWriter line
  | none => s

/-- A peer's write at its home here; a release at device scope or wider clears the record (R234). -/
def State.peerWrite (s : State) (phys : Nat) (bs : List Byte) (sync : Bool) : State :=
  let s := s.homeWrite (s.frameVf phys) 0 false phys bs
  if sync then s.clearWriter (phys / 64) else s

/-- A peer's 64-bit atomic, one step at the home; on a poisoned line it changes nothing. -/
def State.peerAtomic (s : State) (phys : Nat) (op : RmwOp) (sg : Sgn) (b b2 : DWord) (sync : Bool) : State :=
  let ty := match sg with
    | .s => AtomTy.s64
    | .n => AtomTy.n64
  let s := if sync then s.peerAcquire (phys / 64) else s
  let old := natLE (memBytes s.mem phys 8)
  if s.poisonedLine (phys / 64) || !rmwWrites op old b.toNat then s
  else s.peerWrite phys (bytesLE 8 (rmwValue op ty old b.toNat b2.toNat)) sync

/-- PEER_ACCESS: a peer's access of up to 256 bytes is performed at its home here, an acquire or a release where `sync`
says so; a write of the work-port aperture is a token (R193, R234, R297, R420). -/
def execPeerAccess (device phys : Nat) (op : PeerOp) (len : Nat) (sync : Bool) (s : State) : Out :=
  let allowed := fun n => n ≤ 256 && s.framesOk phys n && s.peerMay device phys
  .next (if !s.pkg.inService || !s.deviceReachable device then s
    else match op with
    | .read =>
      if sync && allowed len then (lineSpan phys len).foldl State.peerAcquire s else s
    | .write bs =>
      if portBase ≤ phys && phys < portBase + 512 * 0x4000 then
        let vf := (phys - portBase) / 0x4000
        s.token vf ((phys - portBase) % 0x4000 / 0x40) (.peer (s.rosterOfDevice vf device)) (phys % 64 == 0) bs
      else if allowed bs.length then s.peerWrite phys bs sync else s
    | .atomic op sg b b2 => if phys % 8 == 0 && allowed 8 then s.peerAtomic phys op sg b b2 sync else s)

/-! ### Soft errors (R211, R213, R220) -/

/-- An uncorrectable error of a cluster-cache line: it is dropped; the sector that is struck goes home poisoned if
it is dirty. Which sector is struck is free. -/
def State.breakLine (s : State) (cl line : Nat) : State :=
  let k := lineKey cl line
  match FMap.find? s.cc k with
  | none => s
  | some l =>
    let hit := ccBase k / 64 + Config.choose s.draws 8 % 8
    let s := ({ s with draws := s.draws + 1 }.ccBack k).ccDrop k
    if (l.dirtySectors (ccBase k)).contains hit then s.poisonLine hit else s

/-- The partition of a memory slice has an ECC mode (R211). -/
def State.eccAt (s : State) (slice : Nat) : Nat :=
  ((List.find? (fun (e : Nat × Partition) => e.2.slices.contains slice) s.partitions).map fun e => e.2.eccMode).getD 0

def State.modSlice (s : State) (n : Nat) (f : Slice → Slice) : State :=
  { s with slices := FMap.put s.slices n (f (FMap.getD s.slices n Slice.reset)) }

/-- The line's bytes change without notice. -/
def State.garble (s : State) (line : Nat) (double : Bool) : State :=
  let one := Config.choose s.draws 64 % 64
  let bs := (List.range 64).map fun i =>
    if double || i == one then Config.freeByte (s.draws + 1 + i) else memByte s.mem (line * 64 + i)
  { s with mem := memWrite s.mem (line * 64) bs, draws := s.draws + 65 }

/-- The line lies in its slice's counter-tree area (R208). -/
def inTree (line : Nat) : Bool := 2 ^ 33 - 160 * 2 ^ 20 ≤ line * 64 % 2 ^ 33

/-- A node of the tree fails its verification: the lines below it are poisoned until their VF is reset, and Hallmark
records it. Which node a line of the tree area holds is not specified. -/
def State.breakTree (s : State) (line : Nat) : State :=
  let slice := line / 2 ^ 27
  let span := 8 ^ (Config.choose s.draws 7 % 7)
  let first := (slice * 2 ^ 21 + Config.choose (s.draws + 1) (2 ^ 21) % 2 ^ 21) / span * span
  let s := { s with draws := s.draws + 2, treeFailed := FMap.put s.treeFailed first span }
  (s.record 0x0015 15 s.freeDigest).modPkg fun k => { k with integrityEvents := k.integrityEvents + 1 }

/-- The line lies in an open frame, which keeps the symbol code and no MAC, whatever the mode (R211). -/
def State.openLine (s : State) (line : Nat) : Bool := s.openRange (line * 64) 64

/-- An error in a line of home memory. -/
def State.breakHome (s : State) (line : Nat) (double : Bool) : State :=
  let slice := line / 2 ^ 27
  let mode := s.eccAt slice
  if s.openLine line then
    if double then s.poisonLine line else s.modSlice slice fun x => { x with eccCorrected := x.eccCorrected + 1 }
  else if mode == 0 && !double then s.modSlice slice fun x => { x with eccCorrected := x.eccCorrected + 1 }
  else if inTree line then (if mode == 2 then s else s.breakTree line)
  else if mode == 2 then s.garble line double
  else (s.poisonLine line).modSlice slice fun x => { x with macFailures := x.macFailures + 1 }

/-- A tile's element flips bits; its checksums do not follow (R184). -/
def State.breakTile (s : State) (core sector : Nat) (tile : Tile) (row col : Nat) (bits : Word) : State :=
  let x := FMap.getD (s.sector core sector).tiles tile.toNat .zero
  s.setTile core sector tile.toNat { x with rows := x.rows.modify row fun r => r.modify col (· ^^^ bits) }

/-! ### The package network (R214) -/

/-- The packet is on its way. -/
def State.travels (s : State) (p : Packet) : Bool :=
  match p with
  | .store n => ((FMap.find? s.stores n).map fun f => f.bypass).getD false
  | .access n => ((FMap.find? s.waits n).map fun w => w.cause == .flight).getD false
  | .fetch core vf line => !(s.waitersOf core vf line).isEmpty
  | .box cl id b =>
    ((FMap.find? (s.cluster cl).tce id).map fun c => c.accepted && c.waitSeq.isNone && c.flying.contains b).getD false
  | .line cl line => ((FMap.find? s.cc (lineKey cl line)).map fun l => l.dirty != 0).getD false
  | .reply line => line < 2 ^ 34
  | .commit core slot => ((s.team? core slot).map fun tm => !tm.storeBuf.isEmpty).getD false

/-- Transmissions of a packet that have failed. -/
def State.failsOf (s : State) (p : Packet) : Nat :=
  (((s.pkg.netFails.find? fun e => e.1 == p)).map Prod.snd).getD 0

/-- Lines of home memory are poisoned. -/
def State.poisonLines (s : State) (ls : List Nat) : State := ls.foldl State.poisonLine s

/-- An access of a lane whose packet is lost: a red is performed on what is poison from now on, any other one is
poisoned for its lane (R219). -/
def State.loseAccess (s : State) (n : Nat) : State :=
  match FMap.find? s.waits n with
  | none => s
  | some w =>
    match s.place w.tid w.ops.a with
    | (some g, s) =>
      let size := accessBytes w.instr
      if (redOp w.instr).isSome then (s.fly n).poisonLines (lineSpan g.phys size)
      else s.failWait n 0x1E (s.poisonAt g.phys size) (s.dataAddress w.tid w.ops.a)
    | (none, s) => s

/-- THE FOURTH FAILURE of a packet poisons its access for its consumer (R214, R219). (DEDUCED, log 152.) -/
def State.losePacket (s : State) (p : Packet) : State :=
  match p with
  | .store n =>
    match FMap.find? s.stores n with
    | some f => (s.performStore n).poisonLines (lineSpan f.phys f.bytes.length)
    | none => s
  | .access n => s.loseAccess n
  | .fetch core vf line => s.fillWith core vf line true
  | .box cl id b =>
    match FMap.find? (s.cluster cl).tce id with
    | some c => s.boxWith cl id c b true
    | none => s
  | .line cl line =>
    match FMap.find? s.cc (lineKey cl line) with
    | some l => (s.ccBack (lineKey cl line)).poisonLines (l.dirtySectors (ccBase (lineKey cl line)))
    | none => s
  | .reply line => s.modPkg fun k => { k with lost := line :: k.lost }
  | .commit core slot =>
    match s.team? core slot with
    | some tm => (s.endRelaunch core slot).poisonLines (tm.storeBuf.flatMap fun b => lineSpan b.phys b.bytes.length).eraseDups
    | none => s

/-- A packet's tag fails: the packet is sent again up to 3 times; the fourth failure loses it, and is an integrity
event that Hallmark records (R214, R417). -/
def State.breakPacket (s : State) (p : Packet) : State :=
  if !s.travels p then s
  else
    let n := s.failsOf p + 1
    let others := s.pkg.netFails.filter fun e => e.1 != p && s.travels e.1
    if n < 4 then s.modPkg fun k => { k with netFails := (p, n) :: others }
    else
      let s := (s.modPkg fun k => { k with netFails := others }).losePacket p
      (s.record 0x0016 15 s.freeDigest).modPkg fun k => { k with integrityEvents := k.integrityEvents + 1 }

/-- SOFT_ERROR, and the failure of a packet's tag. A single-bit error of cluster memory or an L1 stands until a read
corrects and counts it (R220, R386). (DESIGN CHOICE, log 142.) -/
def State.softError (s : State) (site : SoftSite) (double : Bool) : State :=
  match site with
  | .scratch cl line =>
    let k := cl * 16384 + line
    { s with scratch := FMap.mod s.scratch k fun l => if double then { l with poison := true } else { l with flip := true } }
  | .clusterCache cl line =>
    if double then s.breakLine cl line
    else { s with cc := FMap.mod s.cc (lineKey cl line) fun l => { l with flip := true } }
  | .l1 core line =>
    if (FMap.find? (s.core core).l1 line).isNone then s
    else s.modCore core fun c =>
      { c with l1 := if double then FMap.del c.l1 line else FMap.mod c.l1 line fun l => { l with flip := true } }
  | .home line => if line < 2 ^ 34 then s.breakHome line double else s
  | .tile core sector tile row col bits => s.breakTile core sector tile row col bits
  | .packet p => s.breakPacket p

def execSoftError (site : SoftSite) (double : Bool) (s : State) : Out := .next (s.softError site double)

end Sys2Proof.Machine
end

