-- ==== Sys2Proof/Machine/Dispatch.lean ====
section
/-! DEFINITION. One arm per constructor of Instr: the meaning of each word and of each act. -/

namespace Sys2Proof.Machine

open Sys2Proof

/-- What a word, or an act of another agent, does to the state. (DESIGN CHOICE, log 31.) -/
def exec (i : Instr) (s : State) : Host.Outcome State Fault Refusal :=
  match i with
  | .iadd h ty sat d a b => Sys2Proof.Machine.execIadd h ty sat d a b s
  | .isub h ty sat d a b => Sys2Proof.Machine.execIsub h ty sat d a b s
  | .imul h ty sat d a b => Sys2Proof.Machine.execImul h ty sat d a b s
  | .imulhi h ty d a b => Sys2Proof.Machine.execImulhi h ty d a b s
  | .imad h ty mode d a b c => Sys2Proof.Machine.execImad h ty mode d a b c s
  | .iadd64 h ty sat x32 d a b => Sys2Proof.Machine.execIadd64 h ty sat x32 d a b s
  | .imin h ty d a b => Sys2Proof.Machine.execImin h ty d a b s
  | .imax h ty d a b => Sys2Proof.Machine.execImax h ty d a b s
  | .iabs h sat d a => Sys2Proof.Machine.execIabs h sat d a s
  | .ineg h sat d a => Sys2Proof.Machine.execIneg h sat d a s
  | .iand h w64 nb d a b => Sys2Proof.Machine.execIand h w64 nb d a b s
  | .ior h w64 nb d a b => Sys2Proof.Machine.execIor h w64 nb d a b s
  | .ixor h w64 nb d a b => Sys2Proof.Machine.execIxor h w64 nb d a b s
  | .inot h w64 d a => Sys2Proof.Machine.execInot h w64 d a s
  | .ishl h w64 wrap d a b => Sys2Proof.Machine.execIshl h w64 wrap d a b s
  | .ishr h w64 wrap d a b => Sys2Proof.Machine.execIshr h w64 wrap d a b s
  | .isar h w64 wrap d a b => Sys2Proof.Machine.execIsar h w64 wrap d a b s
  | .irot h w64 right d a b => Sys2Proof.Machine.execIrot h w64 right d a b s
  | .bfx h signed d a b => Sys2Proof.Machine.execBfx h signed d a b s
  | .bfi h d a b c => Sys2Proof.Machine.execBfi h d a b c s
  | .popc h w64 d a => Sys2Proof.Machine.execPopc h w64 d a s
  | .clz h w64 d a => Sys2Proof.Machine.execClz h w64 d a s
  | .ctz h w64 d a => Sys2Proof.Machine.execCtz h w64 d a s
  | .brev h w64 d a => Sys2Proof.Machine.execBrev h w64 d a s
  | .prmt h d a b c => Sys2Proof.Machine.execPrmt h d a b c s
  | .icmp h cond w64 d a b => Sys2Proof.Machine.execIcmp h cond w64 d a b s
  | .isel h w64 d a b c => Sys2Proof.Machine.execIsel h w64 d a b c s
  | .mov h w64 d a => Sys2Proof.Machine.execMov h w64 d a s
  | .lea h signed scale d a b => Sys2Proof.Machine.execLea h signed scale d a b s
  | .shfl h mode d a b m => Sys2Proof.Machine.execShfl h mode d a b m s
  | .vote h kind inv d a m => Sys2Proof.Machine.execVote h kind inv d a m s
  | .cred h op d a m => Sys2Proof.Machine.execCred h op d a m s
  | .srd h d sp => Sys2Proof.Machine.execSrd h d sp s
  | .iaddI h d a imm => Sys2Proof.Machine.execIaddI h d a imm s
  | .imulI h d a imm => Sys2Proof.Machine.execImulI h d a imm s
  | .iminI h d a imm => Sys2Proof.Machine.execIminI h d a imm s
  | .imaxI h d a imm => Sys2Proof.Machine.execImaxI h d a imm s
  | .iandI h d a imm => Sys2Proof.Machine.execIandI h d a imm s
  | .iorI h d a imm => Sys2Proof.Machine.execIorI h d a imm s
  | .ixorI h d a imm => Sys2Proof.Machine.execIxorI h d a imm s
  | .ishlI h d a n => Sys2Proof.Machine.execIshlI h d a n s
  | .ishrI h d a n => Sys2Proof.Machine.execIshrI h d a n s
  | .isarI h d a n => Sys2Proof.Machine.execIsarI h d a n s
  | .irotI h d a n => Sys2Proof.Machine.execIrotI h d a n s
  | .bfxI h signed len pos d a => Sys2Proof.Machine.execBfxI h signed len pos d a s
  | .bfiI h len pos d a => Sys2Proof.Machine.execBfiI h len pos d a s
  | .prmtI h d a sel => Sys2Proof.Machine.execPrmtI h d a sel s
  | .leaI h d a off => Sys2Proof.Machine.execLeaI h d a off s
  | .shflI h mode n m d a => Sys2Proof.Machine.execShflI h mode n m d a s
  | .movi c w64 d imm => Sys2Proof.Machine.execMovi c w64 d imm s
  | .pand h na nb d a b => Sys2Proof.Machine.execPand h na nb d a b s
  | .por h na nb d a b => Sys2Proof.Machine.execPor h na nb d a b s
  | .pxor h na nb d a b => Sys2Proof.Machine.execPxor h na nb d a b s
  | .pnot h d a => Sys2Proof.Machine.execPnot h d a s
  | .pmov h d a => Sys2Proof.Machine.execPmov h d a s
  | .psetm h inv d a => Sys2Proof.Machine.execPsetm h inv d a s
  | .mfromp h mode d a => Sys2Proof.Machine.execMfromp h mode d a s
  | .mset h op d a b => Sys2Proof.Machine.execMset h op d a b s
  | .mget h lt d a => Sys2Proof.Machine.execMget h lt d a s
  | .bra h disp => Sys2Proof.Machine.execBra h disp s
  | .brx h a => Sys2Proof.Machine.execBrx h a s
  | .call h disp => Sys2Proof.Machine.execCall h disp s
  | .callx h a => Sys2Proof.Machine.execCallx h a s
  | .ret h => Sys2Proof.Machine.execRet h s
  | .exit h => Sys2Proof.Machine.execExit h s
  | .yield h => Sys2Proof.Machine.execYield h s
  | .nop h => Sys2Proof.Machine.execNop h s
  | .mjoin h d => Sys2Proof.Machine.execMjoin h d s
  | .mleave h d => Sys2Proof.Machine.execMleave h d s
  | .mwait h a => Sys2Proof.Machine.execMwait h a s
  | .svc h code => Sys2Proof.Machine.execSvc h code s
  | .brk h code => Sys2Proof.Machine.execBrk h code s
  | .fadd h rnd ftz d a b => Sys2Proof.Machine.execFadd h rnd ftz d a b s
  | .fsub h rnd ftz d a b => Sys2Proof.Machine.execFsub h rnd ftz d a b s
  | .fmul h rnd ftz d a b => Sys2Proof.Machine.execFmul h rnd ftz d a b s
  | .ffma h rnd ftz d a b c => Sys2Proof.Machine.execFfma h rnd ftz d a b c s
  | .fmin h ftz d a b => Sys2Proof.Machine.execFmin h ftz d a b s
  | .fmax h ftz d a b => Sys2Proof.Machine.execFmax h ftz d a b s
  | .fcmp h cond ty ftz d a b => Sys2Proof.Machine.execFcmp h cond ty ftz d a b s
  | .fsel h w64 d a b c => Sys2Proof.Machine.execFsel h w64 d a b c s
  | .frnd h rnd ftz d a => Sys2Proof.Machine.execFrnd h rnd ftz d a s
  | .fclass h ty set d a => Sys2Proof.Machine.execFclass h ty set d a s
  | .xins h rnd ftz d a b => Sys2Proof.Machine.execXins h rnd ftz d a b s
  | .xget h man d a => Sys2Proof.Machine.execXget h man d a s
  | .frcp h rnd ftz d a => Sys2Proof.Machine.execFrcp h rnd ftz d a s
  | .frsq h ftz d a => Sys2Proof.Machine.execFrsq h ftz d a s
  | .fsqrt h rnd ftz d a => Sys2Proof.Machine.execFsqrt h rnd ftz d a s
  | .fexp2 h ftz d a => Sys2Proof.Machine.execFexp2 h ftz d a s
  | .flog2 h ftz d a => Sys2Proof.Machine.execFlog2 h ftz d a s
  | .fsinp h ftz d a => Sys2Proof.Machine.execFsinp h ftz d a s
  | .fcosp h ftz d a => Sys2Proof.Machine.execFcosp h ftz d a s
  | .hadd2 h bf rnd d a b => Sys2Proof.Machine.execHadd2 h bf rnd d a b s
  | .hmul2 h bf rnd d a b => Sys2Proof.Machine.execHmul2 h bf rnd d a b s
  | .hfma2 h bf rnd d a b c => Sys2Proof.Machine.execHfma2 h bf rnd d a b c s
  | .dadd h rnd d a b => Sys2Proof.Machine.execDadd h rnd d a b s
  | .dmul h rnd d a b => Sys2Proof.Machine.execDmul h rnd d a b s
  | .dfma h rnd d a b c => Sys2Proof.Machine.execDfma h rnd d a b c s
  | .faddI h d a imm => Sys2Proof.Machine.execFaddI h d a imm s
  | .fmulI h d a imm => Sys2Proof.Machine.execFmulI h d a imm s
  | .fminI h d a imm => Sys2Proof.Machine.execFminI h d a imm s
  | .fmaxI h d a imm => Sys2Proof.Machine.execFmaxI h d a imm s
  | .cvt h dst src rnd sat ftz d a => Sys2Proof.Machine.execCvt h dst src rnd sat ftz d a s
  | .qcvt h dst src rnd sat d a b => Sys2Proof.Machine.execQcvt h dst src rnd sat d a b s
  | .dqcvt h dst src rnd sat d a b => Sys2Proof.Machine.execDqcvt h dst src rnd sat d a b s
  | .ldmx h fmt mq d a b => Sys2Proof.Machine.execLdmx h fmt mq d a b s
  | .stmx h fmt mq d a b => Sys2Proof.Machine.execStmx h fmt mq d a b s
  | .pairedWord c h0 h1 => Sys2Proof.Machine.execPairedWord c h0 h1 s
  | .mma h fmt mx reuse t a b c => Sys2Proof.Machine.execMma h fmt mx reuse t a b c s
  | .acczero h t => Sys2Proof.Machine.execAcczero h t s
  | .accld h fmt mq t a => Sys2Proof.Machine.execAccld h fmt mq t a s
  | .accst h fmt mq t a => Sys2Proof.Machine.execAccst h fmt mq t a s
  | .accchk h d t => Sys2Proof.Machine.execAccchk h d t s
  | .ld h sz mq d a off => Sys2Proof.Machine.execLd h sz mq d a off s
  | .st h sz mq d a off => Sys2Proof.Machine.execSt h sz mq d a off s
  | .ldg h sz mq d k b => Sys2Proof.Machine.execLdg h sz mq d k b s
  | .stg h sz mq d k b => Sys2Proof.Machine.execStg h sz mq d k b s
  | .fence h mq => Sys2Proof.Machine.execFence h mq s
  | .prefetch h lvl a off => Sys2Proof.Machine.execPrefetch h lvl a off s
  | .cachectl h op a => Sys2Proof.Machine.execCachectl h op a s
  | .salloc h quad dflt d a b => Sys2Proof.Machine.execSalloc h quad dflt d a b s
  | .sfree h a => Sys2Proof.Machine.execSfree h a s
  | .srenew h a b => Sys2Proof.Machine.execSrenew h a b s
  | .poison h a => Sys2Proof.Machine.execPoison h a s
  | .winpub h => Sys2Proof.Machine.execWinpub h s
  | .winacq h => Sys2Proof.Machine.execWinacq h s
  | .tcommit h => Sys2Proof.Machine.execTcommit h s
  | .tcopy h bar d a b => Sys2Proof.Machine.execTcopy h bar d a b s
  | .tcopyq h bar d a b => Sys2Proof.Machine.execTcopyq h bar d a b s
  | .tmcast h bar d a b => Sys2Proof.Machine.execTmcast h bar d a b s
  | .tcancel h a => Sys2Proof.Machine.execTcancel h a s
  | .atomAdd h ty mq d a b => Sys2Proof.Machine.execAtomAdd h ty mq d a b s
  | .atomSub h ty mq d a b => Sys2Proof.Machine.execAtomSub h ty mq d a b s
  | .atomMin h ty mq d a b => Sys2Proof.Machine.execAtomMin h ty mq d a b s
  | .atomMax h ty mq d a b => Sys2Proof.Machine.execAtomMax h ty mq d a b s
  | .atomAnd h ty mq d a b => Sys2Proof.Machine.execAtomAnd h ty mq d a b s
  | .atomOr h ty mq d a b => Sys2Proof.Machine.execAtomOr h ty mq d a b s
  | .atomXor h ty mq d a b => Sys2Proof.Machine.execAtomXor h ty mq d a b s
  | .atomExch h ty mq d a b => Sys2Proof.Machine.execAtomExch h ty mq d a b s
  | .atomCas h ty mq d a b => Sys2Proof.Machine.execAtomCas h ty mq d a b s
  | .redAdd h ty mq a b => Sys2Proof.Machine.execRedAdd h ty mq a b s
  | .redSub h ty mq a b => Sys2Proof.Machine.execRedSub h ty mq a b s
  | .redMin h ty mq a b => Sys2Proof.Machine.execRedMin h ty mq a b s
  | .redMax h ty mq a b => Sys2Proof.Machine.execRedMax h ty mq a b s
  | .redAnd h ty mq a b => Sys2Proof.Machine.execRedAnd h ty mq a b s
  | .redOr h ty mq a b => Sys2Proof.Machine.execRedOr h ty mq a b s
  | .redXor h ty mq a b => Sys2Proof.Machine.execRedXor h ty mq a b s
  | .wpost h a b => Sys2Proof.Machine.execWpost h a b s
  | .qpush h q a => Sys2Proof.Machine.execQpush h q a s
  | .qpop h d q => Sys2Proof.Machine.execQpop h d q s
  | .fpush h f a => Sys2Proof.Machine.execFpush h f a s
  | .fpop h d f => Sys2Proof.Machine.execFpop h d f s
  | .msend h kind a b c => Sys2Proof.Machine.execMsend h kind a b c s
  | .glaunch h d a => Sys2Proof.Machine.execGlaunch h d a s
  | .gwait h d a => Sys2Proof.Machine.execGwait h d a s
  | .tlbinv h form a b => Sys2Proof.Machine.execTlbinv h form a b s
  | .pgprobe h d a => Sys2Proof.Machine.execPgprobe h d a s
  | .kvx h form d a b c => Sys2Proof.Machine.execKvx h form d a b c s
  | .winctl h close a b => Sys2Proof.Machine.execWinctl h close a b s
  | .gatectl h close a b => Sys2Proof.Machine.execGatectl h close a b s
  | .barInit h a b => Sys2Proof.Machine.execBarInit h a b s
  | .barArrive h leave form d a b => Sys2Proof.Machine.execBarArrive h leave form d a b s
  | .barExpect h a b => Sys2Proof.Machine.execBarExpect h a b s
  | .barWait h reach a b => Sys2Proof.Machine.execBarWait h reach a b s
  | .barTry h reach d a b => Sys2Proof.Machine.execBarTry h reach d a b s
  | .barInval h a => Sys2Proof.Machine.execBarInval h a s
  | .semSig h a b => Sys2Proof.Machine.execSemSig h a b s
  | .semWait h a b => Sys2Proof.Machine.execSemWait h a b s
  | .rdclk h us d => Sys2Proof.Machine.execRdclk h us d s
  | .rdperf h d n => Sys2Proof.Machine.execRdperf h d n s
  | .csrr h d n => Sys2Proof.Machine.execCsrr h d n s
  | .csrw h mode n a => Sys2Proof.Machine.execCsrw h mode n a s
  | .sread h d a => Sys2Proof.Machine.execSread h d a s
  | .eret h a => Sys2Proof.Machine.execEret h a s
  | .halt h => Sys2Proof.Machine.execHalt h s
  | .pdExpiry t => Sys2Proof.Machine.execPdExpiry t s
  | .overdue t => Sys2Proof.Machine.execOverdue t s
  | .resultArrival t tag => Sys2Proof.Machine.execResultArrival t tag s
  | .icacheFill core vf line => Sys2Proof.Machine.execIcacheFill core vf line s
  | .pageWalkComplete core vf va forFetch => Sys2Proof.Machine.execPageWalkComplete core vf va forFetch s
  | .mauOpComplete core sector => Sys2Proof.Machine.execMauOpComplete core sector s
  | .workToken vf port src aligned bytes => Sys2Proof.Machine.execWorkToken vf port src aligned bytes s
  | .c1Landing vf roster dest bytes => Sys2Proof.Machine.execC1Landing vf roster dest bytes s
  | .c2Signal vf roster dest => Sys2Proof.Machine.execC2Signal vf roster dest s
  | .c2wWrite vf roster dest value => Sys2Proof.Machine.execC2wWrite vf roster dest value s
  | .c3Atomic vf roster dest value => Sys2Proof.Machine.execC3Atomic vf roster dest value s
  | .messageAck id => Sys2Proof.Machine.execMessageAck id s
  | .queueRoomDeposit vf queue => Sys2Proof.Machine.execQueueRoomDeposit vf queue s
  | .teamBind partition anyCore base => Sys2Proof.Machine.execTeamBind partition anyCore base s
  | .bindRecordDispatch core slot record => Sys2Proof.Machine.execBindRecordDispatch core slot record s
  | .slotFree core slot => Sys2Proof.Machine.execSlotFree core slot s
  | .gridRetire vf grid => Sys2Proof.Machine.execGridRetire vf grid s
  | .blockedCheck partition => Sys2Proof.Machine.execBlockedCheck partition s
  | .donationTest partition => Sys2Proof.Machine.execDonationTest partition s
  | .schedulerRecordClaim partition => Sys2Proof.Machine.execSchedulerRecordClaim partition s
  | .hostRecordMove partition => Sys2Proof.Machine.execHostRecordMove partition s
  | .wakeRecord partition rec_ viaEret => Sys2Proof.Machine.execWakeRecord partition rec_ viaEret s
  | .replay core slot access cohort log lanes => Sys2Proof.Machine.execReplay core slot access cohort log lanes s
  | .recordClaim partition => Sys2Proof.Machine.execRecordClaim partition s
  | .directoryEntryReceived hub vf key entry => Sys2Proof.Machine.execDirectoryEntryReceived hub vf key entry s
  | .directoryUpdate hub entry => Sys2Proof.Machine.execDirectoryUpdate hub entry s
  | .directoryWaitTimeout hub vf key => Sys2Proof.Machine.execDirectoryWaitTimeout hub vf key s
  | .frameWaitTimeout hub vf key => Sys2Proof.Machine.execFrameWaitTimeout hub vf key s
  | .pageReceived hub vf key version page poison => Sys2Proof.Machine.execPageReceived hub vf key version page poison s
  | .retryTimeout hub vf key => Sys2Proof.Machine.execRetryTimeout hub vf key s
  | .replicaTimeout hub vf key => Sys2Proof.Machine.execReplicaTimeout hub vf key s
  | .declineTimeout hub vf key => Sys2Proof.Machine.execDeclineTimeout hub vf key s
  | .remoteTimeout partition seq => Sys2Proof.Machine.execRemoteTimeout partition seq s
  | .ownershipRequest hub vf key requester requesterVf => Sys2Proof.Machine.execOwnershipRequest hub vf key requester requesterVf s
  | .invalidate hub vf key version => Sys2Proof.Machine.execInvalidate hub vf key version s
  | .checkIn hub key page clean => Sys2Proof.Machine.execCheckIn hub key page clean s
  | .pinExpiry vf page => Sys2Proof.Machine.execPinExpiry vf page s
  | .windowRekeyComplete window => Sys2Proof.Machine.execWindowRekeyComplete window s
  | .preemptStart partition => Sys2Proof.Machine.execPreemptStart partition s
  | .engineStopAck partition engine unit => Sys2Proof.Machine.execEngineStopAck partition engine unit s
  | .clusterSave partition cluster => Sys2Proof.Machine.execClusterSave partition cluster s
  | .restore partition vf => Sys2Proof.Machine.execRestore partition vf s
  | .tceDeadline partition cluster => Sys2Proof.Machine.execTceDeadline partition cluster s
  | .deadlineMiss partition engine unit => Sys2Proof.Machine.execDeadlineMiss partition engine unit s
  | .preemptTimeout partition => Sys2Proof.Machine.execPreemptTimeout partition s
  | .tceCommandStart cluster => Sys2Proof.Machine.execTceCommandStart cluster s
  | .tceBoxComplete cluster cmd box => Sys2Proof.Machine.execTceBoxComplete cluster cmd box s
  | .forcedPublish cluster vf line => Sys2Proof.Machine.execForcedPublish cluster vf line s
  | .publishAck line => Sys2Proof.Machine.execPublishAck line s
  | .storePerformed id => Sys2Proof.Machine.execStorePerformed id s
  | .retnUpdate cluster ns tj => Sys2Proof.Machine.execRetnUpdate cluster ns tj s
  | .agingScan cluster => Sys2Proof.Machine.execAgingScan cluster s
  | .sweeperVisit cluster line => Sys2Proof.Machine.execSweeperVisit cluster line s
  | .retentionLoss cluster line => Sys2Proof.Machine.execRetentionLoss cluster line s
  | .bankModeDrainComplete cluster bank => Sys2Proof.Machine.execBankModeDrainComplete cluster bank s
  | .reencryptComplete leaf => Sys2Proof.Machine.execReencryptComplete leaf s
  | .powerGrant demand drawn hot inlet => Sys2Proof.Machine.execPowerGrant demand drawn hot inlet s
  | .frequencyLoop island => Sys2Proof.Machine.execFrequencyLoop island s
  | .droopLoop island millivolts => Sys2Proof.Machine.execDroopLoop island millivolts s
  | .powerOn => Sys2Proof.Machine.execPowerOn s
  | .moduleReset => Sys2Proof.Machine.execModuleReset s
  | .vfReset vf => Sys2Proof.Machine.execVfReset vf s
  | .almanacStep passed altPassed => Sys2Proof.Machine.execAlmanacStep passed altPassed s
  | .stateRead r target len => Sys2Proof.Machine.execStateRead r target len s
  | .inventoryRead r => Sys2Proof.Machine.execInventoryRead r s
  | .tableWrite r req => Sys2Proof.Machine.execTableWrite r req s
  | .wake r partition rec_ => Sys2Proof.Machine.execWake r partition rec_ s
  | .shootDown r vf va pages => Sys2Proof.Machine.execShootDown r vf va pages s
  | .powerBudget r watts => Sys2Proof.Machine.execPowerBudget r watts s
  | .unfreeze r vf => Sys2Proof.Machine.execUnfreeze r vf s
  | .kill r vf => Sys2Proof.Machine.execKill r vf s
  | .hallmarkLogRead r first => Sys2Proof.Machine.execHallmarkLogRead r first s
  | .almanacRecordsClear r => Sys2Proof.Machine.execAlmanacRecordsClear r s
  | .coldReset r => Sys2Proof.Machine.execColdReset r s
  | .spdm r req => Sys2Proof.Machine.execSpdm r req s
  | .launchDeposit vf queue byScheduler req => Sys2Proof.Machine.execLaunchDeposit vf queue byScheduler req s
  | .hostFaultQueueConsume => Sys2Proof.Machine.execHostFaultQueueConsume s
  | .hostComplexAccess vf phys write len => Sys2Proof.Machine.execHostComplexAccess vf phys write len s
  | .openFrameAccess phys write len => Sys2Proof.Machine.execOpenFrameAccess phys write len s
  | .peerAccess device phys write len release => Sys2Proof.Machine.execPeerAccess device phys write len release s
  | .directoryQuery hub key node => Sys2Proof.Machine.execDirectoryQuery hub key node s
  | .pageRequest hub key node => Sys2Proof.Machine.execPageRequest hub key node s
  | .pageWriteBack hub key page => Sys2Proof.Machine.execPageWriteBack hub key page s
  | .storageErrorReport hub vf key => Sys2Proof.Machine.execStorageErrorReport hub vf key s
  | .softError site double => Sys2Proof.Machine.execSoftError site double s

end Sys2Proof.Machine
end

