-- ==== Sys2Proof/Machine/Moves.lean ====
section
/-! DEFINITION. Which acts of the package can come next (spec/02_execution_model.md R32 to R36; the
"enabled when" of each act's own rule). -/

namespace Sys2Proof.Machine

/-- What the machine may do next. -/
inductive Move where
  /-- An act of an agent. -/
  | act (e : Instr)
  /-- The first act of an outside agent that has not come about. -/
  | input (e : Instr)
  /-- The scheduler core of a partition binds a team. -/
  | bind (p : Nat)
  /-- A sector, or with 4 the access engine, opens its cycle. -/
  | turn (core sector : Nat)
  /-- The next sector cycle of a core. -/
  | tick (core : Nat)
  /-- The next nanosecond of CLK. -/
  | clock
  /-- An access on its way is performed (R224), or its lane is logged now that there is room (R260). -/
  | flight (n : Nat)
  /-- Some pieces of an accumulator row on its way are read or written (R222). -/
  | row (n : Nat)
  /-- The routers merge a red on its way with others (R239). -/
  | merge (n : Nat)
  /-- Some pieces of a box in flight are written (R222, R285). -/
  | part (cl id box : Nat)
  /-- A copy command that a restore has brought back goes on (R285). -/
  | resume (cl : Nat)
  /-- A freed frame or page lets entries of a hub die go on that waited for one (R26). -/
  | frames (hub : Nat)
  /-- The equalisation of a link's lane goes on (R407). -/
  | serdes
  deriving DecidableEq, Repr

/-- A pending act is the first of those that a test picks out. -/
def State.firstPending (s : State) (e : Instr) (p : Instr → Bool) : Bool := s.pending.find? p == some e

/-- The own tokens of one port. -/
def ownToken (vf port : Nat) (e : Instr) : Bool :=
  match e with
  | .workToken v n .own _ _ => v == vf && n == port
  | _ => false

/-- The wakes that one source has sent to a wake port. (DEDUCED, log 105.) -/
def wakeAt (p : Nat) (viaEret : Bool) (e : Instr) : Bool :=
  match e with
  | .wakeRecord q _ v => q == p && v == viaEret
  | _ => false

/-- The age of a log entry. -/
def State.entryAge (s : State) (c : CohortId) (idx : Nat) : Nat := ((s.logEntry c idx).map (·.age)).getD 0

/-- The pending replays of a core: cohort and entry. -/
def State.coreReplays (s : State) (core : Nat) : List (CohortId × Nat) :=
  s.pending.filterMap fun e =>
    match e with
    | .replay c k a n idx _ => if c == core then some (⟨c, k, a, n⟩, idx) else none
    | _ => none

/-- A replay comes next on its core: cohorts in the order of their wakes, the entries of a cohort oldest first, the
wakes of an entry in order (R334). (DEDUCED, log 104.) -/
def State.replayNext (s : State) (e : Instr) (c : CohortId) (idx : Nat) : Bool :=
  let rs := s.coreReplays c.core
  ((rs.head?).map Prod.fst) == some c &&
  (rs.all fun r => r.1 != c || s.entryAge c idx ≤ s.entryAge c r.2) &&
  s.firstPending e fun x =>
    match x with
    | .replay k1 k2 k3 k4 n _ => (⟨k1, k2, k3, k4⟩ : CohortId) == c && n == idx
    | _ => false

/-- Whether an act that stands pending can come about now. -/
def actOk (s : State) (e : Instr) : Bool :=
  match e with
  | .storePerformed n =>
    match FMap.find? s.stores n with
    | some f => !s.storeBlocked n f &&
        (f.bypass || (s.ccLine? (f.core / 4) f.own f.phys).isSome || !s.ccStuck (f.core / 4))
    | none => true
  | .resultArrival t n =>
    ((s.thread? t).bind fun x => (FMap.find? x.tags n).map fun g => decide (g.least ≤ s.cycle t.core)).getD true
  | .mauOpComplete core sec =>
    match (s.sector core sec).mau.head? with
    | some e => !s.rowsFlying core e
    | none => true
  | .invalidate hub vf key v => !s.invalidHeld hub vf key v
  | .slotFree core slot => (s.slot core slot).state == .draining && !s.slotBusy core slot
  | .messageAck n => !s.ackHeld n
  | .workToken vf port .own _ _ =>
    s.firstPending e (ownToken vf port) && !(s.vf vf).queues.any fun q => q.2.waiting.any fun w => w.2 == some port
  | .c1Landing vf i dest bytes => !((s.jobVf vf i).map fun v => s.landingHeld v dest bytes.length).getD false
  | .c2Signal vf i dest => !((s.jobVf vf i).map fun v => s.signalHeld v dest).getD false
  | .queueRoomDeposit vf q => ((FMap.find? (s.vf vf).queues q).map LaunchQueue.canMove).getD true
  | .wakeRecord p _ v => s.firstPending e (wakeAt p v)
  | .replay core slot a n idx ls =>
    s.replayReady ⟨core, slot, a, n⟩ idx ls && !s.placeStopped core (if a then 4 else ((s.team? core slot).map fun tm => sectorOf n tm.baseSector).getD 0) &&
      s.replayNext e ⟨core, slot, a, n⟩ idx
  | _ => true

/-- A thread whose PD count has run out, or which has become overdue (R35, R54): these acts come first.
(DEDUCED, log 16.) -/
def State.clockwork (s : State) : Option Instr :=
  s.threads.findSome? fun e =>
    let t := tidOfKey e.1
    let now := s.cycle t.core
    if e.2.exited || e.2.parked then none
    else if e.2.pdRun && e.2.readyAt ≤ now then some (.pdExpiry t)
    else match e.2.since with
      | some c => if !e.2.overdue && c + 3840 ≤ now then some (.overdue t) else none
      | none => none

/-- The cores with resident teams. -/
def State.busyCores (s : State) : List Nat := (s.teams.map fun e => e.1 / 8).eraseDups

/-- A due landing check whose line is cached. -/
def State.landDue (s : State) (t : Tid) : Bool :=
  match s.thread? t, s.teamOf t with
  | some x, some tm =>
    x.landing.isSome && !x.parked && !x.exited && (s.iline? t.core tm.vf tm.kern.compartment x.pc).isSome
  | _, _ => false

/-- The threads of a place that have met a queue-underflow (R312). -/
def State.underflows (s : State) (core sector : Nat) : List Tid :=
  (s.threadsAt core sector).filter fun t =>
    match s.offer t with
    | .word i => s.underflow t i
    | _ => false

/-- A sector cycle opens, its events first; whether the relaxed accesses of its words are performed at their issue is
open (R224). -/
def State.openPlace (s : State) (core sector : Nat) : State :=
  let s := { s with prompt := Config.choose s.draws 2 % 2 == 0, draws := s.draws + 1 }.landAll core sector
  (s.takeUnderflow (s.underflows core sector)).openTurn core sector

/-- The place has a gang to issue in this cycle, or a landing check to make. -/
def State.turnOk (s : State) (core sector : Nat) : Bool :=
  !s.placeStopped core sector && !(if sector == 4 then (s.core core).aseServed else (s.sector core sector).served) &&
  ((s.threadsAt core sector).any s.landDue || !(s.underflows core sector).isEmpty || (s.mismatchAt core sector).isSome || (s.firstGang core sector).isSome)

/-- A line that some thread waits for: its fill, or the walk before it (R72). -/
def State.fetchMove (s : State) (t : Tid) : Option Move :=
  match s.thread? t, s.teamOf t with
  | some x, some tm =>
    if s.placeStopped t.core (if t.access then 4 else s.sectorOfTid t) || x.exited || x.exitIssued || x.parked || wordLimit ≤ x.pc ||
      (s.iline? t.core tm.vf tm.kern.compartment x.pc).isSome then none
    else if s.itlbHas t.core tm.vf (x.pc / 6) then some (.act (.icacheFill t.core tm.vf (x.pc / 6)))
    else some (.act (.pageWalkComplete t.core tm.vf (x.pc / 6 * 64) true))
  | _, _ => none

/-- The team slots whose ready threads at a place stand at a word that a test picks out. -/
def State.standing (s : State) (core sector : Nat) (p : Instr → Bool) : List Nat :=
  ((s.threadsAt core sector).filter s.ready).filterMap fun t =>
    match s.offer t with
    | .word i => if p i then some t.slot else none
    | _ => none

/-- The words salloc and sfree. -/
def allocates : Instr → Bool
  | .salloc .. => true
  | _ => false

def frees : Instr → Bool
  | .sfree .. => true
  | _ => false

/-- The team slot whose salloc a place issues first. -/
def State.allocating (s : State) (core k : Nat) : Option Nat :=
  (s.firstGang core k).bind fun g =>
    match g.tids with
    | t :: _ => match s.offer t with
      | .word i => if allocates i then some g.slot else none
      | _ => none
    | [] => none

/-- The places that take their turn next in a cycle: one whose word is a salloc comes after those with a thread of its
team at an sfree that can issue in the cycle (R287). -/
def State.sfreeFirst (s : State) (core : Nat) (places : List Nat) : List Nat :=
  places.filter fun k =>
    match s.allocating core k with
    | some slot => !places.any fun j =>
        j != k && (s.allocating core j).isNone && (s.standing core j frees).contains slot
    | none => true

/-- The moves of one core: its sectors' turns, or where none is left in this cycle, the next cycle. -/
def State.coreMoves (s : State) (core : Nat) : List Move :=
  let places := (List.range 5).filter (s.turnOk core)
  if places.isEmpty then [.tick core] else (s.sfreeFirst core places).map (Move.turn core)

/-! ### Accesses on their way -/

/-- A transfer of a row. -/
def movesRow : Instr → Bool
  | .accld .. | .accst .. => true
  | _ => false

/-- What a waiting access can do. -/
def State.flightMoves (s : State) (n : Nat) (w : Wait) : List Move :=
  if !s.flightOk n w then []
  else
    (if (s.redTarget w).isSome then [.merge n] else []) ++ (if w.cause == .flight && movesRow w.instr then [.row n] else []) ++
    [.flight n]

/-- The boxes of an engine that can write some of their pieces. -/
def State.partMoves (s : State) (cl : Nat) : List Move :=
  (s.cluster cl).tce.flatMap fun e =>
    if e.2.accepted && e.2.waitSeq.isNone && !s.tceStopped cl e.2.vf false then e.2.flying.map (Move.part cl e.1) else []

/-- A copy command of an engine can go on. -/
def State.resumeMoves (s : State) (cl : Nat) : List Move := if (s.resumable cl).isSome then [.resume cl] else []

/-! ### The engines -/

/-- What a copy engine can do. -/
def State.tceMoves (s : State) (cl : Nat) : List Instr :=
  (match s.tceStartable cl with
    | some (_, c) => if s.tceStopped cl c.vf true then [] else [.tceCommandStart cl]
    | none => []) ++
  (s.cluster cl).tce.flatMap fun e =>
    if e.2.accepted && e.2.waitSeq.isNone && !s.tceStopped cl e.2.vf false then
      e.2.flying.map fun b => .tceBoxComplete cl e.1 b
    else []

/-- The engine of a code. -/
def engineOf (code : Nat) : Engine :=
  match code with
  | 1 => .sector
  | 2 => .ase
  | 3 => .mau
  | 4 => .tce
  | 5 => .walker
  | 6 => .banks
  | 7 => .storeBuffers
  | _ => .hukotil

/-- The acts of a pre-emption under way. -/
def State.preemptMoves (s : State) (p : Nat) : List Instr :=
  if !(s.partition p).preempt.stopping then []
  else
    ((s.enginesOf p).filter fun e => s.ackOk p e.1 e.2).map (fun e => .engineStopAck p (engineOf e.1) e.2) ++
    ((s.clustersOf p).filter (s.saveOk p)).map (Instr.clusterSave p)

/-- The deadlines of a pre-emption that have passed (R336). -/
def State.preemptDue (s : State) (p : Nat) : List Instr :=
  if !(s.partition p).preempt.stopping then []
  else
    ((s.clustersOf p).filter (s.tceLate p)).map (Instr.tceDeadline p) ++
    ((s.enginesOf p).filter fun e => s.missOk p e.1 e.2).map (fun e => .deadlineMiss p (engineOf e.1) e.2) ++
    (if s.preemptLate p then [.preemptTimeout p] else [])

/-- The VFs assigned to a partition. -/
def State.assigned (s : State) (p : Nat) : List Nat := (s.vfs.filter fun e => e.2.partition == some p).map Prod.fst

/-- A mapped queue's head waits for a queue that is not mapped (R294). -/
def State.donationDue (s : State) (p vf : Nat) : Bool :=
  (s.partition p).mapping.any fun e =>
    s.mapped vf e.2 && (((FMap.find? (s.vf vf).queues e.2).bind (s.starved p vf)).isSome)

/-- What the scheduler core and Hukotil can do for a partition. -/
def State.partitionMoves (s : State) (p : Nat) : List Instr :=
  (if (s.nextClaim p).isSome then [.recordClaim p] else []) ++
  (if (s.nextSched p).isSome then [.schedulerRecordClaim p] else []) ++
  (match (s.partition p).queue with
    | r :: _ => if r.host && s.pkg.hostQueue.length < 65536 then [.hostRecordMove p] else []
    | [] => []) ++
  (match s.dispatching p with
    | some vf =>
      (if s.allIdle p then [.blockedCheck p] else []) ++ (if s.donationDue p vf then [.donationTest p] else []) ++
      (if (s.assigned p).any (· != vf) then [.preemptStart p] else [])
    | none => []) ++
  ((s.assigned p).filter (s.restoreOk p)).map (Instr.restore p) ++ s.preemptMoves p

/-- The partition can bind a team. -/
def State.bindDue (s : State) (p : Nat) : Bool :=
  match s.dispatching p with
  | some vf => (s.restoreOne p vf 0).isSome || (s.winner p vf 0 0).isSome
  | none => false

/-- The tests of the scheduler core whose 50 µs have passed (R51, R294). -/
def State.testsDue (s : State) (p : Nat) : List Instr :=
  if (s.dispatching p).isNone then []
  else
    (if (s.partition p).checked + 50000 ≤ s.pkg.clk then [.blockedCheck p] else []) ++
    (if (s.partition p).tested + 50000 ≤ s.pkg.clk then [.donationTest p] else [])

/-- The timeouts of a service table entry (R326, R327). -/
def State.serviceDue (s : State) (hub : Nat) (e : Service) : List Instr :=
  let late := s.waited e
  (if e.step == 2 && late then [.directoryWaitTimeout hub e.vf e.key] else []) ++
  (if e.step == 3 && late then [.frameWaitTimeout hub e.vf e.key] else []) ++
  (if e.step == 5 && s.retryDue e then
    [if s.pkg.clk < e.claimed + 200000 then .retryTimeout hub e.vf e.key else .replicaTimeout hub e.vf e.key]
  else []) ++
  (if e.step != 20 && e.claimed + 2000000 ≤ s.pkg.clk then [.declineTimeout hub e.vf e.key] else [])

/-- What the loops can do. -/
def State.loopMoves (s : State) : List Instr :=
  (((s.scratch.filter fun e => e.2.valid && !e.2.expired && s.stale (e.1 / 16384) e.2).map fun e =>
    e.1 / 16384).eraseDups).map Instr.agingScan ++
  (s.cc.filter fun e => s.ccDue e.1 e.2).map (fun e => .sweeperVisit (e.1 / 2 ^ 60) (e.1 % 2 ^ 60)) ++
  (s.pkg.islands.filter fun e => loopClock e.1 e.2 != e.2.mhz).map fun e => .frequencyLoop e.1

/-- The scratch of a cluster has not been scanned for 1,024 µs (R202). -/
def State.scanDue (s : State) (cl : Nat) : Bool := (s.cluster cl).scanned + 1024000 ≤ s.pkg.clk

/-- The acts of timers whose moment has come: CLK does not pass it. (DESIGN CHOICE, log 144.) -/
def State.due (s : State) : List Instr :=
  (((s.scratch.filter fun e => e.2.valid && s.scanDue (e.1 / 16384)).map fun e => e.1 / 16384).eraseDups).map Instr.agingScan ++
  (s.cc.filter fun e => s.sweepLate e.1 e.2).map (fun e => .sweeperVisit (e.1 / 2 ^ 60) (e.1 % 2 ^ 60)) ++
  (if s.grantDue then [s.nextGrant] else []) ++
  (s.cc.filter fun e => s.ccLost e.1 e.2).map (fun e => .retentionLoss (e.1 / 2 ^ 60) (e.1 % 2 ^ 60)) ++
  s.hubs.flatMap (fun h => h.2.service.flatMap (s.serviceDue h.1) ++
    (h.2.writeBacks.filter s.backDue).map fun w => .retryTimeout h.1 w.vf w.key) ++
  (s.pinned.filter fun x => x.since + 1000000 ≤ s.pkg.clk).map (fun x => .pinExpiry x.vf x.page) ++
  (s.partitions.filter fun e => e.2.defined).flatMap fun e =>
    s.testsDue e.1 ++ s.preemptDue e.1 ++
    (((s.partition e.1).standing.map Prod.fst).filter (s.remoteLate e.1)).map fun q => .remoteTimeout e.1 (BitVec.ofNat 32 q)

/-- The partitions that the hypervisor has defined. -/
def State.definedPartitions (s : State) : List Nat := (s.partitions.filter fun e => e.2.defined).map Prod.fst

/-- Everything that can come next. (DESIGN CHOICE, log 144.) -/
def State.allMoves (s : State) : List Move :=
  ((s.inputs.take 1).map Move.input) ++
  (s.pending.filter (actOk s)).map Move.act ++
  (((s.threads.map Prod.fst).filterMap fun k => s.fetchMove (tidOfKey k)).eraseDups) ++
  ((s.clusters.map Prod.fst).flatMap s.tceMoves).map Move.act ++
  (s.definedPartitions.flatMap s.partitionMoves).map Move.act ++
  (s.definedPartitions.filter s.bindDue).map Move.bind ++
  s.loopMoves.map Move.act ++
  s.waits.flatMap (fun e => s.flightMoves e.1 e.2) ++
  (s.clusters.map Prod.fst).flatMap (fun cl => s.partMoves cl ++ s.resumeMoves cl) ++
  s.busyCores.flatMap s.coreMoves ++ [.serdes] ++
  (if s.due.isEmpty then [.clock] else s.due.map Move.act)

/-- What a package out of service still takes part in: the management window, and resets (R402). -/
def answersAlways : Instr → Bool
  | .stateRead .. | .inventoryRead _ | .tableWrite .. | .wake .. | .shootDown .. | .powerBudget .. | .unfreeze .. | .kill ..
  | .hallmarkLogRead .. | .almanacRecordsClear _ | .coldReset _ | .spdm .. | .hostComplexAccess .. | .powerOn | .moduleReset => true
  | _ => false

/-- What can come next, whatever its duration (DESIGN CHOICE, log 144): an entry that waits for a frame takes the first
one that is free (R26); and of a package out of service only the management window answers (R402). -/
def State.moves (s : State) : List Move :=
  if !s.pkg.inService then
    (((s.inputs.filter answersAlways).take 1).map Move.input) ++ (s.pending.filter answersAlways).map Move.act ++ [.clock]
  else match s.frameFree with
  | some hub => [.frames hub]
  | none => s.allMoves

/-- CLK advances (R107); what a lost reply poisons is past (R214). -/
def State.tickClk (s : State) : State := s.modPkg fun p => { p with clk := (p.clk + 1) % 2 ^ 64, lost := [] }

/-- Choose among the moves: the only one, or one that nothing constrains (log 1). -/
def State.choose (s : State) (ms : List Move) : Move × State :=
  match ms with
  | [m] => (m, s)
  | ms => (ms.getD (Config.choose s.draws ms.length % ms.length) .clock, { s with draws := s.draws + 1 })

end Sys2Proof.Machine
end

