-- ==== Sys2Proof/Machine/Step.lean ====
section
/-! DEFINITION. One step of the package: a gathered gang's word issues, or the next act comes about. -/

namespace Sys2Proof.Machine

/-- Go on from a next state. -/
def mapNext (o : Out) (f : State → State) : Out :=
  match o with
  | .next s => .next (f s)
  | .fault r => .fault r
  | .refused r => .refused r

/-- THE GATHERED GANG ISSUES: its word is fetched and decoded, the instruction is executed, and the sector's
cycle goes on (R33, R34). -/
def issueTurn (s : State) (t : Turn) : Out :=
  let vf := (s.gangTeam.map (·.vf)).getD 0
  let comp := (s.gangTeam.map (·.kern.compartment)).getD 0
  match s.fetch s.gang.core vf comp s.gang.pc with
  | .word w =>
    match decode w with
    | .ok i => mapNext (exec i s) fun s' => s'.nextTurn t
    | .error _ => .next ((s.fetchFault (some w)).nextTurn t)
  | .broken => .next ((s.fetchFault none).nextTurn t)
  | .absent => .next { s with turn := none }

/-- One move. -/
def runMove (s : State) (m : Move) : Out :=
  match m with
  | .act e => exec e (s.taken e)
  | .input e => exec e { s with inputs := s.inputs.erase e }
  | .bind p =>
    exec (.teamBind p (Config.choose s.draws 1024) (Config.choose (s.draws + 1) 4 % 4)) { s with draws := s.draws + 2 }
  | .turn core sector => .next (s.openPlace core sector)
  | .tick core => .next (s.tick core)
  | .clock => .next s.tickClk
  | .flight n => .next (s.fly n)
  | .row n => .next (s.rowPart n)
  | .merge n => .next (s.mergeReds n)
  | .part cl id box =>
    .next (match FMap.find? (s.cluster cl).tce id with
      | some c => s.tcePart cl id c box
      | none => s)
  | .resume cl => .next (s.resumeCmd cl)
  | .frames hub => .next (s.retryFrames hub)
  | .serdes => .next s.equalise

/-- ONE STEP. (DESIGN CHOICE, log 145.) -/
def step (s : State) : Host.Outcome State Fault Refusal :=
  match s.turn with
  | some t => issueTurn s t
  | none =>
    match s.clockwork with
    | some e => exec e s
    | none =>
      let (m, s) := s.choose s.moves
      runMove s m

/-! ### Placing one word for the next step -/

/-- The kernel of a placed word: every register, predicate, argument and tile is declared, and system
privilege. -/
def placedKernel : Kernel where
  handle := 0
  entry := 0
  accessEntry := 0
  regs := 1024
  preds := 63
  args := 128
  threads := 1
  tiles := 0xFFFF#16
  groupSize := 0
  groupQuad := false
  relaunch := false
  system := true
  compartment := 0
  scratchCluster := 0
  scratchQuad := 0
  fifoBanks := 0
  align := false
  decls := []
  place := []

/-- A team with one thread, of VF 0 in partition 0. -/
def placedTeam : Team where
  kern := placedKernel
  vf := 0
  partition := 0
  grid := 0
  index := 0
  depth := 0
  baseSector := 0
  privBlock := 0
  argBytes := []
  k := []
  relaunchable := false
  relaunches := 0
  storeBuf := []
  resCluster := 0
  resQuad := 0
  allocs := []
  bound := 0

/-- A line whose slot 0 holds a word, with a right trailer. -/
def lineOf (w : BitVec 80) : ILine :=
  let body := bytesOfWord w ++ List.replicate 51 0#8
  ⟨0, body ++ [body.foldl (· ^^^ ·) 0, 0, 0], true, [0]⟩

/-- The state with one thread resident on core 0 that has been gathered at word 0, and that word in the
instruction cache: the next step fetches and runs it (DESIGN CHOICE, log 20). -/
def State.withFetchWord (s : State) (_nbits w : Nat) : State :=
  let t : Tid := ⟨0, 0, false, 0, 0⟩
  let s := s.modCore 0 fun c =>
    { c with icache := FMap.put c.icache (icacheKey 0 0) (lineOf (BitVec.ofNat 80 w))
             slots := FMap.put c.slots 0 ⟨.resident, [], none⟩ }
  { s with
    teams := FMap.put s.teams (teamKey 0 0) placedTeam
    cohorts := FMap.put s.cohorts (cohortKey 0 0 false 0) (.launch 1#32)
    threads := FMap.put s.threads (tidKey t) (.launch 0 (s.cycle 0))
    gang := ⟨0, 0, false, 0, [(0, 0)]⟩
    turn := some ⟨0, 0, false, []⟩ }

end Sys2Proof.Machine
end

