-- ==== Sys2Proof/Safety.lean ====
section
/-! DEFINITION. What every state of a run keeps, and when a word may issue: the terms in which the package is
claimed about. -/

namespace Sys2Proof.Machine

/-- Home memory keeps its canonical form. -/
def State.memOk (s : State) : Bool := Memory.wf s.mem

/-- A thread's register files are in canonical form: keys rise, no entry equals what an unlisted register reads as,
and p63 is never listed. -/
def Thread.ok (t : Thread) : Bool :=
  FMap.sorted t.v && t.v.all (fun e => e.2 != 0) && FMap.sorted t.p && t.p.all fun e => e.2 && e.1 != 63

/-- A gang as R33 gathers it: threads of one slot, each once. -/
def Gang.ok (g : Gang) : Bool :=
  g.slot < 8 && g.members.all (fun m => m.1 < 32 && m.2 < 32) && decide g.members.Nodup

/-- THE GANG MAY ISSUE THE WORD NOW (R28, R32, R57, R76, R318): it is the gang of a resident team, the word raises no
decode fault, every thread of the gang is ready at it, the word's own conditions hold, and the partition has room for
the records of a memory word. -/
def State.mayIssue (s : State) (i : Instr) : Bool :=
  s.gang.ok &&
  match s.gangTeam with
  | some tm => (tm.decodeEvent i s.gang.access).isNone && s.canIssue i && extraOk i s &&
    !(i.memory && s.recordsFull tm.partition tm.vf)
  | none => false

/-- A thread of the gang for which the word's guard is true, as the word sees it after its commits (R61). -/
def State.runs (s : State) (i : Instr) (u : Tid) (x : Thread) : Prop :=
  u ∈ s.gang.tids ∧ (s.control i).thread? u = some x ∧ x.guardOf i = true

/-- Of the gang only one thread has a true guard, and none of its older accesses to the same page is unfinished
(R232). -/
def State.alone (s : State) (i : Instr) (u : Tid) (ops : LaneOps) : Prop :=
  (s.control i).active i = [u] ∧
  (s.control i).behind u i ops (s.nextAge s.gang.core s.gang.slot s.gang.access u.cohort) = false

/-- The word's result is on its way to the tag of the one thread that runs it, and the word is over. -/
def State.over (s : State) (i : Instr) (u : Tid) (r : Late) : State := (s.deliver u i.tag? r).flowEnd i

/-- The number that the word of the gathered gang has in a thread's cohort. -/
def State.wordAge (s : State) (u : Tid) : Nat := s.nextAge s.gang.core s.gang.slot s.gang.access u.cohort

/-- The word of the gathered gang, issued in state `s`, is over in `s'` with its one lane in the log, with an event of
its own. -/
def State.logged (s s' : State) (i : Instr) (u : Tid) (ops : LaneOps) (kind : Nat) (detail address : DWord) : State :=
  (s'.logLanes i s.gang.pc (s.wordAge u) [⟨u, ops, some (kind, detail, address)⟩]).flowEnd i

/-- The same with its one lane waiting. -/
def State.waiting (s s' : State) (i : Instr) (u : Tid) (ops : LaneOps) (c : Cause) (held : Bool) : State :=
  (s'.addWait u i ops s.gang.pc (s.wordAge u) c held).flowEnd i

/-- WHAT A WORD COMES TO whose one lane has this outcome: an event leaves the lane in the log; an access that is
performed after its issue waits; any other one is performed now (R224, R260). -/
def State.laneEnd (s : State) (i : Instr) (u : Tid) (ops : LaneOps) (out : LaneOut) : State :=
  match out with
  | .event k d a s' => s.logged s' i u ops k d a
  | .done r s' =>
    if (s.control i).flying u i then s.waiting (s.control i) i u ops .flight false else s'.over i u r
  | .later s' =>
    if (s.control i).flying u i then s.waiting (s.control i) i u ops .flight false else s'.flowEnd i
  | .wait c held s' =>
    if (s.control i).flying u i then s.waiting (s.control i) i u ops .flight false else s.waiting s' i u ops c held

/-- The registers, predicates and flags of a result are visible. -/
def Thread.shows (t : Thread) (r : Res) : Prop :=
  (∀ w ∈ r.vs, t.rv w.1 = w.2) ∧ (∀ w ∈ r.ps, t.rp w.1 = w.2) ∧ t.fstat &&& r.flags = r.flags

end Sys2Proof.Machine
end

