-- ==== Sys2Proof/Certificates/Slice0/Obligations.lean ====
section
/-! DEFINITION. Statements about the model, each a proposition for the provers, with the results that the spec's
tables give as functions of a thread. -/

namespace Sys2Proof.Claims

open Sys2Proof.Machine

/-! ### Results of fixed-latency words, written from the rules -/

/-- An exact result clamped to a type (R112). -/
def clampTo (w : Nat) (ty : Sgn) (x : Int) : BitVec w :=
  match ty with
  | .s => BitVec.ofInt w (min (max x (-(2 ^ (w - 1)))) (2 ^ (w - 1) - 1))
  | .n => BitVec.ofInt w (min (max x 0) (2 ^ w - 1))

/-- A register's value under a type (R112). -/
def valueOf {w : Nat} (ty : Sgn) (x : BitVec w) : Int :=
  match ty with
  | .s => x.toInt
  | .n => x.toNat

/-- A register extended to 64 bits by a type (R112). -/
def extend (ty : Sgn) (x : Word) : DWord :=
  match ty with
  | .s => x.signExtend 64
  | .n => x.setWidth 64

/-- The count of a shift (R113): bits 7:0, modulo the width under .wrap. -/
def countOf (w : Nat) (wrap : Bool) (b : Word) : Nat := if wrap then b.toNat % 256 % w else b.toNat % 256

/-- One register or one pair, by a function of each width. -/
def either (w64 : Bool) (d : VReg) (x : Word) (y : DWord) : Res := if w64 then .v64 d y else .v d x

/-- The integer words: arithmetic, logic, shifts, fields, compare, select, moves and addresses (R112 to R119,
R121). -/
def intResult : Instr → Option (Thread → Res)
  | .iadd _ ty sat d a b => some fun t =>
    .v d (if sat then clampTo 32 ty (valueOf ty (t.rv a.toNat) + valueOf ty (t.rv b.toNat)) else t.rv a.toNat + t.rv b.toNat)
  | .isub _ ty sat d a b => some fun t =>
    .v d (if sat then clampTo 32 ty (valueOf ty (t.rv a.toNat) - valueOf ty (t.rv b.toNat)) else t.rv a.toNat - t.rv b.toNat)
  | .imul _ ty sat d a b => some fun t =>
    .v d (if sat then clampTo 32 ty (valueOf ty (t.rv a.toNat) * valueOf ty (t.rv b.toNat)) else t.rv a.toNat * t.rv b.toNat)
  | .imulhi _ ty d a b => some fun t =>
    .v d ((extend ty (t.rv a.toNat) * extend ty (t.rv b.toNat)).extractLsb' 32 32)
  | .imad _ ty m d a b c => some fun t =>
    match m with
    | .plain => .v d (t.rv a.toNat * t.rv b.toNat + t.rv c.toNat)
    | .sat => .v d (clampTo 32 ty
        (valueOf ty (t.rv a.toNat) * valueOf ty (t.rv b.toNat) + valueOf ty (t.rv c.toNat)))
    | .wide => .v64 d (extend ty (t.rv a.toNat) * extend ty (t.rv b.toNat) + t.rv64 c.toNat)
  | .iadd64 _ ty sat x32 d a b => some fun t =>
    let y := if x32 then extend ty (t.rv b.toNat) else t.rv64 b.toNat
    .v64 d (if sat then clampTo 64 ty (valueOf ty (t.rv64 a.toNat) + valueOf ty y) else t.rv64 a.toNat + y)
  | .imin _ ty d a b => some fun t =>
    .v d (if valueOf ty (t.rv b.toNat) < valueOf ty (t.rv a.toNat) then t.rv b.toNat else t.rv a.toNat)
  | .imax _ ty d a b => some fun t =>
    .v d (if valueOf ty (t.rv a.toNat) < valueOf ty (t.rv b.toNat) then t.rv b.toNat else t.rv a.toNat)
  | .iabs _ sat d a => some fun t =>
    .v d (if sat && t.rv a.toNat == 0x80000000 then 0x7FFFFFFF
      else if (t.rv a.toNat).toInt < 0 then -t.rv a.toNat else t.rv a.toNat)
  | .ineg _ sat d a => some fun t =>
    .v d (if sat && t.rv a.toNat == 0x80000000 then 0x7FFFFFFF else -t.rv a.toNat)
  | .iand _ w nb d a b => some fun t =>
    either w d (t.rv a.toNat &&& (if nb then ~~~t.rv b.toNat else t.rv b.toNat))
      (t.rv64 a.toNat &&& (if nb then ~~~t.rv64 b.toNat else t.rv64 b.toNat))
  | .ior _ w nb d a b => some fun t =>
    either w d (t.rv a.toNat ||| (if nb then ~~~t.rv b.toNat else t.rv b.toNat))
      (t.rv64 a.toNat ||| (if nb then ~~~t.rv64 b.toNat else t.rv64 b.toNat))
  | .ixor _ w nb d a b => some fun t =>
    either w d (t.rv a.toNat ^^^ (if nb then ~~~t.rv b.toNat else t.rv b.toNat))
      (t.rv64 a.toNat ^^^ (if nb then ~~~t.rv64 b.toNat else t.rv64 b.toNat))
  | .inot _ w d a => some fun t => either w d (~~~t.rv a.toNat) (~~~t.rv64 a.toNat)
  | .ishl _ w wrap d a b => some fun t =>
    either w d (t.rv a.toNat <<< countOf 32 wrap (t.rv b.toNat)) (t.rv64 a.toNat <<< countOf 64 wrap (t.rv b.toNat))
  | .ishr _ w wrap d a b => some fun t =>
    either w d (t.rv a.toNat >>> countOf 32 wrap (t.rv b.toNat)) (t.rv64 a.toNat >>> countOf 64 wrap (t.rv b.toNat))
  | .isar _ w wrap d a b => some fun t =>
    either w d ((t.rv a.toNat).sshiftRight (countOf 32 wrap (t.rv b.toNat)))
      ((t.rv64 a.toNat).sshiftRight (countOf 64 wrap (t.rv b.toNat)))
  | .irot _ w right d a b => some fun t =>
    let c := t.rv b.toNat
    if right then either w d ((t.rv a.toNat).rotateRight (countOf 32 true c)) ((t.rv64 a.toNat).rotateRight (countOf 64 true c))
    else either w d ((t.rv a.toNat).rotateLeft (countOf 32 true c)) ((t.rv64 a.toNat).rotateLeft (countOf 64 true c))
  | .bfx _ signed d a b => some fun t =>
    .v d (bitExtract signed (t.rv a.toNat) ((t.rv b.toNat).toNat % 256) (min ((t.rv b.toNat).toNat / 256 % 256) 32))
  | .bfi _ d a b c => some fun t =>
    .v d (bitInsert (t.rv c.toNat) (t.rv a.toNat) ((t.rv b.toNat).toNat % 256) (min ((t.rv b.toNat).toNat / 256 % 256) 32))
  | .popc _ w d a => some fun t => .v d (BitVec.ofNat 32 (if w then popCount (t.rv64 a.toNat) else popCount (t.rv a.toNat)))
  | .clz _ w d a => some fun t => .v d (BitVec.ofNat 32 (if w then leadZeros (t.rv64 a.toNat) else leadZeros (t.rv a.toNat)))
  | .ctz _ w d a => some fun t => .v d (BitVec.ofNat 32 (if w then trailZeros (t.rv64 a.toNat) else trailZeros (t.rv a.toNat)))
  | .brev _ w d a => some fun t => either w d (bitReverse (t.rv a.toNat)) (bitReverse (t.rv64 a.toNat))
  | .prmt _ d a b c => some fun t => .v d (permute (t.rv a.toNat) (t.rv b.toNat) (t.rv c.toNat))
  | .icmp _ cond w d a b => some fun t =>
    .p d (if w then intCond cond (t.rv64 a.toNat) (t.rv64 b.toNat) else intCond cond (t.rv a.toNat) (t.rv b.toNat))
  | .isel _ w d a b c => some fun t =>
    if t.rp c.toNat then either w d (t.rv a.toNat) (t.rv64 a.toNat) else either w d (t.rv b.toNat) (t.rv64 b.toNat)
  | .mov _ w d a => some fun t => either w d (t.rv a.toNat) (t.rv64 a.toNat)
  | .lea _ signed scale d a b => some fun t =>
    .v64 d (t.rv64 a.toNat + extend (if signed then .s else .n) (t.rv b.toNat) * BitVec.ofNat 64 (2 ^ scale.toNat))
  | .iaddI _ d a imm => some fun t => .v d (t.rv a.toNat + imm.signExtend 32)
  | .imulI _ d a imm => some fun t => .v d (t.rv a.toNat * imm.signExtend 32)
  | .iminI _ d a imm => some fun t =>
    .v d (if (imm.signExtend 32).toInt < (t.rv a.toNat).toInt then imm.signExtend 32 else t.rv a.toNat)
  | .imaxI _ d a imm => some fun t =>
    .v d (if (t.rv a.toNat).toInt < (imm.signExtend 32).toInt then imm.signExtend 32 else t.rv a.toNat)
  | .iandI _ d a imm => some fun t => .v d (t.rv a.toNat &&& imm.signExtend 32)
  | .iorI _ d a imm => some fun t => .v d (t.rv a.toNat ||| imm.signExtend 32)
  | .ixorI _ d a imm => some fun t => .v d (t.rv a.toNat ^^^ imm.signExtend 32)
  | .ishlI _ d a n => some fun t => .v d (t.rv a.toNat <<< n.toNat)
  | .ishrI _ d a n => some fun t => .v d (t.rv a.toNat >>> n.toNat)
  | .isarI _ d a n => some fun t => .v d ((t.rv a.toNat).sshiftRight n.toNat)
  | .irotI _ d a n => some fun t => .v d ((t.rv a.toNat).rotateLeft (n.toNat % 32))
  | .bfxI _ signed len pos d a => some fun t => .v d (bitExtract signed (t.rv a.toNat) pos.toNat (min len.toNat 32))
  | .bfiI _ len pos d a => some fun t => .v d (bitInsert (t.rv d.toNat) (t.rv a.toNat) pos.toNat (min len.toNat 32))
  | .prmtI _ d a sel => some fun t => .v d (permute (t.rv a.toNat) (t.rv d.toNat) (prmtControls sel))
  | .leaI _ d a off => some fun t => .v64 d (t.rv64 a.toNat + off.signExtend 64)
  | .movi _ w d imm => some fun _ => either w d (imm.setWidth 32) (imm.signExtend 64)
  | _ => none

/-! ### Predicates, masks as values, specials (R100, R127, R128) -/

/-- The lane mask that a register of a thread's cohort holds. -/
def maskOfCohort (s : State) (u : Tid) (r : MReg) : Word :=
  match s.cohort? u.core u.slot u.access u.cohort with
  | some k => k.rm r.toNat
  | none => 0

/-- The specials of R100. -/
def specialOf (tm : Team) (u : Tid) : Special → Nat
  | .tid => 32 * u.cohort + u.lane
  | .laneid => u.lane
  | .cohort => u.cohort
  | .team => tm.index
  | .grid => tm.grid
  | .core => u.core
  | .cluster => u.core / 4
  | .quad => u.core / 16
  | .depth => tm.depth
  | .vf => tm.vf

/-- The predicate words, and the words that read lane masks and specials. -/
def predResult (s : State) (u : Tid) : Instr → Option (Thread → Res)
  | .pand _ na nb d a b => some fun t => .p d ((t.rp a.toNat ^^ na) && (t.rp b.toNat ^^ nb))
  | .por _ na nb d a b => some fun t => .p d ((t.rp a.toNat ^^ na) || (t.rp b.toNat ^^ nb))
  | .pxor _ na nb d a b => some fun t => .p d (((t.rp a.toNat ^^ na)) ^^ (t.rp b.toNat ^^ nb))
  | .pnot _ d a => some fun t => .p d (!t.rp a.toNat)
  | .pmov _ d a => some fun t => .p d (t.rp a.toNat)
  | .psetm _ inv d a => some fun _ => .p d ((maskOfCohort s u a).getLsbD u.lane ^^ inv)
  | .mget _ lt d a => some fun _ =>
    .v d (if lt then maskOfCohort s u a &&& BitVec.ofNat 32 (2 ^ u.lane - 1) else maskOfCohort s u a)
  | .srd _ d sp => s.gangTeam.map fun tm _ => .v d (BitVec.ofNat 32 (specialOf tm u sp))
  | _ => none

/-! ### Floating point on the F pipe (R159 to R165, R168, R170) -/

/-- A code with its flags in one register. -/
def code (d : VReg) (x : Nat × BitVec 6) : Res := .vf d (BitVec.ofNat 32 x.1, x.2)

/-- Both elements of a packed register by one operation. -/
def halves (op : Nat → Nat → Nat × BitVec 6) (a b : Word) : Nat × BitVec 6 :=
  let lo := op (a.toNat % 2 ^ 16) (b.toNat % 2 ^ 16)
  let hi := op (a.toNat / 2 ^ 16) (b.toNat / 2 ^ 16)
  (hi.1 * 2 ^ 16 + lo.1, lo.2 ||| hi.2)

/-- The operand of fcmp or fclass as a code of its format. -/
def operandOf (ty : FTy) (t : Thread) (r : VReg) : Nat :=
  match ty with
  | .f64 => (t.rv64 r.toNat).toNat
  | .f32 => (t.rv r.toNat).toNat
  | .f16 | .bf16 => (t.rv r.toNat).toNat % 2 ^ 16

/-- The words of the F pipe: one rounding of the exact result, by the rounding functions of spec/07. -/
def floatResult : Instr → Option (Thread → Res)
  | .fadd _ rnd ftz d a b => some fun t => code d (fpAdd fmtF32 rnd ftz (t.rv a.toNat).toNat (t.rv b.toNat).toNat)
  | .fsub _ rnd ftz d a b => some fun t => code d (fpSub fmtF32 rnd ftz (t.rv a.toNat).toNat (t.rv b.toNat).toNat)
  | .fmul _ rnd ftz d a b => some fun t => code d (fpMul fmtF32 rnd ftz (t.rv a.toNat).toNat (t.rv b.toNat).toNat)
  | .ffma _ rnd ftz d a b c => some fun t =>
    code d (fpFma fmtF32 rnd ftz (t.rv a.toNat).toNat (t.rv b.toNat).toNat (t.rv c.toNat).toNat)
  | .fmin _ ftz d a b => some fun t => code d (fpPick fmtF32 false ftz (t.rv a.toNat).toNat (t.rv b.toNat).toNat)
  | .fmax _ ftz d a b => some fun t => code d (fpPick fmtF32 true ftz (t.rv a.toNat).toNat (t.rv b.toNat).toNat)
  | .fcmp _ cond ty ftz d a b => some fun t =>
    let f := tyFmt ty
    let x := operandOf ty t a
    let y := operandOf ty t b
    { Res.p d (fpCond cond (f.operand ftz x) (f.operand ftz y)) with
      flags := if f.snan x || f.snan y then flagInvalid else 0 }
  | .fsel _ w d a b c => some fun t =>
    if t.rp c.toNat then either w d (t.rv a.toNat) (t.rv64 a.toNat) else either w d (t.rv b.toNat) (t.rv64 b.toNat)
  | .frnd _ rnd ftz d a => some fun t => code d (fpIntegral fmtF32 rnd ftz (t.rv a.toNat).toNat)
  | .fclass _ ty set d a => some fun t => .p d (set.getLsbD (fpClass (tyFmt ty) (operandOf ty t a)))
  | .xins _ rnd ftz d a b => some fun t => code d (fpScale fmtF32 rnd ftz (t.rv a.toNat).toNat (t.rv b.toNat).toInt)
  | .xget _ man d a => some fun t =>
    if man then code d (fpSignificand (t.rv a.toNat).toNat) else .vf d (fpExponent (t.rv a.toNat).toNat)
  | .hadd2 _ bf rnd d a b => some fun t =>
    code d (halves (fpAdd (if bf then fmtBf16 else fmtF16) rnd false) (t.rv a.toNat) (t.rv b.toNat))
  | .hmul2 _ bf rnd d a b => some fun t =>
    code d (halves (fpMul (if bf then fmtBf16 else fmtF16) rnd false) (t.rv a.toNat) (t.rv b.toNat))
  | .hfma2 _ bf rnd d a b c => some fun t =>
    let f := if bf then fmtBf16 else fmtF16
    let z := (t.rv c.toNat).toNat
    let lo := fpFma f rnd false ((t.rv a.toNat).toNat % 2 ^ 16) ((t.rv b.toNat).toNat % 2 ^ 16) (z % 2 ^ 16)
    let hi := fpFma f rnd false ((t.rv a.toNat).toNat / 2 ^ 16) ((t.rv b.toNat).toNat / 2 ^ 16) (z / 2 ^ 16)
    code d (hi.1 * 2 ^ 16 + lo.1, lo.2 ||| hi.2)
  | .faddI _ d a imm => some fun t => code d (fpAdd fmtF32 .rn false (t.rv a.toNat).toNat (imm.toNat * 2 ^ 12))
  | .fmulI _ d a imm => some fun t => code d (fpMul fmtF32 .rn false (t.rv a.toNat).toNat (imm.toNat * 2 ^ 12))
  | .fminI _ d a imm => some fun t => code d (fpPick fmtF32 false false (t.rv a.toNat).toNat (imm.toNat * 2 ^ 12))
  | .fmaxI _ d a imm => some fun t => code d (fpPick fmtF32 true false (t.rv a.toNat).toNat (imm.toNat * 2 ^ 12))
  | .cvt _ dst src rnd sat ftz d a => some fun t =>
    let r := cvtValue dst src rnd sat ftz (if src.width = 64 then (t.rv64 a.toNat).toNat else (t.rv a.toNat).toNat)
    { either (dst.width == 64) d (r.1.setWidth 32) r.1 with flags := r.2 }
  | _ => none

/-- The latency of a half of a paired word: 2 cycles on the I pipe, 4 on the F pipe (R55). -/
def halfTime (h : Half) : Nat := if h.sop.integer then 2 else 4

/-! ### Functions, FP64 and quantisation on the X pipe (R166 to R172) -/

/-- One function of one .f32 operand, rounded once, with the flags of both. -/
def functionCode (g : Val → Val × BitVec 6) (rnd : Rnd) (ftz : Bool) (a : Word) : List Word × BitVec 6 :=
  let x := g (fmtF32.operand ftz a.toNat)
  let r := fpDeliver fmtF32 (rnd5 rnd) ftz (fmtF32.snan a.toNat) x.1
  ([BitVec.ofNat 32 r.1], r.2 ||| x.2)

/-- A 64-bit code in two registers, the low half first. -/
def pairCode (x : Nat × BitVec 6) : List Word × BitVec 6 :=
  ([(BitVec.ofNat 64 x.1).extractLsb' 0 32, (BitVec.ofNat 64 x.1).extractLsb' 32 32], x.2)

/-- The words of the X pipe: destination registers in order, and flags. -/
def functionResult : Instr → Option (Thread → List Word × BitVec 6)
  | .frcp _ rnd ftz _ a => some fun t => functionCode fnRcp rnd ftz (t.rv a.toNat)
  | .frsq _ ftz _ a => some fun t => functionCode fnRsq .rn ftz (t.rv a.toNat)
  | .fsqrt _ rnd ftz _ a => some fun t => functionCode fnSqrt rnd ftz (t.rv a.toNat)
  | .fexp2 _ ftz _ a => some fun t => functionCode fnExp2 .rn ftz (t.rv a.toNat)
  | .flog2 _ ftz _ a => some fun t => functionCode fnLog2 .rn ftz (t.rv a.toNat)
  | .fsinp _ ftz _ a => some fun t => functionCode fnSinPi .rn ftz (t.rv a.toNat)
  | .fcosp _ ftz _ a => some fun t => functionCode fnCosPi .rn ftz (t.rv a.toNat)
  | .dadd _ rnd _ a b => some fun t => pairCode (fpAdd fmtF64 rnd false (t.rv64 a.toNat).toNat (t.rv64 b.toNat).toNat)
  | .dmul _ rnd _ a b => some fun t => pairCode (fpMul fmtF64 rnd false (t.rv64 a.toNat).toNat (t.rv64 b.toNat).toNat)
  | .dfma _ rnd _ a b c => some fun t =>
    pairCode (fpFma fmtF64 rnd false (t.rv64 a.toNat).toNat (t.rv64 b.toNat).toNat (t.rv64 c.toNat).toNat)
  | .qcvt _ dst src rnd sat _ a b => some fun t =>
    ([(qcvtValue dst src rnd sat (t.rv a.toNat) (t.rv b.toNat)).1], (qcvtValue dst src rnd sat (t.rv a.toNat) (t.rv b.toNat)).2)
  | .dqcvt _ dst src rnd sat _ a b => some fun t =>
    ([(dqcvtValue dst src rnd sat (t.rv a.toNat) (t.rv b.toNat)).1],
      (dqcvtValue dst src rnd sat (t.rv a.toNat) (t.rv b.toNat)).2)
  | _ => none

/-- The tag that a word names in a thread holds a result that is known, for the word's destinations. -/
def promises (s : State) (i : Instr) (u : Tid) (r : Late) : Prop :=
  ∃ y, s.thread? u = some y ∧ ∀ n, i.tag? = some n →
    ∃ g, FMap.find? y.tags n = some g ∧ g.stage = .performed r ∧ g.dests = i.dests ∧ g.pdest = i.predDest

/-! ### Collectives (R122 to R126) -/

/-- The lane from which a lane reads, if that is a lane of the cohort (R124). -/
def sourceLane (mode : ShflMode) (l : Nat) (b : Word) : Option Nat :=
  match mode with
  | .from => some (b.toNat % 32)
  | .shift => if 0 ≤ (l : Int) - b.toInt ∧ (l : Int) - b.toInt < 32 then some ((l : Int) - b.toInt).toNat else none
  | .rot => some ((l + 32 - b.toNat % 32) % 32)
  | .swap => some (l ^^^ (b.toNat % 32))

/-- What a lane receives: its source's register where the source is in the mask, else its own. -/
def received (all : List (Nat × Thread)) (src : Option Nat) (a : VReg) (t : Thread) : Word :=
  match src.bind fun k => all.find? fun e => e.1 == k with
  | some e => e.2.rv a.toNat
  | none => t.rv a.toNat

/-- One step of a reduction, and its identity (R126). -/
def reduceWith : CredOp → (Word → Word → Word) × Word
  | .addS => (fun x y => x + y, 0)
  | .minS => (fun x y => if y.toInt < x.toInt then y else x, 0x7FFFFFFF)
  | .minN => (fun x y => if y.toNat < x.toNat then y else x, 0xFFFFFFFF)
  | .maxS => (fun x y => if x.toInt < y.toInt then y else x, 0x80000000)
  | .maxN => (fun x y => if x.toNat < y.toNat then y else x, 0)
  | .andN => (fun x y => x &&& y, 0xFFFFFFFF)
  | .orN => (fun x y => x ||| y, 0)
  | .xorN => (fun x y => x ^^^ y, 0)

/-- The collectives on registers and predicates: from the threads of the mask by lane, the lane and the
thread. -/
def collectiveResult : Instr → Option (List (Nat × Thread) → Nat → Thread → Res)
  | .shfl _ mode d a b _ => some fun all l t => .v d (received all (sourceLane mode l (t.rv b.toNat)) a t)
  | .shflI _ mode n _ d a => some fun all l t =>
    .v d (received all (sourceLane mode l (if mode == .shift then n.signExtend 32 else n.setWidth 32)) a t)
  | .vote _ kind inv d a _ => some fun all _ _ =>
    let yes := all.filter fun e => e.2.rp a.toNat ^^ inv
    match kind with
    | .every => .p (d.setWidth 6) (yes.length == all.length)
    | .some => .p (d.setWidth 6) (0 < yes.length)
    | .same => .p (d.setWidth 6) (yes.length == 0 || yes.length == all.length)
    | .mask => .v d (yes.foldl (fun m e => m ||| 1#32 <<< e.1) 0)
    | .count => .v d (BitVec.ofNat 32 yes.length)
    | .first => .v d (BitVec.ofNat 32 (match yes with | e :: _ => e.1 | [] => 32))
  | .cred _ op d a _ => some fun all _ _ =>
    .v d ((all.map fun e => e.2.rv a.toNat).foldl (reduceWith op).1 (reduceWith op).2)
  | _ => none

/-! ### Lane-mask words (R128, R135) -/

/-- The guard-true lanes of a cohort that pass a test, as a mask. -/
def lanesWhere (s : State) (i : Instr) (c : Nat) (test : Thread → Bool) : LaneMask :=
  ((s.control i).active i).foldl (fun m u =>
    if u.cohort == c && (((s.control i).thread? u).map test).getD false then m ||| 1#32 <<< u.lane else m) 0

/-- The mask register written, the bits written and their values. -/
def maskResult (s : State) (k : Cohort) (c : Nat) (i : Instr) : Option (MReg × LaneMask × Word) :=
  let lanes := lanesWhere s i c fun _ => true
  match i with
  | .mfromp _ mode d a =>
    let yes := lanesWhere s i c fun t => t.rp a.toNat
    some (match mode with
      | .set => (d, lanes, yes)
      | .or => (d, yes, yes)
      | .andn => (d, yes, 0))
  | .mset _ op d a b =>
    some (d, BitVec.allOnes 32, match op with
      | .mov => k.rm a.toNat
      | .and => k.rm a.toNat &&& k.rm b.toNat
      | .or => k.rm a.toNat ||| k.rm b.toNat
      | .xor => k.rm a.toNat ^^^ k.rm b.toNat
      | .andn => k.rm a.toNat &&& ~~~k.rm b.toNat
      | .gang => lanes)
  | .mjoin _ d => some (d, lanes, lanes)
  | .mleave _ d => some (d, lanes, 0)
  | _ => none

/-! ### One thread alone -/

/-- A word that one thread runs lane by lane: it may issue, its thread runs it alone with these operands. -/
def runsAlone (s : State) (i : Instr) (u : Tid) (x : Thread) (ops : LaneOps) : Prop :=
  s.mayIssue i = true ∧ s.runs i u x ∧ s.alone i u ops

/-- The thread stands where it stood, with the same registers, tags and results on their way. -/
def asBefore (x y : Thread) : Prop :=
  y.pc = x.pc ∧ y.v = x.v ∧ y.p = x.p ∧ y.tags = x.tags ∧ y.pend = x.pend ∧ y.sp = x.sp ∧ y.landing = x.landing

/-- A word that one thread runs. -/
def runsSole (s : State) (i : Instr) (u : Tid) (x : Thread) : Prop :=
  s.mayIssue i = true ∧ s.runs i u x ∧ (s.control i).active i = [u]

/-- What a control word of one thread comes to: its lane's new state, or a precise event, for which the word has no
effect and its thread parks at the word under a record of that kind, Detail and Address (R132, R321). -/
def controlEnd (s : State) (i : Instr) (u : Tid) (x0 : Thread) : Except (Nat × DWord × DWord) State → Prop
  | .ok s2 => exec i s = .next (s2.flowEnd i)
  | .error (k, d, a) => ∃ s' y, exec i s = .next s' ∧ s'.thread? u = some y ∧ y.parked = true ∧ asBefore x0 y ∧
      ∀ tm, s.gangTeam = some tm → ∃ r ∈ (s'.partition tm.partition).queue, r.kind = k ∧ r.detail = d ∧ r.address = a ∧
        r.opcode = i.opcode ∧ r.cohort = u.cohort ∧ r.lanes.getLsbD u.lane = true ∧ r.seq ∈ y.events

/-! ### Memory words (R262 to R265) -/

/-- The registers that an access size loads from its bytes (R262). -/
def loaded (sz : MSize) (bs : List Byte) : List Word :=
  let v := natLE bs
  match sz with
  | .n8 | .n16 | .n32 => [BitVec.ofNat 32 v]
  | .s8 => [(BitVec.ofNat 8 v).signExtend 32]
  | .s16 => [(BitVec.ofNat 16 v).signExtend 32]
  | .n64 => [BitVec.ofNat 32 (natLE (bs.take 4)), BitVec.ofNat 32 (natLE ((bs.drop 4).take 4))]
  | .n128 => [BitVec.ofNat 32 (natLE (bs.take 4)), BitVec.ofNat 32 (natLE ((bs.drop 4).take 4)),
      BitVec.ofNat 32 (natLE ((bs.drop 8).take 4)), BitVec.ofNat 32 (natLE ((bs.drop 12).take 4))]

/-- The bytes that an access size stores, from register `d` on (R262). -/
def stored (sz : MSize) (x : Thread) (d : VReg) : List Byte :=
  let w := fun k => bytesLE 4 (x.rv (d.toNat + k)).toNat
  match sz with
  | .n8 | .s8 => (w 0).take 1
  | .n16 | .s16 => (w 0).take 2
  | .n32 => w 0
  | .n64 => w 0 ++ w 1
  | .n128 => w 0 ++ w 1 ++ w 2 ++ w 3

/-- The address of a load or a store: a base pair and an offset scaled by the size (R262). -/
def addressOf (s : State) (x : Thread) : Instr → DWord
  | .ld _ sz _ _ a off | .st _ sz _ _ a off => x.rv64 a.toNat + off.signExtend 64 * BitVec.ofNat 64 sz.bytes
  | .ldg _ sz _ _ k b | .stg _ sz _ _ k b => s.gangK k + (x.rv b.toNat).signExtend 64 * BitVec.ofNat 64 sz.bytes
  | _ => 0

/-- Size and qualifier of a load. -/
def loadForm : Instr → Option (MSize × Mq)
  | .ld _ sz q _ _ _ | .ldg _ sz q _ _ _ => some (sz, q)
  | _ => none

/-- Size, qualifier and data register of a store. -/
def storeForm : Instr → Option (MSize × Mq × VReg)
  | .st _ sz q d _ _ | .stg _ sz q d _ _ => some (sz, q, d)
  | _ => none

/-- Operation, type, qualifier, whether the old value returns, address and operand registers of an atomic word. -/
def atomicForm : Instr → Option (RmwOp × AtomTy × Mq × Bool × VReg × VReg)
  | .atomAdd _ ty q _ a b => some (.add, ty, q, true, a, b)
  | .atomSub _ ty q _ a b => some (.sub, ty, q, true, a, b)
  | .atomMin _ ty q _ a b => some (.min, ty, q, true, a, b)
  | .atomMax _ ty q _ a b => some (.max, ty, q, true, a, b)
  | .atomAnd _ ty q _ a b => some (.and, ty, q, true, a, b)
  | .atomOr _ ty q _ a b => some (.or, ty, q, true, a, b)
  | .atomXor _ ty q _ a b => some (.xor, ty, q, true, a, b)
  | .atomExch _ ty q _ a b => some (.exch, ty, q, true, a, b)
  | .atomCas _ ty q _ a b => some (.cas, ty, q, true, a, b)
  | .redAdd _ ty q a b => some (.add, ty, q, false, a, b)
  | .redSub _ ty q a b => some (.sub, ty, q, false, a, b)
  | .redMin _ ty q a b => some (.min, ty, q, false, a, b)
  | .redMax _ ty q a b => some (.max, ty, q, false, a, b)
  | .redAnd _ ty q a b => some (.and, ty, q, false, a, b)
  | .redOr _ ty q a b => some (.or, ty, q, false, a, b)
  | .redXor _ ty q a b => some (.xor, ty, q, false, a, b)
  | _ => none

/-- Bytes of an atomic's type. -/
def typeBytes (ty : AtomTy) : Nat := if ty.wide then 8 else 4

/-- The new value of a location of `w` bits (R265). -/
def combineInt (w : Nat) (sg : Sgn) (op : RmwOp) (old b b2 : Nat) : Nat :=
  let less := fun x y => valueOf sg (BitVec.ofNat w x) < valueOf sg (BitVec.ofNat w y)
  match op with
  | .add => (old + b) % 2 ^ w
  | .sub => (old + 2 ^ w - b) % 2 ^ w
  | .min => if less b old then b else old
  | .max => if less old b then b else old
  | .and => old &&& b
  | .or => old ||| b
  | .xor => old ^^^ b
  | .exch => b
  | .cas => if old = b then b2 else old

/-- The new value of a location (R265). -/
def combined (op : RmwOp) (ty : AtomTy) (old b b2 : Nat) : Nat :=
  match ty with
  | .s32 => combineInt 32 .s op old b b2
  | .n32 => combineInt 32 .n op old b b2
  | .s64 => combineInt 64 .s op old b b2
  | .n64 => combineInt 64 .n op old b b2
  | .f32 =>
    match op with
    | .min => (fpPick fmtF32 false false old b).1
    | .max => (fpPick fmtF32 true false old b).1
    | _ => (fpAdd fmtF32 .rn false old b).1

/-- Operand b of an atomic, and b2 of cas behind it. -/
def atomicOperands (ty : AtomTy) (x : Thread) (b : VReg) : Nat × Nat :=
  if ty.wide then ((x.rv64 b.toNat).toNat, (x.rv64 (b.toNat + 2)).toNat)
  else ((x.rv b.toNat).toNat, (x.rv (b.toNat + 1)).toNat)

/-- The operands that an atomic captures. -/
def atomicOps (op : RmwOp) (ty : AtomTy) (x : Thread) (a b : VReg) : LaneOps :=
  ⟨x.rv64 a.toNat, 0, 0, x.group b.toNat ((if ty.wide then 2 else 1) * (if op == .cas then 2 else 1))⟩

/-- The old value as registers, where it returns. -/
def oldRegs (ty : AtomTy) (returns : Bool) (bs : List Byte) : Late :=
  ⟨if returns then loaded (if ty.wide then .n64 else .n32) bs else [], 0, none⟩

/-- Nothing a result carries. -/
def bare : Late := ⟨[], 0, none⟩

/-- What a read of `n` bytes by one lane comes to (R259, R262, R263): an event of its checks, a wait for an empty granule,
bytes of a bank or of memory for the word's tag, a poisoned line, an outstanding publish; a load that no cache can serve
waits for the sweeper (R206). -/
def readOut (s : State) (u : Tid) (n : Nat) (q : Mq) (a : DWord) (f : List Byte → List Word) : LaneOut :=
  match s.check u (Acc.load n q.fe) a with
  | (.event k d e, s2) => .event k d e s2
  | (.waits cl line, s2) => .wait (.granule cl line) true s2
  | (.scratch cl off _, s2) =>
    match s2.readScr u (s2.vfOf u) cl off n q with
    | .bytes bs s3 => .done ⟨f bs, 0, none⟩ s3
    | .publish line s3 => .wait (.publish line) false s3
    | .poison s3 => .event 0x1E (clusterAddress cl off) a s3
  | (.mem g va, s2) =>
    if s2.fillWaits u g q then .wait .flight false s2
    else match s2.readMem u g n q with
      | .bytes bs s3 => .done ⟨f bs, 0, none⟩ s3
      | .publish line s3 => .wait (.publish line) false s3
      | .poison s3 => .event 0x1E (s3.poisonAt g.phys n) (BitVec.ofNat 64 va) s3

/-- What a write of bytes by one lane comes to (R259, R262, R263): an event of its checks, bytes at their bank, or on their
way to their home, where a release of device scope holds the tag until it is performed. -/
def writeOut (s : State) (u : Tid) (bs : List Byte) (q : Mq) (tag : Option Nat) (a : DWord) : LaneOut :=
  match s.check u (Acc.store bs.length q.fe) a with
  | (.event k d e, s2) => .event k d e s2
  | (.waits cl line, s2) => .wait (.granule cl line) true s2
  | (.scratch cl off _, s2) => .done ⟨[], 0, none⟩ ((s2.writeScr u (s2.vfOf u) cl off bs q).serve cl off)
  | (.mem g _, s2) =>
    let r := s2.writeMem u g bs q tag
    if r.1 then .done ⟨[], 0, none⟩ r.2 else .later r.2

/-- What an atomic word comes to for one lane (R259, R264, R265): an event of its checks, a bank's location combined in one
step, or the step at the home. -/
def rmwOut (s : State) (u : Tid) (op : RmwOp) (ty : AtomTy) (q : Mq) (returns : Bool) (x : Thread) (a b : VReg) : LaneOut :=
  let n := typeBytes ty
  match s.check u (Acc.rmw n returns) (x.rv64 a.toNat) with
  | (.event k d e, s2) => .event k d e s2
  | (.waits cl line, s2) => .wait (.granule cl line) true s2
  | (.mem g va, s2) => s2.rmwMem u op ty q returns g va (atomicOps op ty x a b)
  | (.scratch cl off _, s2) =>
    match s2.readScr u (s2.vfOf u) cl off n q with
    | .publish line s3 => .wait (.publish line) false s3
    | .poison s3 => .done ⟨[], 0, none⟩ s3
    | .bytes bs s3 =>
      let (y, y2) := atomicOperands ty x b
      let s4 := s3.writeScr u (s2.vfOf u) cl off (bytesLE n (combined op ty (natLE bs) y y2)) q
      let handed := (s2.scratchByteAuthors cl off n).foldl (fun m e => FMap.put m e.1 e.2) s4.scratchAuthors
      let s5 := if releaseScope q = none then { s4 with scratchAuthors := handed } else s4
      .done (oldRegs ty returns bs) (if op = .cas ∧ natLE bs ≠ y then s3 else s5.serve cl off)

/-- What poison comes to for one lane (R218, R259, R273). -/
def poisonOut (s : State) (u : Tid) (a : DWord) : LaneOut :=
  match s.check u ⟨1, false, false, true, .none, true⟩ a with
  | (.event k d e, s2) => .event k d e s2
  | (.waits cl line, s2) => .wait (.granule cl line) true s2
  | (.scratch cl off _, s2) => .done ⟨[], 0, none⟩ (s2.setScr cl off { s2.scrLine cl off with poison := true })
  | (.mem g _, s2) =>
    .done ⟨[], 0, none⟩ (((s2.drain fun f => f.core == u.core && overlaps f.phys f.bytes.length (g.phys / 64 * 64) 64).forgetLine
      u.core g).poisonLine (g.phys / 64))

/-- What sfree comes to for one lane (R271): an address that starts no live allocation of its team in its own cluster, or
a range of one that a lock covers, leaves it unfinished; else the allocation is freed. -/
def sfreeOut (s : State) (u : Tid) (a : DWord) : LaneOut :=
  match s.region u a with
  | .bad => .event 0x14 0 a s
  | .translated va => .event 0x17 0 (BitVec.ofNat 64 va) s
  | .scratch cl off _ =>
    match (s.teamOf u).bind fun tm => if cl = u.core / 4 then tm.allocs.find? (fun e => e.off == off) else none with
    | none => .event 0x17 0 a s
    | some al =>
      if s.lockedScr cl cl al.off al.bytes false || s.lockedScr cl cl al.off al.bytes true then .event 0x1A 0 a s
      else .done ⟨[], 0, none⟩ (s.freeAlloc u al)

/-- What srenew of `n` bytes comes to for one lane (R272): the lines of a range in an allocation are stamped, and where
one is stale the lane is left unfinished. -/
def srenewOut (s : State) (u : Tid) (a : DWord) (n : Nat) : LaneOut :=
  if n = 0 then .done ⟨[], 0, none⟩ s
  else match s.region u a with
    | .bad => .event 0x14 0 a s
    | .translated va => .event 0x17 0 (BitVec.ofNat 64 va) s
    | .scratch cl off _ =>
      if (s.allocOf u.core u.slot cl off n).isNone then .event 0x17 0 a s
      else
        let r := s.renewLines u.core cl ((List.range ((off + n + 511) / 512 - off / 512)).map fun i => (off / 512 + i) * 512)
        if r.2 then .event 0x1B 0 a r.1 else .done ⟨[], 0, none⟩ r.1

/-- What accld comes to for one lane (R187): the bytes of its row are read, and the row joins the transfer of its word at
the sector's queue. -/
def accldOut (s : State) (i : Instr) (u : Tid) (fmt : AccFmt) (q : Mq) (tile : Nat) (a : DWord) : LaneOut :=
  if s.rowRoom u i tile then
    match readOut s u (if fmt = .f32 then 128 else 64) q a (accWiden fmt) with
    | .done r s3 => .later (s3.addRow u i tile r.regs)
    | o => o
  else .wait .flight false s

/-- The end of an accld with its one lane: a transfer that no row has joined leaves the queue, and a row performed after
its issue, one left unfinished and one that waits follow in the same way as any lane. -/
def accldEnd (s s2 : State) (i : Instr) (u : Tid) (ops : LaneOps) (out : LaneOut) : State :=
  let ends := fun t : State => t.dropEmptyLoad s.gang.core s.sectorOfGang
  match out with
  | .event k d e s3 => s.logged (ends s3) i u ops k d e
  | .done _ s3 | .later s3 =>
    if s2.flying u i then (ends (s2.addWait u i ops s.gang.pc (s.wordAge u) .flight false)).flowEnd i else (ends s3).flowEnd i
  | .wait c held s3 =>
    if s2.flying u i then (ends (s2.addWait u i ops s.gang.pc (s.wordAge u) .flight false)).flowEnd i
    else (ends (s3.addWait u i ops s.gang.pc (s.wordAge u) c held)).flowEnd i

/-- What accst comes to for one lane (R188, R222): its row goes to its bank in parts of 16 bytes, or on its way to its
home. -/
def accstOut (s : State) (u : Tid) (bs : List Byte) (q : Mq) (tag : Option Nat) (a : DWord) : LaneOut :=
  match s.check u (Acc.store bs.length q.fe) a with
  | (.event k d e, s2) => .event k d e s2
  | (.waits cl line, s2) => .wait (.granule cl line) true s2
  | (.scratch cl off _, s2) =>
    .done ⟨[], 0, none⟩ ((List.range (bs.length / 16)).foldl (fun t k =>
      (t.writeScr u (t.vfOf u) cl (off + 16 * k) ((bs.drop (16 * k)).take 16) q).serve cl (off + 16 * k)) s2)
  | (.mem g _, s2) =>
    let r := s2.writeMem u g bs q tag
    if r.1 then .done ⟨[], 0, none⟩ r.2 else .later r.2

/-- The end of an accst with its one lane, whose word stands in the queue of its sector in state `s2`. -/
def accstEnd (s s2 : State) (i : Instr) (u : Tid) (ops : LaneOps) (out : LaneOut) : State :=
  match out with
  | .event k d e s3 => s.logged s3 i u ops k d e
  | .done r s3 => if s2.flying u i then s.waiting s2 i u ops .flight false else s3.over i u r
  | .later s3 => if s2.flying u i then s.waiting s2 i u ops .flight false else s3.flowEnd i
  | .wait c held s3 => if s2.flying u i then s.waiting s2 i u ops .flight false else s.waiting s3 i u ops c held

/-- What fpush comes to for one lane (R48, R313, R314): without the FIFO the fifo-mode event; behind a cluster-scope release
its registers are appended, or it waits behind other pushes and at a full FIFO. -/
def fpushOut (s : State) (u : Tid) (n : Nat) (data : List Word) : LaneOut :=
  let cl := u.core / 4
  let vf := s.vfOf u
  let s2 := s.fifoRelease u
  if (s.fifo? cl n vf).isNone then .event 0x1D 0 0 s
  else match s2.fifo? cl n vf with
    | none => .done ⟨[], 0, none⟩ s2
    | some f =>
      if (s2.fifoWaits cl n).any (fun w => w.2.cause == .fifo cl n true) || decide (8192 ≤ f.entries.length) then
        .wait (.fifo cl n true) false s2
      else .done ⟨[], 0, none⟩
        ((s2.setFifo cl n { f with entries := f.entries ++ [⟨data, s2.pkg.clk, s2.us⟩] }).fifoMoved cl n vf)

/-- What fpop comes to for one lane (R207, R313, R314): without the FIFO the fifo-mode event; the oldest entry behind a
cluster-scope cache action, or scratch-expired where it is stale; behind other pops, and at an empty FIFO, it waits. -/
def fpopOut (s : State) (u : Tid) (n : Nat) : LaneOut :=
  let cl := u.core / 4
  let vf := s.vfOf u
  match s.fifo? cl n vf with
  | none => .event 0x1D 0 0 s
  | some f =>
    match f.entries with
    | [] => .wait (.fifo cl n false) false s
    | e :: rest =>
      let s2 := s.setFifo cl n { f with entries := rest }
      if (s.fifoWaits cl n).any (fun w => w.2.cause == .fifo cl n false) then .wait (.fifo cl n false) false s
      else if s2.fifoStale cl e then .event 0x1B 0 0 (s2.fifoMoved cl n vf)
      else .done ⟨e.data, 0, none⟩ ((s2.cacheAction u.core vf .cluster).fifoMoved cl n vf)

/-- What wpost comes to for one lane (R302): behind the release of its thread's accesses 64 bytes are read and sent to a
port, whose acknowledgement it waits for; a roster entry that refuses is the roster event. -/
def wpostOut (s : State) (u : Tid) (ops : LaneOps) (b : Word) : LaneOut :=
  let port := b.toNat % 256
  let roster := b.toNat / 256 % 256
  (s.outward u).gatherBytes u ops.a 64 64 fun bs s2 =>
    match s2.sendFail (s2.vfOf u) roster with
    | none => .wait (.ack s2.messageNext) false (s2.send u ops roster 0 port 0 bs).2
    | some why => .event 0x1C (BitVec.ofNat 64 (why * 256 + roster)) (s2.dataAddress u ops.a) s2

/-- What msend comes to for one lane (R303): the checks of its operands first, then its payload is sent to its
destination. -/
def msendOut (s : State) (u : Tid) (kind : MsendKind) (ops : LaneOps) (c : Word) : LaneOut :=
  let roster := c.toNat / 2 ^ 24
  let sent := fun bs (s2 : State) =>
    LaneOut.wait (.ack s2.messageNext) false (s2.send u ops roster (msendNumber kind) 0 ops.b bs).2
  match s.msendFault u kind ops with
  | some (k, d, e) => .event k d e s
  | none =>
    match kind with
    | .c1 => (s.outward u).gatherBytes u ops.a (c.toNat % 2 ^ 17) 16 sent
    | .c2a => sent [] (s.outward u)
    | .c2w | .c3 => sent (bytesLE 8 ops.a.toNat) (s.outward u)

/-- What glaunch comes to for one lane (R305): behind the release of its thread's accesses its block and arguments are
read; a block that breaks its rule, and a launch that is refused, answer 2^31 and a code, else the grid's id does. -/
def glaunchOut (s : State) (u : Tid) (tm : Team) (a : DWord) : LaneOut :=
  (s.outward u).gatherBytes u a 64 64 fun b s2 =>
    if blockBad b then .done ⟨[0x80000001], 0, none⟩ s2
    else s2.gatherBytes u (addressField b 24) (fieldLE b 18 2) 1 fun args s3 =>
      let q := s3.blockQueue tm (fieldLE b 16 2)
      match s3.launchError tm.vf q .glaunch (headOf b args) with
      | some e => .done ⟨[BitVec.ofNat 32 (2 ^ 31 + e)], 0, none⟩ s3
      | none =>
        let r := (s3.outward u).deposit tm.vf q (headOf b args) (some tm.grid) (tm.depth + 1) none
        .done ⟨[BitVec.ofNat 32 r.1], 0, none⟩ r.2

/-- What gwait comes to for one lane (R306). -/
def gwaitOut (s : State) (u : Tid) (tm : Team) (g : Nat) : LaneOut :=
  let grids := (s.vf tm.vf).grids
  match FMap.find? grids g with
  | none => .done ⟨[2], 0, none⟩ s
  | some z =>
    if launchedUnder grids tm.grid g 16 = false then .done ⟨[2], 0, none⟩ s
    else if z.retired then .done ⟨[if z.killed then 1 else 0], 0, none⟩ (s.cacheAction u.core tm.vf .device)
    else .wait (.grid tm.vf g) false s

/-- What kvx comes to for one lane (R359 to R362): a header that breaks its rule is the table event; pages and last answer
from the header; addr answers 0 and false past the length, and else from the array's entry of the position, read at the
array's base plus 16 bytes an entry, where an entry that breaks its rule is the table event. -/
def kvxOut (s : State) (u : Tid) (form : KvxForm) (a : DWord) (pos : Nat) : LaneOut :=
  let answer := fun (v : DWord) (p : Bool) => (⟨[v.extractLsb' 0 32, v.extractLsb' 32 32], 0, some p⟩ : Late)
  s.gatherBytes u a 64 64 fun bs s2 =>
    match seqHeader bs with
    | none => .event 0x19 0 (s2.dataAddress u a) s2
    | some t =>
      match form with
      | .pages => .done (answer (BitVec.ofNat 64 t.pages) (0 < t.length)) s2
      | .last => .done (answer (BitVec.ofNat 64 t.last) (0 < t.length)) s2
      | .addr =>
        if t.length ≤ pos then .done (answer 0 false) s2
        else s2.gatherBytes u (t.array + BitVec.ofNat 64 (16 * t.entryOf pos)) 16 16 fun es s3 =>
          match t.resolve pos es with
          | some r => .done r s3
          | none => .event 0x19 0 (s3.dataAddress u (t.array + BitVec.ofNat 64 (16 * t.entryOf pos))) s3

/-- What gatectl comes to for one lane (R365): a close drops the gate's leaves; an open reads its descriptor, and one that
breaks its rule, an index past 63 or an open gate is the table event, one whose compartments or pages do not fit the
protection event. -/
def gatectlOut (s : State) (u : Tid) (close : Bool) (a : DWord) (idx : Nat) : LaneOut :=
  if close then (if idx ≤ 63 then .done ⟨[], 0, none⟩ (s.gateClose u idx) else .event 0x19 0 0 s)
  else s.gatherBytes u a 32 32 fun bs s2 =>
    let at_ := s2.dataAddress u a
    let vf := s2.vfOf u
    if 63 < idx then .event 0x19 0 at_ s2
    else match gateOf bs with
      | none => .event 0x19 0 at_ s2
      | some g =>
        if ((FMap.find? (s2.vf vf).gates idx).map (·.isOpen)).getD false then .event 0x19 0 at_ s2
        else if g.srcComp ≠ g.userComp ∧ (s2.vf vf).compValid g.srcComp ∧ (s2.vf vf).compValid g.userComp ∧
            s2.pagesAll vf g.base g.len (fun e => leafKind e == 0 && leafComp e == g.srcComp) then
          .done ⟨[], 0, none⟩ (s2.modVf vf fun v => { v with gates := FMap.put v.gates idx g })
        else .event 0x18 0 at_ s2

/-- What winctl comes to for one lane (R366, R367): a close of a closed window is done, that of a ready one starts, and every
other waits for the window's re-key; an open reads its descriptor. -/
def winctlOut (s : State) (u : Tid) (close : Bool) (a : DWord) (idx : Nat) : LaneOut :=
  if close then
    if 1023 < idx then .event 0x19 0 0 s
    else match s.windowState idx with
      | 0 => .done ⟨[], 0, none⟩ s
      | 1 => .wait (.window idx) false (s.modWindow idx fun w => { w with closeNext := true })
      | 2 => .wait (.window idx) false (s.windowClosing idx)
      | _ => .wait (.window idx) false s
  else s.gatherBytes u a 64 64 fun bs s2 =>
    if 1023 < idx then .event 0x19 0 (s2.dataAddress u a) s2 else s2.windowOpen u idx (s2.dataAddress u a) bs

/-- A gather of bytes for a queue or table word reads these bytes and leaves this state. -/
def gathers (s : State) (u : Tid) (a : DWord) (n align : Nat) (bs : List Byte) (s' : State) : Prop :=
  ∀ k, s.gatherBytes u a n align k = k bs s'

/-- A block's pieces are read as these bytes. -/
def readsBlock (s : State) (u : Tid) (q : Mq) (cs : List (Check × Nat)) (bs : List Byte) (s' : State) : Prop :=
  ∀ k, s.readPieces u q [] k cs = k bs (.ok s')

/-- The code of a lane's element in a block (R151, R152): `w` bits from bit `w` times the lane on. -/
def elementCode (w lane : Nat) (bs : List Byte) : Nat := natLE bs / 2 ^ (w * lane) % 2 ^ w

/-- Width and format of the elements of a block with one scale; none for DXB6 (R151, R173). -/
def elementOf : MxFmt → Option (Nat × Fmt)
  | .e4m3 => some (8, fmtE4m3)
  | .e5m2 => some (8, fmtE5m2)
  | .e3m2 => some (6, fmtE3m2)
  | .e2m3 => some (6, fmtE2m3)
  | .e2m1 => some (4, fmtE2m1)
  | .dxb6 => none

/-- What ldmx answers from the bytes of its block (R151 to R153, R174): the element's value rounded to FP32, and the raw
codes, the element's in bits 7:0, the scales above it. -/
def blockAnswer (fmt : MxFmt) (lane : Nat) (bs : List Byte) : Late :=
  match elementOf fmt with
  | some (w, f) =>
    let x := bs.getD (4 * w) 0
    let r := fmtF32.roundTo (mxValue f x (elementCode w lane (bs.take (4 * w)))) .rn false false
    ⟨[BitVec.ofNat 32 r.1, BitVec.ofNat 32 (elementCode w lane (bs.take (4 * w)) + x.toNat * 2 ^ 8)], r.2, none⟩
  | none =>
    let lo := bs.getD 24 0
    let hi := bs.getD 25 0
    let r := fmtF32.roundTo (dxbValue hi lo (elementCode 6 lane (bs.take 24))) .rn false false
    ⟨[BitVec.ofNat 32 r.1,
      BitVec.ofNat 32 (elementCode 6 lane (bs.take 24) + lo.toNat * 2 ^ 8 + hi.toNat * 2 ^ 16)], r.2, none⟩

/-- The block that stmx writes for one lane alone (R174): its element's code, code 0 for every other lane, and its scale
bytes; a DXB6 lane with the NaN mark writes a NaN block. -/
def blockOf (fmt : MxFmt) (lane : Nat) (w : Word) : List Byte :=
  match elementOf fmt with
  | some (n, _) => bytesLE (4 * n) (w.toNat % 2 ^ n * 2 ^ (n * lane)) ++ [w.extractLsb' 8 8]
  | none =>
    if w.getLsbD 6 then List.replicate 24 0 ++ [0xFF, 0xFF]
    else bytesLE 24 (w.toNat % 2 ^ 6 * 2 ^ (6 * lane)) ++ [w.extractLsb' 8 8, w.extractLsb' 16 8]

/-- A piece of a block for which the load has to wait for the sweeper (R206). -/
def pieceWaits (s : State) (u : Tid) (q : Mq) (e : Check × Nat) : Bool :=
  match e.1 with
  | .mem g _ => s.fillWaits u g q
  | _ => false

/-- The copy words: the kind of the command and its descriptor and barrier registers. -/
def copyForm : Instr → Option (Nat × Bool × VReg × VReg)
  | .tcopy _ bar _ a b => some (0, bar, a, b)
  | .tcopyq _ bar _ a b => some (1, bar, a, b)
  | .tmcast _ bar _ a b => some (2, bar, a, b)
  | _ => none

/-- One operation of a tile joins the queue of the gang's sector. -/
def queueTile (s s1 : State) (i : Instr) (op : MauOp) (act : List Tid) : State :=
  s1.mauPush s.gang.core s.sectorOfGang ⟨op, s.gang.slot, s.gang.cohorts, i, act, i.tag?⟩

/-- The barrier words. -/
def barWord : Instr → Option (VReg × VReg)
  | .barInit _ a b | .barArrive _ _ _ _ a b | .barExpect _ a b | .barWait _ _ a b | .barTry _ _ _ a b => some (a, b)
  | .barInval _ a => some (a, a)
  | _ => none

/-- The operands of a barrier word. -/
def barOperands (i : Instr) (x : Thread) (a b : VReg) : LaneOps :=
  match i with
  | .barInval .. => ⟨x.rv64 a.toNat, 0, 0, []⟩
  | _ => ⟨x.rv64 a.toNat, 0, 0, [x.rv b.toNat]⟩

/-- The condition of bar.wait and bar.try (R378): the epoch is past the target, or has reached it. -/
def epochMet (reach : Bool) (epoch : Nat) (target : Word) : Bool :=
  let d := (BitVec.ofNat 32 epoch - target).toInt
  if reach then 0 ≤ d else 0 < d

/-- What a barrier word comes to for one lane (R372 to R380): an event of its checks; else bar.arrive and bar.expect apply
their arrivals and bytes, an arrival answering the epoch before; bar.wait and bar.try test the epoch; bar.init and
bar.inval write the object and its mark. -/
def barOut (s : State) (u : Tid) (i : Instr) (ops : LaneOps) (r : Word) : LaneOut :=
  let vf := s.vfOf u
  match i with
  | .barInit .. => laneBarInit u ops s
  | .barInval .. => laneBarInval u ops s
  | i =>
    match s.checkBar u ops.a false with
    | .error (k, d, e) => .event k d e s
    | .ok (cl, off, scope) =>
      let old := s.barAt cl off
      match i with
      | .barArrive _ leave form _ _ _ =>
        let n := match form with | .one | .pledge => 1 | .many => r.toNat % 65536
        let e := match form with | .pledge => r.toInt | _ => 0
        .done ⟨[BitVec.ofNat 32 old.epoch], 0, none⟩ ((s.releaseSet u.core vf scope false).barApply vf cl off n 0 e leave
          (scopeWider scope (narrowest u.core u.slot (cl * 4) 8)))
      | .barExpect .. => .done ⟨[], 0, none⟩ (s.barApply vf cl off 0 0 r.toInt false scope)
      | .barWait _ reach _ _ =>
        if epochMet reach old.epoch r then .done ⟨[], 0, none⟩ (s.barAcquire u cl off (phaseOf reach r))
        else .wait (.barrier cl off reach r) true s
      | .barTry _ reach _ _ _ =>
        .done ⟨[tryResult old (epochMet reach old.epoch r)], 0, none⟩
          (if epochMet reach old.epoch r then s.tryAcquire u cl off (phaseOf reach r) else s)
      | _ => .done ⟨[], 0, none⟩ s

/-- What a semaphore word comes to for one lane (R381, R382): an index from 4,096 on is the address event; sem.sig adds its
count after a device-scope release; sem.wait takes its count where it stands first and the count allows it, and else
waits in order. -/
def semOut (s : State) (u : Tid) (signal : Bool) (n m : Nat) : LaneOut :=
  let vf := s.vfOf u
  if 4096 ≤ n then .event 0x14 0 0 s
  else if signal then .done ⟨[], 0, none⟩ ((s.releaseSet u.core vf .device false).semAdd vf n m)
  else if (s.semRequests vf n).isEmpty && decide (m ≤ s.sem vf n) then
    .done ⟨[], 0, none⟩ ((s.setSem vf n (s.sem vf n - m)).cacheAction u.core vf .device)
  else .wait (.semaphore vf n m) true s

/-- What sread comes to for one lane (R411 to R413): 8 bytes of the state space, 0 where the VF may not see them; a misaligned
address and one that state read does not accept are its events. -/
def sreadOut (s : State) (u : Tid) (a : DWord) : LaneOut :=
  let t := stateAddr a
  let shown := t.directory || s.stateVisible (s.vfOf u) (s.partitionOf u) t
  let bs := if shown then s.stateBytes t 8 else List.replicate 8 0
  if a.toNat % 8 ≠ 0 then .event 0x15 0 a s
  else if stateBad t 8 then .event 0x14 0 a s
  else .done ⟨[BitVec.ofNat 32 (natLE (bs.take 4)), BitVec.ofNat 32 (natLE (bs.drop 4))], 0, none⟩
    { s with draws := s.draws + 4096 }

/-- What eret at a word comes to for one lane (R320, R414): the wake record at its address is read, as a device-scope acquire,
and goes to the scheduler, and the thread leaves; one that names another VF is the protection event. -/
def eretOut (s : State) (u : Tid) (a : DWord) (pc : Nat) : LaneOut :=
  match readOut s u 16 eretMq a bytesWords with
  | .done r s2 =>
    let w := wakeOf (wordsBytes r.regs)
    if w.vf = s2.vfOf u then .later ((s2.emit (.wakeRecord (s2.partitionOf u) w true)).leaveBy u pc)
    else .event 0x18 0 a s2
  | o => o

end Sys2Proof.Claims

open Sys2Proof Sys2Proof.Machine Sys2Proof.Claims

/-- THE INTEGER WORDS (R111 to R119, R121): in every state in which its gang may issue it, each of them completes, and
2 cycles later every thread whose guard is true shows the result that the rule gives. Where an older result becomes visible
in the same cycle, the later word's value stands (log 24). -/
def Obligations.IntegerResults : Prop :=
  ∀ (i : Instr) (f : Thread → Res) (s : State) (u : Tid) (x : Thread),
    intResult i = some f → s.mayIssue i = true → s.runs i u x →
    ∃ s' y, exec i s = .next s' ∧ s'.thread? u = some y ∧ (y.settle (s.cycle u.core + 2)).shows (f x)

/-- PREDICATE WORDS and the words that read masks and specials: complete, their result visible 2 cycles later, over an older
one of the same cycle (log 24). -/
def Obligations.PredicateResults : Prop :=
  ∀ (i : Instr) (f : Thread → Res) (s : State) (u : Tid) (x : Thread),
    predResult s u i = some f → s.mayIssue i = true → s.runs i u x →
    ∃ s' y, exec i s = .next s' ∧ s'.thread? u = some y ∧ (y.settle (s.cycle u.core + 2)).shows (f x)

/-- THE WORDS OF THE F PIPE: complete, their result and flags visible 4 cycles later, over an older result of the same cycle
(log 24). -/
def Obligations.FloatResults : Prop :=
  ∀ (i : Instr) (f : Thread → Res) (s : State) (u : Tid) (x : Thread),
    floatResult i = some f → s.mayIssue i = true → s.runs i u x →
    ∃ s' y, exec i s = .next s' ∧ s'.thread? u = some y ∧ (y.settle (s.cycle u.core + 4)).shows (f x)

/-- A PAIRED WORD (R66 to R68): both halves are computed from the registers before either writes, and each is
visible after its own latency. Rests on the model's choices of logs 24, 34. -/
def Obligations.PairedResults : Prop :=
  ∀ (c : Ctl) (h0 h1 : Half) (s : State) (u : Tid) (x : Thread),
    s.mayIssue (.pairedWord c h0 h1) = true → s.runs (.pairedWord c h0 h1) u x →
    ∃ s' y, exec (.pairedWord c h0 h1) s = .next s' ∧ s'.thread? u = some y ∧
      ∀ h ∈ [h0, h1], (y.settle (s.cycle u.core + halfTime h)).shows
        (.vf (h.d.setWidth 10) (halfValue h.sop (x.rv h.a.toNat) (x.rv h.b.toNat) (h.b.signExtend 32)))

/-- THE WORDS OF THE X PIPE: complete, the result and its flags on their way to the tag that the word names.
Rests on the model's choices of log 23. -/
def Obligations.FunctionResults : Prop :=
  ∀ (i : Instr) (f : Thread → List Word × BitVec 6) (s : State) (u : Tid) (x : Thread),
    functionResult i = some f → s.mayIssue i = true → s.runs i u x →
    ∃ s', exec i s = .next s' ∧ promises s' i u ⟨(f x).1, (f x).2, none⟩

/-- COLLECTIVES (R122 to R126): a thread whose lane is in the mask receives its result, from the threads of the
mask; a thread of the gang outside the mask receives none. Rests on the model's reading of log 24 where an older result
becomes visible in the same cycle. -/
def Obligations.CollectiveResults : Prop :=
  ∀ (i : Instr) (f : List (Nat × Thread) → Nat → Thread → Res) (s : State) (c : Nat) (u : Tid) (x : Thread),
    collectiveResult i = some f → s.mayIssue i = true → s.gang.cohorts = [c] → s.runs i u x →
    ∃ s' y, exec i s = .next s' ∧ s'.thread? u = some y ∧
      if (s.collectiveMask i c).getLsbD u.lane then
        (y.settle (s.cycle u.core + i.latency)).shows (f ((s.control i).laneThreads c (s.collectiveMask i c)) u.lane x)
      else y.v = x.v ∧ y.p = x.p ∧ y.pend = x.pend

/-- LANE-MASK WORDS (R128, R135): in each cohort with a guard-true lane, 2 cycles later the named register has the
written bits, and its other bits as every older write leaves them. -/
def Sys2Proof.Claims.MaskResults : Prop :=
  ∀ (i : Instr) (s : State) (c : Nat) (u : Tid) (x : Thread) (k : Cohort) (d : MReg) (w b : Word),
    s.mayIssue i = true → s.runs i u x → u.cohort = c →
    s.cohort? s.gang.core s.gang.slot s.gang.access c = some k → maskResult s k c i = some (d, w, b) →
    ∃ s' k', exec i s = .next s' ∧ s'.cohort? s.gang.core s.gang.slot s.gang.access c = some k' ∧
      (k'.settle (s.cycle s.gang.core + 2)).rm d.toNat =
        ((k.settle (s.cycle s.gang.core + 2)).rm d.toNat &&& ~~~w) ||| (b &&& w)

/-- mwait (R135) has no effect beyond its control fields. -/
def Sys2Proof.Claims.MwaitPasses : Prop :=
  ∀ (h : Hd) (a : MReg) (s : State), s.mayIssue (.mwait h a) = true →
    exec (.mwait h a) s = .next ((s.control (.mwait h a)).flowEnd (.mwait h a))

/-- LANE-MASK WORDS (R128, R135). -/
def Obligations.MaskWords : Prop := MaskResults ∧ MwaitPasses

/-- BRANCHES (R130, R131): bra goes to the word of its displacement; brx goes to an aligned code address and a landing
check falls due. A target outside the code space, or misaligned, parks the thread at the word, whose registers are
those before the word. Rests on the model's choices of log 32. -/
def Obligations.Branches : Prop :=
  (∀ (h : Hd) (disp : BitVec 30) (s : State) (u : Tid) (x : Thread), s.mayIssue (.bra h disp) = true →
    s.runs (.bra h disp) u x →
    ∃ s' y, exec (.bra h disp) s = .next s' ∧ s'.thread? u = some y ∧
      let target := (s.gang.pc : Int) + disp.toInt
      if 0 ≤ target ∧ target < 6 * 2 ^ 50 then (y.pc : Int) = target ∧ y.landing = x.landing ∧ y.v = x.v
      else y.parked = true ∧ ∃ x0, s.thread? u = some x0 ∧ asBefore x0 y) ∧
  ∀ (h : Hd) (a : VReg) (s : State) (u : Tid) (x : Thread), s.mayIssue (.brx h a) = true → s.runs (.brx h a) u x →
    ∃ s' y, exec (.brx h a) s = .next s' ∧ s'.thread? u = some y ∧
      let target := x.rv64 a.toNat
      if codeMisaligned target then y.parked = true ∧ ∃ x0, s.thread? u = some x0 ∧ asBefore x0 y
      else y.pc = target.toNat / 64 * 6 + target.toNat % 8 ∧ y.landing = some (s.gang.pc, 0x091)

/-- CALLS COMPLETE (R130 to R132): a call of a word in the code space pushes the address of the next word and goes to its
target, and callx goes to its aligned code address with a landing check due; a target outside the code space, or
misaligned, and whatever the push answers, are precise events of the word. -/
def Sys2Proof.Claims.CallsComplete : Prop :=
  (∀ (h : Hd) (disp : BitVec 30) (s : State) (u : Tid) (x x0 : Thread), runsSole s (.call h disp) u x →
    s.thread? u = some x0 →
    let target := (s.gang.pc : Int) + disp.toInt
    controlEnd s (.call h disp) u x0
      (if 0 ≤ target ∧ target < 6 * 2 ^ 50 then
        ((s.control (.call h disp)).push u x (s.gang.pc + 1)).map fun s2 => s2.modThread u fun t => { t with pc := target.toNat }
      else .error (0x05, codeAddressInt target, codeAddress s.gang.pc))) ∧
  ∀ (h : Hd) (a : VReg) (s : State) (u : Tid) (x x0 : Thread), runsSole s (.callx h a) u x → s.thread? u = some x0 →
    let target := x.rv64 a.toNat
    controlEnd s (.callx h a) u x0
      (if codeMisaligned target then .error (0x05, target, codeAddress s.gang.pc)
      else ((s.control (.callx h a)).push u x (s.gang.pc + 1)).map fun s2 => s2.modThread u fun t =>
        { t with pc := wordNumber target, landing := some (s.gang.pc, 0x093) })

/-- THE PUSH (R132): with 512 entries it is the stack-overflow event; else the return address goes to the private window
below the pointer, which falls by 8, and an event of the store's checks is the word's own. -/
def Sys2Proof.Claims.PushStores : Prop :=
  ∀ (s s2 : State) (u : Tid) (x : Thread) (ret : Nat),
    (512 ≤ (0x10000 - x.sp) / 8 → s.push u x ret = .error (0x07, 0, 0)) ∧
    ((0x10000 - x.sp) / 8 < 512 →
      (∀ g va, s.check u (Acc.store 8 .none) (privateWindow (x.sp - 8)) = (.mem g va, s2) →
        s.push u x ret = .ok ((s2.writeMem u g (bytesLE 8 (codeAddress ret).toNat) stackMq none).2.modThread u fun t =>
          { t with sp := t.sp - 8 })) ∧
      ∀ k d e, s.check u (Acc.store 8 .none) (privateWindow (x.sp - 8)) = (.event k d e, s2) →
        s.push u x ret = .error (k, d, e))

/-- ret COMPLETES (R132): its thread goes to the address on top of its stack, whose pointer rises by 8, with a landing
check due; a misaligned address, and whatever the load answers, are precise events of the word. -/
def Sys2Proof.Claims.ReturnCompletes : Prop :=
  ∀ (h : Hd) (s : State) (u : Tid) (x x0 : Thread), runsSole s (.ret h) u x → s.thread? u = some x0 →
    controlEnd s (.ret h) u x0 (match (s.control (.ret h)).top u x with
      | .error e => .error e
      | .ok (target, s2) =>
        if codeMisaligned target then .error (0x05, target, codeAddress s.gang.pc)
        else .ok (s2.modThread u fun t =>
          { t with pc := wordNumber target, landing := some (s.gang.pc, 0x094), sp := t.sp + 8 }))

/-- THE TOP OF THE STACK (R132): an empty stack is the stack-underflow event; else the 8 bytes at the pointer are loaded,
and an event of the load's checks, or a poisoned line, is the word's own. -/
def Sys2Proof.Claims.TopLoads : Prop :=
  ∀ (s s2 : State) (u : Tid) (x : Thread),
    (x.sp = 0x10000 → s.top u x = .error (0x08, 0, 0)) ∧
    (x.sp ≠ 0x10000 →
      (∀ g va bs s3, s.check u (Acc.load 8 .none) (privateWindow x.sp) = (.mem g va, s2) →
        s2.readMem u g 8 stackMq = .bytes bs s3 → s.top u x = .ok (BitVec.ofNat 64 (natLE bs), s3)) ∧
      (∀ g va s3, s.check u (Acc.load 8 .none) (privateWindow x.sp) = (.mem g va, s2) →
        s2.readMem u g 8 stackMq = .poison s3 → s.top u x = .error (0x1E, s3.poisonAt g.phys 8, BitVec.ofNat 64 va)) ∧
      ∀ k d e, s.check u (Acc.load 8 .none) (privateWindow x.sp) = (.event k d e, s2) → s.top u x = .error (k, d, e))

/-- CALLS AND RETURNS COMPLETE (R132). Rests on the model's choices of logs 32, 156. -/
def Obligations.CallWords : Prop := CallsComplete ∧ PushStores ∧ ReturnCompletes ∧ TopLoads

/-- exit (R133): a running thread that owes no access has exited, without tags and with the fixed-latency results of its
earlier words still to land; one with an unresolved log entry, or with a write on its way, stands at the word until
these are resolved. Rests on the model's choices of log 165. -/
def Sys2Proof.Claims.ExitLeaves : Prop :=
  ∀ (h : Hd) (s : State) (u : Tid) (x : Thread), s.mayIssue (.exit h) = true → s.runs (.exit h) u x →
    ∃ s' y, exec (.exit h) s = .next s' ∧ s'.thread? u = some y ∧
      ((s.control (.exit h)).unresolved u = true → y.exited = x.exited) ∧
      if (s.control (.exit h)).owes u then y.exitIssued = true ∧ y.pc = s.gang.pc ∧ y.exited = x.exited
      else y.exited = true ∧ y.tags = [] ∧ y.pend = x.pend ∧ y.v = x.v ∧ y.p = x.p ∧ y.fstat = x.fstat

/-- svc AND brk (R136): every running thread parks with its PC at the next word, under a record of its cohort whose
Address is the word's code address and whose Detail is the code. -/
def Sys2Proof.Claims.RaisedOnPurpose : Prop :=
  ∀ (h : Hd) (n : BitVec 10) (s : State) (tm : Team) (i : Instr) (kind : Nat) (u : Tid) (x : Thread),
    (i = .svc h n ∧ kind = 0x0B ∨ i = .brk h n ∧ kind = 0x0C) →
    s.gangTeam = some tm → s.mayIssue i = true → s.runs i u x →
    ∃ s' y r, exec i s = .next s' ∧ s'.thread? u = some y ∧ y.parked = true ∧ y.pc = s.gang.pc + 1 ∧
      r ∈ (s'.partition tm.partition).queue ∧ r.kind = kind ∧ r.detail = n.setWidth 64 ∧
      r.address = codeAddress s.gang.pc ∧ r.cohort = u.cohort ∧ r.lanes.getLsbD u.lane = true ∧ r.seq ∈ y.events

/-- WORDS THAT LEAVE THE PROGRAM: exit (R133), svc and brk (R136). -/
def Obligations.LeavingWords : Prop := ExitLeaves ∧ RaisedOnPurpose

/-- LOADS COMPLETE (R259, R262, R263): the bytes at the address, extended as the size states, go to the word's tag, or the
lane is left unfinished or waiting, as its read answers. Rests on the model's choices of log 17. -/
def Obligations.LoadsAnswer : Prop :=
  ∀ (i : Instr) (sz : MSize) (q : Mq) (s : State) (u : Tid) (x : Thread) (ops : LaneOps),
    loadForm i = some (sz, q) → ops = ⟨addressOf s x i, 0, 0, []⟩ → runsAlone s i u x ops →
    exec i s = .next (s.laneEnd i u ops (readOut (s.control i) u sz.bytes q ops.a (loaded sz)))

/-- STORES COMPLETE (R259, R262, R263): the low bytes of the data registers go to the scratch line, whose waiting loads are
served, or on their way to their home; a check's event leaves the lane unfinished.
Rests on the model's choices of log 18. -/
def Obligations.StoresAct : Prop :=
  ∀ (i : Instr) (sz : MSize) (q : Mq) (d : VReg) (s : State) (u : Tid) (x : Thread) (ops : LaneOps),
    storeForm i = some (sz, q, d) → ops = ⟨addressOf s x i, 0, 0, x.group d.toNat sz.regs⟩ → runsAlone s i u x ops →
    exec i s = .next (s.laneEnd i u ops (writeOut (s.control i) u (stored sz x d) q i.tag? ops.a))

/-- ATOMICS AND REDUCTIONS COMPLETE (R264, R265): in one step the location at its bank or home takes the combined value, and
an atom's tag the old one; a cas whose comparison fails writes nothing; an event leaves the lane unfinished.
Rests on the model's choices of logs 17, 19, 22. -/
def Obligations.AtomicWords : Prop :=
  ∀ (i : Instr) (op : RmwOp) (ty : AtomTy) (q : Mq) (returns : Bool) (a b : VReg) (s : State) (u : Tid) (x : Thread),
    atomicForm i = some (op, ty, q, returns, a, b) → runsAlone s i u x (atomicOps op ty x a b) →
    exec i s = .next (s.laneEnd i u (atomicOps op ty x a b) (rmwOut (s.control i) u op ty q returns x a b))

/-- THE ATOMIC STEP AT THE HOME (R264, R265), of a relaxed word with nothing of the line in the cluster cache and no
store on its way: the location's bytes become the combined value's, every other byte of home memory stays, and the old
value returns. Rests on the model's choices of logs 19, 22. -/
def Obligations.AtomicStep : Prop :=
  ∀ (s : State) (u : Tid) (x : Thread) (op : RmwOp) (ty : AtomTy) (q : Mq) (returns : Bool) (a b : VReg) (g : Target)
    (va : Nat), q.order = .relaxed → s.stores = [] → s.ccLine? (u.core / 4) g.own g.phys = none →
    (∀ tm, s.teamOf u = some tm → tm.relaunchable = false) → g.phys < 2 ^ 52 → g.phys % typeBytes ty = 0 →
    (returns = true → s.poisoned g.phys (typeBytes ty) = false) →
    (ty = .f32 → op = .add ∨ op = .min ∨ op = .max) →
    let bs := memBytes s.mem g.phys (typeBytes ty)
    let new := combined op ty (natLE bs) (atomicOperands ty x b).1 (atomicOperands ty x b).2
    ∃ s', s.rmwMem u op ty q returns g va (atomicOps op ty x a b) = .done (oldRegs ty returns bs) s' ∧
      ∀ n, memByte s'.mem n =
        if g.phys ≤ n ∧ n < g.phys + typeBytes ty then BitVec.ofNat 8 (new / 2 ^ (8 * (n - g.phys))) else memByte s.mem n

/-- ORDER WORDS COMPLETE (R229, R242, R266, R274, R275): fence performs its release set at its scope and then, for an
acquire, performs its VF's window stores and takes the cache action; winpub performs the thread's window stores, and
those to peers that its cluster cache holds; winacq drops every copy of a window line; tcommit commits a relaunchable
team's buffer. Their tags complete.
Rests on the model's choices of logs 21, 27. -/
def Obligations.OrderWords : Prop :=
  (∀ (h : Hd) (q : Mq) (s : State) (u : Tid) (x : Thread), runsSole s (.fence h q) u x →
    let s1 := s.control (.fence h q)
    let s2 := if q.order = .release ∨ q.order = .acqrel then s1.releaseSet u.core (s1.vfOf u) q.scope false else s1
    let windows := fun f : InFlight => f.own == s2.vfOf u && f.window
    let s3 := if q.order = .acquire ∨ q.order = .acqrel then (s2.drain windows).cacheAction u.core (s2.vfOf u) q.scope else s2
    exec (.fence h q) s = .next (s3.over (.fence h q) u bare)) ∧
  (∀ (h : Hd) (s : State) (u : Tid) (x : Thread), runsSole s (.winpub h) u x →
    let own := fun f : InFlight => f.tid == some u && (f.window || isPeer f.phys)
    let s2 := ((s.control (.winpub h)).endRelaunch u.core u.slot).drain own
    exec (.winpub h) s = .next ((((s2.ccKeys (u.core / 4) (s2.vfOf u)).filter fun k => isPeer (ccBase k)).foldl
      State.ccBack s2).over (.winpub h) u bare)) ∧
  (∀ (h : Hd) (s : State) (u : Tid) (x : Thread), runsSole s (.winacq h) u x →
    ∃ s', exec (.winacq h) s = .next s' ∧ promises s' (.winacq h) u bare ∧
      (∀ n, s.windowLine (n * 128) = true → FMap.find? (s'.core u.core).l1 n = none) ∧
      ∀ k, ccCluster k = u.core / 4 → s.windowLine (ccBase k) = true → FMap.find? s'.cc k = none) ∧
  ∀ (h : Hd) (s : State) (u : Tid) (x : Thread), runsSole s (.tcommit h) u x →
    exec (.tcommit h) s = .next (State.over
      (if ((s.control (.tcommit h)).teamOf u).any (·.relaunchable) then (s.control (.tcommit h)).commitBuffer u.core u.slot
      else s.control (.tcommit h)) (.tcommit h) u bare)

/-- prefetch COMPLETES (R267), whatever its address: a prefetch fills what its level names, asks for an absent page under
level page, and in every other case has no effect and raises no event. -/
def Sys2Proof.Claims.PrefetchCompletes : Prop :=
  ∀ (h : Hd) (lvl : PfLevel) (a : VReg) (off : BitVec 10) (s : State) (u : Tid) (x : Thread),
    let i : Instr := .prefetch h lvl a off
    runsSole s i u x →
    exec i s = .next (State.over
      (match (s.control i).check u (Acc.load 1 .none) (x.rv64 a.toNat + off.signExtend 64 * 64) with
      | (.event k d e, s2) => if k = 0x10 ∧ lvl = .page then s2.reportFree i [⟨u, .none, some (0x30, d, e)⟩] else s2
      | (.mem g _, s2) =>
        if g.isOpen then s2
        else if lvl = .cluster then s2.ccFill (u.core / 4) g .normal
        else if isPeer g.phys then s2 else s2.fillL2 g g.phys 1 1
      | (_, s2) => s2) i u bare)

/-- cachectl COMPLETES (R268), whatever its address: it invalidates or writes back the line of its address, or empties the
instruction cache; where the address has no place it has no effect. Rests on the model's choices of logs 59, 158. -/
def Sys2Proof.Claims.CachectlCompletes : Prop :=
  ∀ (h : Hd) (op : CacheOp) (a : VReg) (s : State) (u : Tid) (x : Thread),
    let i : Instr := .cachectl h op a
    runsSole s i u x →
    exec i s = .next (State.over
      (if op = .icall then (s.control i).modCore u.core fun c => { c with icache := [] }
      else match (s.control i).place u (x.rv64 a.toNat) with
        | (none, s2) => s2
        | (some g, s2) =>
          let key := ccKey (u.core / 4) g.phys
          let held := (s2.ccLine? (u.core / 4) g.own g.phys).isSome
          match op with
          | .l1inv => s2.l1Drop u.core g.phys
          | .ccwb => if held then s2.ccBack key else s2
          | .ccinv => if held then (s2.ccBack key).ccDrop key else s2
          | .icinv => s2.modCore u.core fun c =>
              { c with icache := FMap.del c.icache (icacheKey (s2.vfOf u) ((x.rv64 a.toNat).toNat / 64)) }
          | .icall => s2) i u bare)

/-- poison COMPLETES (R218, R273): the scratch line, or the 64-byte line of home memory, of the address is marked poisoned;
an event of its checks leaves the lane unfinished. Rests on the model's choices of log 58. -/
def Sys2Proof.Claims.PoisonMarks : Prop :=
  ∀ (h : Hd) (a : VReg) (s : State) (u : Tid) (x : Thread) (ops : LaneOps),
    ops = ⟨x.rv64 a.toNat, 0, 0, []⟩ → runsAlone s (.poison h a) u x ops →
    exec (.poison h a) s = .next (s.laneEnd (.poison h a) u ops (poisonOut (s.control (.poison h a)) u ops.a)) ∧
    ∀ (g : Target) (va : Nat) (s2 : State), g.phys < 2 ^ 52 →
      (s.control (.poison h a)).check u ⟨1, false, false, true, .none, true⟩ ops.a = (.mem g va, s2) →
      ∃ s', exec (.poison h a) s = .next s' ∧ promises s' (.poison h a) u bare ∧ s'.poisonedLine (g.phys / 64) = true

/-- CACHE WORDS (R267, R268) AND poison (R218, R273) COMPLETE. -/
def Obligations.CacheActs : Prop := PrefetchCompletes ∧ CachectlCompletes ∧ PoisonMarks

/-- salloc (R270): a request that breaks its rule, or that finds no room, answers 0; else the lowest run of free lines is
allocated with the lifetime, valid, not written and empty, and its window address returns. -/
def Sys2Proof.Claims.AllocationAnswers : Prop :=
  ∀ (h : Hd) (quad dflt : Bool) (d a b : VReg) (s : State) (u : Tid) (x : Thread) (tm : Team) (n life : Nat),
    runsSole s (.salloc h quad dflt d a b) u x → (s.control (.salloc h quad dflt d a b)).teamOf u = some tm →
    n = (x.rv a.toNat).toNat → life = (if dflt then tm.kern.dfltLife quad n else (x.rv b.toNat).toNat) →
    ((tm.mayAlloc quad n life = false ∨ tm.freeRun quad (n / 512) = none) →
      exec (.salloc h quad dflt d a b) s =
        .next ((s.control (.salloc h quad dflt d a b)).over (.salloc h quad dflt d a b) u ⟨[0, 0], 0, none⟩)) ∧
    ∀ first, tm.mayAlloc quad n life = true → tm.freeRun quad (n / 512) = some first →
      let at_ := windowAddress u.core quad (first * 512)
      ∃ s', exec (.salloc h quad dflt d a b) s = .next s' ∧
        promises s' (.salloc h quad dflt d a b) u ⟨[at_.extractLsb' 0 32, at_.extractLsb' 32 32], 0, none⟩ ∧
        s'.teamOf u = some { tm with allocs := tm.allocs ++ [⟨quad, first * 512, n⟩] } ∧
        ∀ k, first ≤ k → k < first + n / 512 → k < 16384 →
          let l := s'.scrLine (u.core / 4) (k * 512)
          l.valid = true ∧ l.lifetime = life ∧ l.written = false ∧ l.full = 0 ∧ l.barType = 0 ∧ l.poison = false

/-- sfree AND srenew COMPLETE (R271, R272): sfree frees the allocation that starts at its address, whose lines are then
invalid with lifetime 0; srenew stamps each written line of a range that no lock covers and that is fresh with the time,
leaves every other one as it is, and raises scratch-expired where one is stale.
Rests on the model's choices of logs 78, 157. -/
def Sys2Proof.Claims.AllocationEnds : Prop :=
  (∀ (h : Hd) (a : VReg) (s : State) (u : Tid) (x : Thread) (ops : LaneOps),
    ops = ⟨x.rv64 a.toNat, 0, 0, []⟩ → runsAlone s (.sfree h a) u x ops →
    exec (.sfree h a) s = .next (s.laneEnd (.sfree h a) u ops (sfreeOut (s.control (.sfree h a)) u ops.a))) ∧
  (∀ (s : State) (u : Tid) (al : Alloc) (k : Nat), (∀ w ∈ s.waits, ∀ c l, w.2.cause ≠ .granule c l) →
    k < al.bytes / 512 → al.off % 512 = 0 →
    ((s.freeAlloc u al).scrLine (u.core / 4) (al.off + k * 512)).valid = false ∧
    ((s.freeAlloc u al).scrLine (u.core / 4) (al.off + k * 512)).lifetime = 0) ∧
  (∀ (s : State) (core cl : Nat) (lines : List Nat), lines.Nodup → (∀ o ∈ lines, o % 512 = 0) →
    let due := fun o => (s.scrLine cl o).written && !s.lockedScr (core / 4) cl o 512 true
    let old := fun o => s.stale cl (s.scrLine cl o)
    (s.renewLines core cl lines).2 = lines.any (fun o => due o && old o) ∧
    ∀ o ∈ lines, (s.renewLines core cl lines).1.scrLine cl o =
      if due o && !old o then { s.scrLine cl o with stamp := s.us % 65536, since := s.pkg.clk } else s.scrLine cl o) ∧
  ∀ (h : Hd) (a b : VReg) (s : State) (u : Tid) (x : Thread) (ops : LaneOps),
    ops = ⟨x.rv64 a.toNat, 0, 0, [x.rv b.toNat]⟩ → runsAlone s (.srenew h a b) u x ops →
    exec (.srenew h a b) s =
      .next (s.laneEnd (.srenew h a b) u ops (srenewOut (s.control (.srenew h a b)) u ops.a (x.rv b.toNat).toNat))

/-- SCRATCH ALLOCATION (R270 to R272). -/
def Obligations.AllocationWords : Prop := AllocationAnswers ∧ AllocationEnds

/-- BLOCK LOADS AND STORES COMPLETE (R173, R174), for one lane, as its lane's outcome has it: ldmx answers with the lane's
element scaled and its code and scales, or waits where its line can be filled only after the sweeper; stmx writes the
block whose elements are 0 but for the lane's own; an event of the checks on the block is the lane's event. Rests on the model's choices of logs 82, 83. -/
def Obligations.BlockWords : Prop :=
  (∀ (h : Hd) (fmt : MxFmt) (q : Mq) (d a b : VReg) (s : State) (u : Tid) (x : Thread) (ops : LaneOps),
    ops = ⟨x.rv64 a.toNat, scaleAddress fmt x b, 0, []⟩ → runsAlone s (.ldmx h fmt q d a b) u x ops →
    exec (.ldmx h fmt q d a b) s =
      .next (s.laneEnd (.ldmx h fmt q d a b) u ops (laneLdmx fmt q u ops (s.control (.ldmx h fmt q d a b))))) ∧
  (∀ (fmt : MxFmt) (q : Mq) (s s2 : State) (u : Tid) (ops : LaneOps),
    (∀ k d e, s.checkBlock u (fun n => Acc.load n .none) fmt ops = (.error (k, d, e), s2) →
      laneLdmx fmt q u ops s = .event k d e s2) ∧
    ∀ cs, s.checkBlock u (fun n => Acc.load n .none) fmt ops = (.ok cs, s2) →
      (cs.any (pieceWaits s2 u q) = true → laneLdmx fmt q u ops s = .wait .flight false s2) ∧
      ∀ bs s3, cs.any (pieceWaits s2 u q) = false →
        readsBlock s2 u (if oneLine cs then q else { q with fresh := true }) cs bs s3 → u.lane < 32 →
        laneLdmx fmt q u ops s = .done (blockAnswer fmt u.lane bs) s3) ∧
  (∀ (h : Hd) (fmt : MxFmt) (q : Mq) (d a b : VReg) (s : State) (u : Tid) (x : Thread) (ops : LaneOps),
    u.lane < 32 → ops = ⟨x.rv64 a.toNat, scaleAddress fmt x b, 1, bytesWords (blockOf fmt u.lane (x.rv d.toNat))⟩ →
    runsAlone s (.stmx h fmt q d a b) u x ops →
    let i : Instr := .stmx h fmt q d a b
    exec i s = .next (s.laneEnd i u ops (laneStmx fmt q i.tag? u ops (s.control i)))) ∧
  ∀ (fmt : MxFmt) (q : Mq) (tag : Option Nat) (s s2 : State) (u : Tid) (ops : LaneOps), ops.c = 1 →
    (∀ k d e, s.checkBlock u (fun n => Acc.store n .none) fmt ops = (.error (k, d, e), s2) →
      laneStmx fmt q tag u ops s = .event k d e s2) ∧
    ∀ cs s3, s.checkBlock u (fun n => Acc.store n .none) fmt ops = (.ok cs, s2) →
      (s2.writePieces u q tag (wordsBytes ops.data) cs = (true, s3) → laneStmx fmt q tag u ops s = .done bare s3) ∧
      (s2.writePieces u q tag (wordsBytes ops.data) cs = (false, s3) → laneStmx fmt q tag u ops s = .later s3)

/-- COPY WORDS COMPLETE (R237, R276, R277): a command joins the cluster's queue behind a cluster-scope release, with the
descriptor's address and the barrier's, where the word names one; it is not yet accepted.
Rests on the model's choices of log 88. -/
def Sys2Proof.Claims.CopiesQueue : Prop :=
  ∀ (i : Instr) (kind : Nat) (bar : Bool) (a b : VReg) (s : State) (u : Tid) (x : Thread) (tm : Team) (tag : Nat),
    copyForm i = some (kind, bar, a, b) → runsSole s i u x → (s.control i).teamOf u = some tm → i.tag? = some tag →
    let s1 := (s.control i).releaseSet u.core tm.vf .cluster false
    ∃ s' c, exec i s = .next s' ∧ (s'.cluster (u.core / 4)).tce =
        FMap.put (s1.cluster (u.core / 4)).tce (s1.cluster (u.core / 4)).tceNext c ∧
      (s'.cluster (u.core / 4)).tceNext = (s1.cluster (u.core / 4)).tceNext + 1 ∧
      c.tid = u ∧ c.tag = tag ∧ c.kind = kind ∧ c.vf = tm.vf ∧ c.compartment = tm.kern.compartment ∧
      c.descAddr = (x.rv64 a.toNat).toNat ∧ c.barrier = (if bar then some (x.rv64 b.toNat).toNat else none) ∧
      c.accepted = false ∧ c.done = []

/-- tcancel COMPLETES (R286): each command of its team in the cluster's engine whose CmdId is the operand's is stopped where
its boxes have got to and ends with status 1, and its own tag completes. Rests on the model's choices of log 160. -/
def Sys2Proof.Claims.CancelEnds : Prop :=
  ∀ (h : Hd) (a : VReg) (s : State) (u : Tid) (x : Thread), runsSole s (.tcancel h a) u x →
    let s1 := s.control (.tcancel h a)
    let cl := u.core / 4
    exec (.tcancel h a) s = .next (State.over ((s1.teamCmds u).foldl (fun t id =>
      match FMap.find? (t.cluster cl).tce id with
      | some c =>
        if t.cmdIdOf c = some ((x.rv a.toNat).toNat % 2 ^ 16) then (t.tceStopBoxes cl id c).tceEnd cl id 1 else t
      | none => t) s1) (.tcancel h a) u bare)

/-- THE COPY WORDS: a command joins the queue of its engine, and is cancelled. -/
def Obligations.CopyWords : Prop := CopiesQueue ∧ CancelEnds

/-- TILE WORDS COMPLETE (R182, R183, R186 to R189): each joins its sector's queue with its running threads; an accst,
whose entry stays until its rows are stored, reads the tile at once and stores the thread's row, and one that finds its tile uncorrectable parks its cohorts at the word.
Rests on the model's choices of logs 84, 85. -/
def Sys2Proof.Claims.TileWords : Prop :=
  (∀ (h : Hd) (t : Tile) (s : State), s.mayIssue (.acczero h t) = true →
    let s1 := s.control (.acczero h t)
    let act := s1.active (.acczero h t)
    exec (.acczero h t) s = .next (State.flowEnd (if act = [] then s1
      else queueTile s s1 (.acczero h t) (.zero t.toNat (maskOf (act.map (·.lane)))) act) (.acczero h t))) ∧
  (∀ (h : Hd) (d : VReg) (t : Tile) (s : State), s.mayIssue (.accchk h d t) = true →
    let s1 := s.control (.accchk h d t)
    let act := s1.active (.accchk h d t)
    exec (.accchk h d t) s = .next (State.flowEnd (if act = [] then s1
      else queueTile s s1 (.accchk h d t) (.check t.toNat) act) (.accchk h d t))) ∧
  (∀ (h : Hd) (fmt : AccFmt) (q : Mq) (t : Tile) (a : VReg) (s : State) (u : Tid) (x : Thread) (ops : LaneOps),
    let i : Instr := .accld h fmt q t a
    ops = ⟨x.rv64 a.toNat, 0, 0, []⟩ → runsSole s i u x →
    let s2 := queueTile s (s.control i) i (.load t.toNat []) []
    s2.behind u i ops (s.wordAge u) = false →
    exec i s = .next (accldEnd s s2 i u ops (accldOut s2 i u fmt q t.toNat ops.a))) ∧
  ∀ (h : Hd) (fmt : AccFmt) (q : Mq) (t : Tile) (a : VReg) (s s2 : State) (u : Tid) (x : Thread) (n : Nat) (ops : LaneOps),
    let i : Instr := .accst h fmt q t a
    runsSole s i u x → (s.control i).checkTile s.gang.core s.sectorOfGang t.toNat = (n, s2) →
    (n = 3 → ∃ s', exec i s = .next s' ∧ ∀ c ∈ s.gang.cohorts, ∀ v ∈ s.cohortTids s.gang.core s.gang.slot s.gang.access c,
      ∀ x0, s.thread? v = some x0 → ∃ y, s'.thread? v = some y ∧ y.parked = true ∧ asBefore x0 y) ∧
    (n ≠ 3 → ops = ⟨x.rv64 a.toNat, 0, 0,
        bytesWords (accNarrow fmt (((s2.sector s.gang.core s.sectorOfGang).tile t.toNat).rows.getD u.lane []))⟩ →
      let s3 := s2.mauPush s.gang.core s.sectorOfGang ⟨.store t.toNat, s.gang.slot, s.gang.cohorts, i, [], none⟩
      s3.behind u i ops (s.wordAge u) = false →
      exec i s = .next (accstEnd s s3 i u ops (accstOut s3 u (wordsBytes ops.data) q i.tag? ops.a)))

/-- mma (R176, R179, R180): the B tiles of the gang's octets are read at issue, the A rows come from the latch or from
the registers, and one operation for each octet joins the sector's queue, with the pieces of its B tile that are read
later; an event of a B tile parks the whole gang,
for which the word has no effect. Rests on the model's choices of logs 84, 86, 87. -/
def Sys2Proof.Claims.MatrixQueues : Prop :=
  ∀ (h : Hd) (fmt : ElemTy) (mx reuse : Bool) (t : Tile) (a b c : VReg) (s : State) (k : Nat) (k0 : Cohort),
    s.mayIssue (.mma h fmt mx reuse t a b c) = true → s.gang.cohorts = [k] →
    let i : Instr := .mma h fmt mx reuse t a b c
    let s1 := s.control i
    s1.cohort? s.gang.core s.gang.slot s.gang.access k = some k0 →
    let act := s1.active i
    (∀ tiles, s1.readOctets fmt mx b act (octetsOf act) = .ok tiles →
      ∃ s', exec i s = .next s' ∧ ∃ ops : List MauEntry,
        (s'.sector s.gang.core s.sectorOfGang).mau = (s.sector s.gang.core s.sectorOfGang).mau ++ ops ∧
        ops.length = tiles.length ∧
        ∀ n e o, ops[n]? = some e → tiles[n]? = some o → ∃ rows scales late,
          e.op = .octet t.toNat fmt mx rows scales o.2.1 o.2.2 late ∧ (s.prompt = true → late = 0) ∧
          e.instr = i ∧ e.tag = i.tag? ∧
          (e.tids = if n + 1 = tiles.length then act else []) ∧
          ∀ u ∈ act, ∀ x, s1.thread? u = some x → u.lane / 8 = o.1 → u.lane < 32 →
            (u.lane, k0.rowOf u.lane fmt a x) ∈ rows ∧ (u.lane, x.rv c.toNat) ∈ scales) ∧
    ∀ kind d e, s1.readOctets fmt mx b act (octetsOf act) = .error (kind, d, e) →
      ∃ s', exec i s = .next s' ∧ ∀ u ∈ s.gang.tids, ∀ x0, s.thread? u = some x0 →
        ∃ y, s'.thread? u = some y ∧ y.parked = true ∧ asBefore x0 y

/-- THE MATRIX WORDS: each joins the queue of its sector, or acts on its tile. -/
def Obligations.MatrixWords : Prop := TileWords ∧ MatrixQueues

/-- OPERAND QUEUES COMPLETE (R311, R312): qpush appends a row that holds each running lane's register and 0 elsewhere, and
serves the lanes that wait for it; qpop takes the lane's next row, or waits for it.
Rests on the model's choices of log 60. -/
def Sys2Proof.Claims.OperandQueues : Prop :=
  (∀ (h : Hd) (q : BitVec 3) (a : VReg) (s : State) (c : Nat), s.mayIssue (.qpush h q a) = true → s.gang.cohorts = [c] →
    let i : Instr := .qpush h q a
    let s1 := s.control i
    let z := s1.opQueue s.gang.core s.gang.slot c q.toNat
    ∃ row : List Word, row.length = 32 ∧
      (∀ u x, s.runs i u x → row[u.lane]? = some (x.rv a.toNat)) ∧
      (∀ l < 32, (∀ u ∈ s1.active i, u.lane ≠ l) → row[l]? = some 0) ∧
      exec i s = .next (((((s1.setQueue s.gang.core s.gang.slot c q.toNat { z with rows := z.rows ++ [row] }).serveRow
        s.gang.core s.gang.slot c q.toNat (z.first + z.rows.length)).trimQueues s.gang.core s.gang.slot c).deliverAll i
          (s1.active i)).flowEnd i)) ∧
  ∀ (h : Hd) (d : VReg) (q : BitVec 3) (s : State) (u : Tid) (x : Thread) (z : OpQueue) (n : Nat) (ops : LaneOps),
    let i : Instr := .qpop h d q
    z = s.opQueue u.core u.slot u.cohort q.toNat → n = FMap.getD z.next u.lane 0 → n < 2 ^ 64 →
    ops = ⟨BitVec.ofNat 64 n, 0, 0, []⟩ → runsAlone s i u x ops →
    let s2 := (s.control i).setQueue u.core u.slot u.cohort q.toNat { z with next := FMap.put z.next u.lane (n + 1) }
    exec i s = .next (s.laneEnd i u ops (if n < z.first + z.rows.length then
      .done ⟨[(z.rows.getD (n - z.first) []).getD u.lane 0], 0, none⟩ (s2.trimQueues u.core u.slot u.cohort)
      else .wait (.row q.toNat) false s2))

/-- FIFO-MODE BANKS (R313, R314): fpush and fpop COMPLETE as their lane's outcome has it.
Rests on the model's choices of log 81. -/
def Sys2Proof.Claims.FifoWords : Prop :=
  (∀ (h : Hd) (n : BitVec 4) (a : VReg) (s : State) (u : Tid) (x : Thread) (ops : LaneOps),
    ops = ⟨0, 0, 0, [x.rv a.toNat, x.rv (a.toNat + 1), x.rv (a.toNat + 2), x.rv (a.toNat + 3)]⟩ →
    runsAlone s (.fpush h n a) u x ops →
    exec (.fpush h n a) s =
      .next (s.laneEnd (.fpush h n a) u ops (fpushOut (s.control (.fpush h n a)) u n.toNat ops.data))) ∧
  ∀ (h : Hd) (d : VReg) (n : BitVec 4) (s : State) (u : Tid) (x : Thread), runsAlone s (.fpop h d n) u x ⟨0, 0, 0, []⟩ →
    exec (.fpop h d n) s =
      .next (s.laneEnd (.fpop h d n) u ⟨0, 0, 0, []⟩ (fpopOut (s.control (.fpop h d n)) u n.toNat))

/-- OPERAND QUEUES AND FIFOS. -/
def Obligations.QueueWords : Prop := OperandQueues ∧ FifoWords

/-- THE BYTES THAT A WORD SENDS OR LAUNCHES WITH (R173, R259, R301): a fault of the block's region or alignment, and an event
of the checks on its pieces, are the lane's event; with no byte to read nothing is checked. -/
def Sys2Proof.Claims.BytesGather : Prop :=
  ∀ (s s2 : State) (u : Tid) (a : DWord) (n align : Nat) (k : List Byte → State → LaneOut),
    s.gatherBytes u a 0 align k = k [] s ∧
    (0 < n → (∀ e d x, s.blockFault u a align = some (e, d, x) → s.gatherBytes u a n align k = .event e d x s) ∧
      (s.blockFault u a align = none → ∀ e d x,
        s.checkPieces u (fun n => Acc.load n .none) (chunks a n) = (.error (e, d, x), s2) →
        s.gatherBytes u a n align k = .event e d x s2))

/-- A MESSAGE SENT (R302, R303): it stands in the state under the next number, with its VF, roster index, kind, port,
destination and bytes and the moment at which its word issued, until it is acknowledged. Rests on the model's choices of log 93. -/
def Sys2Proof.Claims.MessagesStand : Prop :=
  ∀ (s : State) (u : Tid) (ops : LaneOps) (roster kind port : Nat) (dest : DWord) (bs : List Byte),
    (∀ e ∈ s.messages, e.1 < s.messageNext) →
    (s.send u ops roster kind port dest bs).1 = s.messageNext ∧
    ∃ m, FMap.find? (s.send u ops roster kind port dest bs).2.messages s.messageNext = some m ∧ m.vf = s.vfOf u ∧
      m.roster = roster ∧ m.kind = kind ∧ m.port = port ∧ m.dest = dest ∧ m.bytes = bs ∧ m.core = u.core ∧
      (m.cycle, m.clk) = s.issuedAt u ops.c

/-- MESSAGES (R302, R303): wpost and msend COMPLETE as their lane's outcome has it; the tag waits for the
acknowledgement. Rests on the model's choices of logs 93, 151. -/
def Sys2Proof.Claims.MessagesLeave : Prop :=
  (∀ (h : Hd) (a b : VReg) (s : State) (u : Tid) (x : Thread) (ops : LaneOps),
    let i : Instr := .wpost h a b
    ops = ⟨x.rv64 a.toNat, 0, BitVec.ofNat 64 s.messageNext, [x.rv b.toNat]⟩ → runsAlone s i u x ops →
    exec i s = .next (s.laneEnd i u ops (wpostOut (s.control i) u ops (x.rv b.toNat)))) ∧
  ∀ (h : Hd) (kind : MsendKind) (a b c : VReg) (s : State) (u : Tid) (x : Thread) (ops : LaneOps),
    let i : Instr := .msend h kind a b c
    ops = ⟨x.rv64 a.toNat, x.rv64 b.toNat, BitVec.ofNat 64 s.messageNext, [x.rv c.toNat]⟩ → runsAlone s i u x ops →
    exec i s = .next (s.laneEnd i u ops (msendOut (s.control i) u kind ops (x.rv c.toNat)))

/-- CHILD GRIDS (R305, R306): glaunch and gwait COMPLETE as their lane's outcome has it; at depth 10 the threads of a glaunch
park with the nesting event. Rests on the model's choices of logs 67, 68. -/
def Sys2Proof.Claims.ChildGrids : Prop :=
  (∀ (h : Hd) (d a : VReg) (s : State) (u : Tid) (x : Thread) (tm : Team) (ops : LaneOps),
    let i : Instr := .glaunch h d a
    ops = ⟨x.rv64 a.toNat, 0, 0, []⟩ → runsAlone s i u x ops → s.gangTeam = some tm → tm.depth ≠ 10 →
    exec i s = .next (s.laneEnd i u ops (glaunchOut (s.control i) u tm ops.a))) ∧
  (∀ (h : Hd) (d a : VReg) (s : State) (u : Tid) (x : Thread) (tm : Team), s.mayIssue (.glaunch h d a) = true →
    s.runs (.glaunch h d a) u x → s.gangTeam = some tm → tm.depth = 10 →
    ∃ s' y x0, exec (.glaunch h d a) s = .next s' ∧ s'.thread? u = some y ∧ y.parked = true ∧
      s.thread? u = some x0 ∧ asBefore x0 y) ∧
  ∀ (h : Hd) (d a : VReg) (s : State) (u : Tid) (x : Thread) (tm : Team) (ops : LaneOps),
    let i : Instr := .gwait h d a
    ops = ⟨(x.rv a.toNat).setWidth 64, 0, 0, []⟩ → runsAlone s i u x ops → (s.control i).teamOf u = some tm →
    exec i s = .next (s.laneEnd i u ops (gwaitOut (s.control i) u tm (x.rv a.toNat).toNat))

/-- WORDS THAT SEND: messages to other agents, and launches of child grids. -/
def Obligations.MessageWords : Prop := BytesGather ∧ MessagesStand ∧ MessagesLeave ∧ ChildGrids

/-- tlbinv COMPLETES (R349): after a device-scope release it shoots down a page, a range or the VF in its partition:
the TLB entries, what they let into the L1s and the instruction caches, and the walks. Rests on the model's choices of
logs 44, 183. -/
def Sys2Proof.Claims.TlbDrops : Prop :=
  ∀ (h : Hd) (form : TlbForm) (a b : VReg) (s : State) (u : Tid) (x : Thread), runsSole s (.tlbinv h form a b) u x →
    let s1 := s.control (.tlbinv h form a b)
    let vf := s1.vfOf u
    let p := s1.partitionOf u
    let s2 := (s1.releaseSet u.core vf .device false).drain fun f => f.own == vf
    let va := (x.rv64 a.toNat).toNat
    let n := (x.rv b.toNat).toNat
    exec (.tlbinv h form a b) s = .next (State.over
      (match form with
        | .vf => s2.shootVf p vf
        | .page => if va < 2 ^ 56 then s2.shootPages p vf (va / 65536) 1 else s2
        | .range => if 65536 < n then s2.shootVf p vf
          else if va < 2 ^ 56 ∧ 0 < n then s2.shootPages p vf (va / 65536) n else s2) (.tlbinv h form a b) u bare)

/-- pgprobe COMPLETES (R350) and raises no event: it answers with the outcome of the walk, the remote region that it passed,
the leaf's bits and its payload; an address with no page answers 3. Rests on the model's choices of log 45. -/
def Sys2Proof.Claims.ProbesAnswer : Prop :=
  ∀ (h : Hd) (d a : VReg) (s : State) (u : Tid) (x : Thread) (tm : Team),
    let i : Instr := .pgprobe h d a
    let s1 := s.control i
    let answer := fun (t : State) (m : Word) (p : DWord) =>
      exec i s = .next (t.over i u ⟨[m, 0, p.extractLsb' 0 32, p.extractLsb' 32 32], 0, none⟩)
    runsSole s i u x → s1.teamOf u = some tm →
    match s1.region u (x.rv64 a.toNat) with
    | .translated va =>
      match s1.translate u.core tm.vf va false with
      | (.leaf e, s2) =>
        answer s2 (probeMap 1 e.region (bitsOf (e.leafFor va) 5 11)) (shownPayload tm.kern.system (e.leafFor va))
      | (.absent r, s2) => answer s2 (probeMap 0 r 0) 0
      | (.invalid r, s2) => answer s2 (probeMap 2 r 0) 0
    | _ => answer s1 (probeMap 3 none 0) 0

/-- kvx COMPLETES (R359 to R362) as its lane's outcome has it. Rests on the model's choices of logs 42, 43. -/
def Sys2Proof.Claims.TableEntry : Prop :=
  ∀ (h : Hd) (form : KvxForm) (d a b : VReg) (c : PReg) (s : State) (u : Tid) (x : Thread) (ops : LaneOps),
    let i : Instr := .kvx h form d a b c
    ops = ⟨x.rv64 a.toNat, (x.rv b.toNat).setWidth 64, 0, []⟩ → runsAlone s i u x ops →
    exec i s = .next (s.laneEnd i u ops (kvxOut (s.control i) u form ops.a (x.rv b.toNat).toNat))

/-- WORDS ON TABLES: tlbinv, pgprobe and kvx complete. -/
def Obligations.PageTableWords : Prop := TlbDrops ∧ ProbesAnswer ∧ TableEntry

/-- GATES AND WINDOWS (R365 to R367): gatectl and winctl COMPLETE as their lane's outcome has it; winctl's open of a closed
window whose pages are pinned and whose members may take part makes an opening entry with its descriptor's fields, and
the re-key will end it. Rests on the model's choices of logs 38, 39, 40. -/
def Obligations.GatesAndWindows : Prop :=
  (∀ (h : Hd) (close : Bool) (a b : VReg) (s : State) (u : Tid) (x : Thread) (ops : LaneOps),
    let i : Instr := .gatectl h close a b
    ops = ⟨x.rv64 a.toNat, (x.rv b.toNat).setWidth 64, 0, []⟩ → runsAlone s i u x ops →
    exec i s = .next (s.laneEnd i u ops (gatectlOut (s.control i) u close ops.a (x.rv b.toNat).toNat))) ∧
  (∀ (h : Hd) (close : Bool) (a b : VReg) (s : State) (u : Tid) (x : Thread) (ops : LaneOps),
    let i : Instr := .winctl h close a b
    ops = ⟨x.rv64 a.toNat, (x.rv b.toNat).setWidth 64, 0, []⟩ → runsAlone s i u x ops →
    exec i s = .next (s.laneEnd i u ops (winctlOut (s.control i) u close ops.a (x.rv b.toNat).toNat))) ∧
  ∀ (s : State) (u : Tid) (idx : Nat) (at_ : DWord) (bs : List Byte),
    (windowOf bs = none → s.windowOpen u idx at_ bs = .event 0x19 0 at_ s) ∧
    ∀ ms base len zero, windowOf bs = some (ms, base, len, zero) →
      (s.windowState idx ≠ 0 → s.windowOpen u idx at_ bs = .event 0x19 0 at_ s) ∧
      (s.windowState idx = 0 →
        let pinned := s.pagesAll (s.vfOf u) base len (fun e => leafKind e == 0 && leafPin e)
        (pinned = false → s.windowOpen u idx at_ bs = .event 0x18 0 at_ s) ∧
        (pinned = true → (∀ m ∈ membersIn ms, s.memberFail (s.vfOf u) m = none) →
          ∃ s' w, s.windowOpen u idx at_ bs = .wait (.window idx) false s' ∧ FMap.find? s'.pkg.windows idx = some w ∧
            w.state = 1 ∧ w.ownerVf = s.vfOf u ∧ w.memberWords = ms ∧ w.base = base ∧ w.len = len ∧ w.zeroOnClose = zero ∧
            .windowRekeyComplete idx ∈ s'.pending))

/-- BARRIER WORDS COMPLETE (R372 to R380) as their lane's outcome has it; after a bar.init that passes its checks the granule
is a barrier whose epoch is 0 and whose counts are the operand's, and after a bar.inval it is none and not full.
Rests on the model's choices of logs 61, 62, 64. -/
def Sys2Proof.Claims.BarrierWords : Prop :=
  ∀ (i : Instr) (a b : VReg) (s : State) (u : Tid) (x : Thread), barWord i = some (a, b) →
    runsAlone s i u x (barOperands i x a b) →
    let s1 := s.control i
    exec i s = .next (s.laneEnd i u (barOperands i x a b) (barOut s1 u i (barOperands i x a b) (x.rv b.toNat))) ∧
    (∀ k d e, s1.checkBar u (x.rv64 a.toNat) (match i with | .barInit .. => true | _ => false) = .error (k, d, e) →
      barOut s1 u i (barOperands i x a b) (x.rv b.toNat) = .event k d e s1) ∧
    ∀ cl off scope,
      s1.checkBar u (x.rv64 a.toNat) (match i with | .barInit .. => true | _ => false) = .ok (cl, off, scope) →
      (∀ h, i = .barInit h a b → (∀ w ∈ s1.waits, ∀ r t, w.2.cause ≠ .barrier cl off r t) →
        (∀ w ∈ s1.waits, w.2.cause ≠ .granule cl (off / 512)) →
        (s1.scrLine cl off).bytes.length = 512 → off % 16 = 0 →
        ∃ s', exec i s = .next s' ∧ s'.barrierAt cl off = true ∧
          s'.barAt cl off = ⟨0, 0, (x.rv b.toNat).toNat % 65536, (x.rv b.toNat).toNat % 65536, false, false⟩) ∧
      (∀ h, i = .barInval h a → (∀ w ∈ s1.waits, ∀ r t, w.2.cause ≠ .barrier cl off r t) → off % 16 = 0 →
        ∃ s', exec i s = .next s' ∧ s'.barrierAt cl off = false ∧
          (s'.scrLine cl off).full.getLsbD (off % 512 / 16) = false)

/-- SEMAPHORE WORDS COMPLETE (R381, R382) as their lane's outcome has it. -/
def Sys2Proof.Claims.SemaphoreWords : Prop :=
  ∀ (h : Hd) (a b : VReg) (s : State) (u : Tid) (x : Thread) (ops : LaneOps),
    ops = ⟨(x.rv a.toNat).setWidth 64, 0, 0, [x.rv b.toNat]⟩ →
    (runsAlone s (.semSig h a b) u x ops → exec (.semSig h a b) s = .next (s.laneEnd (.semSig h a b) u ops
      (semOut (s.control (.semSig h a b)) u true (x.rv a.toNat).toNat (x.rv b.toNat).toNat))) ∧
    (runsAlone s (.semWait h a b) u x ops → exec (.semWait h a b) s = .next (s.laneEnd (.semWait h a b) u ops
      (semOut (s.control (.semWait h a b)) u false (x.rv a.toNat).toNat (x.rv b.toNat).toNat)))

/-- BARRIERS AND SEMAPHORES (R372 to R382). -/
def Obligations.CounterWords : Prop := BarrierWords ∧ SemaphoreWords

/-- READING TIME, COUNTERS AND REGISTERS COMPLETES (R101 to R108, R383, R385): each running thread's tag will receive the
value; a counter whose select is written in this cycle still shows the count before (R391). -/
def Sys2Proof.Claims.RegisterReads : Prop :=
  (∀ (h : Hd) (us : Bool) (d : VReg) (s : State) (u : Tid) (x : Thread), runsSole s (.rdclk h us d) u x →
    let t := BitVec.ofNat 64 s.pkg.clk
    exec (.rdclk h us d) s = .next ((s.control (.rdclk h us d)).over (.rdclk h us d) u
      ⟨if us then [BitVec.ofNat 32 (s.pkg.clk / 1000 % 65536)] else [t.extractLsb' 0 32, t.extractLsb' 32 32], 0, none⟩)) ∧
  (∀ (h : Hd) (d : VReg) (n : BitVec 3) (s : State) (u : Tid) (x : Thread), runsSole s (.rdperf h d n) u x →
    let s1 := s.control (.rdperf h d n)
    let now := FMap.getD (s1.core u.core).perf n.toNat 0
    let v := BitVec.ofNat 64 (match FMap.find? (s1.core u.core).perfOld n.toNat with
      | some (cycle, before) => if cycle = s.cycle u.core then before else now
      | none => now)
    exec (.rdperf h d n) s = .next (s1.over (.rdperf h d n) u ⟨[v.extractLsb' 0 32, v.extractLsb' 32 32], 0, none⟩)) ∧
  ∀ (h : Hd) (d : VReg) (n : BitVec 10) (s : State) (u : Tid) (x : Thread), runsSole s (.csrr h d n) u x →
    let i : Instr := .csrr h d n
    let s1 := s.control i
    let reads := fun (ws : List Word) => exec i s = .next (s1.over i u ⟨ws, 0, none⟩)
    let t := BitVec.ofNat 64 s.pkg.clk
    (n = 0x040 → reads [t.extractLsb' 0 32, t.extractLsb' 32 32]) ∧
    (n = 0x000 → reads [x.fstat.setWidth 32]) ∧
    (n = 0x010 → reads [BitVec.ofNat 32 (s1.cluster (u.core / 4)).retn]) ∧
    (n = 0x011 → reads [(s1.cluster (u.core / 4)).tj.setWidth 32]) ∧
    (n = 0x018 → reads [s1.freqWord u.core]) ∧
    (n = 0x030 → reads [s1.vfcfgWord (s1.vfOf u)]) ∧
    (∀ tm, n = 0x008 → s1.teamOf u = some tm → reads [tm.statWord]) ∧
    ∀ k, k < 8 → n.toNat = 0x020 + k → reads [FMap.getD (s1.core u.core).perfSel k 0]

/-- csrw (R105, R109, R110, R384): FSTAT takes the written flags, and keeps those that become visible in the same cycle; a
PERFSEL register takes its fields at system privilege, and its counter is zeroed; at user privilege it keeps them, and
every other register keeps its value. That a PERFSEL write takes effect in the very next state is the model's choice of
log 163, R109 giving it 2 cycles; rests on the model's choices of logs 46, 47, 48 too. -/
def Sys2Proof.Claims.RegisterWrites : Prop :=
  ∀ (h : Hd) (m : CsrwMode) (n : BitVec 10) (a : VReg) (s : State) (u : Tid) (x : Thread),
    let i : Instr := .csrw h m n a
    let s1 := s.control i
    let src := x.rv a.toNat
    runsSole s i u x →
    (n = 0 → ∃ s' y, exec i s = .next s' ∧ s'.thread? u = some y ∧
      y.fstat = (match m with
        | .write => src.setWidth 6
        | .set => x.fstat ||| src.setWidth 6
        | .clr => x.fstat &&& ~~~(src.setWidth 6)) ||| x.fresh) ∧
    (∀ tm k, s1.teamOf u = some tm → tm.kern.system = true → k < 8 → n.toNat = 0x020 + k →
      s.gang.pc + 1 < 6 * 2 ^ 50 →
      let old := FMap.getD (s1.core u.core).perfSel k 0
      ∃ s', exec i s = .next s' ∧ FMap.getD (s'.core u.core).perf k 0 = 0 ∧
        FMap.getD (s'.core u.core).perfSel k 0 = (match m with
          | .write => src
          | .set => old ||| src
          | .clr => old &&& ~~~src) &&& 0x8000FFFF) ∧
    (∀ tm, s1.teamOf u = some tm → tm.kern.system = false → 0x020 ≤ n.toNat → n.toNat < 0x028 →
      exec i s = .next (s1.over i u bare)) ∧
    (n.toNat ≠ 0 → (n.toNat < 0x020 ∨ 0x028 ≤ n.toNat) → exec i s = .next (s1.over i u bare))

/-- TIME, COUNTERS AND SPECIAL REGISTERS: read and written (R101 to R110, R383 to R385). -/
def Obligations.RegisterWords : Prop := RegisterReads ∧ RegisterWrites

/-- SYSTEM WORDS COMPLETE (R413 to R415): sread and eret as their lane's outcome has it; halt stops its VF where it is
resident, at once or, where a pre-emption is under way, at its restore.
Rests on the model's choices of logs 49, 50, 153. -/
def Obligations.SystemWords : Prop :=
  (∀ (h : Hd) (d a : VReg) (s : State) (u : Tid) (x : Thread) (ops : LaneOps), ops = ⟨x.rv64 a.toNat, 0, 0, []⟩ →
    runsAlone s (.sread h d a) u x ops →
    exec (.sread h d a) s = .next (s.laneEnd (.sread h d a) u ops (sreadOut (s.control (.sread h d a)) u ops.a))) ∧
  (∀ (h : Hd) (a : VReg) (s : State) (u : Tid) (x : Thread) (ops : LaneOps),
    ops = ⟨x.rv64 a.toNat, BitVec.ofNat 64 s.gang.pc, 0, []⟩ → runsAlone s (.eret h a) u x ops →
    exec (.eret h a) s = .next (s.laneEnd (.eret h a) u ops
      (eretOut (s.control (.eret h a)) u ops.a (s.gang.pc % 2 ^ 64)))) ∧
  ∀ (h : Hd) (s : State) (u : Tid) (x : Thread) (tm : Team), s.mayIssue (.halt h) = true → s.runs (.halt h) u x →
    s.gangTeam = some tm →
    let p := s.partition tm.partition
    let s1 := (s.control (.halt h)).deliverAll (.halt h) ((s.control (.halt h)).active (.halt h))
    exec (.halt h) s = .next (State.flowEnd
      (if p.resident ≠ some tm.vf ∨ p.frozen = true then s1
      else if p.preempt.step = 0 then s1.beginStop tm.partition tm.vf true
      else if p.preempt.halt then s1
      else s1.modVf tm.vf fun v => { v with haltAtRestore := true }) (.halt h))

/-- THE ISSUE LOGIC, THE WALKER AND THE MAU (R35, R54, R57, R70, R72, R76, R108, R167, R182, R192, R219, R346): a PD count
that has run out ends, and the thread is counted ready from then on or not; a thread that has waited 3,840 cycles is
overdue; a result that is known reaches its tag's buffer, no earlier than the word's least latency allows; a filled code
line is in the instruction cache as its home has it, for the compartment whose rights were checked, and one whose home
is poisoned raises the uncorrectable error; a walk that finds a leaf leaves it in the core's TLB; the oldest operation of
a sector's queue acts: rows are cleared, loaded or multiplied into the tile, the check corrects the tile and answers its
tag, and a transfer whose rows are still on their way keeps its place. That the operations of a queue act one after
another and in order, that a product is one exact sum, and the sign of a zero sum are the model's reading (logs 84, 86);
rests on the model's choices of logs 5, 16, 23, 31 too. -/
def Obligations.IssueActs : Prop :=
  (∀ (t : Tid) (s : State) (x : Thread), s.thread? t = some x →
    (x.readyAt ≤ s.cycle t.core →
      exec (.pdExpiry t) s = .next ((s.setThread t { x with pdRun := false }).markReady t)) ∧
    (s.cycle t.core < x.readyAt → exec (.pdExpiry t) s = .next s)) ∧
  (∀ (t : Tid) (s : State) (x : Thread) (c : Nat), s.thread? t = some x → x.since = some c →
    exec (.overdue t) s = .next (s.setThread t
      { x with overdue := if c + 3840 ≤ s.cycle t.core then true else x.overdue })) ∧
  (∀ (t : Tid) (n : Nat) (s : State) (x : Thread) (g : Tag) (r : Late), s.thread? t = some x →
    FMap.find? x.tags n = some g → g.stage = .performed r →
    ∃ s' y, exec (.resultArrival t n) s = .next s' ∧ s'.thread? t = some y ∧
      FMap.find? y.tags n = some (if g.least ≤ s.cycle t.core then { g with stage := .arrived (s.cycle t.core) r } else g) ∧
      y.v = x.v ∧ y.p = x.p ∧ y.fstat = x.fstat) ∧
  (∀ (core vf line : Nat) (s s2 : State) (t : Tid) (ts : List Tid) (tm : Team) (g : Target),
    s.waitersOf core vf line = t :: ts → s.teamOf t = some tm → s.fetchPlace core tm line = (.ok g, s2) →
    let phys := g.phys / 64 * 64
    (s2.poisoned phys 64 = false →
      ∃ s', exec (.icacheFill core vf line) s = .next s' ∧
        s'.iline? core vf tm.kern.compartment (line * 6) =
          some (match FMap.find? (s2.core core).icache (icacheKey vf line) with
            | some l => { l with comps := tm.kern.compartment :: l.comps }
            | none => ⟨vf, s2.homeBytes phys 64, trailerOk (s2.homeBytes phys 64), [tm.kern.compartment]⟩)) ∧
    (s2.poisoned phys 64 = true →
      exec (.icacheFill core vf line) s = .next ((s2.takeFetch ((t :: ts).filter fun u =>
          ((s.teamOf u).map (·.kern.compartment)) == some tm.kern.compartment) 0x1E (s2.poisonAt phys 64) false).modPkg
        fun k => { k with netFails := k.netFails.filter fun e => e.1 != .fetch core vf line }))) ∧
  (∀ (core vf va : Nat) (s : State) (e : TlbEntry), (s.translate core vf va false).1 = .leaf e →
    ∃ s', exec (.pageWalkComplete core vf va false) s = .next s' ∧ (s'.core core).dtlb.any (·.hits vf va) = true) ∧
  (∀ (core vf va : Nat) (s s2 : State) (t : Tid) (ts : List Tid) (tm : Team) (k : Nat) (d : DWord) (host : Bool),
    s.waitersOf core vf (va / 64) = t :: ts → s.teamOf t = some tm →
    s.fetchPlace core tm (va / 64) = (.error (k, d, host), s2) →
    exec (.pageWalkComplete core vf va true) s = .next (s2.takeFetch ((t :: ts).filter fun u =>
      ((s.teamOf u).map (·.kern.compartment)) == some tm.kern.compartment) k d host)) ∧
  (∀ (core sec n : Nat) (lanes : LaneMask) (e : MauEntry) (rest : List MauEntry) (s : State),
    (s.sector core sec).mau = e :: rest → e.op = .zero n lanes →
    ∃ s', exec (.mauOpComplete core sec) s = .next s' ∧ (s'.sector core sec).mau = rest ∧
      ∀ l < 32, l < ((s.sector core sec).tile n).rows.length → lanes.getLsbD l = true →
        ((s'.sector core sec).tile n).rows[l]? = some (List.replicate 32 0)) ∧
  (∀ (core sec n : Nat) (rows : FMap (List Word)) (e : MauEntry) (rest : List MauEntry) (s : State),
    (s.sector core sec).mau = e :: rest → e.op = .load n rows →
    (s.rowsFlying core e = true → exec (.mauOpComplete core sec) s = .next s) ∧
    (s.rowsFlying core e = false → ∃ s', exec (.mauOpComplete core sec) s = .next s' ∧ (s'.sector core sec).mau = rest ∧
      ∀ l old, ((s.sector core sec).tile n).rows[l]? = some old →
        ((s'.sector core sec).tile n).rows[l]? = some ((FMap.find? rows l).getD old))) ∧
  (∀ (core sec n : Nat) (e : MauEntry) (rest : List MauEntry) (s : State),
    (s.sector core sec).mau = e :: rest → e.op = .store n →
    (s.rowsFlying core e = true → exec (.mauOpComplete core sec) s = .next s) ∧
    (s.rowsFlying core e = false → ∃ s', exec (.mauOpComplete core sec) s = .next s' ∧ (s'.sector core sec).mau = rest ∧
      (s'.sector core sec).tiles = (s.sector core sec).tiles)) ∧
  (∀ (core sec n m : Nat) (e : MauEntry) (rest : List MauEntry) (s : State) (u : Tid) (x : Thread) (g : Tag),
    (s.sector core sec).mau = e :: rest → e.op = .check n → u ∈ e.tids → e.tag = some m → s.thread? u = some x →
    FMap.find? x.tags m = some g →
    let r := ((s.sector core sec).tile n).check
    ∃ s' y, exec (.mauOpComplete core sec) s = .next s' ∧ (s'.sector core sec).mau = rest ∧
      (s'.sector core sec).tile n = r.2 ∧ s'.thread? u = some y ∧
      FMap.find? y.tags m = some { g with stage := .performed ⟨[BitVec.ofNat 32 r.1], 0, none⟩ } ∧
      .resultArrival u m ∈ s'.pending) ∧
  ∀ (core sec n src : Nat) (fmt : ElemTy) (mx : Bool) (rows : FMap (List Word)) (scales : FMap Word) (at_ : List Byte)
    (late : BitVec 104) (e : MauEntry) (rest : List MauEntry) (s : State),
    (s.sector core sec).mau = e :: rest → e.op = .octet n fmt mx rows scales at_ src late →
    let bt := s.lateTile at_ src late
    ∃ s', exec (.mauOpComplete core sec) s = .next s' ∧ (s'.sector core sec).mau = rest ∧
      ∀ i j row xs old, ((s.sector core sec).tile n).rows[i]? = some row → row[j]? = some old →
        FMap.find? rows i = some xs → j < 32 →
        ∃ row', ((s'.sector core sec).tile n).rows[i]? = some row' ∧
          row'[j]? = some (toF32 .rn ((f32Val old).add
            (valSum (((rowValues fmt mx xs (FMap.getD scales i 0)).zip (columnValues fmt mx bt j)).map fun p => (p.1.mul p.2).1))
            .rn).1)

/-- WORK TOKENS (R24, R297 to R299, R308): the device's own PCIe port brings none while no host is attached; one whose JobID
names no VF is discarded and counted; a misaligned one is an error of its port; one from a peer that may not send, or for
a port that is not enabled, is discarded and counted; an admitted one is launched on the port's queue.
Rests on the model's choices of logs 31, 95. -/
def Sys2Proof.Claims.TokensArrive : Prop :=
  ∀ (job port : Nat) (src : TokenSource) (aligned : Bool) (bs : List Byte) (s : State),
    (src = .ownPcie → s.hostAttached = false → exec (.workToken job port src aligned bs) s = .next s) ∧
    ((src = .ownPcie → s.hostAttached = true) →
      (s.jobVf job (sourceIndex src) = none →
        exec (.workToken job port src aligned bs) s =
          .next (s.modPkg fun k => { k with jobDiscards := k.jobDiscards + 1 })) ∧
      ∀ vf, s.jobVf job (sourceIndex src) = some vf →
        (aligned = false ∨ bs.length ≠ 64 → exec (.workToken job port src aligned bs) s =
          .next ((s.modPkg fun k => { k with portErrors := k.portErrors + 1 }).reportBare vf 0x33 0 0)) ∧
        (aligned = true → bs.length = 64 →
          (∀ why, s.receiveFail vf (sourceIndex src) = some why →
            ∃ s', exec (.workToken job port src aligned bs) s = .next s' ∧ s'.pkg.refusals = s.pkg.refusals + 1 ∧
              ((FMap.find? (s'.vf vf).ports port).map (·.discarded)) =
                some ((FMap.getD (s.vf vf).ports port ⟨false, 0, 0⟩).discarded + 1)) ∧
          (s.receiveFail vf (sourceIndex src) = none →
            (∀ p, FMap.find? (s.vf vf).ports port = some p → p.enabled = false →
              exec (.workToken job port src aligned bs) s = .next (s.modVf vf fun v =>
                { v with ports := FMap.put v.ports port { p with discarded := p.discarded + 1 } })) ∧
            ∀ p, FMap.find? (s.vf vf).ports port = some p → p.enabled = true →
              exec (.workToken job port src aligned bs) s =
                .next (s.launch vf p.queue .token (headOf (bs.take 16) (bs.drop 16)) (some port)))))

/-- WHO MAY SEND (R300, R308): an arrival whose JobID names no VF is discarded and counted, one of a peer that may not send is
refused; an Ultra Ethernet peer's JobID names the VF and its partition. Rests on the model's choices of log 95. -/
def Sys2Proof.Claims.PeersRefused : Prop :=
  (∀ (job roster : Nat) (dest value : DWord) (bs : List Byte) (s : State),
    ∀ i ∈ [Instr.c1Landing job roster dest bs, .c2Signal job roster dest, .c2wWrite job roster dest value,
      .c3Atomic job roster dest value],
      (s.jobVf job roster = none → exec i s = .next (s.modPkg fun k => { k with jobDiscards := k.jobDiscards + 1 })) ∧
      ∀ vf why, s.jobVf job roster = some vf → s.receiveFail vf roster = some why →
        exec i s = .next (s.refusePeer vf roster why)) ∧
  ∀ (job roster : Nat) (s : State),
    (∀ r, roster ≠ 0xFF → FMap.find? (s.vf (job % 512)).roster roster = some r → r.kind = 2 →
      s.jobVf job roster = if s.partOf (job % 512) = some (job / 512) then some (job % 512) else none) ∧
    (roster = 0xFF → s.jobVf job roster = if job < 512 then some job else none)

/-- LANDINGS (R303, R304, R339, R357): bytes land where every line may be written and the barrier that counts them is fresh,
and count on it; a signal is one arrival; an atomic adds at its destination; what fails its checks writes nothing and is
counted; what a full arrival log cannot take waits. Rests on the model's choices of logs 31, 94, 96, 97. -/
def Sys2Proof.Claims.LandingsArrive : Prop :=
  (∀ (job vf roster : Nat) (dest : DWord) (bs : List Byte) (s : State), s.jobVf job roster = some vf →
    s.receiveFail vf roster = none →
    (s.landingHeld vf dest bs.length = true →
      exec (.c1Landing job roster dest bs) s = .next (s.emit (.c1Landing job roster dest bs))) ∧
    (s.landingHeld vf dest bs.length = false → s.countFails vf dest bs.length = true ∨ s.landBytes vf dest bs = none →
      exec (.c1Landing job roster dest bs) s = .next (s.landingError vf roster)) ∧
    ∀ s2, s.landingHeld vf dest bs.length = false → s.countFails vf dest bs.length = false →
      s.landBytes vf dest bs = some s2 →
      exec (.c1Landing job roster dest bs) s = .next (match s2.landingBarrier vf dest bs.length with
        | some (b, n) => s2.barrierEffect vf 1 b n roster
        | none => s2)) ∧
  (∀ (job vf roster : Nat) (dest : DWord) (s : State), s.jobVf job roster = some vf → s.receiveFail vf roster = none →
    (s.barrierFresh vf dest = false → exec (.c2Signal job roster dest) s = .next (s.landingError vf roster)) ∧
    (s.barrierFresh vf dest = true → s.away vf = true → (s.vf vf).logFull = true →
      exec (.c2Signal job roster dest) s = .next (s.emit (.c2Signal job roster dest))) ∧
    (s.barrierFresh vf dest = true → s.away vf = true → (s.vf vf).logFull = false →
      ∃ s', exec (.c2Signal job roster dest) s = .next s' ∧
        (s'.vf vf).arrivals = (s.vf vf).arrivals ++ [⟨s.clk, dest, 0, roster, (s.vf vf).arrivalSeq, 2⟩]) ∧
    ∀ rel cl off, s.barrierFresh vf dest = true → s.away vf = false → s.landPlace vf dest = some (rel, cl, off) →
      exec (.c2Signal job roster dest) s = .next (s.barApply vf cl (off / 16 * 16) 1 0 0 false .device)) ∧
  (∀ (job vf roster : Nat) (dest value : DWord) (s : State), s.jobVf job roster = some vf → s.receiveFail vf roster = none →
    exec (.c2wWrite job roster dest value) s =
      .next ((s.landBytes vf dest (bytesLE 8 value.toNat)).getD (s.landingError vf roster))) ∧
  ∀ (job vf roster : Nat) (dest value : DWord) (s : State), s.jobVf job roster = some vf → s.receiveFail vf roster = none →
    (destOf dest = none → exec (.c3Atomic job roster dest value) s = .next (s.landingError vf roster)) ∧
    (∀ va, destOf dest = some (.translated va) → 2 ^ 56 < va + 8 ∨ s.pagePieces vf va (bytesLE 8 0) = none →
      exec (.c3Atomic job roster dest value) s = .next (s.landingError vf roster)) ∧
    (∀ va phys e b, destOf dest = some (.translated va) → va + 8 ≤ 2 ^ 56 →
      s.pagePieces vf va (bytesLE 8 0) = some [(phys, e, b)] → b.length = 8 →
      exec (.c3Atomic job roster dest value) s =
        .next (s.landPages [(phys, e, bytesLE 8 ((natLE (memBytes s.mem phys 8) + value.toNat) % 2 ^ 64))])) ∧
    (∀ va ps, destOf dest = some (.translated va) → va + 8 ≤ 2 ^ 56 → s.pagePieces vf va (bytesLE 8 0) = some ps →
      exec (.c3Atomic job roster dest value) s = .next (s.landPages ((s.pagePieces vf va (bytesLE 8
        ((natLE (ps.flatMap fun x => memBytes s.mem x.1 x.2.2.length) + value.toNat) % 2 ^ 64))).getD []))) ∧
    (∀ c o, destOf dest = some (.cluster c o) → s.c3Cluster vf dest value = none →
      exec (.c3Atomic job roster dest value) s = .next (s.landingError vf roster)) ∧
    ∀ c o rel cl off l, destOf dest = some (.cluster c o) → s.landPlace vf dest = some (rel, cl, off) →
      s.currentLine vf rel cl off = some (l, false) → s.mayLand vf rel cl off (bytesLE 8 0) = true →
      exec (.c3Atomic job roster dest value) s = .next (s.landLine vf rel cl off
        (bytesLE 8 ((natLE ((l.bytes.drop (off % 512)).take 8) + value.toNat) % 2 ^ 64)) false)

/-- WHAT ARRIVES FROM PEERS: work tokens, who may send, and landings. -/
def Obligations.Arrivals : Prop := TokensArrive ∧ PeersRefused ∧ LandingsArrive

/-- ACCESSES PERFORMED AFTER THEIR ISSUE (R54, R222, R224, R260): the next performing of an access that waits on its way gives
it its result and its word's entry, leaves it unlogged where its turn is over, has its word logged with its event, or
waits on; then a thread whose exit word has issued exits, if it owes nothing more. The last lane of a block that is on its
way is so performed too. Rests on the model's choices of logs 16, 17, 19, 165. -/
def Sys2Proof.Claims.FlightsEnd : Prop :=
  ∀ (n : Nat) (w : Wait) (s : State), FMap.find? s.waits n = some w → w.cause = .flight →
    s.behind w.tid w.instr w.ops w.age = false →
    (blockInstr w.instr = true → s.waits.filter (fun e => e.2.cause == .flight && e.2.sameGroup w) = [(n, w)]) →
    runMove s (.flight n) = .next (State.finishExit (match laneStep w.instr w.tid w.ops s with
      | .done r s2 => (s2.endWait n r).logWord w
      | .later s2 => { s2 with waits := FMap.del s2.waits n }.logWord w
      | .event k d a s2 => s2.failWait n k d a
      | .wait c _ s2 => { s2 with waits := FMap.mod s2.waits n fun w => { w with cause := c } }) w.tid)

/-- ACKNOWLEDGEMENTS AND THE STORE PATH (R206, R226, R234, R299, R307): an acknowledgement of a message that has arrived
completes it; a store is performed after the core's older ones to its bytes, into the cluster cache or at its home; a
forced publish performs the cluster's release set, marks the record and acknowledges, and the acknowledgement clears
just the record so marked. Rests on the model's choices of logs 18, 31. -/
def Sys2Proof.Claims.StoreActs : Prop :=
  (∀ (n : Nat) (s : State), s.ackHeld n = true → exec (.messageAck n) s = .next (s.emit (.messageAck n))) ∧
  (∀ (n : Nat) (s : State), s.ackHeld n = false → exec (.messageAck n) s = .next (s.acknowledge n)) ∧
  (∀ (id : Nat) (s : State) (f : InFlight), FMap.find? s.stores id = some f → s.storeBlocked id f = true →
    exec (.storePerformed id) s = .next s) ∧
  (∀ (id : Nat) (s s2 : State) (f : InFlight), FMap.find? s.stores id = some f →
    s.storeBlocked id f = false → f.bypass = false → f.writer = none →
    State.ccStore { s with stores := FMap.del s.stores id } (f.core / 4) f = some s2 →
    ∃ s', exec (.storePerformed id) s = .next s' ∧ s'.mem = s2.mem ∧ s'.cc = s2.cc ∧ s'.scratch = s2.scratch ∧
      FMap.find? s'.stores id = none) ∧
  (∀ (id : Nat) (s : State) (f : InFlight), FMap.find? s.stores id = some f →
    s.storeBlocked id f = false → f.bypass = true → FMap.find? s.cc (ccKey (f.core / 4) f.phys) = none →
    f.phys + f.bytes.length ≤ 2 ^ 52 →
    ∃ s', exec (.storePerformed id) s = .next s' ∧ s'.scratch = s.scratch ∧ FMap.find? s'.stores id = none ∧
      ∀ a, memByte s'.mem a = if f.phys ≤ a ∧ a < f.phys + f.bytes.length then f.bytes.getD (a - f.phys) 0 else memByte s.mem a) ∧
  (∀ (cl vf line : Nat) (s : State), exec (.forcedPublish cl vf line) s =
    .next (State.emit (match (s.publish cl vf).anyWriter line with
      | some w => if w.core / 4 = cl ∧ w.vf = vf then (s.publish cl vf).putWriter line (some { w with published := true })
          else s.publish cl vf
      | none => s.publish cl vf) (.publishAck line))) ∧
  ∀ (line : Nat) (s : State) (w : Writer), line < 2 ^ 60 →
    FMap.find? s.writers line = some w → (∀ e ∈ s.waits, e.2.cause ≠ .publish line) →
    ∃ s', exec (.publishAck line) s = .next s' ∧ s'.waits = s.waits ∧
      FMap.find? s'.writers line = if w.published then none else some w

/-- STORES ON THEIR WAY and what else is performed after its issue. -/
def Obligations.StorePath : Prop := FlightsEnd ∧ StoreActs

/-- DEPOSITS AND BINDING (R37 to R42, R289, R292, R293, R295, R305): a launch that nothing refuses enters the grid table under
a free identifier and its queue; the winner's teams claim their slots and their bind records are on their way, the
pointer behind the winner's slot. Rests on the model's choices of logs 31, 66, 67, 70, 71. -/
def Obligations.LaunchActs : Prop :=
  (∀ (vf queue : Nat) (by_ : Bool) (r : LaunchReq) (s : State), s.pkg.inService = true → argsOk r = true →
    s.launchError vf queue .system r = none →
    ∃ s' g l e, exec (.launchDeposit vf queue by_ r) s = .next s' ∧ FMap.find? (s.vf vf).grids g = none ∧
      FMap.find? (s'.vf vf).grids g = some ⟨none, 0, r.shapeX * r.shapeY * r.shapeZ, false, false, r.doneSem, queue⟩ ∧
      FMap.find? (s'.vf vf).queues queue = some l ∧ e ∈ l.entries ++ l.waiting.map Prod.fst ∧ e.grid = g ∧
      e.handle = r.handle ∧ e.args = r.args ∧ e.depth = 0) ∧
  (∀ (vf queue : Nat) (by_ : Bool) (r : LaunchReq) (s : State),
    s.pkg.inService = false ∨ argsOk r = false ∨ (∃ k, s.launchError vf queue .system r = some k) →
    exec (.launchDeposit vf queue by_ r) s = .next s) ∧
  (∀ (vf queue : Nat) (s : State) (l : LaunchQueue), FMap.find? (s.vf vf).queues queue = some l → l.waiting ≠ [] →
    l.entries.length < 65536 →
    ∃ s' l', exec (.queueRoomDeposit vf queue) s = .next s' ∧ FMap.find? (s'.vf vf).queues queue = some l' ∧
      l'.waiting = l.waiting.drop 1 ∧
      l'.entries.map (·.grid) = l.entries.map (·.grid) ++ (l.waiting.take 1).map fun w => w.1.grid) ∧
  (∀ (vf queue : Nat) (s : State), (∀ l, FMap.find? (s.vf vf).queues queue = some l → l.waiting = [] ∨ 65536 ≤ l.entries.length) →
    exec (.queueRoomDeposit vf queue) s = .next s) ∧
  (∀ (p any base : Nat) (s : State), s.dispatching p = none → exec (.teamBind p any base) s = .next s) ∧
  (∀ (p any base vf slot q : Nat) (s : State) (e : LaunchEntry) (k : Kernel) (ps : List Plan),
    s.dispatching p = some vf → s.restoreOne p vf any = none → s.winner p vf any base = some (slot, q) →
    s.queuePlan p vf q any base = some (e, k, ps) → ps.all (s.planReady vf k) = true →
    ∃ s', exec (.teamBind p any base) s = .next s' ∧ (s'.partition p).pointer = (slot + 1) % 16 ∧
      ∀ x ∈ ps, (s'.slot x.core x.slot).state = .binding ∧
        ∃ b, (BindRec.of b).vf % 65536 = vf % 65536 ∧ .bindRecordDispatch x.core x.slot b ∈ s'.pending) ∧
  ∀ (p any base vf : Nat) (s s2 : State), s.dispatching p = some vf → s.restoreOne p vf any = some s2 →
    exec (.teamBind p any base) s = .next s2

/-- DISPATCH AND THE FREEING OF SLOTS (R30, R37, R40, R41, R51, R97, R201, R295): a record on a free slot launches its team,
every thread at the kernel's entry with empty registers and the arguments in k; a restore record brings the saved team
back, its threads with the PD counts that they had left and its lines with the age that they had; one that cannot be
obeyed is reported to the scheduler core, its slot free; on an occupied slot a record waits; a draining slot whose
accesses are complete is free, its team gone, and a waiting record is obeyed. What a k register past the arguments holds
is the model's choice of log 70; rests on the model's choices of logs 31, 92, 121 too. -/
def Obligations.DispatchActs : Prop :=
  (∀ (core slot : Nat) (record : List Byte) (s : State) (k : Kernel), slot < 8 →
    ((s.slot core slot).state = .free ∨ (s.slot core slot).state = .binding ∧ (s.slot core slot).record = record) →
    (BindRec.of record).reservedOk = true → (BindRec.of record).restore = false →
    s.kernelAt (BindRec.of record).vf (BindRec.of record).handle = some k →
    s.admits core [(k, (BindRec.of record).baseSector)] = true →
    let r := BindRec.of record
    let args := (FMap.getD (s.partition ((s.partOf r.vf).getD 0)).args r.argsAddr []).take r.argsLen
    ∃ s' tm, exec (.bindRecordDispatch core slot record) s = .next s' ∧ s'.team? core slot = some tm ∧
      tm.kern = k ∧ tm.grid = r.grid ∧ tm.index = r.team ∧ tm.vf = r.vf ∧ tm.k = argRegs k args ∧ tm.allocs = [] ∧
      (s'.slot core slot).state = .resident ∧
      ∀ c l, c < 32 → l < 32 → 32 * c + l < k.threads →
        s'.thread? ⟨core, slot, false, c, l⟩ = some (.launch k.entry (s.cycle core))) ∧
  (∀ (core slot : Nat) (record : List Byte) (s : State) (k : Kernel) (t : SavedTeam), slot < 8 →
    ((s.slot core slot).state = .free ∨ (s.slot core slot).state = .binding ∧ (s.slot core slot).record = record) →
    let r := BindRec.of record
    let p := (s.partOf r.vf).getD 0
    r.reservedOk = true → r.restore = true → s.kernelAt r.vf r.handle = some k →
    s.admits core [(k, r.baseSector)] = true → s.savedFor r = some t → t.waits = [] → (s.vf r.vf).save.tce = [] →
    FMap.sorted t.threads = true →
    ∃ s', exec (.bindRecordDispatch core slot record) s = .next s' ∧
      s'.team? core slot = some { t.team with bound := (s.partition p).bindCount + 1 } ∧
      (s'.slot core slot).state = t.state ∧
      (∀ j x, FMap.find? t.threads j = some x → FMap.find? s'.threads (teamKey core slot * 2048 + j) =
        some { x with readyAt := s.cycle core + FMap.getD t.pdLeft j 0 }) ∧
      (∀ x ∈ (s.vf r.vf).save.lines, t.owns x = true →
        (∀ y ∈ (s.vf r.vf).save.lines, t.owns y = true → y.line = x.line → y = x) →
        FMap.find? s'.scratch (core / 4 * 16384 + x.line) = some { x.data with
          stamp := (s.nowUs + 65536 - x.age % 65536) % 65536, since := s.pkg.clk }) ∧
      ∀ x ∈ (s'.vf r.vf).save.lines, t.owns x = false) ∧
  (∀ (core slot : Nat) (record : List Byte) (s : State),
    ((s.slot core slot).state = .free ∨ (s.slot core slot).state = .binding ∧ (s.slot core slot).record = record) →
    let r := BindRec.of record
    let p := (s.partOf r.vf).getD 0
    (∀ k, r.reservedOk = true → s.kernelAt r.vf r.handle = some k →
      s.admits core [(k, r.baseSector)] = false ∨ r.restore = true ∧ s.savedFor r = none) →
    ∃ s' y, exec (.bindRecordDispatch core slot record) s = .next s' ∧ (s'.slot core slot).state = .free ∧
      s'.threads = s.threads ∧ s'.teams = s.teams ∧ y ∈ (s'.partition p).queue ∧ y.kind = 0x37 ∧ y.vf = r.vf ∧
      y.core = core ∧ y.slot = slot ∧ y.grid = r.grid ∧ y.team = r.team) ∧
  (∀ (core slot : Nat) (record : List Byte) (s : State), (s.slot core slot).state ≠ .free →
    ((s.slot core slot).state = .binding → (s.slot core slot).record ≠ record) →
    exec (.bindRecordDispatch core slot record) s = .next (s.modSlot core slot fun e => { e with queued := some record })) ∧
  (∀ (core slot : Nat) (s : State) (tm : Team), s.team? core slot = some tm →
    (s.slot core slot).state ≠ .draining ∨ s.slotBusy core slot = true → exec (.slotFree core slot) s = .next s) ∧
  (∀ (core slot : Nat) (s : State) (tm : Team), s.team? core slot = some tm → (s.slot core slot).state = .draining →
    s.slotBusy core slot = false → (s.slot core slot).queued = none →
    ∃ s', exec (.slotFree core slot) s = .next s' ∧ s'.team? core slot = none ∧ s'.slot core slot = Slot.reset ∧
      ∀ e ∈ s'.threads, e.1 / 2048 ≠ teamKey core slot) ∧
  ∀ (core slot : Nat) (s : State) (tm : Team) (b : List Byte), s.team? core slot = some tm →
    (s.slot core slot).state = .draining → s.slotBusy core slot = false → (s.slot core slot).queued = some b →
    exec (.slotFree core slot) s = .next (((s.endAllocs core slot tm).vacate core slot tm).obeyBind core slot b)

/-- GRIDS AND BLOCKED PARTITIONS (R43, R51, R294, R305): a grid all of whose teams and children are done retires and, at depth
0, leaves the grid table; of a blocked partition one team is saved and the waiting one bound; where a mapped queue waits
for one that is not mapped, that one takes its slot. Rests on the model's choices of logs 31, 75, 76. -/
def Obligations.GridActs : Prop :=
  (∀ (vf grid : Nat) (s : State), s.gridDone vf grid = false → exec (.gridRetire vf grid) s = .next s) ∧
  (∀ (vf grid : Nat) (s : State) (g : Grid), FMap.sorted (s.vf vf).grids = true → FMap.find? (s.vf vf).grids grid = some g →
    s.gridDone vf grid = true →
    ∃ s', exec (.gridRetire vf grid) s = .next s' ∧
      (g.parent = none → FMap.find? (s'.vf vf).grids grid = none) ∧
      ∀ q, g.parent = some q → q ≠ grid → FMap.find? (s'.vf vf).grids grid = some { g with retired := true }) ∧
  (∀ (p vf k slot q : Nat) (s s1 : State) (tm : Team) (e : LaunchEntry) (kern : Kernel) (ps : List Plan),
    s1 = s.modPartition p (fun x => { x with checked := s.pkg.clk }) →
    s1.dispatching p = some vf → s1.victim p = some (k, tm) → s1.allIdle p = true →
    (s1.donate (k / 8) (k % 8)).winner p vf 0 0 = some (slot, q) →
    (s1.donate (k / 8) (k % 8)).queuePlan p vf q 0 0 = some (e, kern, ps) →
    ps.all ((s1.donate (k / 8) (k % 8)).planReady vf kern) = true →
    exec (.blockedCheck p) s = .next ((s1.donate (k / 8) (k % 8)).bindWinner p vf 0 0)) ∧
  (∀ (p : Nat) (s s1 : State), s1 = s.modPartition p (fun x => { x with checked := s.pkg.clk }) → s1.allIdle p = false →
    exec (.blockedCheck p) s = .next s1) ∧
  (∀ (p : Nat) (s : State), (s.partition p).resident = none →
    exec (.donationTest p) s = .next (s.modPartition p fun x => { x with tested := s.pkg.clk })) ∧
  ∀ (p vf slot q sem n sig : Nat) (s : State) (l : LaunchQueue), (s.partition p).resident = some vf →
    (s.partition p).preempt.step = 0 → (s.partition p).mapping = [(slot, q)] → s.mapped vf q = true →
    FMap.find? (s.vf vf).queues q = some l → s.starved p vf l = some (sem, n) → s.signaller p vf sem = some sig →
    s.spareSlot p vf q = none →
    ∃ s', exec (.donationTest p) s = .next s' ∧ (s'.partition p).mapping = [(slot, sig)]

/-- THE SCHEDULER CORE'S RECORDS AND THE HOST'S (R49, R318, R319, R322): each record of the scheduler core's is answered by
its kind, and leaves the queue; a record of a host kind at the head moves to the host fault queue, from which the host
complex takes the oldest; where the resident kernel has given the ring an address, the record's 64 bytes stand at its
place of the ring. Rests on the model's choices of logs 31, 74, 99, 106, 166, 171. -/
def Obligations.RecordActs : Prop :=
  (∀ (p : Nat) (s : State), s.nextSched p = none → exec (.schedulerRecordClaim p) s = .next s) ∧
  (∀ (p : Nat) (s : State) (r : Record), s.nextSched p = some (r, .inform) →
    exec (.schedulerRecordClaim p) s = .next (s.takeRecord p r.seq)) ∧
  (∀ (p : Nat) (s : State) (r : Record), s.nextSched p = some (r, .replay) →
    exec (.schedulerRecordClaim p) s = .next ((s.takeRecord p r.seq).emit
      (.wakeRecord p ⟨BitVec.ofNat 32 r.seq, r.vf, r.core, r.cohort, r.slot, some .replay⟩ false))) ∧
  (∀ (p : Nat) (s : State) (r : Record), s.nextSched p = some (r, .refetch) →
    ∃ s', exec (.schedulerRecordClaim p) s = .next s' ∧
      FMap.find? (s'.core r.core).icache (icacheKey r.vf (r.address.toNat / 64)) = none ∧
      (s'.partition p).queue = (s.partition p).queue.filter (fun x => x.seq != r.seq) ∧
      .wakeRecord p ⟨BitVec.ofNat 32 r.seq, r.vf, r.core, r.cohort, r.slot, some .resume⟩ false ∈ s'.pending) ∧
  (∀ (p : Nat) (s : State) (r : Record), s.nextSched p = some (r, .kill) →
    exec (.schedulerRecordClaim p) s = .next (State.killGrid
      (if r.kind = 0x1E then (s.takeRecord p r.seq).toHost r else s.takeRecord p r.seq) r.vf r.grid)) ∧
  (∀ (p : Nat) (s : State) (r : Record) (tm : Team) (x : Plan), s.nextSched p = some (r, .prepare tm x) →
    exec (.schedulerRecordClaim p) s = .next (s.preparePlans tm.vf tm.kern [x])) ∧
  (∀ (p : Nat) (s : State) (r : Record) (tm : Team) (x : Plan), s.nextSched p = some (r, .relaunch tm x) →
    exec (.schedulerRecordClaim p) s = .next (((s.takeRecord p r.seq).toHost r).relaunch r tm x)) ∧
  (∀ (p : Nat) (s : State) (r : Record) (rest : List Record), (s.partition p).queue = r :: rest → r.host = true →
    s.pkg.hostQueue.length < 65536 →
    ∃ s', exec (.hostRecordMove p) s = .next s' ∧ s'.pkg.hostQueue = s.pkg.hostQueue ++ [r] ∧
      s'.pkg.hostTail = (s.pkg.hostTail + 1) % 65536 ∧ s'.pkg.hostHead = s.pkg.hostHead ∧
      (s'.partition p).queue = ((r :: rest).filter fun x => x.seq != r.seq) ∧
      (s.pkg.hostRing = none → s'.mem = s.mem) ∧
      ∀ a, s.pkg.hostRing = some a → a + 64 * 65536 ≤ 2 ^ 52 →
        let at_ := a + 64 * (s.pkg.hostTail % 65536)
        ∀ b, memByte s'.mem b = if at_ ≤ b ∧ b < at_ + 64 then r.bytes.getD (b - at_) 0 else memByte s.mem b) ∧
  (∀ (p : Nat) (s : State), ((s.partition p).queue.head?.map (·.host)) ≠ some true ∨ 65536 ≤ s.pkg.hostQueue.length →
    exec (.hostRecordMove p) s = .next s) ∧
  ∀ (s : State), exec .hostFaultQueueConsume s =
    .next (if s.pkg.hostQueue = [] then s
      else { s with pkg := { s.pkg with hostQueue := s.pkg.hostQueue.drop 1, hostHead := (s.pkg.hostHead + 1) % 65536 } })

/-- WAKE RECORDS (R26, R71, R320 to R324, R341): one that names no standing event, or an action that its event does not allow,
changes nothing and is counted; one for a stopped cohort is stored; resume and replay of an event without a log entry
end it, and a thread against which no other event stands is no longer parked, but one resumed past the last word parks
again, its address misaligned; a replay of lanes in an entry of their cohort's log orders that they be performed, their
event standing until then, and a resume takes them out of it, their tags complete; a wake of a copy command's event lets
the command go on, or ends it with status 6, and is stored while the command is saved.
Rests on the model's choices of logs 31, 51, 52, 92, 100, 149. -/
def Obligations.WakesAnswer : Prop :=
  (∀ (p : Nat) (w : WakeRec) (viaEret : Bool) (s : State), s.wokenEvent p w = none ∨ w.action = none →
    ∃ s', exec (.wakeRecord p w viaEret) s = .next s' ∧
      (s'.partition p).wakesDiscarded = (s.partition p).wakesDiscarded + 1 ∧ s'.threads = s.threads) ∧
  (∀ (p : Nat) (w : WakeRec) (viaEret : Bool) (s : State) (e : Standing) (a : WakeAction), s.wokenEvent p w = some e →
    w.action = some a → (viaEret = true ∧ e.host = false ∨ allows e.record.kind e.host a = false) →
    ∃ s', exec (.wakeRecord p w viaEret) s = .next s' ∧
      (s'.partition p).wakesDiscarded = (s.partition p).wakesDiscarded + 1 ∧ s'.threads = s.threads) ∧
  (∀ (p : Nat) (w : WakeRec) (s : State) (e : Standing) (a : WakeAction), s.wokenEvent p w = some e →
    w.action = some a → allows e.record.kind e.host a = true → e.record.kind ≠ 0x31 → s.wakeStored p e.record = true →
    exec (.wakeRecord p w false) s =
      .next (s.modVf w.vf fun v => { v with save := { v.save with wakes := v.save.wakes ++ [w] } })) ∧
  (∀ (p : Nat) (w : WakeRec) (s : State) (e : Standing), s.wokenEvent p w = some e → w.action = some .kill →
    allows e.record.kind e.host .kill = true → e.record.kind ≠ 0x31 → s.wakeStored p e.record = false →
    exec (.wakeRecord p w false) s = .next (s.killGrid e.record.vf e.record.grid)) ∧
  (∀ (p : Nat) (w : WakeRec) (s : State) (e : Standing) (a : WakeAction), s.wokenEvent p w = some e →
    w.action = some a → a ≠ .kill → allows e.record.kind e.host a = true → e.record.kind ≠ 0x31 →
    s.wakeStored p e.record = false → e.record.log = none →
    (∀ l x, l < 32 → s.thread? ⟨e.record.core, e.record.slot, e.record.access, e.record.cohort, l⟩ = some x →
      x.pc < wordLimit) →
    ∃ s', exec (.wakeRecord p w false) s = .next s' ∧ FMap.find? (s'.partition p).standing w.seq.toNat = none ∧
      ∀ l x, l < 32 → e.record.lanes.getLsbD l = true →
        s.thread? ⟨e.record.core, e.record.slot, e.record.access, e.record.cohort, l⟩ = some x →
        ∃ y, s'.thread? ⟨e.record.core, e.record.slot, e.record.access, e.record.cohort, l⟩ = some y ∧ asBefore x y ∧
          y.events = x.events.filter (· != w.seq.toNat) ∧ (y.events = [] → y.parked = false) ∧
          (y.events ≠ [] → y.parked = x.parked)) ∧
  (∀ (p : Nat) (w : WakeRec) (s : State) (e : Standing) (idx : Nat), s.wokenEvent p w = some e →
    e.record.kind ≠ 0x31 → s.wakeStored p e.record = false → e.record.log = some idx →
    let r := e.record
    (w.action = some .replay → allows r.kind e.host .replay = true →
      ∃ s', exec (.wakeRecord p w false) s = .next s' ∧ s'.threads = s.threads ∧ s'.cohorts = s.cohorts ∧
        FMap.find? (s'.partition p).standing w.seq.toNat = some { e with answered := true } ∧
        s'.pending = s.pending ++ [.replay r.core r.slot r.access r.cohort idx r.lanes]) ∧
    (w.action = some .resume → allows r.kind e.host .resume = true →
      exec (.wakeRecord p w false) s = .next ((s.resumeLanes r.cohortId idx r.lanes).endEvent p w.seq.toNat))) ∧
  (∀ (p : Nat) (w : WakeRec) (viaEret : Bool) (s : State) (e : Standing) (a : WakeAction), s.wokenEvent p w = some e →
    w.action = some a → allows e.record.kind e.host a = true → (viaEret = true → e.host = true) →
    e.record.kind = 0x31 →
    (s.waitingCmd p w.seq.toNat = none → exec (.wakeRecord p w viaEret) s =
      .next (s.modVf w.vf fun v => { v with save := { v.save with wakes := v.save.wakes ++ [w] } })) ∧
    ∀ cl id, s.waitingCmd p w.seq.toNat = some (cl, id) →
      (a = .replay → exec (.wakeRecord p w viaEret) s =
        .next ((s.endEvent p w.seq.toNat).modCmd cl id fun c => { c with waitSeq := none })) ∧
      (a ≠ .replay → exec (.wakeRecord p w viaEret) s = .next ((s.endEvent p w.seq.toNat).tceEnd cl id 6))) ∧
  ∀ (p : Nat) (w : WakeRec) (s : State) (e : Standing) (l : Nat) (x : Thread), s.wokenEvent p w = some e →
    w.action = some .resume → allows e.record.kind e.host .resume = true → e.record.kind ≠ 0x31 →
    s.wakeStored p e.record = false → e.record.log = none → l < 32 → e.record.lanes.getLsbD l = true →
    s.thread? ⟨e.record.core, e.record.slot, e.record.access, e.record.cohort, l⟩ = some x → wordLimit ≤ x.pc →
    x.events = [w.seq.toNat] → x.exited = false → x.exitIssued = false →
    ∃ s' y, exec (.wakeRecord p w false) s = .next s' ∧
      s'.thread? ⟨e.record.core, e.record.slot, e.record.access, e.record.cohort, l⟩ = some y ∧ y.pc = x.pc ∧
      y.parked = true ∧ y.events ≠ []

/-- What a replay order leaves after its own lanes: the orders of other cohorts that share a block with them are performed
with it (R173, R190). -/
def Sys2Proof.Claims.withMates (s0 s : State) (c : CohortId) (log : Nat) (lanes : LaneMask) : State :=
  (s0.mateReplays c log lanes).foldl (fun s m =>
    (s.taken (.replay m.1.core m.1.slot m.1.access m.1.cohort m.2.1 m.2.2)).replayLanes m.1 m.2.1 m.2.2) s

/-- REPLAY AND RESUME OF LOGGED LANES (R54, R173, R190, R323, R334, R335): an order for an entry that is gone changes nothing;
a lane that is performed again leaves its entry with its result for the entry's tag; one that raises an event stays,
reported anew; one whose condition does not hold waits on, its thread free; the lanes of a block act together.
Rests on the model's choices of logs 31, 52. -/
def Obligations.ReplaysPerform : Prop :=
  (∀ (core slot : Nat) (access : Bool) (cohort log : Nat) (lanes : LaneMask) (s : State),
    s.logEntry ⟨core, slot, access, cohort⟩ log = none → exec (.replay core slot access cohort log lanes) s = .next s) ∧
  (∀ (core slot : Nat) (access : Bool) (cohort log l : Nat) (s : State) (e : LogEntry),
    s.logEntry ⟨core, slot, access, cohort⟩ log = some e → blockInstr e.instr = false →
    s.mateReplays ⟨core, slot, access, cohort⟩ log (laneBit l) = []) ∧
  ∀ (core slot : Nat) (access : Bool) (cohort log l : Nat) (s : State) (e : LogEntry) (ops : LaneOps),
    let c : CohortId := ⟨core, slot, access, cohort⟩
    let t : Tid := ⟨core, slot, access, cohort, l⟩
    l < 32 → s.logEntry c log = some e → e.unfinished.getLsbD l = true → FMap.find? e.ops l = some ops →
    exec (.replay core slot access cohort log (laneBit l)) s = .next (withMates s (match laneStep e.instr t ops s with
      | .done r s2 =>
        (((s2.deliver t e.tag r).clearLanes c log (laneBit l)).endReplayed c log (laneBit l)).afterEntry c (laneBit l)
      | .later s2 => ((s2.clearLanes c log (laneBit l)).endReplayed c log (laneBit l)).afterEntry c (laneBit l)
      | .wait cause _ s2 => (((s2.addWait t e.instr ops e.pc e.age cause false).clearLanes c log (laneBit l)).endReplayed c
          log (laneBit l)).afterEntry c (laneBit l)
      | .event k d a s2 =>
        (((s2.endReplayed c log (laneBit l)).modEntry c log fun e => { e with own := e.own ||| laneBit l }).reportLanes
          e.instr log [⟨t, ops, some (k, d, a)⟩]).afterEntry c (laneBit l)) c log (laneBit l))

/-- THE PAGE SERVICE'S CLAIMS AND ANSWERS (R325, R326, R351 to R353, S1 to S9): a record joins the entry of its page or opens
one, which reads the directory; what the directory says of a page is learnt first by pages on their way home and by acts
on the home copy that waited for it; an entry of the directory that breaks its rule is declined; a page of the right
version is installed, one of another is asked for once more and then declined.
Rests on the model's choices of logs 31, 108, 111, 117. -/
def Sys2Proof.Claims.PageClaims : Prop :=
  (∀ (p : Nat) (s : State), s.nextClaim p = none → exec (.recordClaim p) s = .next s) ∧
  (∀ (p : Nat) (s : State) (r : Record) (e : Service), s.nextClaim p = some r → r.kind ≠ 0x30 →
    s.service? (s.hubOf p) r.vf r.detail (r.kind == 0x13) = some e →
    exec (.recordClaim p) s = .next ((s.takeRecord p r.seq).joinService p r e)) ∧
  (∀ (p : Nat) (s : State) (r : Record), s.nextClaim p = some r → r.kind = 0x10 →
    s.service? (s.hubOf p) r.vf r.detail false = none →
    let e : Service := ⟨r.vf, r.detail, p, r.address.toNat / 65536 * 65536, r.compartment, none, 2, s.pkg.clk, [r.seq], false,
      false, none, none, 0, s.pkg.clk⟩
    let s1 := (s.takeRecord p r.seq).modPartition p fun x => { x with standing := FMap.mod x.standing r.seq fun y =>
      { y with claimed := some s.pkg.clk } }
    exec (.recordClaim p) s = .next ((s1.modHub (s.hubOf p) fun h => { h with service := h.service ++ [e] }).directoryPhase
      (s.hubOf p) e)) ∧
  (∀ (hub vf : Nat) (key : DWord) (d : DirEntry) (s s1 : State) (e : Service), d.key = key → s1 = s.learn hub d →
    (s1.service? hub vf key false = some e → e.step = 2 →
      exec (.directoryEntryReceived hub vf key (some d)) s = .next ((s1.modHub hub fun h => h.cache d).entryPhase hub e d)) ∧
    (s1.service? hub vf key false = none → exec (.directoryEntryReceived hub vf key (some d)) s = .next s1)) ∧
  (∀ (hub vf : Nat) (key : DWord) (s : State) (e : Service), s.service? hub vf key false = some e → e.step = 2 →
    exec (.directoryEntryReceived hub vf key none) s = .next (s.declineService hub e 1)) ∧
  (∀ (hub : Nat) (d : DirEntry) (s s1 : State),
    s1 = (s.modHub hub fun h => { h with dirCache := h.dirCache.map fun x => if x.key == d.key then d else x }) →
    exec (.directoryUpdate hub d) s = .next (((s1.learn hub d).waitingOn hub d.key).foldl
      (fun s e => s.entryPhase hub e d) (s1.learn hub d)) ∧
    ((∀ w ∈ (s.hub hub).writeBacks, w.key ≠ d.key) → (∀ a ∈ (s.hub hub).homeActs, a.1 ≠ d.key) →
      (d.sharers ≠ 0 ∨ FMap.find? s.twins d.key.toNat = none) → s.waitingOn hub d.key = [] →
      exec (.directoryUpdate hub d) s = .next s1)) ∧
  (∀ (hub : Nat) (d : DirEntry) (s : State) (w : WriteBack) (v : BitVec 32), w ∈ (s.hub hub).writeBacks → w.key = d.key →
    w.version = some v → v ≠ d.version →
    (w.lastSent ≠ s.pkg.clk ∨ ∀ x ∈ (s.hub hub).writeBacks, x.key = d.key → x.version ≠ none) →
    w ∉ ((s.settleBacks hub d).hub hub).writeBacks) ∧
  (∀ (hub vf : Nat) (key : DWord) (s : State) (e : Service), s.service? hub vf key false = some e → e.step = 2 →
    e.lastSent + 20000 ≤ s.pkg.clk →
    exec (.directoryWaitTimeout hub vf key) s =
      .next ((s.modHub hub fun h => { h with dirCache := h.dirCache.filter fun d => d.key != key }).directoryPhase hub e)) ∧
  ∀ (hub vf f : Nat) (key : DWord) (v : BitVec 32) (page : List (Nat × Byte)) (bad : List Nat) (s : State) (e : Service)
    (d : DirEntry), s.service? hub vf key false = some e → e.step = 5 → e.entry = some d → e.frame = some f →
    (v = d.version → exec (.pageReceived hub vf key v page bad) s = .next ((s.recordFetch hub vf d).installPage hub e d f
      (page.foldl (fun m c => FMap.set m c.1 c.2 0) []) bad)) ∧
    (v ≠ d.version → e.retried = true → exec (.pageReceived hub vf key v page bad) s = .next (s.declineService hub e 4)) ∧
    (v ≠ d.version → e.retried = false → exec (.pageReceived hub vf key v page bad) s =
      .next ((s.modHub hub fun h => { h with dirCache := h.dirCache.filter fun d => d.key != key }).directoryPhase hub
        { e with retried := true, frame := none, step := 2 }))

/-- AN INSTALLED PAGE (R326, R330, S7 to S10): where the leaf still holds the value read, the page's bytes stand in its frame,
the leaf is local with the mode's permissions, every waiter's wake is on its way, and the entry is closed.
Rests on the model's choices of logs 109, 114. -/
def Sys2Proof.Claims.PagesInstall : Prop :=
  ∀ (s : State) (hub f a old : Nat) (e : Service) (d : DirEntry) (page : FMap Byte) (bad : List Nat),
    e.leaf = some (a, old) → s.entryAt a = old → f % 65536 = 0 → f + 65536 ≤ 2 ^ 52 → a + 16 ≤ 2 ^ 52 →
    (a + 16 ≤ f ∨ f + 65536 ≤ a) → FMap.sorted page = true →
    let s' := s.installPage hub e d f page bad
    (∀ o < 65536, memByte s'.mem (f + o) = FMap.getD page o 0) ∧
    (∀ k < 16, memByte s'.mem (a + k) = BitVec.ofNat 8
      (installedLeaf old d.mode f e.comp ((s.waiterRecords e).any fun r => r.kind == 0x12) / 2 ^ (8 * k))) ∧
    (∀ x, (x < f ∨ f + 65536 ≤ x) → (x < a ∨ a + 16 ≤ x) → memByte s'.mem x = memByte s.mem x) ∧
    ⟨e.vf, e.va / 65536, e.key, f, some d.version, false⟩ ∈ (s'.hub hub).held ∧
    (∀ r ∈ s.waiterRecords e, .wakeRecord e.partition (r.answer .replay) false ∈ s'.pending) ∧
    (∀ x ∈ (s'.hub hub).service, x.is e.vf e.key (e.step == 20) = false)

/-- PAGE EVENTS: claimed, and their pages installed. -/
def Obligations.PageFlow : Prop := PageClaims ∧ PagesInstall

/-- THE PAGE SERVICE'S TIMEOUTS (R326, R327, R330): an entry without a frame is declined after 20 µs, a source is asked again
every 20 µs from the claim on, from 200 µs on another, and after 2 ms the entry is declined; a page that has not come
home is sent again every 20 µs, which is the model's reading (log 111); after 50 ms a record's waiter has remote-timeout;
a storage error declines; a pin ends after 1 ms. Rests on the model's choices of logs 31, 112, 116. -/
def Obligations.PageTimeouts : Prop :=
  (∀ (hub vf : Nat) (key : DWord) (s : State) (e : Service), s.service? hub vf key false = some e → e.step = 3 →
    e.lastSent + 20000 ≤ s.pkg.clk →
    (s.freeFrame e.partition = none → s.victims hub e.partition = [] →
      exec (.frameWaitTimeout hub vf key) s = .next (s.declineService hub e 5)) ∧
    ∀ d, e.entry = some d → (s.freeFrame e.partition).isSome = true ∨ s.victims hub e.partition ≠ [] →
      exec (.frameWaitTimeout hub vf key) s = .next (s.framePhase hub e d)) ∧
  (∀ (hub vf : Nat) (key : DWord) (s : State) (e : Service), s.service? hub vf key false = some e → e.step = 5 →
    let due := e.claimed + ((e.lastSent - e.claimed) / 20000 + 1) * 20000
    (due ≤ s.pkg.clk → s.pkg.clk < e.claimed + 200000 → exec (.retryTimeout hub vf key) s =
      .next ((s.resendBacks hub vf key).setService hub { e with lastSent := s.pkg.clk })) ∧
    (s.pkg.clk < due ∨ e.claimed + 200000 ≤ s.pkg.clk →
      exec (.retryTimeout hub vf key) s = .next (s.resendBacks hub vf key)) ∧
    (due ≤ s.pkg.clk → e.claimed + 200000 ≤ s.pkg.clk → ∀ d, e.entry = some d →
      exec (.replicaTimeout hub vf key) s = .next (s.setService hub
        { e with lastSent := s.pkg.clk, source := nextSource (s.sources hub vf d) e.source })) ∧
    (s.pkg.clk < due ∨ s.pkg.clk < e.claimed + 200000 → exec (.replicaTimeout hub vf key) s = .next s)) ∧
  (∀ (hub vf : Nat) (key : DWord) (s : State),
    ((s.hub hub).goingHome vf key = false → s.resendBacks hub vf key = s) ∧
    ∀ w ∈ (s.hub hub).writeBacks, w.vf = vf → w.key = key →
      (if w.began + ((w.lastSent - w.began) / 20000 + 1) * 20000 ≤ s.pkg.clk then { w with lastSent := s.pkg.clk } else w) ∈
        ((s.resendBacks hub vf key).hub hub).writeBacks) ∧
  (∀ (hub vf : Nat) (key : DWord) (s : State) (e : Service), s.service? hub vf key false = some e →
    exec (.declineTimeout hub vf key) s =
      .next (if e.claimed + 2000000 ≤ s.pkg.clk then s.declineService hub e 7 else s)) ∧
  (∀ (hub vf : Nat) (key : DWord) (s : State) (e : Service) (d : DirEntry), s.service? hub vf key false = some e →
    e.step = 5 → e.entry = some d →
    exec (.storageErrorReport hub vf key) s = .next (if d.locKind = 2 then s.declineService hub e 3 else s)) ∧
  (∀ (p : Nat) (seq : BitVec 32) (s : State), s.remoteLate p seq.toNat = false → exec (.remoteTimeout p seq) s = .next s) ∧
  (∀ (p : Nat) (seq : BitVec 32) (s : State) (e : Standing), s.remoteLate p seq.toNat = true →
    FMap.find? (s.partition p).standing seq.toNat = some e →
    ∃ s' r, exec (.remoteTimeout p seq) s = .next s' ∧ r ∈ (s'.partition p).queue ∧ r.kind = 0x20 ∧ r.vf = e.record.vf ∧
      r.grid = e.record.grid ∧ r.team = e.record.team ∧ r.lanes = e.record.lanes ∧ r.seq = (s.partition p).seq.toNat) ∧
  ∀ (vf page : Nat) (s : State) (x : PinnedPage), x ∈ s.pinned → x.vf = vf → x.page = page →
    x.since + 1000000 ≤ s.pkg.clk →
    let late := s.pinned.filter fun y => y.vf = vf ∧ y.page = page ∧ y.since + 1000000 ≤ s.pkg.clk
    let s1 : State := { s with pinned := s.pinned.filter fun y => y ∉ late }
    x ∉ s1.pinned ∧ exec (.pinExpiry vf page) s = .next (match s.partOf vf with
      | some p => s1.retryFrames (s1.hubOf p)
      | none => s1)

/-- OTHER NODES AND WINDOWS (R218, R331, R332, R353, R366, R369): a node's query changes nothing here; a request, an
invalidation of an older version, a check-in and a write-back act on the page, its poison map and its directory entry
where nothing locks the page, and an act on a home copy whose entry this node does not know waits for it; the re-key of a
window makes an opening one ready and a closing one closed, and of one that a VF reset has closed what waits goes on.
Rests on the model's choices of logs 31, 111, 126. -/
def Obligations.PagesTravel : Prop :=
  (∀ (hub node : Nat) (key : DWord) (s : State), exec (.directoryQuery hub key node) s = .next s) ∧
  (∀ (hub vf rq rv : Nat) (key : DWord) (s : State),
    let own := fun d : DirEntry => { d with owner := rq, ownerVf := rv, version := d.version + 1 }
    (s.heldUnder hub key (some vf) = none → exec (.ownershipRequest hub vf key rq rv) s =
      .next (s.changeOwned hub key own)) ∧
    ∀ x, s.heldUnder hub key (some vf) = some x →
      (s.pageLocked hub x = true → exec (.ownershipRequest hub vf key rq rv) s = .next s) ∧
      (s.pageLocked hub x = false → exec (.ownershipRequest hub vf key rq rv) s =
        .next (((s.takePage hub x).2.2.2.changeOwned hub key own).retryFrames hub))) ∧
  (∀ (hub vf : Nat) (key : DWord) (v : BitVec 32) (s : State),
    (s.heldUnder hub key (some vf) = none → exec (.invalidate hub vf key v) s = .next s) ∧
    ∀ x, s.heldUnder hub key (some vf) = some x →
      (x.version = some v → exec (.invalidate hub vf key v) s = .next s) ∧
      (x.version ≠ some v → s.pageLocked hub x = true → exec (.invalidate hub vf key v) s =
        .next (s.emit (.invalidate hub vf key v))) ∧
      (x.version ≠ some v → s.pageLocked hub x = false → exec (.invalidate hub vf key v) s =
        .next ((s.evict hub x).retryFrames hub))) ∧
  (∀ (hub f : Nat) (key : DWord) (page : PageImage) (s : State) (d : DirEntry),
    s.known hub key = some d → (s.hub hub).homeFrame d = some f →
    let new := page.bytes.foldl (fun (m : FMap Byte) c => FMap.set m c.1 c.2 0) []
    let twin := FMap.getD s.twins key.toNat []
    exec (.checkIn hub key page true) s = .next ((s.endCheckOut hub key false).retryFrames hub) ∧
    exec (.checkIn hub key page false) s = .next (((s.homePage f (mergeIn (s.framePage f) twin new)
      (s.framePoison f ++ page.poison).eraseDups (changedLines twin new ++ page.poison).eraseDups).endCheckOut hub key true).retryFrames hub) ∧
    exec (.pageWriteBack hub key page) s = .next (((s.homePage f new page.poison (List.range 1024)).changeOwned hub key
      fun d => { d with version := d.version + 1 }).invalidateHere hub key)) ∧
  (∀ (hub : Nat) (key : DWord) (page : PageImage) (clean : Bool) (node : Nat) (s : State),
    let waits := fun a : HomeAct => s.modHub hub fun h => { h with homeActs := h.homeActs ++ [(key, a)] }
    (s.known hub key = none → exec (.checkIn hub key page clean) s = .next (waits (.checkIn page clean)) ∧
      exec (.pageWriteBack hub key page) s = .next (waits (.writeBack page)) ∧
      exec (.pageRequest hub key node) s = .next (waits (.request node))) ∧
    ∀ d, s.known hub key = some d → (s.hub hub).homeFrame d = none →
      exec (.checkIn hub key page clean) s = .next s ∧ exec (.pageWriteBack hub key page) s = .next s ∧
        exec (.pageRequest hub key node) s = .next s) ∧
  (∀ (f : Nat) (page : FMap Byte) (poison ls : List Nat) (s : State), f % 65536 = 0 → FMap.sorted page = true →
    let s' := s.homePage f page poison ls
    (∀ o < 65536, memByte s'.mem (f + o) = FMap.getD page o 0) ∧
    (∀ a, a < f ∨ f + 65536 ≤ a → memByte s'.mem a = memByte s.mem a) ∧
    ∀ i < 1024, s'.poisonedLine (f / 64 + i) = poison.contains i) ∧
  (∀ (hub f node : Nat) (key : DWord) (s : State) (d : DirEntry), s.known hub key = some d →
    (s.hub hub).homeFrame d = some f →
    (d.state ≠ 1 → exec (.pageRequest hub key node) s = .next s) ∧
    (d.state = 1 → d.mode ≠ 0 ∨ s.heldUnder hub key none = none → exec (.pageRequest hub key node) s =
      .next ((s.keepTwin hub d).changeOwned hub key fun x =>
        if x.mode = 0 then { x with owner := node } else { x with sharers := x.sharers + 1 })) ∧
    ∀ x, d.state = 1 → d.mode = 0 → s.heldUnder hub key none = some x →
      exec (.pageRequest hub key node) s = .next (if s.pageLocked hub x then s
        else ((s.takePage hub x).2.2.2.changeOwned hub key fun d =>
          { d with owner := node, version := d.version + 1 }).retryFrames hub)) ∧
  ∀ (idx : Nat) (s : State) (w : Window), FMap.find? s.pkg.windows idx = some w →
    (w.state = 1 → w.closeNext = false → ∃ s', exec (.windowRekeyComplete idx) s = .next s' ∧
      FMap.find? s'.pkg.windows idx = some { w with state := 2 }) ∧
    (w.state = 1 → w.closeNext = true → exec (.windowRekeyComplete idx) s =
      .next (((s.modWindow idx fun w => { w with state := 2 }).windowClosing idx).wakeWindow idx)) ∧
    (w.state ≠ 1 → w.state ≠ 3 → w.state ≠ 0 → exec (.windowRekeyComplete idx) s = .next s) ∧
    (w.state = 0 → exec (.windowRekeyComplete idx) s = .next ((s.wakeWindow idx).answerWindow idx)) ∧
    (w.state = 3 → ∃ s', exec (.windowRekeyComplete idx) s = .next s' ∧
      FMap.find? s'.pkg.windows idx = some { w with state := 0 } ∧
      (w.zeroOnClose = true → ∀ f ∈ w.frames, ∀ a, f ≤ a → a < f + 65536 → memByte s'.mem a = 0))

/-- PRE-EMPTION (R25, R336, R340): it starts the stop of the resident VF; an engine at its stop unit acknowledges, one
that is not is not heard; a cluster whose engines have stopped is saved; a restore makes its VF resident; a missed
deadline is remembered, and after 100 ms the VF is reset. Rests on the model's choices of logs 31, 118, 119, 124. -/
def Sys2Proof.Claims.PreemptActs : Prop :=
  (∀ (p vf : Nat) (s : State), s.dispatching p = some vf →
    ∃ s', exec (.preemptStart p) s = .next s' ∧ (s'.partition p).preempt = ⟨2, vf, false, s.pkg.clk, [], []⟩ ∧
      (s'.partition p).missed = [] ∧ s'.threads = s.threads ∧ s'.mem = s.mem) ∧
  (∀ (p : Nat) (s : State), s.dispatching p = none → exec (.preemptStart p) s = .next s) ∧
  (∀ (p unit : Nat) (engine : Engine) (s : State), s.ackOk p (engineCode engine) unit = false →
    exec (.engineStopAck p engine unit) s = .next s) ∧
  (∀ (p unit : Nat) (engine : Engine) (s : State), s.ackOk p (engineCode engine) unit = true → engine ≠ .banks →
    let x := (s.partition p).preempt
    let s1 := s.modPartition p fun q => { q with preempt := { x with acks := x.acks ++ [(engineCode engine, unit)] } }
    exec (.engineStopAck p engine unit) s = .next (s1.finishStop p)) ∧
  (∀ (p cl : Nat) (s : State), s.ackOk p 6 cl = true →
    let s1 := s.drainBanks cl (s.partition p).preempt.vf
    exec (.engineStopAck p .banks cl) s = .next ((s1.modPreempt p fun x => { x with acks := x.acks ++ [(6, cl)] }).finishStop p)) ∧
  (∀ (p cl : Nat) (s : State), s.saveOk p cl = true →
    ∃ s', exec (.clusterSave p cl) s = .next s' ∧ (∀ e ∈ s'.scratch, e.1 / 16384 ≠ cl) ∧
      ((s'.cluster cl).tce = [] ∧ (s'.cluster cl).fifos = [] ∧ (s'.cluster cl).locks = []) ∧
      ∀ i < 4, (s'.core (4 * cl + i)).l1 = [] ∧ (s'.core (4 * cl + i)).icache = []) ∧
  (∀ (p cl unit : Nat) (engine : Engine) (s : State),
    (s.saveOk p cl = false → exec (.clusterSave p cl) s = .next s) ∧
    (s.tceLate p cl = false → exec (.tceDeadline p cl) s = .next s) ∧
    (s.missOk p (engineCode engine) unit = false → exec (.deadlineMiss p engine unit) s = .next s) ∧
    (s.preemptLate p = false → exec (.preemptTimeout p) s = .next s)) ∧
  (∀ (p vf : Nat) (s : State), s.restoreOk p vf = true →
    ∃ s', exec (.restore p vf) s = .next s' ∧ (s'.partition p).resident = some vf ∧
      (s'.partition p).frozen = (s.vf vf).haltAtRestore) ∧
  (∀ (p vf : Nat) (s : State), s.restoreOk p vf = false → exec (.restore p vf) s = .next s) ∧
  (∀ (p cl : Nat) (s : State), s.tceLate p cl = true →
    let s1 := (s.cluster cl).tce.foldl (fun s e => if e.2.waitSeq.isNone then s.tceStopBoxes cl e.1 e.2 else s) s
    exec (.tceDeadline p cl) s = .next ((s1.modPreempt p fun x => { x with acks := x.acks ++ [(4, cl)] }).finishStop p)) ∧
  (∀ (p unit : Nat) (engine : Engine) (s : State), s.missOk p (engineCode engine) unit = true →
    exec (.deadlineMiss p engine unit) s =
      .next (s.modPartition p fun x => { x with missed := x.missed ++ [(engineCode engine, unit)] })) ∧
  ∀ (p : Nat) (s : State), s.preemptLate p = true →
    exec (.preemptTimeout p) s = .next (s.resetVf (s.partition p).preempt.vf)

/-- A STOP THAT IS COMPLETE (R25, R336, R415): with every engine acknowledged a halt freezes its VF in place; a pre-emption
whose clusters are all saved leaves the partition without a resident VF, its queues unmapped.
Rests on the model's choices of log 120. -/
def Sys2Proof.Claims.StopsFinish : Prop :=
  ∀ (p : Nat) (s : State), (s.partition p).preempt.stopping = true →
    (s.partition p).preempt.acked (s.enginesOf p) = true →
    ((s.partition p).preempt.halt = true → ((s.finishStop p).partition p).frozen = true ∧
      ((s.finishStop p).partition p).resident = (s.partition p).resident ∧
      ((s.finishStop p).partition p).preempt = Preempt.none) ∧
    ((s.partition p).preempt.halt = false → (∀ c ∈ s.clustersOf p, c ∈ (s.partition p).preempt.saved) →
      ((s.finishStop p).partition p).resident = none ∧ ((s.finishStop p).partition p).preempt = Preempt.none ∧
      ((s.finishStop p).partition p).mapping = [])

/-- WHAT A SAVE OF A CLUSTER LEAVES IN THE SAVE AREA (R203, R336 to R338): each valid scratch line, with its age, which is 0
where a fresh line older than 20 µs has been renewed, and Expired where it is stale; the bank modes; the FIFOs, with the
ages of their entries; the copy commands; and each team, with its slot, and, where no store is in flight, the
registers, tags and PD counts of its threads, its cohorts, requests and tiles. How the saved bytes lie in the VF's memory
no rule says (log 173). Rests on the model's choices of log 121. -/
def Sys2Proof.Claims.ClusterSaves : Prop :=
  ∀ (p cl : Nat) (s : State), s.saveOk p cl = true →
    let vf := (s.partition p).preempt.vf
    ∃ s', exec (.clusterSave p cl) s = .next s' ∧
      let area := (s'.vf vf).save
      (∀ e ∈ s.scratch, e.1 / 16384 = cl → e.2.valid = true →
        ∃ x ∈ area.lines, x.cluster = s.relCluster p cl ∧ x.line = e.1 % 16384 ∧ x.data.bytes = e.2.bytes ∧
          x.data.valid = true ∧ (s.stale cl e.2 = true → x.data.expired = true ∧ x.age = s.ageOf e.2.stamp) ∧
          (s.stale cl e.2 = false → x.data.expired = false ∧
            x.age = if 20 < s.ageOf e.2.stamp then 0 else s.ageOf e.2.stamp)) ∧
      (∀ e ∈ (s.cluster cl).banks, e.2.mode = 1 ∨ e.2.mode = 2 → (s.relCluster p cl, e.1, e.2.mode) ∈ area.banks) ∧
      (∀ e ∈ (s.cluster cl).fifos, ∃ f, (s.relCluster p cl, e.1, f) ∈ area.fifos ∧ f.vf = e.2.vf ∧ f.bank = e.2.bank ∧
        f.entries = e.2.entries.map fun y => { y with stamp := s.us - y.stamp }) ∧
      ∀ core slot tm, core / 4 = cl → slot < 8 → s.team? core slot = some tm → tm.vf = vf →
        (FMap.sorted (s.cluster cl).tce = true → ∀ e ∈ s.slotCmds core slot,
          (s.relCluster tm.partition cl, e.1, e.2.pack (s.relCore tm.partition core)) ∈ area.tce) ∧
        ∃ t ∈ area.teams, t.team = tm ∧ t.core = s.relCore tm.partition core ∧ t.slot = slot ∧ t.donated = false ∧
          t.state = (s.slot core slot).state ∧ t.record = (s.slot core slot).record ∧ t.queued = (s.slot core slot).queued ∧
          (s.stores = [] → (s.slot core slot).state ≠ .draining →
            t.threads = ((s.threads.filter fun e => e.1 / 2048 == teamKey core slot).map fun e => (e.1 % 2048, e.2.pack)) ∧
            (∀ e ∈ s.threads, e.1 / 2048 = teamKey core slot → s.cycle core < e.2.readyAt →
              (e.1 % 2048, e.2.readyAt - s.cycle core) ∈ t.pdLeft) ∧
            t.cohorts = ((s.cohorts.filter fun e => e.1 / 64 == teamKey core slot).map fun e => (e.1 % 64, e.2.pack)) ∧
            t.waits = s.waits.filter (fun w => w.2.ofSlot core slot) ∧
            ((∀ j, j ≠ slot → s.team? core j = none) → t.tiles = s.teamTiles core tm))

/-- The machine of a restore before its teams return: the partition is the VF's, the bank modes and FIFOs are there. -/
def Sys2Proof.Claims.entered (s : State) (p vf : Nat) : State :=
  let s1 := (((s.coresOf p).foldl (fun s c => s.enterCore c vf) (s.clearWays p vf)).modPartition p fun x =>
    { x with resident := some vf, pointer := if (s.vf vf).seen then (s.vf vf).save.pointer else 0, frozen := false
             mapping := [] }).modVf vf fun v => { v with seen := true, haltAtRestore := false }
  (s1.restoreModes p vf).restoreFifos p vf

/-- WHAT A RESTORE BRINGS BACK (R96, R201, R207, R313, R340): each bank has its mode and each FIFO its entries with the ages
that they had; where nothing waits for the restore but saved teams, each team that its core accepts stands in its slot,
its threads with what they were saved with and the PD counts that they had left, its lines with their ages, and the
bank modes and FIFOs leave the save area. Rests on the model's choices of logs 92, 121, 125. -/
def Sys2Proof.Claims.TeamsReturn : Prop :=
  (∀ (p vf : Nat) (s : State), s.restoreOk p vf = true → exec (.restore p vf) s =
    .next (let s2 := ((entered s p vf).restoreTeams p vf).catchUp p vf
      if (s.vf vf).haltAtRestore then s2.modPartition p fun x => { x with frozen := true } else s2.resumeDispatch p vf)) ∧
  (∀ (p vf cl : Nat) (s : State) (x : Nat × Nat × Nat), x ∈ (s.vf vf).save.banks → s.clusterOf p x.1 = some cl →
    (∀ y ∈ (s.vf vf).save.banks, s.clusterOf p y.1 = some cl → y.2.1 = x.2.1 → y = x) →
    (s.bank cl x.2.1).mode ≠ 3 → (entered s p vf).bank cl x.2.1 = ⟨x.2.2, false, 0⟩) ∧
  (∀ (p vf cl : Nat) (s : State) (x : Nat × Nat × Fifo), x ∈ (s.vf vf).save.fifos → s.clusterOf p x.1 = some cl →
    (∀ y ∈ (s.vf vf).save.fifos, s.clusterOf p y.1 = some cl → y.2.1 = x.2.1 → y = x) →
    FMap.find? ((entered s p vf).cluster cl).fifos x.2.1 = some { x.2.2 with entries := x.2.2.entries.map fun e =>
      { e with stamp := s.us - e.stamp, since := s.pkg.clk } }) ∧
  ∀ (p vf : Nat) (s : State), s.restoreOk p vf = true → s.waits = [] → (s.vf vf).heldLaunches = [] →
    (s.vf vf).arrivals = [] → (s.vf vf).save.wakes = [] → (s.vf vf).save.tce = [] →
    let ts := (entered s p vf).returning p vf
    (∀ y ∈ ts, y.1.waits = [] ∧ y.1.slot < 8 ∧ FMap.sorted y.1.threads = true ∧ ∀ e ∈ y.1.threads, e.1 < 2048) →
    (∀ z ∈ (s.vf vf).save.lines, z.line < 16384) →
    ∃ s', exec (.restore p vf) s = .next s' ∧ (s'.vf vf).save.banks = [] ∧ (s'.vf vf).save.fifos = [] ∧
      ∀ t c, (t, c) ∈ ts → (∀ y ∈ ts, y.2 = c → y.1.slot = t.slot → y = (t, c)) →
        s'.team? c t.slot = some t.team ∧ (s'.slot c t.slot).state = t.state ∧
        (∀ j x, FMap.find? t.threads j = some x → FMap.find? s'.threads (teamKey c t.slot * 2048 + j) =
          some { x with readyAt := s.cycle c + FMap.getD t.pdLeft j 0 }) ∧
        ∀ x ∈ (s.vf vf).save.lines, t.owns x = true →
          (∀ y ∈ ts, y.2 / 4 = c / 4 → ∀ z ∈ (s.vf vf).save.lines, y.1.owns z = true → z.line = x.line → z = x) →
          FMap.find? s'.scratch (c / 4 * 16384 + x.line) = some { x.data with
            stamp := (s.nowUs + 65536 - x.age % 65536) % 65536, since := s.pkg.clk }

/-- PRE-EMPTION: its acts, the end of a stop, what a save leaves and what a restore brings back. -/
def Obligations.Preemption : Prop := PreemptActs ∧ StopsFinish ∧ ClusterSaves ∧ TeamsReturn

/-- THE COPY ENGINE (R276 to R285): the oldest queued command is read and checked: a descriptor that breaks its rules ends it
with status 2, a barrier that is none with 7, a range that fails with 3; else its locks stand and it is accepted; what is
left of a box's writes is performed in memory and scratch, its bit set and its bytes counted on the command's barrier by
the procedure of R372, and the last one ends the command with its locks.
Rests on the model's choices of logs 31, 89, 90, 91, 164. -/
def Sys2Proof.Claims.CopyEngineActs : Prop :=
  (∀ (cl id : Nat) (s s2 : State) (c : TceCmd) (bs : List Byte), s.tceStartable cl = some (id, c) →
    s.tceStopped cl c.vf true = false → s.readRecord c (BitVec.ofNat 64 c.descAddr) = (.ok bs, s2) →
    let d := Desc.of bs
    (d.ok c.word = false → exec (.tceCommandStart cl) s = .next (s2.tceEnd cl id 2)) ∧
    (d.ok c.word = true → s2.barPlaces c d = none → exec (.tceCommandStart cl) s = .next (s2.tceEnd cl id 7)) ∧
    (d.ok c.word = true → (s2.barPlaces c d).isSome = true → s2.rangesOk c d = false →
      exec (.tceCommandStart cl) s = .next (s2.tceEnd cl id 3)) ∧
    (d.ok c.word = true → (s2.barPlaces c d).isSome = true → s2.rangesOk c d = true →
      (s2.unlock cl id).lockAll (s2.locksOf c id d) = none → exec (.tceCommandStart cl) s = .next s2) ∧
    ∀ s3, d.ok c.word = true → (s2.barPlaces c d).isSome = true → s2.rangesOk c d = true →
      (s2.unlock cl id).lockAll (s2.locksOf c id d) = some s3 →
      (d.hadamard = false → exec (.tceCommandStart cl) s = .next (s3.tceAccept cl id c d bs [])) ∧
      ∀ h s4, d.hadamard = true → s3.readRecord c d.header = (.ok h, s4) →
        exec (.tceCommandStart cl) s = .next (if (h.drop 32).any (· != 0) then s4.tceEnd cl id 2
          else s4.tceAccept cl id c d bs h)) ∧
  (∀ (cl : Nat) (s : State), s.tceStartable cl = none → exec (.tceCommandStart cl) s = .next s) ∧
  (∀ (cl id b : Nat) (s s2 : State) (c : TceCmd) (e : Halted), FMap.find? (s.cluster cl).tce id = some c →
    c.accepted = true → c.waitSeq = none → b ∈ c.flying → s.tceStopped cl c.vf false = false →
    s.boxWrites c (Desc.of c.desc) (c.flight b) = (.error e, s2) →
    exec (.tceBoxComplete cl id b) s = .next (s2.tceHalt cl id c false e)) ∧
  ∀ (cl id b : Nat) (s s2 : State) (c : TceCmd) (ws : List (Place × NBytes)) (clamp : Bool),
    let d := Desc.of c.desc
    let x := c.flight b
    FMap.find? (s.cluster cl).tce id = some c → c.accepted = true → c.waitSeq = none → b ∈ c.flying →
    s.tceStopped cl c.vf false = false → s.boxWrites c d x = (.ok (ws, clamp), s2) →
    let s3 := s2.boxLands c x ws false
    ∃ s', exec (.tceBoxComplete cl id b) s = .next s' ∧
      (if c.done.length + 1 = d.boxes then
        FMap.find? (s'.cluster cl).tce id = none ∧ ∀ k, ∀ l ∈ (s'.cluster k).locks, ¬(l.command = id ∧ l.owner = cl)
      else ∃ c', FMap.find? (s'.cluster cl).tce id = some c' ∧ c'.done = c.done ++ [b] ∧
        c'.saturated = (c.saturated || clamp) ∧ c'.poisoned = (c.poisoned || spoiltBox ws)) ∧
      (c.barrier = none → s'.mem = s3.mem ∧ s'.poison = s3.poison ∧ s'.scratch = s3.scratch) ∧
      (∀ cl2 off bs, c.barrier = none → x.written = [] → picked (fun _ => true) ws = [(.scr cl2 off, bs)] → bs ≠ [] →
        off % 512 + bs.length ≤ 512 → (s2.scrLine cl2 off).bytes.length = 512 →
        (∀ w ∈ s2.waits, w.2.cause ≠ .granule cl2 (off / 512)) →
        ∀ k < bs.length, (s'.scrLine cl2 off).bytes[off % 512 + k]? = (bs.map Prod.fst)[k]?) ∧
      ∀ xb cl2 off quad, c.barrier = some xb → c.word ≠ .mcast →
        s3.region c.tid (BitVec.ofNat 64 xb) = .scratch cl2 off quad → off % 16 = 0 →
        (s3.scrLine cl2 off).bytes.length = 512 → s3.barrierAt cl2 off = true →
        s3.stale cl2 (s3.scrLine cl2 off) = false →
        let r := (s3.barAt cl2 off).apply 0 (d.count c.word) 0 false
        r.completed = false → s'.barAt cl2 off = r.bar ∧ s'.mem = s3.mem

/-- A COMMAND'S STATUS WORD (R284, R285): a command that ends leaves the engine, its locks go, and its tag will receive the
code, the poison and saturation bits and the number of completed boxes. Rests on the model's choices of log 89. -/
def Sys2Proof.Claims.CommandsEnd : Prop :=
  ∀ (s : State) (cl id k : Nat) (c : TceCmd) (x : Thread) (g : Tag), FMap.find? (s.cluster cl).tce id = some c →
    s.thread? c.tid = some x → FMap.find? x.tags c.tag = some g →
    ∃ y, (s.tceEnd cl id k).thread? c.tid = some y ∧
      FMap.find? y.tags c.tag = some { g with stage := .performed ⟨[BitVec.ofNat 32 (k * 2 ^ 20 +
        (if c.poisoned then 2 ^ 15 else 0) + (if c.saturated then 2 ^ 14 else 0) + c.done.length)], 0, none⟩ } ∧
      FMap.find? ((s.tceEnd cl id k).cluster cl).tce id = none ∧
      ∀ j, ∀ l ∈ ((s.tceEnd cl id k).cluster j).locks, ¬(l.command = id ∧ l.owner = cl)

/-- THE COPY ENGINES: their acts, and the end of a command. -/
def Obligations.CopyEngines : Prop := CopyEngineActs ∧ CommandsEnd

/-- THE HARDWARE LOOPS (R104, R105, R198, R201, R202, R206, R213, R388, R405, R407): RETN never falls below 40,000; the aging
scan marks every stale line; the sweeper writes back and drops a line that is old, whose written bytes then stand in home
memory; a line past its limit is lost, its dirty sectors poisoned; a drained bank enters its mode; a re-encryption ends;
the arbiter grants, an island with a cluster above 100 °C among the hot ones, and the loops set clock and guard band.
Rests on the model's choices of logs 6, 31, 129, 130, 131. -/
def Obligations.LoopActs : Prop :=
  (∀ (cl : Nat) (ns : BitVec 32) (tj : BitVec 16) (s : State),
    ∃ s', exec (.retnUpdate cl ns tj) s = .next s' ∧ (s'.cluster cl).retn = max ns.toNat 40000 ∧ (s'.cluster cl).tj = tj ∧
      s'.scratch = s.scratch ∧ s'.mem = s.mem) ∧
  (∀ (cl line : Nat) (s : State) (l : ScrLine), line < 16384 → FMap.find? s.scratch (cl * 16384 + line) = some l →
    l.valid = true → ∃ s' l', exec (.agingScan cl) s = .next s' ∧
      FMap.find? s'.scratch (cl * 16384 + line) = some l' ∧ l'.expired = (l.expired || s.stale cl l) ∧ l'.bytes = l.bytes ∧
      l'.full = l.full) ∧
  (∀ (cl : Nat) (s : State), ∃ s', exec (.agingScan cl) s = .next s' ∧ (s'.cluster cl).scanned = s.pkg.clk ∧
    s'.cc = s.cc ∧ s'.mem = s.mem) ∧
  (∀ (cl line : Nat) (s : State) (l : CcLine), line < 2 ^ 43 → FMap.find? s.cc (cl * 2 ^ 60 + line) = some l →
    let age := s.us - l.stamp / 1000
    let limit := s.retnLow cl l.stamp / 1000
    ((s.cluster cl).retn / 2000 ≤ age → age < limit →
      ∃ s', exec (.sweeperVisit cl line) s = .next s' ∧ FMap.find? s'.cc (cl * 2 ^ 60 + line) = none ∧
        s'.scratch = s.scratch ∧
        (∀ i < 512, l.dirty.getLsbD i = true → i < l.bytes.length → memByte s'.mem (line * 512 + i) = l.bytes.getD i 0) ∧
        (∀ i < 512, l.dirty.getLsbD i = false → memByte s'.mem (line * 512 + i) = memByte s.mem (line * 512 + i)) ∧
        ∀ a, a / 512 ≠ line → memByte s'.mem a = memByte s.mem a) ∧
    (age < (s.cluster cl).retn / 2000 ∨ limit ≤ age → exec (.sweeperVisit cl line) s = .next s) ∧
    (limit ≤ age →
      ∃ s', exec (.retentionLoss cl line) s = .next s' ∧ FMap.find? s'.cc (cl * 2 ^ 60 + line) = none ∧
        (s'.cluster cl).retentionLoss = satInc (s.cluster cl).retentionLoss ∧
        ∀ k < 8, l.dirty.extractLsb' (64 * k) 64 ≠ 0 → s'.poisonedLine (line * 8 + k) = true) ∧
    (age < limit → exec (.retentionLoss cl line) s = .next s)) ∧
  (∀ (cl b : Nat) (s : State), (s.bank cl b).switching = false → exec (.bankModeDrainComplete cl b) s = .next s) ∧
  (∀ (cl b : Nat) (s : State), (s.bank cl b).switching = true →
    ∃ s', exec (.bankModeDrainComplete cl b) s = .next s' ∧ (s'.bank cl b).switching = false ∧
      (s'.bank cl b).mode = (s.bank cl b).next) ∧
  (∀ (leaf : Nat) (s : State) (x : TreeLeaf), FMap.find? s.tree leaf = some x →
    exec (.reencryptComplete leaf) s = .next { s with tree := FMap.put s.tree leaf { x with busy := false } }) ∧
  (∀ (demand drawn : List (BitVec 32)) (hot : List Nat) (inlet i : Nat) (s : State), i < 32 →
    let g := (grants s.pkg.budget inlet s.draws demand (s.hotIslands ++ hot)).getD i 0
    (∀ e ∈ s.clusters, 800 < e.2.tj.toInt → s.islandOf (4 * e.1) ∈ s.hotIslands) ∧
    ∃ s', exec (.powerGrant demand drawn hot inlet) s = .next s' ∧ (s'.island i).grant = BitVec.ofNat 32 g ∧
      (s'.island i).drawn = drawn.getD i 0 ∧ (s'.island i).mhz = (s.island i).mhz ∧
      (s'.island i).limited = if g < (demand.getD i 0).toNat then satInc (s.island i).limited else (s.island i).limited) ∧
  (∀ (i : Nat) (s : State), i < 24 →
    ∃ s', exec (.frequencyLoop i) s = .next s' ∧ (s'.island i).grant = (s.island i).grant ∧
      (s'.island i).mhz = if (s.island i).grant.toNat < (s.island i).demand.toNat then fitClock i (s.island i).grant.toNat else 1250) ∧
  ∀ (i mv : Nat) (s : State), ∃ s', exec (.droopLoop i mv) s = .next s' ∧ (s'.island i).guardBand = mv ∧
    (s'.island i).mhz = (s.island i).mhz

/-- THE RESETS AND THE START (R9, R217, R400, R402): power-on and module reset leave no team and memory without a listed byte,
and a module reset leaves CLK running; a VF reset leaves none of the VF's teams and threads, zeroes its memory, and closes
its windows, the key of each discarded; a step of Almanac that passes is recorded. What memory reads after power-on is
the model's choice (log 7).
Rests on the model's choices of logs 31, 126, 127, 128. -/
def Obligations.ResetActs : Prop :=
  (∀ (s : State), ∃ s', exec .powerOn s = .next s' ∧ s'.teams = [] ∧ s'.threads = [] ∧ s'.mem = [] ∧ s'.scratch = [] ∧
    s'.partitions = [] ∧ s'.pkg.clk = 0 ∧ s'.pkg.starts = 0) ∧
  (∀ (s : State), ∃ s', exec .moduleReset s = .next s' ∧ s'.teams = [] ∧ s'.threads = [] ∧ s'.mem = [] ∧ s'.scratch = [] ∧
    s'.cc = [] ∧
    s'.pkg.clk = s.pkg.clk ∧ s'.pkg.measurements = s.pkg.measurements ∧ s'.pkg.hallLog = s.pkg.hallLog) ∧
  (∀ (vf : Nat) (s : State), ∃ s', exec (.vfReset vf) s = .next s' ∧ (∀ e ∈ s'.stores, e.2.vf ≠ vf) ∧
    (∀ c ∈ s'.mem, inRanges (s.vfSpace vf) c.1 = false) ∧ (s'.vf vf).queues = [] ∧ (s'.vf vf).grids = [] ∧
    (s'.vf vf).sems = [] ∧ (s'.vf vf).save = SaveArea.empty ∧ (s'.vf vf).partition = (s.vf vf).partition ∧
    (s'.vf vf).wayMask = (s.vf vf).wayMask ∧ (∀ e ∈ s'.teams, e.2.vf ≠ vf) ∧
    (∀ core slot tm, slot < 8 → s.team? core slot = some tm → tm.vf = vf → ∀ e ∈ s'.threads, e.1 / 2048 ≠ teamKey core slot) ∧
    ∀ idx w, FMap.sorted s.pkg.windows = true → FMap.find? s.pkg.windows idx = some w → w.ownerVf = vf → w.state ≠ 0 →
      ∃ w', FMap.find? s'.pkg.windows idx = some w' ∧ w'.state = 0 ∧ w'.keyGen = w.keyGen + 1) ∧
  (∀ (b : Bool) (s : State) (step inst : Nat), stepAt s.pkg.almanacAt almanacSteps = some (step, inst) →
    s.pkg.inService = true → (s.almRecord step inst).outcome = 0 →
    ∃ s' r, exec (.almanacStep true b) s = .next s' ∧ s'.pkg.almanacAt = s.pkg.almanacAt + 1 ∧ r ∈ s'.pkg.almanac ∧
      r.step = step ∧ r.inst = inst ∧ r.outcome = 1 ∧ 1 ≤ r.attempts ∧ r.attempts ≤ 3) ∧
  ∀ (a b : Bool) (s : State), s.pkg.inService = false → exec (.almanacStep a b) s = .next s

/-- THE MANAGEMENT WINDOW (R403, R408, R409, R412, R415): without an attached host its commands do not come; while a signed
exchange is unfinished a command is ignored and counted; the external host may use the commands that are open to it;
each other command has its effect and its status, and a DataLen above 32,768 is malformed.
Rests on the model's choices of logs 137, 138, 141, 167, 170. -/
def Sys2Proof.Claims.ManagementActs : Prop :=
  (∀ (s : State) (k : Nat) (target : DWord) (len w vf va n p first : Nat) (q : TableWriteReq) (wr : WakeRec) (x : SpdmReq),
    s.hostAttached = false → x ≠ .sign →
    ∀ i ∈ [Instr.stateRead (.external k) target len, .inventoryRead (.external k), .tableWrite (.external k) q, .wake (.external k) p wr,
        .shootDown (.external k) vf va n, .powerBudget (.external k) w, .unfreeze (.external k) vf, .kill (.external k) vf,
        .hallmarkLogRead (.external k) first, .almanacRecordsClear (.external k), .coldReset (.external k), .spdm (.external k) x],
      exec i s = .next s) ∧
  (∀ (r : Reader) (s : State) (target : DWord) (len w vf va n p first : Nat) (q : TableWriteReq) (wr : WakeRec) (x : SpdmReq),
    s.pkg.mgmt.bound.isSome = true → (r.outside = true → s.hostAttached = true) → x ≠ .sign →
    ∀ i ∈ [Instr.stateRead r target len, .inventoryRead r, .tableWrite r q, .wake r p wr, .shootDown r vf va n,
        .powerBudget r w, .unfreeze r vf, .kill r vf, .hallmarkLogRead r first, .almanacRecordsClear r, .coldReset r, .spdm r x],
      exec i s = .next (s.modMgmt fun m => { m with ignored := m.ignored + 1 })) ∧
  (∀ (s : State) (k w vf va n p : Nat) (q : TableWriteReq) (wr : WakeRec), s.pkg.mgmt.bound = none →
    s.hostAttached = true → s.pkg.mgmt.external = false →
    ∀ i ∈ [Instr.tableWrite (.external k) q, .wake (.external k) p wr, .shootDown (.external k) vf va n, .powerBudget (.external k) w,
        .unfreeze (.external k) vf, .kill (.external k) vf, .almanacRecordsClear (.external k), .coldReset (.external k)],
      exec i s = .next (s.answer 2)) ∧
  ∀ (r : Reader) (s : State), s.pkg.mgmt.bound = none → (r.outside = true → s.hostAttached = true) →
    (∀ target len, len ≤ 32768 → stateBad (stateAddr target) len = false →
      ∃ s', exec (.stateRead r target len) s = .next s' ∧ s'.pkg.mgmt.status = 0 ∧ s'.pkg.mgmt.buffer.length = len) ∧
    (∀ target len, 32768 < len ∨ stateBad (stateAddr target) len = true → exec (.stateRead r target len) s =
      .next (s.answer 3)) ∧
    (r.dataLen ≤ 32768 →
      (∃ s', exec (.inventoryRead r) s = .next s' ∧ s'.pkg.mgmt.status = 0 ∧ s'.pkg.mgmt.buffer.length = r.dataLen) ∧
      ∀ first, ∃ s', exec (.hallmarkLogRead r first) s = .next s' ∧ s'.pkg.mgmt.status = 0 ∧
        s'.pkg.hallLog = s.pkg.hallLog ∧
        s'.pkg.mgmt.buffer = ((((s.pkg.hallLog.zipIdx.drop first).take 512).flatMap fun e => e.1.image e.2).take r.dataLen)) ∧
    (32768 < r.dataLen → exec (.inventoryRead r) s = .next (s.answer 3) ∧
      ∀ first, exec (.hallmarkLogRead r first) s = .next (s.answer 3)) ∧
    ((r.outside = false ∨ s.pkg.mgmt.external = true) →
      (∀ q, r.outside = false ∨ hostOnly q = false → exec (.tableWrite r q) s = .next (match s.writeTable q with
        | (.ok t, _) => t.answer 0
        | (.error e, t) => t.answer e)) ∧
      (∀ q, r.outside = true → hostOnly q = true → exec (.tableWrite r q) s = .next (s.answer 2)) ∧
      (∀ p wr, exec (.wake r p wr) s = .next (if p < 48 then (s.wake p wr false).answer 0 else s.answer 3)) ∧
      (∀ vf va n p, s.partOf vf = some p →
        let s1 := (s.flyAll fun s w => s.vfOf w.tid == vf).drain fun f => f.own == vf
        exec (.shootDown r vf va n) s =
          .next ((if n = 0 then s1.dropVf p vf else s1.dropPages p vf (va / 65536) n).answer 0)) ∧
      (∀ vf va n, s.partOf vf = none → exec (.shootDown r vf va n) s = .next (s.answer 0)) ∧
      (∀ w, 1000 ≤ w → w ≤ 4400 → s.pkg.hallLog.length < 65536 →
        ∃ s', exec (.powerBudget r w) s = .next s' ∧ s'.pkg.budget = w ∧ s'.pkg.mgmt.status = 0 ∧
          s'.pkg.hallLog.length = s.pkg.hallLog.length + 1) ∧
      (∀ w, (w < 1000 ∨ 4400 < w) → exec (.powerBudget r w) s = .next (s.answer 1)) ∧
      (∀ vf, exec (.unfreeze r vf) s = .next (if s.frozenVf vf then (s.release vf).answer 0 else s.answer 1)) ∧
      (∀ vf, exec (.kill r vf) s = .next (((s.killAll vf).release vf).answer 0)) ∧
      (s.pkg.hallLog.length < 65536 →
        ∃ s', exec (.almanacRecordsClear r) s = .next s' ∧ s'.pkg.almanac = [] ∧ s'.pkg.mgmt.status = 0) ∧
      exec (.coldReset r) s = .next (s.afterCold s.pkg.starts))

/-- TABLE WRITES (R20, R353, R354, R381, R409, R412): a queue descriptor, a semaphore, a trigger entry, a debug grant and a
directory entry that pass their checks stand in their tables, and a deleted directory entry stands nowhere; a core map of a partition that is not suspended is refused with status 1 and counted.
Rests on the model's choices of log 137. -/
def Sys2Proof.Claims.TablesTake : Prop :=
  (∀ (s : State) (vf q prio : Nat) (on : Bool), vf < 512 → q < 64 → prio ≤ 7 →
    ∃ t, (s.writeTable (.queueDescriptor vf q on prio)).1 = .ok t ∧
      ((FMap.find? (t.vf vf).queues q).map fun l => (l.enabled, l.priority)) = some (on, prio)) ∧
  (∀ (s : State) (vf i : Nat) (x : BitVec 32), vf < 512 → i < 4096 → s.semRequests vf i = [] →
    ∃ t, (s.writeTable (.semaphore vf i x)).1 = .ok t ∧ t.sem vf i = x.toNat) ∧
  (∀ (s : State) (vf i : Nat) (b : List Byte) (t0 : Trigger), vf < 512 → i < 256 → triggerOf b = some t0 →
    ∃ t, (s.writeTable (.trigger vf i b)).1 = .ok t ∧
      ((FMap.find? (t.vf vf).triggers i).map fun x => (x.head, x.barrier, x.enabled, x.queue)) =
        some (t0.head, t0.barrier, t0.enabled, t0.queue)) ∧
  (∀ (s : State) (vf : Nat), ((s.partOf vf).map fun p => (s.partition p).isProtected).getD true = true →
    (s.writeTable (.debugGrant vf true)).1 = .error 1) ∧
  (∀ (s : State) (vf p : Nat) (on : Bool), vf < 512 → s.partOf vf = some p → (on = true → (s.partition p).isProtected = false) →
    (s.pkg.hallLog.length < 65536 → ∃ t, (s.writeTable (.debugGrant vf on)).1 = .ok t ∧ (t.vf vf).debugGrant = on ∧
      t.pkg.hallLog.length = s.pkg.hallLog.length + 1) ∧
    (65536 ≤ s.pkg.hallLog.length → (s.writeTable (.debugGrant vf on)).1 = .error 4)) ∧
  (∀ (s : State) (hub : Nat) (d : DirEntry), hub < 4 → (s.hub hub).entryOk d = true → d.key.toNat / 2 ^ 41 % 128 = 0 →
    (s.hub hub).shardNode d.key = (s.hub hub).selfNode → s.ownedEntry hub d.key = none →
    ∃ t, (s.writeTable (.directoryEntry hub d)).1 = .ok t ∧ t.ownedEntry hub d.key = some d ∧
      ∃ t', (t.writeTable (.directoryDelete hub d.key)).1 = .ok t' ∧ ∀ k, (t'.hub k).ownedEntry d.key = none) ∧
  ∀ (s : State) (id : Nat) (quads : List Nat), s.suspended id = false →
    ∃ t, s.writeTable (.coreMap id quads) = (.error 1, t) ∧ t.pkg.coreMapRefused = s.pkg.coreMapRefused + 1 ∧
      t.partition id = s.partition id

/-- MANAGEMENT: the window's commands, and the tables that they write. -/
def Obligations.Management : Prop := ManagementActs ∧ TablesTake

/-- A command of a reader is taken: no signed exchange is unfinished, and an external host is attached (R403, R412). -/
def Sys2Proof.Claims.hears (s : State) (r : Reader) : Prop :=
  s.pkg.mgmt.bound = none ∧ (r.outside = true → s.hostAttached = true)

/-- SPDM (R418, R419): the requests that the rules lay out are answered from the state; a challenge and signed measurements
bind the slot's Generation, and the signing that follows is refused where the slot has changed meanwhile; the first part
of a certificate chain binds it too, and a later part is refused where the slot has changed, whatever other slots are read
in between; NEGOTIATE_ALGORITHMS announces no base algorithm and one extended one, in fields that the SPDM standard places
(log 169). Rests on the model's choices of logs 138, 139. -/
def Obligations.SpdmActs : Prop :=
  (∀ (r : Reader) (s : State), hears s r → ∀ q ∈ [SpdmReq.getVersion, .getCapabilities, .negotiateAlgorithms],
    ∃ s', exec (.spdm r q) s = .next s' ∧ s'.pkg.mgmt.status = 0 ∧
      (q = .negotiateAlgorithms → (s'.pkg.mgmt.buffer.drop 12).take 4 = [0, 0, 0, 0] ∧ s'.pkg.mgmt.buffer[32]? = some 1)) ∧
  (∀ (r : Reader) (s : State), hears s r → ∃ s', exec (.spdm r .getDigests) s = .next s' ∧ s'.pkg.mgmt.status = 0 ∧
    s'.pkg.mgmt.buffer = (List.range 8).flatMap fun i =>
      if (FMap.getD s.pkg.certs i ⟨false, 0, 0, []⟩).valid then sha384 (FMap.getD s.pkg.certs i ⟨false, 0, 0, []⟩).chain else []) ∧
  (∀ (r : Reader) (s : State) (slot off len : Nat), hears s r → (s.cert slot).valid = true → off = 0 →
    ∃ s', exec (.spdm r (.getCertificate slot off len)) s = .next s' ∧
      s'.pkg.mgmt.buffer = ((s.cert slot).chain.drop off).take len ∧
      FMap.find? s'.pkg.mgmt.reading slot = some (s.cert slot).generation ∧
      ∀ k, k ≠ slot → FMap.find? s'.pkg.mgmt.reading k = FMap.find? s.pkg.mgmt.reading k) ∧
  (∀ (r : Reader) (s : State) (slot off len : Nat) (g : BitVec 32), hears s r → (s.cert slot).valid = true → off ≠ 0 →
    FMap.find? s.pkg.mgmt.reading slot = some g →
    ∃ s', exec (.spdm r (.getCertificate slot off len)) s = .next s' ∧ s'.pkg.mgmt.reading = s.pkg.mgmt.reading ∧
      s'.pkg.mgmt.buffer = if g = (s.cert slot).generation then ((s.cert slot).chain.drop off).take len
        else slotChanged ++ bytesLE 4 (s.cert slot).generation.toNat) ∧
  (∀ (r : Reader) (s : State) (slot : Nat), hears s r → ∃ s', exec (.spdm r (.challenge slot)) s = .next s' ∧
    s'.pkg.mgmt.bound = some (slot, (s.cert slot).generation, [])) ∧
  (∀ (r : Reader) (s : State) (index : Option Nat) (slot : Nat), hears s r →
    ∃ s', exec (.spdm r (.getMeasurements index (some slot))) s = .next s' ∧
      s'.pkg.mgmt.bound = some (slot, (s.cert slot).generation, s.blocks index)) ∧
  (∀ (r : Reader) (s : State) (index : Option Nat), hears s r → ∃ s', exec (.spdm r (.getMeasurements index none)) s = .next s' ∧
    s'.pkg.mgmt.buffer = s.blocks index) ∧
  (∀ (r : Reader) (s : State) (slot pair : Nat) (chain : List Byte), hears s r → slot < 8 → chain.length ≤ 65536 → pair < 256 →
    s.pkg.hallLog.length < 65536 →
    ∃ s', exec (.spdm r (.setCertificate slot pair chain)) s = .next s' ∧
      s'.cert slot = ⟨true, pair, (s.cert slot).generation + 1, chain⟩ ∧
      s'.pkg.hallLog.length = s.pkg.hallLog.length + 1) ∧
  (∀ (r : Reader) (s : State), s.pkg.mgmt.bound = none → exec (.spdm r .sign) s = .next s) ∧
  ∀ (r : Reader) (s : State) (slot : Nat) (g : BitVec 32) (body : List Byte), s.pkg.mgmt.bound = some (slot, g, body) →
    ∃ s', exec (.spdm r .sign) s = .next s' ∧ s'.pkg.mgmt.bound = none ∧
      (g ≠ (s.cert slot).generation → s'.pkg.mgmt.buffer = slotChanged ++ bytesLE 4 (s.cert slot).generation.toNat) ∧
      (g = (s.cert slot).generation → s'.pkg.mgmt.buffer.take body.length = body ∧
        s'.pkg.mgmt.buffer.length = body.length + 96)

/-- ACCESSES FROM OUTSIDE THE CORES (R18, R193, R234, R243, R297, R402, R403, R408, R420): a write whose place its agent may
write stands in home memory, and no other byte changes; a peer's 64-bit atomic is one step at the home; a relaxed read,
an access of another place or of more than 256 bytes of a peer, or one of a host that is not attached or a device that no
port reaches changes nothing, and nothing but the management window answers of a package out of service; a write in the
window's region is one of its command slot or data buffer; a peer's acquire forces the publishes that records demand and
clears them; a peer's write of the work-port aperture is a token. Rests on the model's choices of logs 31, 142, 151, 170. -/
def Sys2Proof.Claims.OutsideAccesses : Prop :=
  (∀ (vf phys len : Nat) (s : State), exec (.hostComplexAccess vf phys none len) s = .next s ∧
    exec (.openFrameAccess phys none len) s = .next s ∧ ∀ dev, exec (.peerAccess dev phys .read len false) s = .next s) ∧
  (∀ (vf phys len : Nat) (bs : List Byte) (s : State), phys + bs.length ≤ 2 ^ 52 → s.pkg.inService = true →
    s.framesOk phys bs.length = true →
    ∃ s', exec (.hostComplexAccess vf phys (some bs) len) s = .next s' ∧
      ∀ a, memByte s'.mem a = if phys ≤ a ∧ a < phys + bs.length then bs.getD (a - phys) 0 else memByte s.mem a) ∧
  (∀ (vf phys len : Nat) (bs : List Byte) (s : State), phys < windowBase ∨ windowBase + windowBytes ≤ phys →
    s.pkg.inService = false ∨ s.framesOk phys bs.length = false →
    exec (.hostComplexAccess vf phys (some bs) len) s = .next s) ∧
  (∀ (vf o len : Nat) (bs : List Byte) (s : State), o < windowBytes →
    exec (.hostComplexAccess vf (windowBase + o) (some bs) len) s = s.writeWindow false o bs) ∧
  (∀ (o : Nat) (bs : List Byte) (s : State), 0x8000 ≤ o → o + bs.length ≤ 0x10000 →
    ∃ s', s.writeWindow false o bs = .next s' ∧ s'.pkg.mgmt.slot = s.pkg.mgmt.slot ∧
      ∀ k < bs.length, s'.pkg.mgmt.buffer[o - 0x8000 + k]? = bs[k]?) ∧
  (∀ (o : Nat) (bs : List Byte) (s : State), bs ≠ [] → o + bs.length ≤ 56 → s.pkg.mgmt.bound = none →
    ∃ s', s.writeWindow false o bs = .next s' ∧ s'.pkg.mgmt.status = s.pkg.mgmt.status ∧
      ∀ k < bs.length, s'.pkg.mgmt.slot[o + k]? = bs[k]?) ∧
  (∀ (o : Nat) (bs : List Byte) (s : State), bs ≠ [] → o + bs.length ≤ 64 → 56 < o + bs.length → s.pkg.mgmt.bound = none →
    s.writeWindow false o bs = (s.modMgmt fun m => { m with slot := splice m.slot o bs }).runSlot false) ∧
  (∀ (s : State), s.pkg.mgmt.bound = none → (fieldLE s.pkg.mgmt.slot 0 2 = 0 ∨ 0x000B < fieldLE s.pkg.mgmt.slot 0 2 ∨
      fieldLE s.pkg.mgmt.slot 2 6 ≠ 0 ∨ 32768 < fieldLE s.pkg.mgmt.slot 16 8) → s.runSlot false = .next (s.answer 3)) ∧
  (∀ (phys len : Nat) (bs : List Byte) (s : State), phys + bs.length ≤ 2 ^ 52 → s.pkg.inService = true →
    s.hostAttached = true → s.openRange phys bs.length = true →
    ∃ s', exec (.openFrameAccess phys (some bs) len) s = .next s' ∧ s'.tree = s.tree ∧
      ∀ a, memByte s'.mem a = if phys ≤ a ∧ a < phys + bs.length then bs.getD (a - phys) 0 else memByte s.mem a) ∧
  (∀ (phys len : Nat) (bs : List Byte) (s : State),
    s.pkg.inService = false ∨ s.hostAttached = false ∨ s.openRange phys bs.length = false →
    exec (.openFrameAccess phys (some bs) len) s = .next s) ∧
  (∀ (dev phys len : Nat) (op : PeerOp) (sync : Bool) (s : State), s.pkg.inService = false ∨ s.deviceReachable dev = false →
    exec (.peerAccess dev phys op len sync) s = .next s) ∧
  (∀ (dev phys len : Nat) (bs : List Byte) (sync : Bool) (s : State), phys + bs.length ≤ portBase → s.pkg.inService = true →
    s.deviceReachable dev = true → s.framesOk phys bs.length = true → s.peerMay dev phys = true → 0 < bs.length →
    bs.length ≤ 256 →
    ∃ s', exec (.peerAccess dev phys (.write bs) len sync) s = .next s' ∧
      (sync = true → FMap.find? s'.writers (phys / 64) = none) ∧
      ∀ a, memByte s'.mem a = if phys ≤ a ∧ a < phys + bs.length then bs.getD (a - phys) 0 else memByte s.mem a) ∧
  (∀ (dev phys len : Nat) (bs : List Byte) (sync : Bool) (s : State), phys + bs.length ≤ portBase → 0 < bs.length →
    s.framesOk phys bs.length = false ∨ s.peerMay dev phys = false ∨ 256 < bs.length →
    exec (.peerAccess dev phys (.write bs) len sync) s = .next s) ∧
  (∀ (dev phys len : Nat) (op : RmwOp) (sg : Sgn) (b b2 : DWord) (s : State), phys + 8 ≤ portBase → phys % 8 = 0 →
    s.pkg.inService = true → s.deviceReachable dev = true → s.framesOk phys 8 = true → s.peerMay dev phys = true →
    s.poisonedLine (phys / 64) = false →
    let old := natLE (memBytes s.mem phys 8)
    let new := bytesLE 8 (rmwValue op (match sg with | .s => AtomTy.s64 | .n => AtomTy.n64) old b.toNat b2.toNat)
    (rmwWrites op old b.toNat = false → exec (.peerAccess dev phys (.atomic op sg b b2) len false) s = .next s) ∧
    (rmwWrites op old b.toNat = true → ∃ s', exec (.peerAccess dev phys (.atomic op sg b b2) len false) s = .next s' ∧
      ∀ a, memByte s'.mem a = if phys ≤ a ∧ a < phys + 8 then new.getD (a - phys) 0 else memByte s.mem a)) ∧
  (∀ (dev phys len : Nat) (s : State), s.pkg.inService = true → s.deviceReachable dev = true → len ≤ 256 →
    s.framesOk phys len = true → s.peerMay dev phys = true →
    exec (.peerAccess dev phys .read len true) s = .next ((lineSpan phys len).foldl State.peerAcquire s)) ∧
  (∀ (line : Nat) (s : State), (FMap.find? s.writers line = none → s.peerAcquire line = s) ∧
    ∀ w, FMap.find? s.writers line = some w → s.peerAcquire line = (s.publish (w.core / 4) w.vf).clearWriter line) ∧
  ∀ (dev vf port o len : Nat) (bs : List Byte) (sync : Bool) (s : State), vf < 512 → port < 256 → o < 64 →
    s.pkg.inService = true → s.deviceReachable dev = true →
    ((FMap.find? (s.vf vf).roster (s.rosterOfDevice vf dev)).map (·.kind)) ≠ some 2 →
    exec (.peerAccess dev (portBase + vf * 0x4000 + port * 0x40 + o) (.write bs) len sync) s =
      exec (.workToken vf port (.peer (s.rosterOfDevice vf dev)) (o == 0) bs) s

/-- SOFT ERRORS (R211, R213, R218, R220, R386): a single-bit error of cluster memory stands until a read of the line corrects
it and is counted for it; one of home memory is counted where its code corrects it; an uncorrectable one poisons a scratch line, drops
an L1 line, and at home poisons the line under a code that tells it, by the EccMode of the slice's partition; an open
frame keeps the symbol code whatever the mode; without a code the line's bytes change and nothing else does.
Rests on the model's choices of log 142. -/
def Sys2Proof.Claims.SoftErrors : Prop :=
  (∀ (cl line : Nat) (s : State) (l : ScrLine), FMap.find? s.scratch (cl * 16384 + line) = some l →
    (∃ s', exec (.softError (.scratch cl line) true) s = .next s' ∧ s'.mem = s.mem ∧
      ∀ k, FMap.find? s'.scratch k = if k = cl * 16384 + line then some { l with poison := true } else FMap.find? s.scratch k) ∧
    ∃ s', exec (.softError (.scratch cl line) false) s = .next s' ∧ s'.mem = s.mem ∧ s'.clusters = s.clusters ∧
      (∀ k, FMap.find? s'.scratch k = if k = cl * 16384 + line then some { l with flip := true } else FMap.find? s.scratch k) ∧
      (line < 16384 → ((s'.scrRead cl (line * 512)).cluster cl).correctable = satInc (s.cluster cl).correctable ∧
        FMap.find? (s'.scrRead cl (line * 512)).scratch (cl * 16384 + line) = some { l with flip := false })) ∧
  (∀ (core line : Nat) (s : State) (l : L1Line), FMap.find? (s.core core).l1 line = some l →
    (∃ s', exec (.softError (.l1 core line) true) s = .next s' ∧ FMap.find? (s'.core core).l1 line = none ∧ s'.mem = s.mem) ∧
    ∃ s', exec (.softError (.l1 core line) false) s = .next s' ∧ s'.mem = s.mem ∧ s'.clusters = s.clusters ∧
      FMap.find? (s'.core core).l1 line = some { l with flip := true }) ∧
  ∀ (line : Nat) (s : State), line < 2 ^ 34 →
    let at_ := fun t : State => FMap.getD t.slices (line / 2 ^ 27) Slice.reset
    let mode := s.eccAt (line / 2 ^ 27)
    (mode = 0 ∨ s.openLine line = true → ∃ s', exec (.softError (.home line) false) s = .next s' ∧ s'.mem = s.mem ∧
      s'.poison = s.poison ∧ (at_ s').eccCorrected = (at_ s).eccCorrected + 1) ∧
    (s.openLine line = true → ∃ s', exec (.softError (.home line) true) s = .next s' ∧ s'.mem = s.mem ∧
      s'.poisonedLine line = true) ∧
    (s.openLine line = false → inTree line = false →
      (∀ double, mode ≠ 2 → (double = true ∨ mode ≠ 0) →
        ∃ s', exec (.softError (.home line) double) s = .next s' ∧ s'.mem = s.mem ∧ s'.poisonedLine line = true ∧
          (at_ s').macFailures = (at_ s).macFailures + 1) ∧
      ∀ double, mode = 2 → ∃ s', exec (.softError (.home line) double) s = .next s' ∧ s'.poison = s.poison ∧
        ∀ a, a / 64 ≠ line → memByte s'.mem a = memByte s.mem a) ∧
    (s.openLine line = false → inTree line = true →
      (∀ double, mode = 2 → exec (.softError (.home line) double) s = .next s) ∧
      ∀ double, mode ≠ 2 → (double = true ∨ mode ≠ 0) →
        ∃ s', exec (.softError (.home line) double) s = .next s' ∧ s'.mem = s.mem ∧
          s'.pkg.integrityEvents = s.pkg.integrityEvents + 1 ∧
          s'.pkg.hallLog.length = min (s.pkg.hallLog.length + 1) (max 65536 s.pkg.hallLog.length))

/-- PACKETS WHOSE TAG FAILS (R214): one that is not on its way changes nothing; up to three times it is sent again, and the
fourth failure poisons its access and is an integrity event that Hallmark records.
Rests on the model's choices of logs 31, 152. -/
def Sys2Proof.Claims.PacketsFail : Prop :=
  (∀ (p : Packet) (double : Bool) (s : State), s.travels p = false → exec (.softError (.packet p) double) s = .next s) ∧
  (∀ (p : Packet) (double : Bool) (s : State), s.travels p = true → s.failsOf p < 3 →
    ∃ s', exec (.softError (.packet p) double) s = .next s' ∧ s'.failsOf p = s.failsOf p + 1 ∧ s'.mem = s.mem ∧
      s'.poison = s.poison ∧ s'.stores = s.stores ∧ s'.waits = s.waits ∧ s'.threads = s.threads ∧
      s'.pkg.integrityEvents = s.pkg.integrityEvents) ∧
  (∀ (p : Packet) (double : Bool) (s : State), s.travels p = true → s.failsOf p = 3 →
    let s1 := (s.modPkg fun k => { k with netFails := k.netFails.filter fun e => e.1 != p && s.travels e.1 }).losePacket p
    exec (.softError (.packet p) double) s = .next ((s1.record 0x0016 15 s1.freeDigest).modPkg fun k =>
      { k with integrityEvents := k.integrityEvents + 1 })) ∧
  (∀ (n : Nat) (f : InFlight) (s : State), FMap.find? s.stores n = some f → f.phys + f.bytes.length ≤ 2 ^ 52 →
    ∀ l ∈ lineSpan f.phys f.bytes.length, (s.losePacket (.store n)).poisonedLine l = true) ∧
  (∀ (cl id b : Nat) (c : TceCmd) (s : State), FMap.find? (s.cluster cl).tce id = some c →
    s.losePacket (.box cl id b) = s.boxWith cl id c b true) ∧
  (∀ (line : Nat) (s : State), (s.losePacket (.reply line)).poisonedLine line = true ∧
    (s.losePacket (.reply line)).mem = s.mem ∧ (s.losePacket (.reply line)).poison = s.poison) ∧
  (∀ (core slot : Nat) (tm : Team) (b : BufStore) (s : State), s.team? core slot = some tm → b ∈ tm.storeBuf →
    b.phys + b.bytes.length ≤ 2 ^ 52 →
    ∀ l ∈ lineSpan b.phys b.bytes.length, (s.losePacket (.commit core slot)).poisonedLine l = true) ∧
  ∀ (core vf line : Nat) (s s2 : State) (t : Tid) (ts : List Tid) (tm : Team) (g : Target),
    s.waitersOf core vf line = t :: ts → s.teamOf t = some tm → s.fetchPlace core tm line = (.ok g, s2) →
    s.losePacket (.fetch core vf line) = s2.takeFetch ((t :: ts).filter fun u =>
      ((s.teamOf u).map (·.kern.compartment)) == some tm.kern.compartment) 0x1E (s2.poisonAt (g.phys / 64 * 64) 64) false

/-- WHAT COMES FROM OUTSIDE THE CORES: accesses, soft errors and failing packets. -/
def Obligations.OutsideActs : Prop := OutsideAccesses ∧ SoftErrors ∧ PacketsFail

/-! ### Statements over the whole machine -/

/-- What the register words leave: memory, caches, stores on their way, tables, messages and the package. -/
def Sys2Proof.Claims.dataAs (s s' : State) : Prop :=
  s'.mem = s.mem ∧ s'.poison = s.poison ∧ s'.scratch = s.scratch ∧ s'.cc = s.cc ∧ s'.l2 = s.l2 ∧ s'.tree = s.tree ∧
    s'.writers = s.writers ∧ s'.stores = s.stores ∧ s'.waits = s.waits ∧ s'.clusters = s.clusters ∧ s'.teams = s.teams ∧
    s'.vfs = s.vfs ∧ s'.hubs = s.hubs ∧ s'.messages = s.messages ∧ s'.pkg = s.pkg ∧
    ∀ core sec, (s'.sector core sec).tiles = (s.sector core sec).tiles ∧ (s'.sector core sec).mau = (s.sector core sec).mau

/-- Threads outside the gang stay whole; those of the gang keep their registers and predicates, but for the tags that the
word's control fields commit. -/
def Sys2Proof.Claims.threadsAs (i : Instr) (s s' : State) : Prop :=
  (∀ k, k ∉ s.gang.tids.map tidKey → FMap.find? s'.threads k = FMap.find? s.threads k) ∧
  ∀ u x, u ∈ s.gang.tids → s.thread? u = some x → ∃ y, s'.thread? u = some y ∧ y.exited = x.exited ∧ y.sp = x.sp ∧
    ((y.v = x.v ∧ y.p = x.p) ∨ ∃ c, i.ctl? = some c ∧ y.v = (x.commitAll c).v ∧ y.p = (x.commitAll c).p)

/-- The words that act on registers, predicates, lane masks and the flow of a program alone. -/
def Sys2Proof.Claims.registerWord (i : Instr) : Bool :=
  (intResult i).isSome || (floatResult i).isSome || (functionResult i).isSome || (collectiveResult i).isSome ||
  match i with
  | .pairedWord .. | .pand .. | .por .. | .pxor .. | .pnot .. | .pmov .. | .psetm .. | .mfromp .. | .mset .. | .mget ..
  | .srd .. | .mjoin .. | .mleave .. | .mwait .. | .nop .. | .yield .. | .bra .. | .brx .. | .rdclk .. | .rdperf .. => true
  | _ => false

/-- The word has no effect: each thread of the gang parks at it as it was, under a record of its cohort of this kind. -/
def Sys2Proof.Claims.parksUnder (s : State) (i : Instr) (tm : Team) (kind : Nat) : Prop :=
  ∃ s', exec i s = .next s' ∧ s'.mem = s.mem ∧ s'.scratch = s.scratch ∧ s'.stores = s.stores ∧ s'.pending = s.pending ∧
    ∀ u x, u ∈ s.gang.tids → s.thread? u = some x → ∃ y r, s'.thread? u = some y ∧ y.parked = true ∧ asBefore x y ∧
      r ∈ (s'.partition tm.partition).queue ∧ r.kind = kind ∧ r.opcode = i.opcode ∧ r.cohort = u.cohort ∧
      r.lanes.getLsbD u.lane = true ∧ r.seq ∈ y.events

/-- R91: the words reserved to system privilege. -/
def Sys2Proof.Claims.privileged : Instr → Bool
  | .tlbinv .. | .winctl .. | .gatectl .. | .sread .. | .eret .. | .halt .. => true
  | _ => false

/-- A STEP RUNS THE DECODED INSTRUCTION: where a gang has been gathered and the ten bytes of its word's slot, in a cached
line whose check holds and whose fetch the team's compartment was granted, decode to an instruction, the step is that
instruction's effect and then the sector's next turn; where they decode to none, or the line's check fails, the gang
parks under the fault; a word that is not cached ends the turn. With no gang gathered, an act whose time has come is the
step, else one of the moves: that there are such turns, acts and moves, and their order, is the model's (logs 1, 2, 16, 30,
145). Every instruction and every step answers a next state, which the model has of events too (logs 29, 30). -/
def Obligations.StepRunsDecoded : Prop :=
  (∀ (s : State) (t : Turn) (tm : Team) (l : ILine), s.turn = some t → s.gangTeam = some tm →
    s.iline? s.gang.core tm.vf tm.kern.compartment s.gang.pc = some l →
    let w := wordOfBytes ((l.bytes.drop (10 * (s.gang.pc % 6))).take 10)
    (∀ i, l.intact = true → decode w = .ok i → step s = mapNext (exec i s) fun s' => s'.nextTurn t) ∧
    (∀ e, l.intact = true → decode w = .error e → step s = .next ((s.fetchFault (some w)).nextTurn t)) ∧
    (l.intact = false → step s = .next ((s.fetchFault none).nextTurn t))) ∧
  (∀ (s : State) (t : Turn) (tm : Team), s.turn = some t → s.gangTeam = some tm →
    s.iline? s.gang.core tm.vf tm.kern.compartment s.gang.pc = none → step s = .next { s with turn := none }) ∧
  (∀ (s : State) (e : Instr), s.turn = none → s.clockwork = some e → step s = exec e s) ∧
  (∀ (s : State), s.turn = none → s.clockwork = none → step s = runMove (s.choose s.moves).2 (s.choose s.moves).1) ∧
  (∀ (i : Instr) (s : State), ∃ s', exec i s = .next s') ∧
  ∀ s : State, ∃ s', step s = .next s'

/-- DECODING IS RIGHT on words that the spec writes out bit by bit: a guarded full word, the fill word and a paired word
(spec/03), an immediate form (spec/04), csrr (spec/05), a branch (spec/06), a load (spec/11) and kvx (spec/14). -/
def Obligations.DecodingRight : Prop :=
  (decode 0x3E042000281A0701E000#80).toOption = some (.iadd ⟨⟨1, 15, 0x021⟩, ⟨false, 5⟩⟩ .s false 13 14 15) ∧
  (decode 0x1E000003F80000000000#80).toOption = some (.iadd ⟨⟨0, 15, 0⟩, ⟨true, 63⟩⟩ .s false 0 0 0) ∧
  (decode 0x9E0018020242810D0E0F#80).toOption =
    some (.pairedWord ⟨4, 15, 0⟩ ⟨.fadd, 8, 9, 10⟩ ⟨.iadd, 13, 14, 15⟩) ∧
  (decode 0x1E000101F80802FFFFE8#80).toOption = some (.iaddI ⟨⟨0, 15, 0⟩, ⟨false, 63⟩⟩ 4 5 0xFFFFD#20) ∧
  (decode 0x1E0002421001FFFFFFE0#80).toOption = some (.bra ⟨⟨0, 15, 0⟩, ⟨true, 2⟩⟩ 0x3FFFFFFC#30) ∧
  (decode 0x04000F01F80C20000000#80).toOption = some (.csrr ⟨⟨0, 2, 0⟩, ⟨false, 63⟩⟩ 6 0x040#10) ∧
  (decode 0x06000901F81814000484#80).toOption =
    some (.ld ⟨⟨0, 3, 0⟩, ⟨false, 63⟩⟩ .n32 ⟨.relaxed, .device, true, .none, .normal⟩ 12 40 0) ∧
  (decode 0x04000D09F8281400C018#80).toOption = some (.kvx ⟨⟨0, 2, 0⟩, ⟨false, 63⟩⟩ .addr 20 40 6 3)

/-- DECODE AND ENCODE AGREE: every well-formed word has an encoding, from which decoding gives the word back with every
operand; and a decoded word is well formed and is encoded as it was. The ten bytes of a slot hold all of a word. -/
def Obligations.EncodeDecode : Prop :=
  (∀ i, wellFormed i → (encode i).isSome = true) ∧
  (∀ (i : Instr) (w : BitVec 80), decode w = .ok i ↔ wellFormed i ∧ encode i = some w) ∧
  ∀ w : BitVec 80, wordOfBytes (bytesOfWord w) = w

/-- RESET: CLK counts from 0 (R107), no team, thread or command is there (R9), RETN is 40,000 in every cluster (R104), and
memory is in canonical form. That memory lists nothing is the model's choice (log 7). -/
def Obligations.ResetState : Prop :=
  State.reset.pkg.clk = 0 ∧ State.reset.teams = [] ∧ State.reset.threads = [] ∧ State.reset.stores = [] ∧
  (∀ cl, (State.reset.cluster cl).retn = 40000) ∧ State.reset.memOk = true ∧ ∀ a, memByte State.reset.mem a = 0

/-- EVERY STEP KEEPS THE MACHINE'S FORM: home memory stays in canonical form, and RETN is nowhere below 40,000 (R104). -/
def Obligations.StepKeepsForm : Prop :=
  ∀ s s' : State, s.memOk = true → (∀ cl, 40000 ≤ (s.cluster cl).retn) → step s = .next s' →
    s'.memOk = true ∧ ∀ cl, 40000 ≤ (s'.cluster cl).retn

/-- A WORD OF A RESIDENT TEAM LEAVES THE LAUNCH ARGUMENTS (R97): no word changes a k register of any team, or the kernel,
grid or index that the team was launched with. -/
def Obligations.ArgumentsStay : Prop :=
  ∀ (i : Instr) (s s' : State), i.ctl?.isSome = true → exec i s = .next s' →
    ∀ core slot tm, s.team? core slot = some tm →
      ∃ tm', s'.team? core slot = some tm' ∧ tm'.k = tm.k ∧ tm'.kern = tm.kern ∧ tm'.grid = tm.grid ∧ tm'.index = tm.index

/-- DECODE FAULTS (R62, R75, R76): a word that is not well formed for its team, slice or privilege has no effect, and its
gang parks under the first fault of the order of R76. Rests on the model's choices of logs 29, 33. -/
def Obligations.DecodeFaultsPark : Prop :=
  ∀ (i : Instr) (s : State) (tm : Team) (k : Nat), i.ctl?.isSome = true → s.gang.ok = true → s.gangTeam = some tm →
    tm.decodeEvent i s.gang.access = some k → parksUnder s i tm k

/-- PRIVILEGE (R91): at user privilege each of six words raises the privilege fault after the checks before it; no other
word raises it, and at system privilege none does. -/
def Obligations.PrivilegedWords : Prop :=
  (∀ (i : Instr) (s : State) (tm : Team), privileged i = true → wellFormed i → s.gang.ok = true → s.gangTeam = some tm →
    sliceIllegal i s.gang.access (tm.kern.accessEntry != 0) = false → tm.kern.system = false → parksUnder s i tm 0x02) ∧
  ∀ (i : Instr) (tm : Team) (access : Bool), privileged i = false ∨ tm.kern.system = true →
    tm.decodeEvent i access ≠ some 0x02

/-- THE RULES OF A PAIRED WORD (R67): TA is 15, the two destinations differ, and no bank is read more than twice, every
source field that names a register counted; a word that violates any of them raises illegal-instruction. That the parked
record of a paired word has opcode 0 is the model's choice (log 33), and so is what exec does on an instruction that is
not well formed (log 29). -/
def Obligations.PairedRules : Prop :=
  ∀ (c : Ctl) (h0 h1 : Half), (c.ta ≠ 15 ∨ h0.d = h1.d ∨
      ∃ bank < 4, 2 < ((h0.sources ++ h1.sources).filter fun r => r.toNat % 4 == bank).length) →
    (∀ w : BitVec 80, encode (.pairedWord c h0 h1) = some w → (decode w).toOption = none) ∧
    ∀ (s : State) (tm : Team), s.gang.ok = true → s.gangTeam = some tm → parksUnder s (.pairedWord c h0 h1) tm 0x01

/-- yield AND nop (R134): yield keeps each guard-true thread waiting for PD + 32 cycles after issue, and its overdue count
starts again; nop has no operation beyond its control fields. -/
def Obligations.YieldAndNop : Prop :=
  (∀ (h : Hd) (s : State) (u : Tid) (x : Thread), s.mayIssue (.yield h) = true → s.runs (.yield h) u x →
    ∃ s' y, exec (.yield h) s = .next s' ∧ s'.thread? u = some y ∧
      y.readyAt = s.cycle s.gang.core + 1 + h.c.pd.toNat + 32 ∧ y.pdRun = true ∧ y.since = none ∧ y.overdue = false) ∧
  ∀ (h : Hd) (s : State), s.mayIssue (.nop h) = true →
    exec (.nop h) s = .next ((s.control (.nop h)).flowEnd (.nop h))

/-- THE FRAME OF THE REGISTER WORDS (R111, R155): whatever becomes of such a word, memory, tables, messages and the other
threads stay; of a fixed-latency word that issues, only its own destinations and flags will differ at any later time. -/
def Obligations.RegisterFrame : Prop :=
  (∀ (i : Instr) (s s' : State), registerWord i = true → s.gang.ok = true → exec i s = .next s' →
    dataAs s s' ∧ threadsAs i s s') ∧
  ∀ (i : Instr) (f : Thread → Res) (s : State) (u : Tid) (x : Thread), intResult i = some f ∨ floatResult i = some f →
    s.mayIssue i = true → s.runs i u x →
    ∃ s' y, exec i s = .next s' ∧ s'.thread? u = some y ∧ y.v = x.v ∧ y.p = x.p ∧ y.fstat = x.fstat ∧ y.tags = x.tags ∧
      y.pc = x.pc ∧ y.sp = x.sp ∧
      y.pend = x.pend ++ [⟨s.cycle u.core + i.latency, (f x).vs, (f x).ps, (f x).flags⟩] ∧
      ∀ now, (∀ r, r ∉ (f x).vs.map Prod.fst → (y.settle now).rv r = (x.settle now).rv r) ∧
        (∀ q, q ∉ (f x).ps.map Prod.fst → (y.settle now).rp q = (x.settle now).rp q) ∧
        ∀ k, (f x).flags.getLsbD k = false → (y.settle now).fstat.getLsbD k = (x.settle now).fstat.getLsbD k

/-- No byte of home memory differs but one that a store on its way, or a written byte of a cluster cache, was to change. -/
def Sys2Proof.Claims.homeAs (s s' : State) : Prop :=
  ∀ a, memByte s'.mem a = memByte s.mem a ∨
    (∃ e ∈ s.stores, e.2.phys ≤ a ∧ a < e.2.phys + e.2.bytes.length) ∨
    ∃ e ∈ s.cc, a ∈ (e.2.cells (ccBase e.1)).map Prod.fst

/-- Threads outside the gang keep everything but what their tags have received. -/
def Sys2Proof.Claims.othersAs (s s' : State) : Prop :=
  ∀ k, k ∉ s.gang.tids.map tidKey →
    (FMap.find? s'.threads k).map (fun y => { y with tags := [] }) = (FMap.find? s.threads k).map fun x => { x with tags := [] }

/-- THE FRAME OF LOADS (R226, R227, R234, R262): a load of any order, fresh or not, writes nothing: what stands in home memory
changes only by bytes that were on their way there, which a walk or an acquire that meets a recorded release, a fresh read
of the line, or a line that leaves the cluster cache sends on, and where there are none it stays as it is; every byte of
scratch stays, and a line of it changes only in Full, where the load empties, and by a read's correction; another thread
changes only where one of its tags receives the completion of such a store. Rests on the model's choices of log 17. -/
def Sys2Proof.Claims.LoadFrame : Prop :=
  ∀ (i : Instr) (sz : MSize) (q : Mq) (s s' : State), loadForm i = some (sz, q) → s.gang.ok = true → exec i s = .next s' →
    othersAs s s' ∧ ((∀ e ∈ s.stores, e.2.tag = none) → threadsAs i s s') ∧ homeAs s s' ∧ (∀ e ∈ s'.stores, e ∈ s.stores) ∧
      (q.fe ≠ .fec → ∀ k, FMap.find? s'.scratch k = FMap.find? s.scratch k ∨
        ∃ l, FMap.find? s.scratch k = some l ∧ l.flip = true ∧ FMap.find? s'.scratch k = some { l with flip := false }) ∧
      (q.fe ≠ .fec → (∀ e ∈ s.scratch, e.2.flip = false) → s'.scratch = s.scratch) ∧
      (s.writers = [] → s.cc = [] → q.order = .relaxed → q.fresh = false →
        s'.mem = s.mem ∧ s'.stores = s.stores ∧ s'.poison = s.poison ∧ threadsAs i s s') ∧
      (s.writers = [] → s.cc = [] → s.stores = [] → s'.mem = s.mem ∧ s'.poison = s.poison) ∧
      ∀ cl off, (s'.scrLine cl off).bytes = (s.scrLine cl off).bytes

/-- THE FRAME OF STORES (R226, R227, R240, R262): a scratch store, relaxed or a release, changes the bytes of its size at its
place, all other bytes of the line staying unless the line was stale; a memory store leaves memory until it is performed,
when it joins the stores on their way, a release behind what it waits for; one that is performed after its issue leaves
both as they are until then. Home memory changes only by bytes that were on their way, and by none for a relaxed store.
That a store joins the stores on their way is the model's reading (log 18); rests on the model's choices of logs 17, 21. -/
def Sys2Proof.Claims.StoreFrame : Prop :=
  (∀ (i : Instr) (sz : MSize) (q : Mq) (d : VReg) (s s2 : State) (u : Tid) (x : Thread) (ops : LaneOps) (cl off : Nat)
    (quad : Bool), storeForm i = some (sz, q, d) →
    ops = ⟨addressOf s x i, 0, 0, x.group d.toNat sz.regs⟩ → runsAlone s i u x ops →
    (s.control i).check u (Acc.store sz.bytes q.fe) ops.a = (.scratch cl off quad, s2) →
    (∀ w ∈ s.waits, w.2.cause ≠ .granule cl (off / 512)) → (s.scrLine cl off).bytes.length = 512 →
    ∃ s', exec i s = .next s' ∧ othersAs s s' ∧ homeAs s s' ∧ (∀ e ∈ s'.stores, e ∈ s.stores) ∧
      (q.order = .relaxed → threadsAs i s s' ∧ s'.mem = s.mem ∧ s'.stores = s.stores) ∧
      ((s.control i).flying u i = true → s'.scratch = s.scratch) ∧
      (∀ k, k ≠ scratchKey cl off → FMap.find? s'.scratch k = FMap.find? s.scratch k) ∧
      ((s.control i).flying u i = false → ∀ n < 512, (s'.scrLine cl off).bytes[n]? =
        if off % 512 ≤ n ∧ n < off % 512 + sz.bytes then (stored sz x d)[n - off % 512]?
        else if s.stale cl (s.scrLine cl off) then some 0 else (s.scrLine cl off).bytes[n]?)) ∧
  ∀ (i : Instr) (sz : MSize) (q : Mq) (d : VReg) (s s2 : State) (u : Tid) (x : Thread) (ops : LaneOps) (g : Target)
    (va : Nat), storeForm i = some (sz, q, d) →
    ops = ⟨addressOf s x i, 0, 0, x.group d.toNat sz.regs⟩ → runsAlone s i u x ops →
    (s.control i).check u (Acc.store sz.bytes q.fe) ops.a = (.mem g va, s2) →
    (∀ tm, s2.teamOf u = some tm → tm.relaunchable = false) → (s2.teamOf u).isSome = true →
    let s3 := match releaseScope q with
      | some sc => s2.releaseSet u.core g.own sc g.window
      | none => s2
    ∃ s', exec i s = .next s' ∧ othersAs s s' ∧ s'.scratch = s.scratch ∧
      ((∀ e ∈ s.stores, e.2.tag = none) → threadsAs i s s') ∧
      ((s.control i).flying u i = true → s'.mem = s.mem ∧ s'.stores = s.stores ∧
        ∃ w ∈ s'.waits, w.2.tid = u ∧ w.2.instr = i ∧ w.2.ops = ops ∧ w.2.cause = .flight) ∧
      ((s.control i).flying u i = false → s'.mem = s3.mem ∧
        ∃ f, s'.stores = FMap.put s3.stores s3.storeNext f ∧ f.core = u.core ∧ f.phys = g.phys ∧ f.vf = g.vf ∧
          f.bytes = stored sz x d ∧ (f.writer.isSome = (releaseScope q).isSome))

/-- THE FRAME OF LOADS AND STORES, of every order. -/
def Obligations.MemoryFrame : Prop := LoadFrame ∧ StoreFrame

/-- WHAT EVERY WORD'S CONTROL FIELDS DO (R54, R57, R59, R61), and the way of a late result: the tags that the word names
commit, its own tag waits, the thread stands at the next word and is ready PD cycles after the next; the result that a
word's lane has ready stands at its tag and is about to arrive. Rests on the model's choices of log 23. -/
def Obligations.ControlFields : Prop :=
  (∀ (i : Instr) (c : Ctl) (s : State) (u : Tid) (x : Thread), i.ctl? = some c → s.mayIssue i = true →
    u ∈ s.gang.tids → s.thread? u = some x →
    ∃ y, (s.control i).thread? u = some y ∧ y.pc = s.gang.pc + 1 ∧ y.readyAt = s.cycle s.gang.core + 1 + c.pd.toNat ∧
      y.pdRun = true ∧ y.pend = x.pend ∧ y.sp = x.sp ∧
      (∀ n, c.wm.getLsbD n = true → n < 12 → c.ta.toNat ≠ n → FMap.find? y.tags n = none) ∧
      (∀ n, c.wm.getLsbD n = false → c.ta.toNat ≠ n → FMap.find? y.tags n = FMap.find? x.tags n) ∧
      (c.ta.toNat < 12 → ∃ g, FMap.find? y.tags c.ta.toNat = some g ∧ g.dests = i.dests ∧ g.pdest = i.predDest ∧
        g.stage = (if y.guardOf i then .waiting else .arrived (s.cycle s.gang.core) ⟨[], 0, none⟩) ∧
        g.least = s.cycle s.gang.core + i.leastLatency) ∧
      ∀ n g k r, n < 12 → c.wm = 1#12 <<< n → 12 ≤ c.ta.toNat → FMap.find? x.tags n = some g → g.stage = .arrived k r →
        g.dests.Nodup → (∀ e ∈ g.dests.zip r.regs, y.rv e.1 = e.2) ∧ (∀ q, q ∉ g.dests → y.rv q = x.rv q) ∧
        y.fstat = x.fstat ||| r.flags ∧ ∀ q b, q ≠ 63 → g.pdest = some q → r.pred = some b → y.rp q = b) ∧
  ∀ (i : Instr) (s : State) (u : Tid) (x : Thread) (n : Nat) (g : Tag) (r : Late), s.thread? u = some x → i.tag? = some n →
    FMap.find? x.tags n = some g →
    .resultArrival u n ∈ (s.over i u r).pending ∧ ∃ y, (s.over i u r).thread? u = some y ∧
      FMap.find? y.tags n = some { g with stage := .performed r }

/-- THE GATHERED GANG (R32 to R34): threads of one slot of the place's core, at most one a lane, all at the seed's PC; those
that the second decoder may take beside it, ranked in the same moment, have other lanes and a pipe that can go with its
own. Rests on the model's choices of log 2. -/
def Obligations.TurnGathersGang : Prop :=
  ∀ (core sector : Nat) (s : State) (t : Turn), s.turn = none → (s.openPlace core sector).turn = some t →
    t.core = core ∧ t.sector = sector ∧ t.second = false ∧
    let s' := s.openPlace core sector
    (∀ g ∈ t.plan, g.ok = true ∧ g.core = core ∧ (g.members.map Prod.snd).Nodup ∧
      (∀ u ∈ g.tids, s'.gang.laneMask.getLsbD u.lane = false) ∧
      pipesApart (s'.gangPipe s'.gang) (s'.gangPipe g) = true) ∧
    s'.gang.ok = true ∧ s'.gang.core = core ∧ s'.gang.members ≠ [] ∧ (s'.gang.members.map Prod.snd).Nodup ∧
    ∀ u ∈ s'.gang.tids, (s'.thread? u).map (·.pc) = some s'.gang.pc
end

