-- ==== Sys2Proof/Laws/Map.lean ====
section
/-! SUPPORT. Laws of the finite tables: reading after writing, and the canonical form. -/

namespace Sys2Proof.Machine

variable {ν : Type}

@[simp] theorem FMap.find?_nil (k : Nat) : FMap.find? ([] : FMap ν) k = none := rfl

/-- Reading an entry that has just been written. -/
@[simp] theorem FMap.find?_put_self (m : FMap ν) (k : Nat) (v : ν) : FMap.find? (FMap.put m k v) k = some v := by
  induction m with
  | nil => simp [FMap.put, FMap.find?]
  | cons e t ih =>
    obtain ⟨k', v'⟩ := e
    simp only [FMap.put]
    split
    · simp [FMap.find?]
    · split <;> simp [FMap.find?, *]

/-- A write leaves every other key alone. -/
theorem FMap.find?_put_ne (m : FMap ν) {k j : Nat} (v : ν) (h : k ≠ j) :
    FMap.find? (FMap.put m k v) j = FMap.find? m j := by
  induction m with
  | nil => simp [FMap.put, FMap.find?, h]
  | cons e t ih =>
    obtain ⟨k', v'⟩ := e
    simp only [FMap.put]
    split
    · subst_vars; simp [FMap.find?, h]
    · split <;> simp [FMap.find?, h, ih]

theorem FMap.find?_put (m : FMap ν) (k j : Nat) (v : ν) :
    FMap.find? (FMap.put m k v) j = if k = j then some v else FMap.find? m j := by
  split
  · subst_vars; simp
  · exact FMap.find?_put_ne m v ‹_›

/-- Removing an entry leaves every other key alone. -/
theorem FMap.find?_del_ne (m : FMap ν) {k j : Nat} (h : k ≠ j) : FMap.find? (FMap.del m k) j = FMap.find? m j := by
  induction m with
  | nil => rfl
  | cons e t ih =>
    obtain ⟨k', v'⟩ := e
    simp only [FMap.del]
    split
    · subst_vars; simp [FMap.find?, h, ih]
    · simp [FMap.find?, ih]

/-- A removed entry is gone. -/
@[simp] theorem FMap.find?_del_self (m : FMap ν) (k : Nat) : FMap.find? (FMap.del m k) k = none := by
  induction m with
  | nil => rfl
  | cons e t ih =>
    obtain ⟨k', v'⟩ := e
    simp only [FMap.del]
    split
    · exact ih
    · simp [FMap.find?, *]

theorem FMap.find?_above (m : FMap ν) {k : Nat} (h : FMap.above k m = true) : FMap.find? m k = none := by
  induction m with
  | nil => rfl
  | cons e t ih =>
    obtain ⟨k', v'⟩ := e
    simp only [FMap.above, List.all_cons, Bool.and_eq_true, decide_eq_true_eq] at h
    have hk : k' ≠ k := by omega
    simp [FMap.find?, hk, ih (by simpa [FMap.above] using h.2)]

theorem FMap.above_mono (m : FMap ν) {j k : Nat} (hjk : j ≤ k) (h : FMap.above k m = true) : FMap.above j m = true := by
  simp only [FMap.above, List.all_eq_true, decide_eq_true_eq] at *
  exact fun e he => lt_of_le_of_lt hjk (h e he)

theorem FMap.above_put (m : FMap ν) {j k : Nat} (v : ν) (hjk : j < k) (h : FMap.above j m = true) :
    FMap.above j (FMap.put m k v) = true := by
  induction m with
  | nil => simp [FMap.put, FMap.above, hjk]
  | cons e t ih =>
    obtain ⟨k', v'⟩ := e
    simp only [FMap.above, List.all_cons, Bool.and_eq_true, decide_eq_true_eq] at h ih
    simp only [FMap.put]
    split
    · simp [FMap.above, hjk, h.2]
    · split
      · simp [FMap.above, hjk, h.1, h.2]
      · simp [FMap.above, h.1, ih h.2]

theorem FMap.above_del (m : FMap ν) {j k : Nat} (h : FMap.above j m = true) : FMap.above j (FMap.del m k) = true := by
  induction m with
  | nil => rfl
  | cons e t ih =>
    obtain ⟨k', v'⟩ := e
    simp only [FMap.above, List.all_cons, Bool.and_eq_true, decide_eq_true_eq] at h ih
    simp only [FMap.del]
    split
    · exact ih h.2
    · simp [FMap.above, h.1, ih h.2]

/-- Writing keeps the canonical form. -/
theorem FMap.sorted_put (m : FMap ν) (k : Nat) (v : ν) (h : FMap.sorted m = true) : FMap.sorted (FMap.put m k v) = true := by
  induction m with
  | nil => simp [FMap.put, FMap.sorted, FMap.above]
  | cons e t ih =>
    obtain ⟨k', v'⟩ := e
    simp only [FMap.sorted, Bool.and_eq_true] at h
    simp only [FMap.put]
    split
    · subst_vars; simp [FMap.sorted, h.1, h.2]
    · split
      · rename_i h2
        simp only [FMap.sorted, Bool.and_eq_true]
        refine ⟨?_, h.1, h.2⟩
        have := FMap.above_mono t (Nat.le_of_lt h2) h.1
        simp [FMap.above, h2] at this ⊢
        exact this
      · simp only [FMap.sorted, Bool.and_eq_true]
        exact ⟨FMap.above_put t v (by omega) h.1, ih h.2⟩

theorem FMap.sorted_del (m : FMap ν) (k : Nat) (h : FMap.sorted m = true) : FMap.sorted (FMap.del m k) = true := by
  induction m with
  | nil => rfl
  | cons e t ih =>
    obtain ⟨k', v'⟩ := e
    simp only [FMap.sorted, Bool.and_eq_true] at h
    simp only [FMap.del]
    split
    · exact ih h.2
    · simp only [FMap.sorted, Bool.and_eq_true]
      exact ⟨FMap.above_del t h.1, ih h.2⟩

theorem FMap.sorted_set [DecidableEq ν] (m : FMap ν) (k : Nat) (v d : ν) (h : FMap.sorted m = true) :
    FMap.sorted (FMap.set m k v d) = true := by
  unfold FMap.set
  split
  · exact FMap.sorted_del m k h
  · exact FMap.sorted_put m k v h

/-- Reading an entry that has just been written. -/
@[simp] theorem FMap.getD_set_self [DecidableEq ν] (m : FMap ν) (k : Nat) (v d : ν) :
    FMap.getD (FMap.set m k v d) k d = v := by
  unfold FMap.set FMap.getD
  split
  · subst_vars; simp
  · simp

theorem FMap.getD_set_ne [DecidableEq ν] (m : FMap ν) {k j : Nat} (v d e : ν) (h : k ≠ j) :
    FMap.getD (FMap.set m k v d) j e = FMap.getD m j e := by
  unfold FMap.set FMap.getD
  split
  · rw [FMap.find?_del_ne m h]
  · rw [FMap.find?_put_ne m v h]

/-- Changing the entry of a key. -/
theorem FMap.find?_mod_self (m : FMap ν) (k : Nat) (f : ν → ν) : FMap.find? (FMap.mod m k f) k = (FMap.find? m k).map f := by
  unfold FMap.mod
  split <;> simp_all

theorem FMap.find?_mod_ne (m : FMap ν) {k j : Nat} (f : ν → ν) (h : k ≠ j) :
    FMap.find? (FMap.mod m k f) j = FMap.find? m j := by
  unfold FMap.mod
  split
  · exact FMap.find?_put_ne m _ h
  · rfl

theorem FMap.sorted_mod (m : FMap ν) (k : Nat) (f : ν → ν) (h : FMap.sorted m = true) : FMap.sorted (FMap.mod m k f) = true := by
  unfold FMap.mod
  split
  · exact FMap.sorted_put m k _ h
  · exact h

theorem FMap.above_filter (m : FMap ν) {k : Nat} (p : Nat × ν → Bool) (h : FMap.above k m = true) :
    FMap.above k (m.filter p) = true := by
  simp only [FMap.above, List.all_eq_true, decide_eq_true_eq, List.mem_filter] at *
  exact fun e he => h e he.1

/-- Dropping entries keeps the canonical form. -/
theorem FMap.sorted_filter (m : FMap ν) (p : Nat × ν → Bool) (h : FMap.sorted m = true) : FMap.sorted (m.filter p) = true := by
  induction m with
  | nil => rfl
  | cons e t ih =>
    obtain ⟨k', v'⟩ := e
    simp only [FMap.sorted, Bool.and_eq_true] at h
    simp only [List.filter_cons]
    split
    · simp only [FMap.sorted, Bool.and_eq_true]
      exact ⟨FMap.above_filter t p h.1, ih h.2⟩
    · exact ih h.2

end Sys2Proof.Machine
end

