-- ==== Sys2Proof/Laws/State.lean ====
section
/-! SUPPORT. What the plain updates of State leave alone: one lemma a field an update, so that no proof unfolds a
record update. -/

namespace Sys2Proof.Machine

@[simp] theorem State.setThread_draws (s : State) (t : Tid) (x : Thread) : (s.setThread t x).draws = s.draws := rfl
@[simp] theorem State.setThread_gang (s : State) (t : Tid) (x : Thread) : (s.setThread t x).gang = s.gang := rfl
@[simp] theorem State.setThread_turn (s : State) (t : Tid) (x : Thread) : (s.setThread t x).turn = s.turn := rfl
@[simp] theorem State.setThread_prompt (s : State) (t : Tid) (x : Thread) : (s.setThread t x).prompt = s.prompt := rfl
@[simp] theorem State.setThread_inputs (s : State) (t : Tid) (x : Thread) : (s.setThread t x).inputs = s.inputs := rfl
@[simp] theorem State.setThread_pending (s : State) (t : Tid) (x : Thread) : (s.setThread t x).pending = s.pending := rfl
@[simp] theorem State.setThread_cohorts (s : State) (t : Tid) (x : Thread) : (s.setThread t x).cohorts = s.cohorts := rfl
@[simp] theorem State.setThread_teams (s : State) (t : Tid) (x : Thread) : (s.setThread t x).teams = s.teams := rfl
@[simp] theorem State.setThread_sectors (s : State) (t : Tid) (x : Thread) : (s.setThread t x).sectors = s.sectors := rfl
@[simp] theorem State.setThread_cores (s : State) (t : Tid) (x : Thread) : (s.setThread t x).cores = s.cores := rfl
@[simp] theorem State.setThread_clusters (s : State) (t : Tid) (x : Thread) : (s.setThread t x).clusters = s.clusters := rfl
@[simp] theorem State.setThread_scratch (s : State) (t : Tid) (x : Thread) : (s.setThread t x).scratch = s.scratch := rfl
@[simp] theorem State.setThread_cc (s : State) (t : Tid) (x : Thread) : (s.setThread t x).cc = s.cc := rfl
@[simp] theorem State.setThread_mem (s : State) (t : Tid) (x : Thread) : (s.setThread t x).mem = s.mem := rfl
@[simp] theorem State.setThread_poison (s : State) (t : Tid) (x : Thread) : (s.setThread t x).poison = s.poison := rfl
@[simp] theorem State.setThread_l2 (s : State) (t : Tid) (x : Thread) : (s.setThread t x).l2 = s.l2 := rfl
@[simp] theorem State.setThread_writers (s : State) (t : Tid) (x : Thread) : (s.setThread t x).writers = s.writers := rfl
@[simp] theorem State.setThread_scratchWriters (s : State) (t : Tid) (x : Thread) : (s.setThread t x).scratchWriters = s.scratchWriters := rfl
@[simp] theorem State.setThread_authors (s : State) (t : Tid) (x : Thread) : (s.setThread t x).authors = s.authors := rfl
@[simp] theorem State.setThread_scratchAuthors (s : State) (t : Tid) (x : Thread) : (s.setThread t x).scratchAuthors = s.scratchAuthors := rfl
@[simp] theorem State.setThread_tree (s : State) (t : Tid) (x : Thread) : (s.setThread t x).tree = s.tree := rfl
@[simp] theorem State.setThread_treeUp (s : State) (t : Tid) (x : Thread) : (s.setThread t x).treeUp = s.treeUp := rfl
@[simp] theorem State.setThread_treeFailed (s : State) (t : Tid) (x : Thread) : (s.setThread t x).treeFailed = s.treeFailed := rfl
@[simp] theorem State.setThread_slices (s : State) (t : Tid) (x : Thread) : (s.setThread t x).slices = s.slices := rfl
@[simp] theorem State.setThread_stores (s : State) (t : Tid) (x : Thread) : (s.setThread t x).stores = s.stores := rfl
@[simp] theorem State.setThread_storeNext (s : State) (t : Tid) (x : Thread) : (s.setThread t x).storeNext = s.storeNext := rfl
@[simp] theorem State.setThread_waits (s : State) (t : Tid) (x : Thread) : (s.setThread t x).waits = s.waits := rfl
@[simp] theorem State.setThread_waitNext (s : State) (t : Tid) (x : Thread) : (s.setThread t x).waitNext = s.waitNext := rfl
@[simp] theorem State.setThread_partitions (s : State) (t : Tid) (x : Thread) : (s.setThread t x).partitions = s.partitions := rfl
@[simp] theorem State.setThread_vfs (s : State) (t : Tid) (x : Thread) : (s.setThread t x).vfs = s.vfs := rfl
@[simp] theorem State.setThread_hubs (s : State) (t : Tid) (x : Thread) : (s.setThread t x).hubs = s.hubs := rfl
@[simp] theorem State.setThread_messages (s : State) (t : Tid) (x : Thread) : (s.setThread t x).messages = s.messages := rfl
@[simp] theorem State.setThread_messageNext (s : State) (t : Tid) (x : Thread) : (s.setThread t x).messageNext = s.messageNext := rfl
@[simp] theorem State.setThread_pinned (s : State) (t : Tid) (x : Thread) : (s.setThread t x).pinned = s.pinned := rfl
@[simp] theorem State.setThread_twins (s : State) (t : Tid) (x : Thread) : (s.setThread t x).twins = s.twins := rfl
@[simp] theorem State.setThread_pkg (s : State) (t : Tid) (x : Thread) : (s.setThread t x).pkg = s.pkg := rfl

@[simp] theorem State.modThread_draws (s : State) (t : Tid) (f : Thread → Thread) : (s.modThread t f).draws = s.draws := rfl
@[simp] theorem State.modThread_gang (s : State) (t : Tid) (f : Thread → Thread) : (s.modThread t f).gang = s.gang := rfl
@[simp] theorem State.modThread_turn (s : State) (t : Tid) (f : Thread → Thread) : (s.modThread t f).turn = s.turn := rfl
@[simp] theorem State.modThread_prompt (s : State) (t : Tid) (f : Thread → Thread) : (s.modThread t f).prompt = s.prompt := rfl
@[simp] theorem State.modThread_inputs (s : State) (t : Tid) (f : Thread → Thread) : (s.modThread t f).inputs = s.inputs := rfl
@[simp] theorem State.modThread_pending (s : State) (t : Tid) (f : Thread → Thread) : (s.modThread t f).pending = s.pending := rfl
@[simp] theorem State.modThread_cohorts (s : State) (t : Tid) (f : Thread → Thread) : (s.modThread t f).cohorts = s.cohorts := rfl
@[simp] theorem State.modThread_teams (s : State) (t : Tid) (f : Thread → Thread) : (s.modThread t f).teams = s.teams := rfl
@[simp] theorem State.modThread_sectors (s : State) (t : Tid) (f : Thread → Thread) : (s.modThread t f).sectors = s.sectors := rfl
@[simp] theorem State.modThread_cores (s : State) (t : Tid) (f : Thread → Thread) : (s.modThread t f).cores = s.cores := rfl
@[simp] theorem State.modThread_clusters (s : State) (t : Tid) (f : Thread → Thread) : (s.modThread t f).clusters = s.clusters := rfl
@[simp] theorem State.modThread_scratch (s : State) (t : Tid) (f : Thread → Thread) : (s.modThread t f).scratch = s.scratch := rfl
@[simp] theorem State.modThread_cc (s : State) (t : Tid) (f : Thread → Thread) : (s.modThread t f).cc = s.cc := rfl
@[simp] theorem State.modThread_mem (s : State) (t : Tid) (f : Thread → Thread) : (s.modThread t f).mem = s.mem := rfl
@[simp] theorem State.modThread_poison (s : State) (t : Tid) (f : Thread → Thread) : (s.modThread t f).poison = s.poison := rfl
@[simp] theorem State.modThread_l2 (s : State) (t : Tid) (f : Thread → Thread) : (s.modThread t f).l2 = s.l2 := rfl
@[simp] theorem State.modThread_writers (s : State) (t : Tid) (f : Thread → Thread) : (s.modThread t f).writers = s.writers := rfl
@[simp] theorem State.modThread_scratchWriters (s : State) (t : Tid) (f : Thread → Thread) : (s.modThread t f).scratchWriters = s.scratchWriters := rfl
@[simp] theorem State.modThread_authors (s : State) (t : Tid) (f : Thread → Thread) : (s.modThread t f).authors = s.authors := rfl
@[simp] theorem State.modThread_scratchAuthors (s : State) (t : Tid) (f : Thread → Thread) : (s.modThread t f).scratchAuthors = s.scratchAuthors := rfl
@[simp] theorem State.modThread_tree (s : State) (t : Tid) (f : Thread → Thread) : (s.modThread t f).tree = s.tree := rfl
@[simp] theorem State.modThread_treeUp (s : State) (t : Tid) (f : Thread → Thread) : (s.modThread t f).treeUp = s.treeUp := rfl
@[simp] theorem State.modThread_treeFailed (s : State) (t : Tid) (f : Thread → Thread) : (s.modThread t f).treeFailed = s.treeFailed := rfl
@[simp] theorem State.modThread_slices (s : State) (t : Tid) (f : Thread → Thread) : (s.modThread t f).slices = s.slices := rfl
@[simp] theorem State.modThread_stores (s : State) (t : Tid) (f : Thread → Thread) : (s.modThread t f).stores = s.stores := rfl
@[simp] theorem State.modThread_storeNext (s : State) (t : Tid) (f : Thread → Thread) : (s.modThread t f).storeNext = s.storeNext := rfl
@[simp] theorem State.modThread_waits (s : State) (t : Tid) (f : Thread → Thread) : (s.modThread t f).waits = s.waits := rfl
@[simp] theorem State.modThread_waitNext (s : State) (t : Tid) (f : Thread → Thread) : (s.modThread t f).waitNext = s.waitNext := rfl
@[simp] theorem State.modThread_partitions (s : State) (t : Tid) (f : Thread → Thread) : (s.modThread t f).partitions = s.partitions := rfl
@[simp] theorem State.modThread_vfs (s : State) (t : Tid) (f : Thread → Thread) : (s.modThread t f).vfs = s.vfs := rfl
@[simp] theorem State.modThread_hubs (s : State) (t : Tid) (f : Thread → Thread) : (s.modThread t f).hubs = s.hubs := rfl
@[simp] theorem State.modThread_messages (s : State) (t : Tid) (f : Thread → Thread) : (s.modThread t f).messages = s.messages := rfl
@[simp] theorem State.modThread_messageNext (s : State) (t : Tid) (f : Thread → Thread) : (s.modThread t f).messageNext = s.messageNext := rfl
@[simp] theorem State.modThread_pinned (s : State) (t : Tid) (f : Thread → Thread) : (s.modThread t f).pinned = s.pinned := rfl
@[simp] theorem State.modThread_twins (s : State) (t : Tid) (f : Thread → Thread) : (s.modThread t f).twins = s.twins := rfl
@[simp] theorem State.modThread_pkg (s : State) (t : Tid) (f : Thread → Thread) : (s.modThread t f).pkg = s.pkg := rfl

@[simp] theorem State.modTeam_draws (s : State) (c k : Nat) (f : Team → Team) : (s.modTeam c k f).draws = s.draws := rfl
@[simp] theorem State.modTeam_gang (s : State) (c k : Nat) (f : Team → Team) : (s.modTeam c k f).gang = s.gang := rfl
@[simp] theorem State.modTeam_turn (s : State) (c k : Nat) (f : Team → Team) : (s.modTeam c k f).turn = s.turn := rfl
@[simp] theorem State.modTeam_prompt (s : State) (c k : Nat) (f : Team → Team) : (s.modTeam c k f).prompt = s.prompt := rfl
@[simp] theorem State.modTeam_inputs (s : State) (c k : Nat) (f : Team → Team) : (s.modTeam c k f).inputs = s.inputs := rfl
@[simp] theorem State.modTeam_pending (s : State) (c k : Nat) (f : Team → Team) : (s.modTeam c k f).pending = s.pending := rfl
@[simp] theorem State.modTeam_threads (s : State) (c k : Nat) (f : Team → Team) : (s.modTeam c k f).threads = s.threads := rfl
@[simp] theorem State.modTeam_cohorts (s : State) (c k : Nat) (f : Team → Team) : (s.modTeam c k f).cohorts = s.cohorts := rfl
@[simp] theorem State.modTeam_sectors (s : State) (c k : Nat) (f : Team → Team) : (s.modTeam c k f).sectors = s.sectors := rfl
@[simp] theorem State.modTeam_cores (s : State) (c k : Nat) (f : Team → Team) : (s.modTeam c k f).cores = s.cores := rfl
@[simp] theorem State.modTeam_clusters (s : State) (c k : Nat) (f : Team → Team) : (s.modTeam c k f).clusters = s.clusters := rfl
@[simp] theorem State.modTeam_scratch (s : State) (c k : Nat) (f : Team → Team) : (s.modTeam c k f).scratch = s.scratch := rfl
@[simp] theorem State.modTeam_cc (s : State) (c k : Nat) (f : Team → Team) : (s.modTeam c k f).cc = s.cc := rfl
@[simp] theorem State.modTeam_mem (s : State) (c k : Nat) (f : Team → Team) : (s.modTeam c k f).mem = s.mem := rfl
@[simp] theorem State.modTeam_poison (s : State) (c k : Nat) (f : Team → Team) : (s.modTeam c k f).poison = s.poison := rfl
@[simp] theorem State.modTeam_l2 (s : State) (c k : Nat) (f : Team → Team) : (s.modTeam c k f).l2 = s.l2 := rfl
@[simp] theorem State.modTeam_writers (s : State) (c k : Nat) (f : Team → Team) : (s.modTeam c k f).writers = s.writers := rfl
@[simp] theorem State.modTeam_scratchWriters (s : State) (c k : Nat) (f : Team → Team) : (s.modTeam c k f).scratchWriters = s.scratchWriters := rfl
@[simp] theorem State.modTeam_authors (s : State) (c k : Nat) (f : Team → Team) : (s.modTeam c k f).authors = s.authors := rfl
@[simp] theorem State.modTeam_scratchAuthors (s : State) (c k : Nat) (f : Team → Team) : (s.modTeam c k f).scratchAuthors = s.scratchAuthors := rfl
@[simp] theorem State.modTeam_tree (s : State) (c k : Nat) (f : Team → Team) : (s.modTeam c k f).tree = s.tree := rfl
@[simp] theorem State.modTeam_treeUp (s : State) (c k : Nat) (f : Team → Team) : (s.modTeam c k f).treeUp = s.treeUp := rfl
@[simp] theorem State.modTeam_treeFailed (s : State) (c k : Nat) (f : Team → Team) : (s.modTeam c k f).treeFailed = s.treeFailed := rfl
@[simp] theorem State.modTeam_slices (s : State) (c k : Nat) (f : Team → Team) : (s.modTeam c k f).slices = s.slices := rfl
@[simp] theorem State.modTeam_stores (s : State) (c k : Nat) (f : Team → Team) : (s.modTeam c k f).stores = s.stores := rfl
@[simp] theorem State.modTeam_storeNext (s : State) (c k : Nat) (f : Team → Team) : (s.modTeam c k f).storeNext = s.storeNext := rfl
@[simp] theorem State.modTeam_waits (s : State) (c k : Nat) (f : Team → Team) : (s.modTeam c k f).waits = s.waits := rfl
@[simp] theorem State.modTeam_waitNext (s : State) (c k : Nat) (f : Team → Team) : (s.modTeam c k f).waitNext = s.waitNext := rfl
@[simp] theorem State.modTeam_partitions (s : State) (c k : Nat) (f : Team → Team) : (s.modTeam c k f).partitions = s.partitions := rfl
@[simp] theorem State.modTeam_vfs (s : State) (c k : Nat) (f : Team → Team) : (s.modTeam c k f).vfs = s.vfs := rfl
@[simp] theorem State.modTeam_hubs (s : State) (c k : Nat) (f : Team → Team) : (s.modTeam c k f).hubs = s.hubs := rfl
@[simp] theorem State.modTeam_messages (s : State) (c k : Nat) (f : Team → Team) : (s.modTeam c k f).messages = s.messages := rfl
@[simp] theorem State.modTeam_messageNext (s : State) (c k : Nat) (f : Team → Team) : (s.modTeam c k f).messageNext = s.messageNext := rfl
@[simp] theorem State.modTeam_pinned (s : State) (c k : Nat) (f : Team → Team) : (s.modTeam c k f).pinned = s.pinned := rfl
@[simp] theorem State.modTeam_twins (s : State) (c k : Nat) (f : Team → Team) : (s.modTeam c k f).twins = s.twins := rfl
@[simp] theorem State.modTeam_pkg (s : State) (c k : Nat) (f : Team → Team) : (s.modTeam c k f).pkg = s.pkg := rfl

@[simp] theorem State.modCohort_draws (s : State) (c k : Nat) (a : Bool) (n : Nat) (f : Cohort → Cohort) : (s.modCohort c k a n f).draws = s.draws := rfl
@[simp] theorem State.modCohort_gang (s : State) (c k : Nat) (a : Bool) (n : Nat) (f : Cohort → Cohort) : (s.modCohort c k a n f).gang = s.gang := rfl
@[simp] theorem State.modCohort_turn (s : State) (c k : Nat) (a : Bool) (n : Nat) (f : Cohort → Cohort) : (s.modCohort c k a n f).turn = s.turn := rfl
@[simp] theorem State.modCohort_prompt (s : State) (c k : Nat) (a : Bool) (n : Nat) (f : Cohort → Cohort) : (s.modCohort c k a n f).prompt = s.prompt := rfl
@[simp] theorem State.modCohort_inputs (s : State) (c k : Nat) (a : Bool) (n : Nat) (f : Cohort → Cohort) : (s.modCohort c k a n f).inputs = s.inputs := rfl
@[simp] theorem State.modCohort_pending (s : State) (c k : Nat) (a : Bool) (n : Nat) (f : Cohort → Cohort) : (s.modCohort c k a n f).pending = s.pending := rfl
@[simp] theorem State.modCohort_threads (s : State) (c k : Nat) (a : Bool) (n : Nat) (f : Cohort → Cohort) : (s.modCohort c k a n f).threads = s.threads := rfl
@[simp] theorem State.modCohort_teams (s : State) (c k : Nat) (a : Bool) (n : Nat) (f : Cohort → Cohort) : (s.modCohort c k a n f).teams = s.teams := rfl
@[simp] theorem State.modCohort_sectors (s : State) (c k : Nat) (a : Bool) (n : Nat) (f : Cohort → Cohort) : (s.modCohort c k a n f).sectors = s.sectors := rfl
@[simp] theorem State.modCohort_cores (s : State) (c k : Nat) (a : Bool) (n : Nat) (f : Cohort → Cohort) : (s.modCohort c k a n f).cores = s.cores := rfl
@[simp] theorem State.modCohort_clusters (s : State) (c k : Nat) (a : Bool) (n : Nat) (f : Cohort → Cohort) : (s.modCohort c k a n f).clusters = s.clusters := rfl
@[simp] theorem State.modCohort_scratch (s : State) (c k : Nat) (a : Bool) (n : Nat) (f : Cohort → Cohort) : (s.modCohort c k a n f).scratch = s.scratch := rfl
@[simp] theorem State.modCohort_cc (s : State) (c k : Nat) (a : Bool) (n : Nat) (f : Cohort → Cohort) : (s.modCohort c k a n f).cc = s.cc := rfl
@[simp] theorem State.modCohort_mem (s : State) (c k : Nat) (a : Bool) (n : Nat) (f : Cohort → Cohort) : (s.modCohort c k a n f).mem = s.mem := rfl
@[simp] theorem State.modCohort_poison (s : State) (c k : Nat) (a : Bool) (n : Nat) (f : Cohort → Cohort) : (s.modCohort c k a n f).poison = s.poison := rfl
@[simp] theorem State.modCohort_l2 (s : State) (c k : Nat) (a : Bool) (n : Nat) (f : Cohort → Cohort) : (s.modCohort c k a n f).l2 = s.l2 := rfl
@[simp] theorem State.modCohort_writers (s : State) (c k : Nat) (a : Bool) (n : Nat) (f : Cohort → Cohort) : (s.modCohort c k a n f).writers = s.writers := rfl
@[simp] theorem State.modCohort_scratchWriters (s : State) (c k : Nat) (a : Bool) (n : Nat) (f : Cohort → Cohort) : (s.modCohort c k a n f).scratchWriters = s.scratchWriters := rfl
@[simp] theorem State.modCohort_authors (s : State) (c k : Nat) (a : Bool) (n : Nat) (f : Cohort → Cohort) : (s.modCohort c k a n f).authors = s.authors := rfl
@[simp] theorem State.modCohort_scratchAuthors (s : State) (c k : Nat) (a : Bool) (n : Nat) (f : Cohort → Cohort) : (s.modCohort c k a n f).scratchAuthors = s.scratchAuthors := rfl
@[simp] theorem State.modCohort_tree (s : State) (c k : Nat) (a : Bool) (n : Nat) (f : Cohort → Cohort) : (s.modCohort c k a n f).tree = s.tree := rfl
@[simp] theorem State.modCohort_treeUp (s : State) (c k : Nat) (a : Bool) (n : Nat) (f : Cohort → Cohort) : (s.modCohort c k a n f).treeUp = s.treeUp := rfl
@[simp] theorem State.modCohort_treeFailed (s : State) (c k : Nat) (a : Bool) (n : Nat) (f : Cohort → Cohort) : (s.modCohort c k a n f).treeFailed = s.treeFailed := rfl
@[simp] theorem State.modCohort_slices (s : State) (c k : Nat) (a : Bool) (n : Nat) (f : Cohort → Cohort) : (s.modCohort c k a n f).slices = s.slices := rfl
@[simp] theorem State.modCohort_stores (s : State) (c k : Nat) (a : Bool) (n : Nat) (f : Cohort → Cohort) : (s.modCohort c k a n f).stores = s.stores := rfl
@[simp] theorem State.modCohort_storeNext (s : State) (c k : Nat) (a : Bool) (n : Nat) (f : Cohort → Cohort) : (s.modCohort c k a n f).storeNext = s.storeNext := rfl
@[simp] theorem State.modCohort_waits (s : State) (c k : Nat) (a : Bool) (n : Nat) (f : Cohort → Cohort) : (s.modCohort c k a n f).waits = s.waits := rfl
@[simp] theorem State.modCohort_waitNext (s : State) (c k : Nat) (a : Bool) (n : Nat) (f : Cohort → Cohort) : (s.modCohort c k a n f).waitNext = s.waitNext := rfl
@[simp] theorem State.modCohort_partitions (s : State) (c k : Nat) (a : Bool) (n : Nat) (f : Cohort → Cohort) : (s.modCohort c k a n f).partitions = s.partitions := rfl
@[simp] theorem State.modCohort_vfs (s : State) (c k : Nat) (a : Bool) (n : Nat) (f : Cohort → Cohort) : (s.modCohort c k a n f).vfs = s.vfs := rfl
@[simp] theorem State.modCohort_hubs (s : State) (c k : Nat) (a : Bool) (n : Nat) (f : Cohort → Cohort) : (s.modCohort c k a n f).hubs = s.hubs := rfl
@[simp] theorem State.modCohort_messages (s : State) (c k : Nat) (a : Bool) (n : Nat) (f : Cohort → Cohort) : (s.modCohort c k a n f).messages = s.messages := rfl
@[simp] theorem State.modCohort_messageNext (s : State) (c k : Nat) (a : Bool) (n : Nat) (f : Cohort → Cohort) : (s.modCohort c k a n f).messageNext = s.messageNext := rfl
@[simp] theorem State.modCohort_pinned (s : State) (c k : Nat) (a : Bool) (n : Nat) (f : Cohort → Cohort) : (s.modCohort c k a n f).pinned = s.pinned := rfl
@[simp] theorem State.modCohort_twins (s : State) (c k : Nat) (a : Bool) (n : Nat) (f : Cohort → Cohort) : (s.modCohort c k a n f).twins = s.twins := rfl
@[simp] theorem State.modCohort_pkg (s : State) (c k : Nat) (a : Bool) (n : Nat) (f : Cohort → Cohort) : (s.modCohort c k a n f).pkg = s.pkg := rfl

@[simp] theorem State.modCore_draws (s : State) (n : Nat) (f : Core → Core) : (s.modCore n f).draws = s.draws := rfl
@[simp] theorem State.modCore_gang (s : State) (n : Nat) (f : Core → Core) : (s.modCore n f).gang = s.gang := rfl
@[simp] theorem State.modCore_turn (s : State) (n : Nat) (f : Core → Core) : (s.modCore n f).turn = s.turn := rfl
@[simp] theorem State.modCore_prompt (s : State) (n : Nat) (f : Core → Core) : (s.modCore n f).prompt = s.prompt := rfl
@[simp] theorem State.modCore_inputs (s : State) (n : Nat) (f : Core → Core) : (s.modCore n f).inputs = s.inputs := rfl
@[simp] theorem State.modCore_pending (s : State) (n : Nat) (f : Core → Core) : (s.modCore n f).pending = s.pending := rfl
@[simp] theorem State.modCore_threads (s : State) (n : Nat) (f : Core → Core) : (s.modCore n f).threads = s.threads := rfl
@[simp] theorem State.modCore_cohorts (s : State) (n : Nat) (f : Core → Core) : (s.modCore n f).cohorts = s.cohorts := rfl
@[simp] theorem State.modCore_teams (s : State) (n : Nat) (f : Core → Core) : (s.modCore n f).teams = s.teams := rfl
@[simp] theorem State.modCore_sectors (s : State) (n : Nat) (f : Core → Core) : (s.modCore n f).sectors = s.sectors := rfl
@[simp] theorem State.modCore_clusters (s : State) (n : Nat) (f : Core → Core) : (s.modCore n f).clusters = s.clusters := rfl
@[simp] theorem State.modCore_scratch (s : State) (n : Nat) (f : Core → Core) : (s.modCore n f).scratch = s.scratch := rfl
@[simp] theorem State.modCore_cc (s : State) (n : Nat) (f : Core → Core) : (s.modCore n f).cc = s.cc := rfl
@[simp] theorem State.modCore_mem (s : State) (n : Nat) (f : Core → Core) : (s.modCore n f).mem = s.mem := rfl
@[simp] theorem State.modCore_poison (s : State) (n : Nat) (f : Core → Core) : (s.modCore n f).poison = s.poison := rfl
@[simp] theorem State.modCore_l2 (s : State) (n : Nat) (f : Core → Core) : (s.modCore n f).l2 = s.l2 := rfl
@[simp] theorem State.modCore_writers (s : State) (n : Nat) (f : Core → Core) : (s.modCore n f).writers = s.writers := rfl
@[simp] theorem State.modCore_scratchWriters (s : State) (n : Nat) (f : Core → Core) : (s.modCore n f).scratchWriters = s.scratchWriters := rfl
@[simp] theorem State.modCore_authors (s : State) (n : Nat) (f : Core → Core) : (s.modCore n f).authors = s.authors := rfl
@[simp] theorem State.modCore_scratchAuthors (s : State) (n : Nat) (f : Core → Core) : (s.modCore n f).scratchAuthors = s.scratchAuthors := rfl
@[simp] theorem State.modCore_tree (s : State) (n : Nat) (f : Core → Core) : (s.modCore n f).tree = s.tree := rfl
@[simp] theorem State.modCore_treeUp (s : State) (n : Nat) (f : Core → Core) : (s.modCore n f).treeUp = s.treeUp := rfl
@[simp] theorem State.modCore_treeFailed (s : State) (n : Nat) (f : Core → Core) : (s.modCore n f).treeFailed = s.treeFailed := rfl
@[simp] theorem State.modCore_slices (s : State) (n : Nat) (f : Core → Core) : (s.modCore n f).slices = s.slices := rfl
@[simp] theorem State.modCore_stores (s : State) (n : Nat) (f : Core → Core) : (s.modCore n f).stores = s.stores := rfl
@[simp] theorem State.modCore_storeNext (s : State) (n : Nat) (f : Core → Core) : (s.modCore n f).storeNext = s.storeNext := rfl
@[simp] theorem State.modCore_waits (s : State) (n : Nat) (f : Core → Core) : (s.modCore n f).waits = s.waits := rfl
@[simp] theorem State.modCore_waitNext (s : State) (n : Nat) (f : Core → Core) : (s.modCore n f).waitNext = s.waitNext := rfl
@[simp] theorem State.modCore_partitions (s : State) (n : Nat) (f : Core → Core) : (s.modCore n f).partitions = s.partitions := rfl
@[simp] theorem State.modCore_vfs (s : State) (n : Nat) (f : Core → Core) : (s.modCore n f).vfs = s.vfs := rfl
@[simp] theorem State.modCore_hubs (s : State) (n : Nat) (f : Core → Core) : (s.modCore n f).hubs = s.hubs := rfl
@[simp] theorem State.modCore_messages (s : State) (n : Nat) (f : Core → Core) : (s.modCore n f).messages = s.messages := rfl
@[simp] theorem State.modCore_messageNext (s : State) (n : Nat) (f : Core → Core) : (s.modCore n f).messageNext = s.messageNext := rfl
@[simp] theorem State.modCore_pinned (s : State) (n : Nat) (f : Core → Core) : (s.modCore n f).pinned = s.pinned := rfl
@[simp] theorem State.modCore_twins (s : State) (n : Nat) (f : Core → Core) : (s.modCore n f).twins = s.twins := rfl
@[simp] theorem State.modCore_pkg (s : State) (n : Nat) (f : Core → Core) : (s.modCore n f).pkg = s.pkg := rfl

@[simp] theorem State.modSector_draws (s : State) (c n : Nat) (f : Sector → Sector) : (s.modSector c n f).draws = s.draws := rfl
@[simp] theorem State.modSector_gang (s : State) (c n : Nat) (f : Sector → Sector) : (s.modSector c n f).gang = s.gang := rfl
@[simp] theorem State.modSector_turn (s : State) (c n : Nat) (f : Sector → Sector) : (s.modSector c n f).turn = s.turn := rfl
@[simp] theorem State.modSector_prompt (s : State) (c n : Nat) (f : Sector → Sector) : (s.modSector c n f).prompt = s.prompt := rfl
@[simp] theorem State.modSector_inputs (s : State) (c n : Nat) (f : Sector → Sector) : (s.modSector c n f).inputs = s.inputs := rfl
@[simp] theorem State.modSector_pending (s : State) (c n : Nat) (f : Sector → Sector) : (s.modSector c n f).pending = s.pending := rfl
@[simp] theorem State.modSector_threads (s : State) (c n : Nat) (f : Sector → Sector) : (s.modSector c n f).threads = s.threads := rfl
@[simp] theorem State.modSector_cohorts (s : State) (c n : Nat) (f : Sector → Sector) : (s.modSector c n f).cohorts = s.cohorts := rfl
@[simp] theorem State.modSector_teams (s : State) (c n : Nat) (f : Sector → Sector) : (s.modSector c n f).teams = s.teams := rfl
@[simp] theorem State.modSector_cores (s : State) (c n : Nat) (f : Sector → Sector) : (s.modSector c n f).cores = s.cores := rfl
@[simp] theorem State.modSector_clusters (s : State) (c n : Nat) (f : Sector → Sector) : (s.modSector c n f).clusters = s.clusters := rfl
@[simp] theorem State.modSector_scratch (s : State) (c n : Nat) (f : Sector → Sector) : (s.modSector c n f).scratch = s.scratch := rfl
@[simp] theorem State.modSector_cc (s : State) (c n : Nat) (f : Sector → Sector) : (s.modSector c n f).cc = s.cc := rfl
@[simp] theorem State.modSector_mem (s : State) (c n : Nat) (f : Sector → Sector) : (s.modSector c n f).mem = s.mem := rfl
@[simp] theorem State.modSector_poison (s : State) (c n : Nat) (f : Sector → Sector) : (s.modSector c n f).poison = s.poison := rfl
@[simp] theorem State.modSector_l2 (s : State) (c n : Nat) (f : Sector → Sector) : (s.modSector c n f).l2 = s.l2 := rfl
@[simp] theorem State.modSector_writers (s : State) (c n : Nat) (f : Sector → Sector) : (s.modSector c n f).writers = s.writers := rfl
@[simp] theorem State.modSector_scratchWriters (s : State) (c n : Nat) (f : Sector → Sector) : (s.modSector c n f).scratchWriters = s.scratchWriters := rfl
@[simp] theorem State.modSector_authors (s : State) (c n : Nat) (f : Sector → Sector) : (s.modSector c n f).authors = s.authors := rfl
@[simp] theorem State.modSector_scratchAuthors (s : State) (c n : Nat) (f : Sector → Sector) : (s.modSector c n f).scratchAuthors = s.scratchAuthors := rfl
@[simp] theorem State.modSector_tree (s : State) (c n : Nat) (f : Sector → Sector) : (s.modSector c n f).tree = s.tree := rfl
@[simp] theorem State.modSector_treeUp (s : State) (c n : Nat) (f : Sector → Sector) : (s.modSector c n f).treeUp = s.treeUp := rfl
@[simp] theorem State.modSector_treeFailed (s : State) (c n : Nat) (f : Sector → Sector) : (s.modSector c n f).treeFailed = s.treeFailed := rfl
@[simp] theorem State.modSector_slices (s : State) (c n : Nat) (f : Sector → Sector) : (s.modSector c n f).slices = s.slices := rfl
@[simp] theorem State.modSector_stores (s : State) (c n : Nat) (f : Sector → Sector) : (s.modSector c n f).stores = s.stores := rfl
@[simp] theorem State.modSector_storeNext (s : State) (c n : Nat) (f : Sector → Sector) : (s.modSector c n f).storeNext = s.storeNext := rfl
@[simp] theorem State.modSector_waits (s : State) (c n : Nat) (f : Sector → Sector) : (s.modSector c n f).waits = s.waits := rfl
@[simp] theorem State.modSector_waitNext (s : State) (c n : Nat) (f : Sector → Sector) : (s.modSector c n f).waitNext = s.waitNext := rfl
@[simp] theorem State.modSector_partitions (s : State) (c n : Nat) (f : Sector → Sector) : (s.modSector c n f).partitions = s.partitions := rfl
@[simp] theorem State.modSector_vfs (s : State) (c n : Nat) (f : Sector → Sector) : (s.modSector c n f).vfs = s.vfs := rfl
@[simp] theorem State.modSector_hubs (s : State) (c n : Nat) (f : Sector → Sector) : (s.modSector c n f).hubs = s.hubs := rfl
@[simp] theorem State.modSector_messages (s : State) (c n : Nat) (f : Sector → Sector) : (s.modSector c n f).messages = s.messages := rfl
@[simp] theorem State.modSector_messageNext (s : State) (c n : Nat) (f : Sector → Sector) : (s.modSector c n f).messageNext = s.messageNext := rfl
@[simp] theorem State.modSector_pinned (s : State) (c n : Nat) (f : Sector → Sector) : (s.modSector c n f).pinned = s.pinned := rfl
@[simp] theorem State.modSector_twins (s : State) (c n : Nat) (f : Sector → Sector) : (s.modSector c n f).twins = s.twins := rfl
@[simp] theorem State.modSector_pkg (s : State) (c n : Nat) (f : Sector → Sector) : (s.modSector c n f).pkg = s.pkg := rfl

@[simp] theorem State.modCluster_draws (s : State) (n : Nat) (f : Cluster → Cluster) : (s.modCluster n f).draws = s.draws := rfl
@[simp] theorem State.modCluster_gang (s : State) (n : Nat) (f : Cluster → Cluster) : (s.modCluster n f).gang = s.gang := rfl
@[simp] theorem State.modCluster_turn (s : State) (n : Nat) (f : Cluster → Cluster) : (s.modCluster n f).turn = s.turn := rfl
@[simp] theorem State.modCluster_prompt (s : State) (n : Nat) (f : Cluster → Cluster) : (s.modCluster n f).prompt = s.prompt := rfl
@[simp] theorem State.modCluster_inputs (s : State) (n : Nat) (f : Cluster → Cluster) : (s.modCluster n f).inputs = s.inputs := rfl
@[simp] theorem State.modCluster_pending (s : State) (n : Nat) (f : Cluster → Cluster) : (s.modCluster n f).pending = s.pending := rfl
@[simp] theorem State.modCluster_threads (s : State) (n : Nat) (f : Cluster → Cluster) : (s.modCluster n f).threads = s.threads := rfl
@[simp] theorem State.modCluster_cohorts (s : State) (n : Nat) (f : Cluster → Cluster) : (s.modCluster n f).cohorts = s.cohorts := rfl
@[simp] theorem State.modCluster_teams (s : State) (n : Nat) (f : Cluster → Cluster) : (s.modCluster n f).teams = s.teams := rfl
@[simp] theorem State.modCluster_sectors (s : State) (n : Nat) (f : Cluster → Cluster) : (s.modCluster n f).sectors = s.sectors := rfl
@[simp] theorem State.modCluster_cores (s : State) (n : Nat) (f : Cluster → Cluster) : (s.modCluster n f).cores = s.cores := rfl
@[simp] theorem State.modCluster_scratch (s : State) (n : Nat) (f : Cluster → Cluster) : (s.modCluster n f).scratch = s.scratch := rfl
@[simp] theorem State.modCluster_cc (s : State) (n : Nat) (f : Cluster → Cluster) : (s.modCluster n f).cc = s.cc := rfl
@[simp] theorem State.modCluster_mem (s : State) (n : Nat) (f : Cluster → Cluster) : (s.modCluster n f).mem = s.mem := rfl
@[simp] theorem State.modCluster_poison (s : State) (n : Nat) (f : Cluster → Cluster) : (s.modCluster n f).poison = s.poison := rfl
@[simp] theorem State.modCluster_l2 (s : State) (n : Nat) (f : Cluster → Cluster) : (s.modCluster n f).l2 = s.l2 := rfl
@[simp] theorem State.modCluster_writers (s : State) (n : Nat) (f : Cluster → Cluster) : (s.modCluster n f).writers = s.writers := rfl
@[simp] theorem State.modCluster_scratchWriters (s : State) (n : Nat) (f : Cluster → Cluster) : (s.modCluster n f).scratchWriters = s.scratchWriters := rfl
@[simp] theorem State.modCluster_authors (s : State) (n : Nat) (f : Cluster → Cluster) : (s.modCluster n f).authors = s.authors := rfl
@[simp] theorem State.modCluster_scratchAuthors (s : State) (n : Nat) (f : Cluster → Cluster) : (s.modCluster n f).scratchAuthors = s.scratchAuthors := rfl
@[simp] theorem State.modCluster_tree (s : State) (n : Nat) (f : Cluster → Cluster) : (s.modCluster n f).tree = s.tree := rfl
@[simp] theorem State.modCluster_treeUp (s : State) (n : Nat) (f : Cluster → Cluster) : (s.modCluster n f).treeUp = s.treeUp := rfl
@[simp] theorem State.modCluster_treeFailed (s : State) (n : Nat) (f : Cluster → Cluster) : (s.modCluster n f).treeFailed = s.treeFailed := rfl
@[simp] theorem State.modCluster_slices (s : State) (n : Nat) (f : Cluster → Cluster) : (s.modCluster n f).slices = s.slices := rfl
@[simp] theorem State.modCluster_stores (s : State) (n : Nat) (f : Cluster → Cluster) : (s.modCluster n f).stores = s.stores := rfl
@[simp] theorem State.modCluster_storeNext (s : State) (n : Nat) (f : Cluster → Cluster) : (s.modCluster n f).storeNext = s.storeNext := rfl
@[simp] theorem State.modCluster_waits (s : State) (n : Nat) (f : Cluster → Cluster) : (s.modCluster n f).waits = s.waits := rfl
@[simp] theorem State.modCluster_waitNext (s : State) (n : Nat) (f : Cluster → Cluster) : (s.modCluster n f).waitNext = s.waitNext := rfl
@[simp] theorem State.modCluster_partitions (s : State) (n : Nat) (f : Cluster → Cluster) : (s.modCluster n f).partitions = s.partitions := rfl
@[simp] theorem State.modCluster_vfs (s : State) (n : Nat) (f : Cluster → Cluster) : (s.modCluster n f).vfs = s.vfs := rfl
@[simp] theorem State.modCluster_hubs (s : State) (n : Nat) (f : Cluster → Cluster) : (s.modCluster n f).hubs = s.hubs := rfl
@[simp] theorem State.modCluster_messages (s : State) (n : Nat) (f : Cluster → Cluster) : (s.modCluster n f).messages = s.messages := rfl
@[simp] theorem State.modCluster_messageNext (s : State) (n : Nat) (f : Cluster → Cluster) : (s.modCluster n f).messageNext = s.messageNext := rfl
@[simp] theorem State.modCluster_pinned (s : State) (n : Nat) (f : Cluster → Cluster) : (s.modCluster n f).pinned = s.pinned := rfl
@[simp] theorem State.modCluster_twins (s : State) (n : Nat) (f : Cluster → Cluster) : (s.modCluster n f).twins = s.twins := rfl
@[simp] theorem State.modCluster_pkg (s : State) (n : Nat) (f : Cluster → Cluster) : (s.modCluster n f).pkg = s.pkg := rfl

@[simp] theorem State.modPartition_draws (s : State) (n : Nat) (f : Partition → Partition) : (s.modPartition n f).draws = s.draws := rfl
@[simp] theorem State.modPartition_gang (s : State) (n : Nat) (f : Partition → Partition) : (s.modPartition n f).gang = s.gang := rfl
@[simp] theorem State.modPartition_turn (s : State) (n : Nat) (f : Partition → Partition) : (s.modPartition n f).turn = s.turn := rfl
@[simp] theorem State.modPartition_prompt (s : State) (n : Nat) (f : Partition → Partition) : (s.modPartition n f).prompt = s.prompt := rfl
@[simp] theorem State.modPartition_inputs (s : State) (n : Nat) (f : Partition → Partition) : (s.modPartition n f).inputs = s.inputs := rfl
@[simp] theorem State.modPartition_pending (s : State) (n : Nat) (f : Partition → Partition) : (s.modPartition n f).pending = s.pending := rfl
@[simp] theorem State.modPartition_threads (s : State) (n : Nat) (f : Partition → Partition) : (s.modPartition n f).threads = s.threads := rfl
@[simp] theorem State.modPartition_cohorts (s : State) (n : Nat) (f : Partition → Partition) : (s.modPartition n f).cohorts = s.cohorts := rfl
@[simp] theorem State.modPartition_teams (s : State) (n : Nat) (f : Partition → Partition) : (s.modPartition n f).teams = s.teams := rfl
@[simp] theorem State.modPartition_sectors (s : State) (n : Nat) (f : Partition → Partition) : (s.modPartition n f).sectors = s.sectors := rfl
@[simp] theorem State.modPartition_cores (s : State) (n : Nat) (f : Partition → Partition) : (s.modPartition n f).cores = s.cores := rfl
@[simp] theorem State.modPartition_clusters (s : State) (n : Nat) (f : Partition → Partition) : (s.modPartition n f).clusters = s.clusters := rfl
@[simp] theorem State.modPartition_scratch (s : State) (n : Nat) (f : Partition → Partition) : (s.modPartition n f).scratch = s.scratch := rfl
@[simp] theorem State.modPartition_cc (s : State) (n : Nat) (f : Partition → Partition) : (s.modPartition n f).cc = s.cc := rfl
@[simp] theorem State.modPartition_mem (s : State) (n : Nat) (f : Partition → Partition) : (s.modPartition n f).mem = s.mem := rfl
@[simp] theorem State.modPartition_poison (s : State) (n : Nat) (f : Partition → Partition) : (s.modPartition n f).poison = s.poison := rfl
@[simp] theorem State.modPartition_l2 (s : State) (n : Nat) (f : Partition → Partition) : (s.modPartition n f).l2 = s.l2 := rfl
@[simp] theorem State.modPartition_writers (s : State) (n : Nat) (f : Partition → Partition) : (s.modPartition n f).writers = s.writers := rfl
@[simp] theorem State.modPartition_scratchWriters (s : State) (n : Nat) (f : Partition → Partition) : (s.modPartition n f).scratchWriters = s.scratchWriters := rfl
@[simp] theorem State.modPartition_authors (s : State) (n : Nat) (f : Partition → Partition) : (s.modPartition n f).authors = s.authors := rfl
@[simp] theorem State.modPartition_scratchAuthors (s : State) (n : Nat) (f : Partition → Partition) : (s.modPartition n f).scratchAuthors = s.scratchAuthors := rfl
@[simp] theorem State.modPartition_tree (s : State) (n : Nat) (f : Partition → Partition) : (s.modPartition n f).tree = s.tree := rfl
@[simp] theorem State.modPartition_treeUp (s : State) (n : Nat) (f : Partition → Partition) : (s.modPartition n f).treeUp = s.treeUp := rfl
@[simp] theorem State.modPartition_treeFailed (s : State) (n : Nat) (f : Partition → Partition) : (s.modPartition n f).treeFailed = s.treeFailed := rfl
@[simp] theorem State.modPartition_slices (s : State) (n : Nat) (f : Partition → Partition) : (s.modPartition n f).slices = s.slices := rfl
@[simp] theorem State.modPartition_stores (s : State) (n : Nat) (f : Partition → Partition) : (s.modPartition n f).stores = s.stores := rfl
@[simp] theorem State.modPartition_storeNext (s : State) (n : Nat) (f : Partition → Partition) : (s.modPartition n f).storeNext = s.storeNext := rfl
@[simp] theorem State.modPartition_waits (s : State) (n : Nat) (f : Partition → Partition) : (s.modPartition n f).waits = s.waits := rfl
@[simp] theorem State.modPartition_waitNext (s : State) (n : Nat) (f : Partition → Partition) : (s.modPartition n f).waitNext = s.waitNext := rfl
@[simp] theorem State.modPartition_vfs (s : State) (n : Nat) (f : Partition → Partition) : (s.modPartition n f).vfs = s.vfs := rfl
@[simp] theorem State.modPartition_hubs (s : State) (n : Nat) (f : Partition → Partition) : (s.modPartition n f).hubs = s.hubs := rfl
@[simp] theorem State.modPartition_messages (s : State) (n : Nat) (f : Partition → Partition) : (s.modPartition n f).messages = s.messages := rfl
@[simp] theorem State.modPartition_messageNext (s : State) (n : Nat) (f : Partition → Partition) : (s.modPartition n f).messageNext = s.messageNext := rfl
@[simp] theorem State.modPartition_pinned (s : State) (n : Nat) (f : Partition → Partition) : (s.modPartition n f).pinned = s.pinned := rfl
@[simp] theorem State.modPartition_twins (s : State) (n : Nat) (f : Partition → Partition) : (s.modPartition n f).twins = s.twins := rfl
@[simp] theorem State.modPartition_pkg (s : State) (n : Nat) (f : Partition → Partition) : (s.modPartition n f).pkg = s.pkg := rfl

@[simp] theorem State.modVf_draws (s : State) (n : Nat) (f : Vf → Vf) : (s.modVf n f).draws = s.draws := rfl
@[simp] theorem State.modVf_gang (s : State) (n : Nat) (f : Vf → Vf) : (s.modVf n f).gang = s.gang := rfl
@[simp] theorem State.modVf_turn (s : State) (n : Nat) (f : Vf → Vf) : (s.modVf n f).turn = s.turn := rfl
@[simp] theorem State.modVf_prompt (s : State) (n : Nat) (f : Vf → Vf) : (s.modVf n f).prompt = s.prompt := rfl
@[simp] theorem State.modVf_inputs (s : State) (n : Nat) (f : Vf → Vf) : (s.modVf n f).inputs = s.inputs := rfl
@[simp] theorem State.modVf_pending (s : State) (n : Nat) (f : Vf → Vf) : (s.modVf n f).pending = s.pending := rfl
@[simp] theorem State.modVf_threads (s : State) (n : Nat) (f : Vf → Vf) : (s.modVf n f).threads = s.threads := rfl
@[simp] theorem State.modVf_cohorts (s : State) (n : Nat) (f : Vf → Vf) : (s.modVf n f).cohorts = s.cohorts := rfl
@[simp] theorem State.modVf_teams (s : State) (n : Nat) (f : Vf → Vf) : (s.modVf n f).teams = s.teams := rfl
@[simp] theorem State.modVf_sectors (s : State) (n : Nat) (f : Vf → Vf) : (s.modVf n f).sectors = s.sectors := rfl
@[simp] theorem State.modVf_cores (s : State) (n : Nat) (f : Vf → Vf) : (s.modVf n f).cores = s.cores := rfl
@[simp] theorem State.modVf_clusters (s : State) (n : Nat) (f : Vf → Vf) : (s.modVf n f).clusters = s.clusters := rfl
@[simp] theorem State.modVf_scratch (s : State) (n : Nat) (f : Vf → Vf) : (s.modVf n f).scratch = s.scratch := rfl
@[simp] theorem State.modVf_cc (s : State) (n : Nat) (f : Vf → Vf) : (s.modVf n f).cc = s.cc := rfl
@[simp] theorem State.modVf_mem (s : State) (n : Nat) (f : Vf → Vf) : (s.modVf n f).mem = s.mem := rfl
@[simp] theorem State.modVf_poison (s : State) (n : Nat) (f : Vf → Vf) : (s.modVf n f).poison = s.poison := rfl
@[simp] theorem State.modVf_l2 (s : State) (n : Nat) (f : Vf → Vf) : (s.modVf n f).l2 = s.l2 := rfl
@[simp] theorem State.modVf_writers (s : State) (n : Nat) (f : Vf → Vf) : (s.modVf n f).writers = s.writers := rfl
@[simp] theorem State.modVf_scratchWriters (s : State) (n : Nat) (f : Vf → Vf) : (s.modVf n f).scratchWriters = s.scratchWriters := rfl
@[simp] theorem State.modVf_authors (s : State) (n : Nat) (f : Vf → Vf) : (s.modVf n f).authors = s.authors := rfl
@[simp] theorem State.modVf_scratchAuthors (s : State) (n : Nat) (f : Vf → Vf) : (s.modVf n f).scratchAuthors = s.scratchAuthors := rfl
@[simp] theorem State.modVf_tree (s : State) (n : Nat) (f : Vf → Vf) : (s.modVf n f).tree = s.tree := rfl
@[simp] theorem State.modVf_treeUp (s : State) (n : Nat) (f : Vf → Vf) : (s.modVf n f).treeUp = s.treeUp := rfl
@[simp] theorem State.modVf_treeFailed (s : State) (n : Nat) (f : Vf → Vf) : (s.modVf n f).treeFailed = s.treeFailed := rfl
@[simp] theorem State.modVf_slices (s : State) (n : Nat) (f : Vf → Vf) : (s.modVf n f).slices = s.slices := rfl
@[simp] theorem State.modVf_stores (s : State) (n : Nat) (f : Vf → Vf) : (s.modVf n f).stores = s.stores := rfl
@[simp] theorem State.modVf_storeNext (s : State) (n : Nat) (f : Vf → Vf) : (s.modVf n f).storeNext = s.storeNext := rfl
@[simp] theorem State.modVf_waits (s : State) (n : Nat) (f : Vf → Vf) : (s.modVf n f).waits = s.waits := rfl
@[simp] theorem State.modVf_waitNext (s : State) (n : Nat) (f : Vf → Vf) : (s.modVf n f).waitNext = s.waitNext := rfl
@[simp] theorem State.modVf_partitions (s : State) (n : Nat) (f : Vf → Vf) : (s.modVf n f).partitions = s.partitions := rfl
@[simp] theorem State.modVf_hubs (s : State) (n : Nat) (f : Vf → Vf) : (s.modVf n f).hubs = s.hubs := rfl
@[simp] theorem State.modVf_messages (s : State) (n : Nat) (f : Vf → Vf) : (s.modVf n f).messages = s.messages := rfl
@[simp] theorem State.modVf_messageNext (s : State) (n : Nat) (f : Vf → Vf) : (s.modVf n f).messageNext = s.messageNext := rfl
@[simp] theorem State.modVf_pinned (s : State) (n : Nat) (f : Vf → Vf) : (s.modVf n f).pinned = s.pinned := rfl
@[simp] theorem State.modVf_twins (s : State) (n : Nat) (f : Vf → Vf) : (s.modVf n f).twins = s.twins := rfl
@[simp] theorem State.modVf_pkg (s : State) (n : Nat) (f : Vf → Vf) : (s.modVf n f).pkg = s.pkg := rfl

@[simp] theorem State.modHub_draws (s : State) (n : Nat) (f : Hub → Hub) : (s.modHub n f).draws = s.draws := rfl
@[simp] theorem State.modHub_gang (s : State) (n : Nat) (f : Hub → Hub) : (s.modHub n f).gang = s.gang := rfl
@[simp] theorem State.modHub_turn (s : State) (n : Nat) (f : Hub → Hub) : (s.modHub n f).turn = s.turn := rfl
@[simp] theorem State.modHub_prompt (s : State) (n : Nat) (f : Hub → Hub) : (s.modHub n f).prompt = s.prompt := rfl
@[simp] theorem State.modHub_inputs (s : State) (n : Nat) (f : Hub → Hub) : (s.modHub n f).inputs = s.inputs := rfl
@[simp] theorem State.modHub_pending (s : State) (n : Nat) (f : Hub → Hub) : (s.modHub n f).pending = s.pending := rfl
@[simp] theorem State.modHub_threads (s : State) (n : Nat) (f : Hub → Hub) : (s.modHub n f).threads = s.threads := rfl
@[simp] theorem State.modHub_cohorts (s : State) (n : Nat) (f : Hub → Hub) : (s.modHub n f).cohorts = s.cohorts := rfl
@[simp] theorem State.modHub_teams (s : State) (n : Nat) (f : Hub → Hub) : (s.modHub n f).teams = s.teams := rfl
@[simp] theorem State.modHub_sectors (s : State) (n : Nat) (f : Hub → Hub) : (s.modHub n f).sectors = s.sectors := rfl
@[simp] theorem State.modHub_cores (s : State) (n : Nat) (f : Hub → Hub) : (s.modHub n f).cores = s.cores := rfl
@[simp] theorem State.modHub_clusters (s : State) (n : Nat) (f : Hub → Hub) : (s.modHub n f).clusters = s.clusters := rfl
@[simp] theorem State.modHub_scratch (s : State) (n : Nat) (f : Hub → Hub) : (s.modHub n f).scratch = s.scratch := rfl
@[simp] theorem State.modHub_cc (s : State) (n : Nat) (f : Hub → Hub) : (s.modHub n f).cc = s.cc := rfl
@[simp] theorem State.modHub_mem (s : State) (n : Nat) (f : Hub → Hub) : (s.modHub n f).mem = s.mem := rfl
@[simp] theorem State.modHub_poison (s : State) (n : Nat) (f : Hub → Hub) : (s.modHub n f).poison = s.poison := rfl
@[simp] theorem State.modHub_l2 (s : State) (n : Nat) (f : Hub → Hub) : (s.modHub n f).l2 = s.l2 := rfl
@[simp] theorem State.modHub_writers (s : State) (n : Nat) (f : Hub → Hub) : (s.modHub n f).writers = s.writers := rfl
@[simp] theorem State.modHub_scratchWriters (s : State) (n : Nat) (f : Hub → Hub) : (s.modHub n f).scratchWriters = s.scratchWriters := rfl
@[simp] theorem State.modHub_authors (s : State) (n : Nat) (f : Hub → Hub) : (s.modHub n f).authors = s.authors := rfl
@[simp] theorem State.modHub_scratchAuthors (s : State) (n : Nat) (f : Hub → Hub) : (s.modHub n f).scratchAuthors = s.scratchAuthors := rfl
@[simp] theorem State.modHub_tree (s : State) (n : Nat) (f : Hub → Hub) : (s.modHub n f).tree = s.tree := rfl
@[simp] theorem State.modHub_treeUp (s : State) (n : Nat) (f : Hub → Hub) : (s.modHub n f).treeUp = s.treeUp := rfl
@[simp] theorem State.modHub_treeFailed (s : State) (n : Nat) (f : Hub → Hub) : (s.modHub n f).treeFailed = s.treeFailed := rfl
@[simp] theorem State.modHub_slices (s : State) (n : Nat) (f : Hub → Hub) : (s.modHub n f).slices = s.slices := rfl
@[simp] theorem State.modHub_stores (s : State) (n : Nat) (f : Hub → Hub) : (s.modHub n f).stores = s.stores := rfl
@[simp] theorem State.modHub_storeNext (s : State) (n : Nat) (f : Hub → Hub) : (s.modHub n f).storeNext = s.storeNext := rfl
@[simp] theorem State.modHub_waits (s : State) (n : Nat) (f : Hub → Hub) : (s.modHub n f).waits = s.waits := rfl
@[simp] theorem State.modHub_waitNext (s : State) (n : Nat) (f : Hub → Hub) : (s.modHub n f).waitNext = s.waitNext := rfl
@[simp] theorem State.modHub_partitions (s : State) (n : Nat) (f : Hub → Hub) : (s.modHub n f).partitions = s.partitions := rfl
@[simp] theorem State.modHub_vfs (s : State) (n : Nat) (f : Hub → Hub) : (s.modHub n f).vfs = s.vfs := rfl
@[simp] theorem State.modHub_messages (s : State) (n : Nat) (f : Hub → Hub) : (s.modHub n f).messages = s.messages := rfl
@[simp] theorem State.modHub_messageNext (s : State) (n : Nat) (f : Hub → Hub) : (s.modHub n f).messageNext = s.messageNext := rfl
@[simp] theorem State.modHub_pinned (s : State) (n : Nat) (f : Hub → Hub) : (s.modHub n f).pinned = s.pinned := rfl
@[simp] theorem State.modHub_twins (s : State) (n : Nat) (f : Hub → Hub) : (s.modHub n f).twins = s.twins := rfl
@[simp] theorem State.modHub_pkg (s : State) (n : Nat) (f : Hub → Hub) : (s.modHub n f).pkg = s.pkg := rfl

@[simp] theorem State.modPkg_draws (s : State) (f : Package → Package) : (s.modPkg f).draws = s.draws := rfl
@[simp] theorem State.modPkg_gang (s : State) (f : Package → Package) : (s.modPkg f).gang = s.gang := rfl
@[simp] theorem State.modPkg_turn (s : State) (f : Package → Package) : (s.modPkg f).turn = s.turn := rfl
@[simp] theorem State.modPkg_prompt (s : State) (f : Package → Package) : (s.modPkg f).prompt = s.prompt := rfl
@[simp] theorem State.modPkg_inputs (s : State) (f : Package → Package) : (s.modPkg f).inputs = s.inputs := rfl
@[simp] theorem State.modPkg_pending (s : State) (f : Package → Package) : (s.modPkg f).pending = s.pending := rfl
@[simp] theorem State.modPkg_threads (s : State) (f : Package → Package) : (s.modPkg f).threads = s.threads := rfl
@[simp] theorem State.modPkg_cohorts (s : State) (f : Package → Package) : (s.modPkg f).cohorts = s.cohorts := rfl
@[simp] theorem State.modPkg_teams (s : State) (f : Package → Package) : (s.modPkg f).teams = s.teams := rfl
@[simp] theorem State.modPkg_sectors (s : State) (f : Package → Package) : (s.modPkg f).sectors = s.sectors := rfl
@[simp] theorem State.modPkg_cores (s : State) (f : Package → Package) : (s.modPkg f).cores = s.cores := rfl
@[simp] theorem State.modPkg_clusters (s : State) (f : Package → Package) : (s.modPkg f).clusters = s.clusters := rfl
@[simp] theorem State.modPkg_scratch (s : State) (f : Package → Package) : (s.modPkg f).scratch = s.scratch := rfl
@[simp] theorem State.modPkg_cc (s : State) (f : Package → Package) : (s.modPkg f).cc = s.cc := rfl
@[simp] theorem State.modPkg_mem (s : State) (f : Package → Package) : (s.modPkg f).mem = s.mem := rfl
@[simp] theorem State.modPkg_poison (s : State) (f : Package → Package) : (s.modPkg f).poison = s.poison := rfl
@[simp] theorem State.modPkg_l2 (s : State) (f : Package → Package) : (s.modPkg f).l2 = s.l2 := rfl
@[simp] theorem State.modPkg_writers (s : State) (f : Package → Package) : (s.modPkg f).writers = s.writers := rfl
@[simp] theorem State.modPkg_scratchWriters (s : State) (f : Package → Package) : (s.modPkg f).scratchWriters = s.scratchWriters := rfl
@[simp] theorem State.modPkg_authors (s : State) (f : Package → Package) : (s.modPkg f).authors = s.authors := rfl
@[simp] theorem State.modPkg_scratchAuthors (s : State) (f : Package → Package) : (s.modPkg f).scratchAuthors = s.scratchAuthors := rfl
@[simp] theorem State.modPkg_tree (s : State) (f : Package → Package) : (s.modPkg f).tree = s.tree := rfl
@[simp] theorem State.modPkg_treeUp (s : State) (f : Package → Package) : (s.modPkg f).treeUp = s.treeUp := rfl
@[simp] theorem State.modPkg_treeFailed (s : State) (f : Package → Package) : (s.modPkg f).treeFailed = s.treeFailed := rfl
@[simp] theorem State.modPkg_slices (s : State) (f : Package → Package) : (s.modPkg f).slices = s.slices := rfl
@[simp] theorem State.modPkg_stores (s : State) (f : Package → Package) : (s.modPkg f).stores = s.stores := rfl
@[simp] theorem State.modPkg_storeNext (s : State) (f : Package → Package) : (s.modPkg f).storeNext = s.storeNext := rfl
@[simp] theorem State.modPkg_waits (s : State) (f : Package → Package) : (s.modPkg f).waits = s.waits := rfl
@[simp] theorem State.modPkg_waitNext (s : State) (f : Package → Package) : (s.modPkg f).waitNext = s.waitNext := rfl
@[simp] theorem State.modPkg_partitions (s : State) (f : Package → Package) : (s.modPkg f).partitions = s.partitions := rfl
@[simp] theorem State.modPkg_vfs (s : State) (f : Package → Package) : (s.modPkg f).vfs = s.vfs := rfl
@[simp] theorem State.modPkg_hubs (s : State) (f : Package → Package) : (s.modPkg f).hubs = s.hubs := rfl
@[simp] theorem State.modPkg_messages (s : State) (f : Package → Package) : (s.modPkg f).messages = s.messages := rfl
@[simp] theorem State.modPkg_messageNext (s : State) (f : Package → Package) : (s.modPkg f).messageNext = s.messageNext := rfl
@[simp] theorem State.modPkg_pinned (s : State) (f : Package → Package) : (s.modPkg f).pinned = s.pinned := rfl
@[simp] theorem State.modPkg_twins (s : State) (f : Package → Package) : (s.modPkg f).twins = s.twins := rfl

@[simp] theorem State.emit_draws (s : State) (e : Instr) : (s.emit e).draws = s.draws := rfl
@[simp] theorem State.emit_gang (s : State) (e : Instr) : (s.emit e).gang = s.gang := rfl
@[simp] theorem State.emit_turn (s : State) (e : Instr) : (s.emit e).turn = s.turn := rfl
@[simp] theorem State.emit_prompt (s : State) (e : Instr) : (s.emit e).prompt = s.prompt := rfl
@[simp] theorem State.emit_inputs (s : State) (e : Instr) : (s.emit e).inputs = s.inputs := rfl
@[simp] theorem State.emit_threads (s : State) (e : Instr) : (s.emit e).threads = s.threads := rfl
@[simp] theorem State.emit_cohorts (s : State) (e : Instr) : (s.emit e).cohorts = s.cohorts := rfl
@[simp] theorem State.emit_teams (s : State) (e : Instr) : (s.emit e).teams = s.teams := rfl
@[simp] theorem State.emit_sectors (s : State) (e : Instr) : (s.emit e).sectors = s.sectors := rfl
@[simp] theorem State.emit_cores (s : State) (e : Instr) : (s.emit e).cores = s.cores := rfl
@[simp] theorem State.emit_clusters (s : State) (e : Instr) : (s.emit e).clusters = s.clusters := rfl
@[simp] theorem State.emit_scratch (s : State) (e : Instr) : (s.emit e).scratch = s.scratch := rfl
@[simp] theorem State.emit_cc (s : State) (e : Instr) : (s.emit e).cc = s.cc := rfl
@[simp] theorem State.emit_mem (s : State) (e : Instr) : (s.emit e).mem = s.mem := rfl
@[simp] theorem State.emit_poison (s : State) (e : Instr) : (s.emit e).poison = s.poison := rfl
@[simp] theorem State.emit_l2 (s : State) (e : Instr) : (s.emit e).l2 = s.l2 := rfl
@[simp] theorem State.emit_writers (s : State) (e : Instr) : (s.emit e).writers = s.writers := rfl
@[simp] theorem State.emit_scratchWriters (s : State) (e : Instr) : (s.emit e).scratchWriters = s.scratchWriters := rfl
@[simp] theorem State.emit_authors (s : State) (e : Instr) : (s.emit e).authors = s.authors := rfl
@[simp] theorem State.emit_scratchAuthors (s : State) (e : Instr) : (s.emit e).scratchAuthors = s.scratchAuthors := rfl
@[simp] theorem State.emit_tree (s : State) (e : Instr) : (s.emit e).tree = s.tree := rfl
@[simp] theorem State.emit_treeUp (s : State) (e : Instr) : (s.emit e).treeUp = s.treeUp := rfl
@[simp] theorem State.emit_treeFailed (s : State) (e : Instr) : (s.emit e).treeFailed = s.treeFailed := rfl
@[simp] theorem State.emit_slices (s : State) (e : Instr) : (s.emit e).slices = s.slices := rfl
@[simp] theorem State.emit_stores (s : State) (e : Instr) : (s.emit e).stores = s.stores := rfl
@[simp] theorem State.emit_storeNext (s : State) (e : Instr) : (s.emit e).storeNext = s.storeNext := rfl
@[simp] theorem State.emit_waits (s : State) (e : Instr) : (s.emit e).waits = s.waits := rfl
@[simp] theorem State.emit_waitNext (s : State) (e : Instr) : (s.emit e).waitNext = s.waitNext := rfl
@[simp] theorem State.emit_partitions (s : State) (e : Instr) : (s.emit e).partitions = s.partitions := rfl
@[simp] theorem State.emit_vfs (s : State) (e : Instr) : (s.emit e).vfs = s.vfs := rfl
@[simp] theorem State.emit_hubs (s : State) (e : Instr) : (s.emit e).hubs = s.hubs := rfl
@[simp] theorem State.emit_messages (s : State) (e : Instr) : (s.emit e).messages = s.messages := rfl
@[simp] theorem State.emit_messageNext (s : State) (e : Instr) : (s.emit e).messageNext = s.messageNext := rfl
@[simp] theorem State.emit_pinned (s : State) (e : Instr) : (s.emit e).pinned = s.pinned := rfl
@[simp] theorem State.emit_twins (s : State) (e : Instr) : (s.emit e).twins = s.twins := rfl
@[simp] theorem State.emit_pkg (s : State) (e : Instr) : (s.emit e).pkg = s.pkg := rfl

@[simp] theorem State.taken_draws (s : State) (e : Instr) : (s.taken e).draws = s.draws := rfl
@[simp] theorem State.taken_gang (s : State) (e : Instr) : (s.taken e).gang = s.gang := rfl
@[simp] theorem State.taken_turn (s : State) (e : Instr) : (s.taken e).turn = s.turn := rfl
@[simp] theorem State.taken_prompt (s : State) (e : Instr) : (s.taken e).prompt = s.prompt := rfl
@[simp] theorem State.taken_inputs (s : State) (e : Instr) : (s.taken e).inputs = s.inputs := rfl
@[simp] theorem State.taken_threads (s : State) (e : Instr) : (s.taken e).threads = s.threads := rfl
@[simp] theorem State.taken_cohorts (s : State) (e : Instr) : (s.taken e).cohorts = s.cohorts := rfl
@[simp] theorem State.taken_teams (s : State) (e : Instr) : (s.taken e).teams = s.teams := rfl
@[simp] theorem State.taken_sectors (s : State) (e : Instr) : (s.taken e).sectors = s.sectors := rfl
@[simp] theorem State.taken_cores (s : State) (e : Instr) : (s.taken e).cores = s.cores := rfl
@[simp] theorem State.taken_clusters (s : State) (e : Instr) : (s.taken e).clusters = s.clusters := rfl
@[simp] theorem State.taken_scratch (s : State) (e : Instr) : (s.taken e).scratch = s.scratch := rfl
@[simp] theorem State.taken_cc (s : State) (e : Instr) : (s.taken e).cc = s.cc := rfl
@[simp] theorem State.taken_mem (s : State) (e : Instr) : (s.taken e).mem = s.mem := rfl
@[simp] theorem State.taken_poison (s : State) (e : Instr) : (s.taken e).poison = s.poison := rfl
@[simp] theorem State.taken_l2 (s : State) (e : Instr) : (s.taken e).l2 = s.l2 := rfl
@[simp] theorem State.taken_writers (s : State) (e : Instr) : (s.taken e).writers = s.writers := rfl
@[simp] theorem State.taken_scratchWriters (s : State) (e : Instr) : (s.taken e).scratchWriters = s.scratchWriters := rfl
@[simp] theorem State.taken_authors (s : State) (e : Instr) : (s.taken e).authors = s.authors := rfl
@[simp] theorem State.taken_scratchAuthors (s : State) (e : Instr) : (s.taken e).scratchAuthors = s.scratchAuthors := rfl
@[simp] theorem State.taken_tree (s : State) (e : Instr) : (s.taken e).tree = s.tree := rfl
@[simp] theorem State.taken_treeUp (s : State) (e : Instr) : (s.taken e).treeUp = s.treeUp := rfl
@[simp] theorem State.taken_treeFailed (s : State) (e : Instr) : (s.taken e).treeFailed = s.treeFailed := rfl
@[simp] theorem State.taken_slices (s : State) (e : Instr) : (s.taken e).slices = s.slices := rfl
@[simp] theorem State.taken_stores (s : State) (e : Instr) : (s.taken e).stores = s.stores := rfl
@[simp] theorem State.taken_storeNext (s : State) (e : Instr) : (s.taken e).storeNext = s.storeNext := rfl
@[simp] theorem State.taken_waits (s : State) (e : Instr) : (s.taken e).waits = s.waits := rfl
@[simp] theorem State.taken_waitNext (s : State) (e : Instr) : (s.taken e).waitNext = s.waitNext := rfl
@[simp] theorem State.taken_partitions (s : State) (e : Instr) : (s.taken e).partitions = s.partitions := rfl
@[simp] theorem State.taken_vfs (s : State) (e : Instr) : (s.taken e).vfs = s.vfs := rfl
@[simp] theorem State.taken_hubs (s : State) (e : Instr) : (s.taken e).hubs = s.hubs := rfl
@[simp] theorem State.taken_messages (s : State) (e : Instr) : (s.taken e).messages = s.messages := rfl
@[simp] theorem State.taken_messageNext (s : State) (e : Instr) : (s.taken e).messageNext = s.messageNext := rfl
@[simp] theorem State.taken_pinned (s : State) (e : Instr) : (s.taken e).pinned = s.pinned := rfl
@[simp] theorem State.taken_twins (s : State) (e : Instr) : (s.taken e).twins = s.twins := rfl
@[simp] theorem State.taken_pkg (s : State) (e : Instr) : (s.taken e).pkg = s.pkg := rfl

@[simp] theorem State.setThread_at_teamOpt (s : State) (t : Tid) (x : Thread) (i j : Nat) : (s.setThread t x).team? i j = s.team? i j := rfl
@[simp] theorem State.setThread_at_cohortOpt (s : State) (t : Tid) (x : Thread) (i j : Nat) (b : Bool) (l : Nat) : (s.setThread t x).cohort? i j b l = s.cohort? i j b l := rfl
@[simp] theorem State.setThread_at_core (s : State) (t : Tid) (x : Thread) (i : Nat) : (s.setThread t x).core i = s.core i := rfl
@[simp] theorem State.setThread_at_sector (s : State) (t : Tid) (x : Thread) (i j : Nat) : (s.setThread t x).sector i j = s.sector i j := rfl
@[simp] theorem State.setThread_at_cluster (s : State) (t : Tid) (x : Thread) (i : Nat) : (s.setThread t x).cluster i = s.cluster i := rfl
@[simp] theorem State.setThread_at_partition (s : State) (t : Tid) (x : Thread) (i : Nat) : (s.setThread t x).partition i = s.partition i := rfl
@[simp] theorem State.setThread_at_vf (s : State) (t : Tid) (x : Thread) (i : Nat) : (s.setThread t x).vf i = s.vf i := rfl
@[simp] theorem State.setThread_at_hub (s : State) (t : Tid) (x : Thread) (i : Nat) : (s.setThread t x).hub i = s.hub i := rfl
@[simp] theorem State.setThread_at_gangTeam (s : State) (t : Tid) (x : Thread) : (s.setThread t x).gangTeam = s.gangTeam := rfl
@[simp] theorem State.setThread_at_cycle (s : State) (t : Tid) (x : Thread) (i : Nat) : (s.setThread t x).cycle i = s.cycle i := rfl

@[simp] theorem State.modThread_at_teamOpt (s : State) (t : Tid) (f : Thread → Thread) (i j : Nat) : (s.modThread t f).team? i j = s.team? i j := rfl
@[simp] theorem State.modThread_at_cohortOpt (s : State) (t : Tid) (f : Thread → Thread) (i j : Nat) (b : Bool) (l : Nat) : (s.modThread t f).cohort? i j b l = s.cohort? i j b l := rfl
@[simp] theorem State.modThread_at_core (s : State) (t : Tid) (f : Thread → Thread) (i : Nat) : (s.modThread t f).core i = s.core i := rfl
@[simp] theorem State.modThread_at_sector (s : State) (t : Tid) (f : Thread → Thread) (i j : Nat) : (s.modThread t f).sector i j = s.sector i j := rfl
@[simp] theorem State.modThread_at_cluster (s : State) (t : Tid) (f : Thread → Thread) (i : Nat) : (s.modThread t f).cluster i = s.cluster i := rfl
@[simp] theorem State.modThread_at_partition (s : State) (t : Tid) (f : Thread → Thread) (i : Nat) : (s.modThread t f).partition i = s.partition i := rfl
@[simp] theorem State.modThread_at_vf (s : State) (t : Tid) (f : Thread → Thread) (i : Nat) : (s.modThread t f).vf i = s.vf i := rfl
@[simp] theorem State.modThread_at_hub (s : State) (t : Tid) (f : Thread → Thread) (i : Nat) : (s.modThread t f).hub i = s.hub i := rfl
@[simp] theorem State.modThread_at_gangTeam (s : State) (t : Tid) (f : Thread → Thread) : (s.modThread t f).gangTeam = s.gangTeam := rfl
@[simp] theorem State.modThread_at_cycle (s : State) (t : Tid) (f : Thread → Thread) (i : Nat) : (s.modThread t f).cycle i = s.cycle i := rfl

@[simp] theorem State.modTeam_at_threadOpt (s : State) (c k : Nat) (f : Team → Team) (u : Tid) : (s.modTeam c k f).thread? u = s.thread? u := rfl
@[simp] theorem State.modTeam_at_cohortOpt (s : State) (c k : Nat) (f : Team → Team) (i j : Nat) (b : Bool) (l : Nat) : (s.modTeam c k f).cohort? i j b l = s.cohort? i j b l := rfl
@[simp] theorem State.modTeam_at_core (s : State) (c k : Nat) (f : Team → Team) (i : Nat) : (s.modTeam c k f).core i = s.core i := rfl
@[simp] theorem State.modTeam_at_sector (s : State) (c k : Nat) (f : Team → Team) (i j : Nat) : (s.modTeam c k f).sector i j = s.sector i j := rfl
@[simp] theorem State.modTeam_at_cluster (s : State) (c k : Nat) (f : Team → Team) (i : Nat) : (s.modTeam c k f).cluster i = s.cluster i := rfl
@[simp] theorem State.modTeam_at_partition (s : State) (c k : Nat) (f : Team → Team) (i : Nat) : (s.modTeam c k f).partition i = s.partition i := rfl
@[simp] theorem State.modTeam_at_vf (s : State) (c k : Nat) (f : Team → Team) (i : Nat) : (s.modTeam c k f).vf i = s.vf i := rfl
@[simp] theorem State.modTeam_at_hub (s : State) (c k : Nat) (f : Team → Team) (i : Nat) : (s.modTeam c k f).hub i = s.hub i := rfl
@[simp] theorem State.modTeam_at_cycle (s : State) (c k : Nat) (f : Team → Team) (i : Nat) : (s.modTeam c k f).cycle i = s.cycle i := rfl

@[simp] theorem State.modCohort_at_threadOpt (s : State) (c k : Nat) (a : Bool) (n : Nat) (f : Cohort → Cohort) (u : Tid) : (s.modCohort c k a n f).thread? u = s.thread? u := rfl
@[simp] theorem State.modCohort_at_teamOpt (s : State) (c k : Nat) (a : Bool) (n : Nat) (f : Cohort → Cohort) (i j : Nat) : (s.modCohort c k a n f).team? i j = s.team? i j := rfl
@[simp] theorem State.modCohort_at_core (s : State) (c k : Nat) (a : Bool) (n : Nat) (f : Cohort → Cohort) (i : Nat) : (s.modCohort c k a n f).core i = s.core i := rfl
@[simp] theorem State.modCohort_at_sector (s : State) (c k : Nat) (a : Bool) (n : Nat) (f : Cohort → Cohort) (i j : Nat) : (s.modCohort c k a n f).sector i j = s.sector i j := rfl
@[simp] theorem State.modCohort_at_cluster (s : State) (c k : Nat) (a : Bool) (n : Nat) (f : Cohort → Cohort) (i : Nat) : (s.modCohort c k a n f).cluster i = s.cluster i := rfl
@[simp] theorem State.modCohort_at_partition (s : State) (c k : Nat) (a : Bool) (n : Nat) (f : Cohort → Cohort) (i : Nat) : (s.modCohort c k a n f).partition i = s.partition i := rfl
@[simp] theorem State.modCohort_at_vf (s : State) (c k : Nat) (a : Bool) (n : Nat) (f : Cohort → Cohort) (i : Nat) : (s.modCohort c k a n f).vf i = s.vf i := rfl
@[simp] theorem State.modCohort_at_hub (s : State) (c k : Nat) (a : Bool) (n : Nat) (f : Cohort → Cohort) (i : Nat) : (s.modCohort c k a n f).hub i = s.hub i := rfl
@[simp] theorem State.modCohort_at_gangTeam (s : State) (c k : Nat) (a : Bool) (n : Nat) (f : Cohort → Cohort) : (s.modCohort c k a n f).gangTeam = s.gangTeam := rfl
@[simp] theorem State.modCohort_at_cycle (s : State) (c k : Nat) (a : Bool) (n : Nat) (f : Cohort → Cohort) (i : Nat) : (s.modCohort c k a n f).cycle i = s.cycle i := rfl

@[simp] theorem State.modCore_at_threadOpt (s : State) (n : Nat) (f : Core → Core) (u : Tid) : (s.modCore n f).thread? u = s.thread? u := rfl
@[simp] theorem State.modCore_at_teamOpt (s : State) (n : Nat) (f : Core → Core) (i j : Nat) : (s.modCore n f).team? i j = s.team? i j := rfl
@[simp] theorem State.modCore_at_cohortOpt (s : State) (n : Nat) (f : Core → Core) (i j : Nat) (b : Bool) (l : Nat) : (s.modCore n f).cohort? i j b l = s.cohort? i j b l := rfl
@[simp] theorem State.modCore_at_sector (s : State) (n : Nat) (f : Core → Core) (i j : Nat) : (s.modCore n f).sector i j = s.sector i j := rfl
@[simp] theorem State.modCore_at_cluster (s : State) (n : Nat) (f : Core → Core) (i : Nat) : (s.modCore n f).cluster i = s.cluster i := rfl
@[simp] theorem State.modCore_at_partition (s : State) (n : Nat) (f : Core → Core) (i : Nat) : (s.modCore n f).partition i = s.partition i := rfl
@[simp] theorem State.modCore_at_vf (s : State) (n : Nat) (f : Core → Core) (i : Nat) : (s.modCore n f).vf i = s.vf i := rfl
@[simp] theorem State.modCore_at_hub (s : State) (n : Nat) (f : Core → Core) (i : Nat) : (s.modCore n f).hub i = s.hub i := rfl
@[simp] theorem State.modCore_at_gangTeam (s : State) (n : Nat) (f : Core → Core) : (s.modCore n f).gangTeam = s.gangTeam := rfl

@[simp] theorem State.modSector_at_threadOpt (s : State) (c n : Nat) (f : Sector → Sector) (u : Tid) : (s.modSector c n f).thread? u = s.thread? u := rfl
@[simp] theorem State.modSector_at_teamOpt (s : State) (c n : Nat) (f : Sector → Sector) (i j : Nat) : (s.modSector c n f).team? i j = s.team? i j := rfl
@[simp] theorem State.modSector_at_cohortOpt (s : State) (c n : Nat) (f : Sector → Sector) (i j : Nat) (b : Bool) (l : Nat) : (s.modSector c n f).cohort? i j b l = s.cohort? i j b l := rfl
@[simp] theorem State.modSector_at_core (s : State) (c n : Nat) (f : Sector → Sector) (i : Nat) : (s.modSector c n f).core i = s.core i := rfl
@[simp] theorem State.modSector_at_cluster (s : State) (c n : Nat) (f : Sector → Sector) (i : Nat) : (s.modSector c n f).cluster i = s.cluster i := rfl
@[simp] theorem State.modSector_at_partition (s : State) (c n : Nat) (f : Sector → Sector) (i : Nat) : (s.modSector c n f).partition i = s.partition i := rfl
@[simp] theorem State.modSector_at_vf (s : State) (c n : Nat) (f : Sector → Sector) (i : Nat) : (s.modSector c n f).vf i = s.vf i := rfl
@[simp] theorem State.modSector_at_hub (s : State) (c n : Nat) (f : Sector → Sector) (i : Nat) : (s.modSector c n f).hub i = s.hub i := rfl
@[simp] theorem State.modSector_at_gangTeam (s : State) (c n : Nat) (f : Sector → Sector) : (s.modSector c n f).gangTeam = s.gangTeam := rfl
@[simp] theorem State.modSector_at_cycle (s : State) (c n : Nat) (f : Sector → Sector) (i : Nat) : (s.modSector c n f).cycle i = s.cycle i := rfl

@[simp] theorem State.modCluster_at_threadOpt (s : State) (n : Nat) (f : Cluster → Cluster) (u : Tid) : (s.modCluster n f).thread? u = s.thread? u := rfl
@[simp] theorem State.modCluster_at_teamOpt (s : State) (n : Nat) (f : Cluster → Cluster) (i j : Nat) : (s.modCluster n f).team? i j = s.team? i j := rfl
@[simp] theorem State.modCluster_at_cohortOpt (s : State) (n : Nat) (f : Cluster → Cluster) (i j : Nat) (b : Bool) (l : Nat) : (s.modCluster n f).cohort? i j b l = s.cohort? i j b l := rfl
@[simp] theorem State.modCluster_at_core (s : State) (n : Nat) (f : Cluster → Cluster) (i : Nat) : (s.modCluster n f).core i = s.core i := rfl
@[simp] theorem State.modCluster_at_sector (s : State) (n : Nat) (f : Cluster → Cluster) (i j : Nat) : (s.modCluster n f).sector i j = s.sector i j := rfl
@[simp] theorem State.modCluster_at_partition (s : State) (n : Nat) (f : Cluster → Cluster) (i : Nat) : (s.modCluster n f).partition i = s.partition i := rfl
@[simp] theorem State.modCluster_at_vf (s : State) (n : Nat) (f : Cluster → Cluster) (i : Nat) : (s.modCluster n f).vf i = s.vf i := rfl
@[simp] theorem State.modCluster_at_hub (s : State) (n : Nat) (f : Cluster → Cluster) (i : Nat) : (s.modCluster n f).hub i = s.hub i := rfl
@[simp] theorem State.modCluster_at_gangTeam (s : State) (n : Nat) (f : Cluster → Cluster) : (s.modCluster n f).gangTeam = s.gangTeam := rfl
@[simp] theorem State.modCluster_at_cycle (s : State) (n : Nat) (f : Cluster → Cluster) (i : Nat) : (s.modCluster n f).cycle i = s.cycle i := rfl

@[simp] theorem State.modPartition_at_threadOpt (s : State) (n : Nat) (f : Partition → Partition) (u : Tid) : (s.modPartition n f).thread? u = s.thread? u := rfl
@[simp] theorem State.modPartition_at_teamOpt (s : State) (n : Nat) (f : Partition → Partition) (i j : Nat) : (s.modPartition n f).team? i j = s.team? i j := rfl
@[simp] theorem State.modPartition_at_cohortOpt (s : State) (n : Nat) (f : Partition → Partition) (i j : Nat) (b : Bool) (l : Nat) : (s.modPartition n f).cohort? i j b l = s.cohort? i j b l := rfl
@[simp] theorem State.modPartition_at_core (s : State) (n : Nat) (f : Partition → Partition) (i : Nat) : (s.modPartition n f).core i = s.core i := rfl
@[simp] theorem State.modPartition_at_sector (s : State) (n : Nat) (f : Partition → Partition) (i j : Nat) : (s.modPartition n f).sector i j = s.sector i j := rfl
@[simp] theorem State.modPartition_at_cluster (s : State) (n : Nat) (f : Partition → Partition) (i : Nat) : (s.modPartition n f).cluster i = s.cluster i := rfl
@[simp] theorem State.modPartition_at_vf (s : State) (n : Nat) (f : Partition → Partition) (i : Nat) : (s.modPartition n f).vf i = s.vf i := rfl
@[simp] theorem State.modPartition_at_hub (s : State) (n : Nat) (f : Partition → Partition) (i : Nat) : (s.modPartition n f).hub i = s.hub i := rfl
@[simp] theorem State.modPartition_at_gangTeam (s : State) (n : Nat) (f : Partition → Partition) : (s.modPartition n f).gangTeam = s.gangTeam := rfl
@[simp] theorem State.modPartition_at_cycle (s : State) (n : Nat) (f : Partition → Partition) (i : Nat) : (s.modPartition n f).cycle i = s.cycle i := rfl

@[simp] theorem State.modVf_at_threadOpt (s : State) (n : Nat) (f : Vf → Vf) (u : Tid) : (s.modVf n f).thread? u = s.thread? u := rfl
@[simp] theorem State.modVf_at_teamOpt (s : State) (n : Nat) (f : Vf → Vf) (i j : Nat) : (s.modVf n f).team? i j = s.team? i j := rfl
@[simp] theorem State.modVf_at_cohortOpt (s : State) (n : Nat) (f : Vf → Vf) (i j : Nat) (b : Bool) (l : Nat) : (s.modVf n f).cohort? i j b l = s.cohort? i j b l := rfl
@[simp] theorem State.modVf_at_core (s : State) (n : Nat) (f : Vf → Vf) (i : Nat) : (s.modVf n f).core i = s.core i := rfl
@[simp] theorem State.modVf_at_sector (s : State) (n : Nat) (f : Vf → Vf) (i j : Nat) : (s.modVf n f).sector i j = s.sector i j := rfl
@[simp] theorem State.modVf_at_cluster (s : State) (n : Nat) (f : Vf → Vf) (i : Nat) : (s.modVf n f).cluster i = s.cluster i := rfl
@[simp] theorem State.modVf_at_partition (s : State) (n : Nat) (f : Vf → Vf) (i : Nat) : (s.modVf n f).partition i = s.partition i := rfl
@[simp] theorem State.modVf_at_hub (s : State) (n : Nat) (f : Vf → Vf) (i : Nat) : (s.modVf n f).hub i = s.hub i := rfl
@[simp] theorem State.modVf_at_gangTeam (s : State) (n : Nat) (f : Vf → Vf) : (s.modVf n f).gangTeam = s.gangTeam := rfl
@[simp] theorem State.modVf_at_cycle (s : State) (n : Nat) (f : Vf → Vf) (i : Nat) : (s.modVf n f).cycle i = s.cycle i := rfl

@[simp] theorem State.modHub_at_threadOpt (s : State) (n : Nat) (f : Hub → Hub) (u : Tid) : (s.modHub n f).thread? u = s.thread? u := rfl
@[simp] theorem State.modHub_at_teamOpt (s : State) (n : Nat) (f : Hub → Hub) (i j : Nat) : (s.modHub n f).team? i j = s.team? i j := rfl
@[simp] theorem State.modHub_at_cohortOpt (s : State) (n : Nat) (f : Hub → Hub) (i j : Nat) (b : Bool) (l : Nat) : (s.modHub n f).cohort? i j b l = s.cohort? i j b l := rfl
@[simp] theorem State.modHub_at_core (s : State) (n : Nat) (f : Hub → Hub) (i : Nat) : (s.modHub n f).core i = s.core i := rfl
@[simp] theorem State.modHub_at_sector (s : State) (n : Nat) (f : Hub → Hub) (i j : Nat) : (s.modHub n f).sector i j = s.sector i j := rfl
@[simp] theorem State.modHub_at_cluster (s : State) (n : Nat) (f : Hub → Hub) (i : Nat) : (s.modHub n f).cluster i = s.cluster i := rfl
@[simp] theorem State.modHub_at_partition (s : State) (n : Nat) (f : Hub → Hub) (i : Nat) : (s.modHub n f).partition i = s.partition i := rfl
@[simp] theorem State.modHub_at_vf (s : State) (n : Nat) (f : Hub → Hub) (i : Nat) : (s.modHub n f).vf i = s.vf i := rfl
@[simp] theorem State.modHub_at_gangTeam (s : State) (n : Nat) (f : Hub → Hub) : (s.modHub n f).gangTeam = s.gangTeam := rfl
@[simp] theorem State.modHub_at_cycle (s : State) (n : Nat) (f : Hub → Hub) (i : Nat) : (s.modHub n f).cycle i = s.cycle i := rfl

@[simp] theorem State.modPkg_at_threadOpt (s : State) (f : Package → Package) (u : Tid) : (s.modPkg f).thread? u = s.thread? u := rfl
@[simp] theorem State.modPkg_at_teamOpt (s : State) (f : Package → Package) (i j : Nat) : (s.modPkg f).team? i j = s.team? i j := rfl
@[simp] theorem State.modPkg_at_cohortOpt (s : State) (f : Package → Package) (i j : Nat) (b : Bool) (l : Nat) : (s.modPkg f).cohort? i j b l = s.cohort? i j b l := rfl
@[simp] theorem State.modPkg_at_core (s : State) (f : Package → Package) (i : Nat) : (s.modPkg f).core i = s.core i := rfl
@[simp] theorem State.modPkg_at_sector (s : State) (f : Package → Package) (i j : Nat) : (s.modPkg f).sector i j = s.sector i j := rfl
@[simp] theorem State.modPkg_at_cluster (s : State) (f : Package → Package) (i : Nat) : (s.modPkg f).cluster i = s.cluster i := rfl
@[simp] theorem State.modPkg_at_partition (s : State) (f : Package → Package) (i : Nat) : (s.modPkg f).partition i = s.partition i := rfl
@[simp] theorem State.modPkg_at_vf (s : State) (f : Package → Package) (i : Nat) : (s.modPkg f).vf i = s.vf i := rfl
@[simp] theorem State.modPkg_at_hub (s : State) (f : Package → Package) (i : Nat) : (s.modPkg f).hub i = s.hub i := rfl
@[simp] theorem State.modPkg_at_gangTeam (s : State) (f : Package → Package) : (s.modPkg f).gangTeam = s.gangTeam := rfl
@[simp] theorem State.modPkg_at_cycle (s : State) (f : Package → Package) (i : Nat) : (s.modPkg f).cycle i = s.cycle i := rfl

@[simp] theorem State.emit_at_threadOpt (s : State) (e : Instr) (u : Tid) : (s.emit e).thread? u = s.thread? u := rfl
@[simp] theorem State.emit_at_teamOpt (s : State) (e : Instr) (i j : Nat) : (s.emit e).team? i j = s.team? i j := rfl
@[simp] theorem State.emit_at_cohortOpt (s : State) (e : Instr) (i j : Nat) (b : Bool) (l : Nat) : (s.emit e).cohort? i j b l = s.cohort? i j b l := rfl
@[simp] theorem State.emit_at_core (s : State) (e : Instr) (i : Nat) : (s.emit e).core i = s.core i := rfl
@[simp] theorem State.emit_at_sector (s : State) (e : Instr) (i j : Nat) : (s.emit e).sector i j = s.sector i j := rfl
@[simp] theorem State.emit_at_cluster (s : State) (e : Instr) (i : Nat) : (s.emit e).cluster i = s.cluster i := rfl
@[simp] theorem State.emit_at_partition (s : State) (e : Instr) (i : Nat) : (s.emit e).partition i = s.partition i := rfl
@[simp] theorem State.emit_at_vf (s : State) (e : Instr) (i : Nat) : (s.emit e).vf i = s.vf i := rfl
@[simp] theorem State.emit_at_hub (s : State) (e : Instr) (i : Nat) : (s.emit e).hub i = s.hub i := rfl
@[simp] theorem State.emit_at_gangTeam (s : State) (e : Instr) : (s.emit e).gangTeam = s.gangTeam := rfl
@[simp] theorem State.emit_at_cycle (s : State) (e : Instr) (i : Nat) : (s.emit e).cycle i = s.cycle i := rfl

@[simp] theorem State.taken_at_threadOpt (s : State) (e : Instr) (u : Tid) : (s.taken e).thread? u = s.thread? u := rfl
@[simp] theorem State.taken_at_teamOpt (s : State) (e : Instr) (i j : Nat) : (s.taken e).team? i j = s.team? i j := rfl
@[simp] theorem State.taken_at_cohortOpt (s : State) (e : Instr) (i j : Nat) (b : Bool) (l : Nat) : (s.taken e).cohort? i j b l = s.cohort? i j b l := rfl
@[simp] theorem State.taken_at_core (s : State) (e : Instr) (i : Nat) : (s.taken e).core i = s.core i := rfl
@[simp] theorem State.taken_at_sector (s : State) (e : Instr) (i j : Nat) : (s.taken e).sector i j = s.sector i j := rfl
@[simp] theorem State.taken_at_cluster (s : State) (e : Instr) (i : Nat) : (s.taken e).cluster i = s.cluster i := rfl
@[simp] theorem State.taken_at_partition (s : State) (e : Instr) (i : Nat) : (s.taken e).partition i = s.partition i := rfl
@[simp] theorem State.taken_at_vf (s : State) (e : Instr) (i : Nat) : (s.taken e).vf i = s.vf i := rfl
@[simp] theorem State.taken_at_hub (s : State) (e : Instr) (i : Nat) : (s.taken e).hub i = s.hub i := rfl
@[simp] theorem State.taken_at_gangTeam (s : State) (e : Instr) : (s.taken e).gangTeam = s.gangTeam := rfl
@[simp] theorem State.taken_at_cycle (s : State) (e : Instr) (i : Nat) : (s.taken e).cycle i = s.cycle i := rfl

end Sys2Proof.Machine
end

