-- ==== Sys2Proof/Laws/Issue.lean ====
section
/-! SUPPORT. Laws of issue: where a thread is found after the control fields, the word and the end of flow, and what
the shared operations for whole families of words answer. -/

namespace Sys2Proof.Machine

/-! ### Threads by their keys -/

/-- A thread's place is in range, so that its key is its own. -/
def tidOk (t : Tid) : Prop := t.slot < 8 ∧ t.cohort < 32 ∧ t.lane < 32

theorem tidKey_inj {t u : Tid} (ht : tidOk t) (hu : tidOk u) (h : tidKey t = tidKey u) : t = u := by
  obtain ⟨c, k, a, n, l⟩ := t
  obtain ⟨c', k', a', n', l'⟩ := u
  simp only [tidOk] at ht hu
  simp only [tidKey, cohortKey] at h
  have ha : a = a' := by
    cases a <;> cases a' <;> simp at h ⊢ <;> omega
  subst ha
  cases a <;> simp at h ⊢ <;> omega

theorem tidKey_ne {t u : Tid} (ht : tidOk t) (hu : tidOk u) (h : t ≠ u) : tidKey t ≠ tidKey u :=
  fun e => h (tidKey_inj ht hu e)

theorem State.thread?_modThread_self (s : State) (t : Tid) (f : Thread → Thread) :
    (s.modThread t f).thread? t = (s.thread? t).map f := FMap.find?_mod_self _ _ _

theorem State.thread?_modThread_ne (s : State) {t u : Tid} (f : Thread → Thread) (ht : tidOk t) (hu : tidOk u) (h : t ≠ u) :
    (s.modThread t f).thread? u = s.thread? u := FMap.find?_mod_ne _ _ (tidKey_ne ht hu h)

/-- A change of listed threads changes nothing but threads. -/
theorem State.modThreads_eq (s : State) (ts : List Tid) (f : Tid → Thread → Thread) :
    ∃ m, s.modThreads ts f = { s with threads := m } := by
  induction ts generalizing s with
  | nil => exact ⟨s.threads, rfl⟩
  | cons t ts ih =>
    obtain ⟨m, hm⟩ := ih (s.modThread t (f t))
    exact ⟨m, by simpa [State.modThreads, State.modThread] using hm⟩

theorem State.thread?_modThreads_notMem (s : State) (ts : List Tid) (f : Tid → Thread → Thread) (u : Tid)
    (hts : ∀ t ∈ ts, tidOk t) (hu : tidOk u) (h : u ∉ ts) : (s.modThreads ts f).thread? u = s.thread? u := by
  induction ts generalizing s with
  | nil => rfl
  | cons t ts ih =>
    simp only [List.mem_cons, not_or] at h
    have := ih (s.modThread t (f t)) (fun t ht => hts t (List.mem_cons_of_mem _ ht)) h.2
    simp only [State.modThreads, List.foldl_cons] at this ⊢
    rw [this, State.thread?_modThread_ne _ _ (hts t List.mem_cons_self) hu (Ne.symm h.1)]

/-- Each listed thread is changed once. -/
theorem State.thread?_modThreads_mem (s : State) (ts : List Tid) (f : Tid → Thread → Thread) (u : Tid)
    (hts : ∀ t ∈ ts, tidOk t) (hn : ts.Nodup) (h : u ∈ ts) : (s.modThreads ts f).thread? u = (s.thread? u).map (f u) := by
  induction ts generalizing s with
  | nil => cases h
  | cons t ts ih =>
    rw [List.nodup_cons] at hn
    have hts' : ∀ t ∈ ts, tidOk t := fun t ht => hts t (List.mem_cons_of_mem _ ht)
    by_cases e : u = t
    · subst e
      have := State.thread?_modThreads_notMem (s.modThread u (f u)) ts f u hts' (hts u List.mem_cons_self) hn.1
      simp only [State.modThreads, List.foldl_cons] at this ⊢
      rw [this, State.thread?_modThread_self]
    · have hu : u ∈ ts := by simpa [e] using h
      have := ih (s.modThread t (f t)) hts' hn.2 hu
      simp only [State.modThreads, List.foldl_cons] at this ⊢
      rw [this, State.thread?_modThread_ne _ _ (hts t List.mem_cons_self) (hts' u hu) (Ne.symm e)]

/-! ### Gangs -/

theorem Gang.ok_tid {g : Gang} (h : g.ok = true) {t : Tid} (ht : t ∈ g.tids) : tidOk t := by
  simp only [Gang.ok, Bool.and_eq_true, List.all_eq_true, decide_eq_true_eq] at h
  simp only [Gang.tids, List.mem_map] at ht
  obtain ⟨m, hm, rfl⟩ := ht
  exact ⟨h.1.1, (h.1.2 m hm).1, (h.1.2 m hm).2⟩

theorem Gang.ok_nodup {g : Gang} (h : g.ok = true) : g.tids.Nodup := by
  simp only [Gang.ok, Bool.and_eq_true, decide_eq_true_eq] at h
  refine List.Nodup.map ?_ h.2
  intro m n e
  simp only [Tid.mk.injEq, true_and] at e
  exact Prod.ext e.1 e.2

theorem Gang.tids_core {g : Gang} {t : Tid} (ht : t ∈ g.tids) : t.core = g.core ∧ t.slot = g.slot ∧ t.access = g.access := by
  simp only [Gang.tids, List.mem_map] at ht
  obtain ⟨m, _, rfl⟩ := ht
  exact ⟨rfl, rfl, rfl⟩

/-! ### The control fields -/

@[simp] theorem State.count_threads (s : State) (c e n : Nat) : (s.count c e n).threads = s.threads := by
  unfold State.count; simp only; split <;> rfl

@[simp] theorem State.count_gang (s : State) (c e n : Nat) : (s.count c e n).gang = s.gang := by
  unfold State.count; simp only; split <;> rfl

@[simp] theorem State.count_teams (s : State) (c e n : Nat) : (s.count c e n).teams = s.teams := by
  unfold State.count; simp only; split <;> rfl

@[simp] theorem State.count_mem (s : State) (c e n : Nat) : (s.count c e n).mem = s.mem := by
  unfold State.count; simp only; split <;> rfl

@[simp] theorem State.count_scratch (s : State) (c e n : Nat) : (s.count c e n).scratch = s.scratch := by
  unfold State.count; simp only; split <;> rfl

theorem State.cycle_modCore (s : State) (n m : Nat) (f : Core → Core) (hf : (f (s.core n)).cycle = (s.core n).cycle) :
    (s.modCore n f).cycle m = s.cycle m := by
  unfold State.cycle State.core State.modCore FMap.getD
  rw [FMap.find?_put]
  split
  · subst_vars; simpa [State.core, FMap.getD] using hf
  · rfl

@[simp] theorem State.count_cycle (s : State) (c e n m : Nat) : (s.count c e n).cycle m = s.cycle m := by
  unfold State.count
  simp only
  split
  · rfl
  · exact State.cycle_modCore _ _ _ _ rfl

theorem State.foldl_modCohort_eq (s : State) (ks : List Nat) (a b : Nat) (d : Bool) (f : Cohort → Cohort) :
    ∃ m, ks.foldl (fun s' k => s'.modCohort a b d k f) s = { s with cohorts := m } := by
  induction ks generalizing s with
  | nil => exact ⟨s.cohorts, rfl⟩
  | cons k ks ih =>
    obtain ⟨m, hm⟩ := ih (s.modCohort a b d k f)
    exact ⟨m, by simpa [State.modCohort] using hm⟩

@[simp] theorem State.copyAcquire_threads (s : State) (c : Ctl) : (s.copyAcquire c).threads = s.threads := by
  unfold State.copyAcquire; split <;> rfl

@[simp] theorem State.copyAcquire_gang (s : State) (c : Ctl) : (s.copyAcquire c).gang = s.gang := by
  unfold State.copyAcquire; split <;> rfl

@[simp] theorem State.copyAcquire_teams (s : State) (c : Ctl) : (s.copyAcquire c).teams = s.teams := by
  unfold State.copyAcquire; split <;> rfl

@[simp] theorem State.copyAcquire_mem (s : State) (c : Ctl) : (s.copyAcquire c).mem = s.mem := by
  unfold State.copyAcquire; split <;> rfl

@[simp] theorem State.copyAcquire_cycle (s : State) (c : Ctl) (m : Nat) : (s.copyAcquire c).cycle m = s.cycle m := by
  unfold State.copyAcquire
  split
  · exact State.cycle_modCore _ _ _ _ rfl
  · rfl

/-- What the control fields leave alone. -/
theorem State.control_same (s : State) (i : Instr) :
    (s.control i).gang = s.gang ∧ (s.control i).teams = s.teams ∧ (s.control i).mem = s.mem ∧
    (∀ m, (s.control i).cycle m = s.cycle m) := by
  unfold State.control
  split
  · simp
  · rename_i c _
    simp only
    obtain ⟨m1, h1⟩ := State.modThreads_eq (s.copyAcquire c) s.gang.tids fun _ t => t.control i c (s.cycle s.gang.core)
    obtain ⟨m2, h2⟩ := State.foldl_modCohort_eq ((s.copyAcquire c).modThreads s.gang.tids fun _ t =>
      t.control i c (s.cycle s.gang.core)) s.gang.cohorts s.gang.core s.gang.slot s.gang.access Cohort.urge
    rw [h2, h1]
    refine ⟨by simp, by simp, by simp, fun m => ?_⟩
    simp only [State.count_cycle]
    exact State.copyAcquire_cycle s c m

/-- A thread of the gang after the control fields. -/
theorem State.control_thread (s : State) (i : Instr) (c : Ctl) (hc : i.ctl? = some c) (hg : s.gang.ok = true) (u : Tid)
    (hu : u ∈ s.gang.tids) :
    (s.control i).thread? u = (s.thread? u).map fun t => t.control i c (s.cycle s.gang.core) := by
  have h0 := State.thread?_modThreads_mem (s.copyAcquire c) s.gang.tids
    (fun _ t => t.control i c (s.cycle s.gang.core)) u (fun t ht => Gang.ok_tid hg ht) (Gang.ok_nodup hg) hu
  obtain ⟨m2, h2⟩ := State.foldl_modCohort_eq ((s.copyAcquire c).modThreads s.gang.tids fun _ t =>
    t.control i c (s.cycle s.gang.core)) s.gang.cohorts s.gang.core s.gang.slot s.gang.access Cohort.urge
  have e : (s.control i).thread? u = ((s.copyAcquire c).modThreads s.gang.tids fun _ t =>
      t.control i c (s.cycle s.gang.core)).thread? u := by
    unfold State.control State.thread?
    simp only [hc, h2, State.count_threads]
  rw [e, h0]
  simp [State.thread?]

/-! ### The end of flow -/

/-- Two threads agree on everything that a word writes. -/
def Thread.agrees (x y : Thread) : Prop :=
  x.v = y.v ∧ x.p = y.p ∧ x.fstat = y.fstat ∧ x.pend = y.pend ∧ x.tags = y.tags ∧ x.pc = y.pc ∧ x.sp = y.sp ∧
  x.fresh = y.fresh

theorem Thread.agrees_refl (x : Thread) : x.agrees x := ⟨rfl, rfl, rfl, rfl, rfl, rfl, rfl, rfl⟩

theorem Thread.agrees_trans {x y z : Thread} (h : x.agrees y) (k : y.agrees z) : x.agrees z := by
  obtain ⟨a, b, c, d, e, f, g, i⟩ := h
  obtain ⟨a', b', c', d', e', f', g', i'⟩ := k
  exact ⟨a.trans a', b.trans b', c.trans c', d.trans d', e.trans e', f.trans f', g.trans g', i.trans i'⟩

theorem Thread.park_agrees (x : Thread) (n : Nat) : x.agrees (x.park n) := ⟨rfl, rfl, rfl, rfl, rfl, rfl, rfl, rfl⟩

@[simp] theorem State.report_threads (s : State) (p : Nat) (r : Record) : (s.report p r).2.threads = s.threads := by
  unfold State.report; dsimp only; split <;> simp

theorem State.thread?_mod_agrees (s : State) (t u : Tid) (f : Thread → Thread) (hf : ∀ x : Thread, x.agrees (f x)) (x : Thread)
    (h : s.thread? u = some x) : ∃ y, (s.modThread t f).thread? u = some y ∧ x.agrees y := by
  unfold State.thread? State.modThread at *
  simp only
  unfold FMap.mod
  split
  · rename_i z hz
    simp only [FMap.find?_put]
    split
    · rename_i e
      rw [e] at hz
      exact ⟨_, rfl, by rw [h] at hz; cases hz; exact hf x⟩
    · exact ⟨x, h, x.agrees_refl⟩
  · exact ⟨x, h, x.agrees_refl⟩

theorem State.thread?_mods_agrees (s : State) (ts : List Tid) (u : Tid) (f : Tid → Thread → Thread)
    (hf : ∀ (t : Tid) (x : Thread), x.agrees (f t x)) (x : Thread) (h : s.thread? u = some x) :
    ∃ y, (s.modThreads ts f).thread? u = some y ∧ x.agrees y := by
  induction ts generalizing s x with
  | nil => exact ⟨x, h, x.agrees_refl⟩
  | cons t ts ih =>
    obtain ⟨y, hy, e⟩ := State.thread?_mod_agrees s t u (f t) (hf t) x h
    obtain ⟨z, hz, e'⟩ := ih (s.modThread t (f t)) y hy
    exact ⟨z, hz, Thread.agrees_trans e e'⟩

/-- Parking changes nothing that a word writes. -/
theorem State.takePrecise_agrees (s : State) (c k : Nat) (a : Bool) (n : Nat) (ls : LaneMask) (kind op : Nat)
    (ad d : DWord) (u : Tid) (x : Thread) (h : s.thread? u = some x) :
    ∃ y, (s.takePrecise c k a n ls kind op ad d).thread? u = some y ∧ x.agrees y := by
  unfold State.takePrecise State.takeEvent
  simp only
  refine State.thread?_mods_agrees _ _ u _ (fun _ x => x.park_agrees _) x ?_
  simpa [State.thread?] using h

theorem State.flowEnd_agrees (s : State) (i : Instr) (u : Tid) (x : Thread) (h : s.thread? u = some x) :
    ∃ y, (s.flowEnd i).thread? u = some y ∧ x.agrees y := by
  unfold State.flowEnd
  simp only
  generalize s.gang.cohorts = cs
  generalize s.gang = g
  induction cs generalizing s x with
  | nil => exact ⟨x, h, x.agrees_refl⟩
  | cons c cs ih =>
    simp only [List.foldl_cons]
    split
    · exact ih s x h
    · obtain ⟨y, hy, e⟩ := State.takePrecise_agrees s _ _ _ _ _ _ _ _ _ u x h
      obtain ⟨z, hz, e'⟩ := ih _ y hy
      exact ⟨z, hz, Thread.agrees_trans e e'⟩

/-! ### Issue -/

/-- A word that may issue issues: the control fields act and then the word. -/
theorem State.issue_eq (s : State) (i : Instr) (extra : Bool) (act : State → List Tid → State → State)
    (h : s.mayIssue i = true) (he : extraOk i s = true → extra = true) :
    s.issue i extra act = (act s ((s.control i).active i) (s.control i)).flowEnd i := by
  unfold State.mayIssue at h
  unfold State.issue
  rw [Bool.and_eq_true] at h
  obtain ⟨_, h⟩ := h
  split at h
  · rename_i tm htm
    simp only [Bool.and_eq_true, Option.isNone_iff_eq_none, Bool.not_eq_true'] at h
    have hr : ∀ s', s.recordHeld s' tm i = false := fun s' => by simp [State.recordHeld, h.2]
    simp [htm, h.1.1.1, h.1.1.2, he h.1.2, hr]
  · cases h

theorem State.mayIssue_gang {s : State} {i : Instr} (h : s.mayIssue i = true) : s.gang.ok = true := by
  unfold State.mayIssue at h
  rw [Bool.and_eq_true] at h
  exact h.1

/-- A word that may issue has control fields. -/
theorem State.mayIssue_ctl {s : State} {i : Instr} (h : s.mayIssue i = true) : ∃ c, i.ctl? = some c := by
  unfold State.mayIssue at h
  rw [Bool.and_eq_true] at h
  obtain ⟨_, h⟩ := h
  split at h
  · rename_i tm htm
    simp only [Bool.and_eq_true, Option.isNone_iff_eq_none] at h
    have h1 := h.1.1.1
    unfold Team.decodeEvent wfError at h1
    cases hc : i.ctl? with
    | none => simp [hc] at h1
    | some c => exact ⟨c, rfl⟩
  · cases h

theorem State.active_mem (s : State) (i : Instr) (u : Tid) :
    u ∈ s.active i ↔ u ∈ s.gang.tids ∧ ∃ x, s.thread? u = some x ∧ x.guardOf i = true := by
  unfold State.active
  simp only [List.mem_filter]
  constructor
  · rintro ⟨h, k⟩
    cases hx : s.thread? u with
    | none => simp [hx] at k
    | some x => exact ⟨h, x, rfl, by simpa [hx] using k⟩
  · rintro ⟨h, x, hx, hg⟩
    exact ⟨h, by simp [hx, hg]⟩

end Sys2Proof.Machine
end

