-- ==== Sys2Proof/Laws/Memory.lean ====
section
/-! SUPPORT. Laws of home memory: every operation keeps the canonical form, and a byte reads as last written. -/

namespace Sys2Proof.Machine

/-! ### The canonical form -/

theorem Memory.wf_nil : Memory.wf [] = true := rfl

theorem FMap.all_put {ν : Type} (m : FMap ν) (k : Nat) (v : ν) (p : Nat × ν → Bool) (h : m.all p = true)
    (hv : p (k, v) = true) : (FMap.put m k v).all p = true := by
  induction m with
  | nil => simp [FMap.put, hv]
  | cons e t ih =>
    obtain ⟨k', v'⟩ := e
    simp only [List.all_cons, Bool.and_eq_true] at h
    simp only [FMap.put]
    split
    · simp [hv, h.2]
    · split
      · simp [hv, h.1, h.2]
      · simp [h.1, ih h.2]

theorem FMap.all_del {ν : Type} (m : FMap ν) (k : Nat) (p : Nat × ν → Bool) (h : m.all p = true) :
    (FMap.del m k).all p = true := by
  induction m with
  | nil => rfl
  | cons e t ih =>
    obtain ⟨k', v'⟩ := e
    simp only [List.all_cons, Bool.and_eq_true] at h
    simp only [FMap.del]
    split
    · exact ih h.2
    · simp [h.1, ih h.2]

/-- Writing a byte keeps the canonical form. -/
theorem memPut_wf (m : List Host.Cell) (a : Nat) (b : Byte) (h : Memory.wf m = true) : Memory.wf (memPut m a b) = true := by
  simp only [Memory.wf, Bool.and_eq_true] at h ⊢
  refine ⟨FMap.sorted_set m a b 0 h.1, ?_⟩
  unfold memPut FMap.set
  split
  · exact FMap.all_del m a _ h.2
  · exact FMap.all_put m a b _ h.2 (by simpa using ‹_›)

theorem memPut_foldl_wf {ι : Type} (cs : List ι) (f : ι → Nat) (g : ι → Byte) (m : List Host.Cell)
    (h : Memory.wf m = true) : Memory.wf (cs.foldl (fun m c => memPut m (f c) (g c)) m) = true := by
  induction cs generalizing m with
  | nil => exact h
  | cons c cs ih => exact ih _ (memPut_wf m _ _ h)

/-- Writing bytes keeps the canonical form. -/
theorem memWrite_wf (bs : List Byte) (m : List Host.Cell) (a : Nat) (h : Memory.wf m = true) :
    Memory.wf (memWrite m a bs) = true := by
  induction bs generalizing m a with
  | nil => exact h
  | cons b bs ih => exact ih _ _ (memPut_wf m a b h)

/-- Dropping bytes keeps the canonical form. -/
theorem filter_wf (m : List Host.Cell) (p : Host.Cell → Bool) (h : Memory.wf m = true) : Memory.wf (m.filter p) = true := by
  simp only [Memory.wf, Bool.and_eq_true] at h ⊢
  refine ⟨FMap.sorted_filter m p h.1, ?_⟩
  simp only [List.all_eq_true, List.mem_filter] at *
  exact fun c hc => h.2 c hc.1

/-! ### Reading after writing -/

/-- A byte reads as last written, and every other byte stays. -/
theorem memByte_memPut (m : List Host.Cell) (a n : Nat) (b : Byte) :
    memByte (memPut m a b) n = if a = n then b else memByte m n := by
  unfold memByte memPut
  split
  · subst_vars; exact FMap.getD_set_self _ _ _ _
  · exact FMap.getD_set_ne _ _ _ _ ‹_›

theorem memByte_memWrite (bs : List Byte) (m : List Host.Cell) (a n : Nat) :
    memByte (memWrite m a bs) n = if a ≤ n ∧ n < a + bs.length then bs.getD (n - a) 0 else memByte m n := by
  induction bs generalizing m a with
  | nil => rw [if_neg (by simp)]; rfl
  | cons b bs ih =>
    rw [memWrite, ih, memByte_memPut]
    by_cases h1 : a = n
    · subst h1
      rw [if_neg (by omega), if_pos rfl, if_pos (by simp), Nat.sub_self]
      rfl
    · rw [if_neg h1]
      by_cases h2 : a + 1 ≤ n ∧ n < a + 1 + bs.length
      · rw [if_pos h2, if_pos (by simp; omega), show n - a = (n - (a + 1)) + 1 by omega]
        rfl
      · rw [if_neg h2, if_neg (by simp; omega)]

/-! ### What the home does -/

@[simp] theorem State.countLine_mem (s : State) (l : Nat) : (s.countLine l).mem = s.mem := by
  unfold State.countLine; dsimp only; split <;> rfl

@[simp] theorem State.countNode_mem (s : State) (l : Nat) : (s.countNode l).mem = s.mem := rfl

@[simp] theorem State.tableFit_mem (s : State) (n : Nat) : (s.tableFit n).mem = s.mem := by
  unfold State.tableFit
  dsimp only
  generalize oldestRecords (s.tableRecords n) _ = rs
  induction rs generalizing s with
  | nil => rfl
  | cons e rs ih => rw [List.foldl_cons, ih]; split <;> rfl

@[simp] theorem State.verifyLine_mem (s : State) (v : Nat) (o : Bool) (l : Nat) : (s.verifyLine v o l).mem = s.mem := by
  unfold State.verifyLine; split <;> rfl

@[simp] theorem State.l2Put_mem (s : State) (v c l p : Nat) (d : Bool) : (s.l2Put v c l d p).mem = s.mem := by
  unfold State.l2Put; split
  · rfl
  · dsimp only; split <;> simp

@[simp] theorem State.allocL2_mem (s : State) (v c l p : Nat) (d : Bool) : (s.allocL2 v c l d p).mem = s.mem := by
  unfold State.allocL2; split
  · rfl
  · split
    · split
      · rfl
      · simp
    · simp

@[simp] theorem State.touchL2_mem (s : State) (v c l : Nat) (d : Bool) : (s.touchL2 v c l d).mem = s.mem :=
  State.allocL2_mem s v c l 1 d

/-- A line's part of a write puts its cells and leaves every other byte. -/
theorem State.homeLine_mem (s : State) (v c q l : Nat) (o : Bool) (cells : List Host.Cell) :
    (s.homeLine v c o q l cells).mem = cells.foldl (fun m c => memPut m c.1 c.2) s.mem := by
  unfold State.homeLine
  dsimp only
  rw [State.allocL2_mem, State.verifyLine_mem]
  split <;> split <;> simp

theorem State.homeLine_wf (s : State) (v c q l : Nat) (o : Bool) (cells : List Host.Cell) (h : Memory.wf s.mem = true) :
    Memory.wf (s.homeLine v c o q l cells).mem = true := by
  rw [State.homeLine_mem]
  exact memPut_foldl_wf cells Prod.fst Prod.snd s.mem h

theorem State.homeLines_wf (s : State) (v c q : Nat) (o : Bool) (cells : List Host.Cell) (ls : List Nat)
    (h : Memory.wf s.mem = true) :
    Memory.wf (ls.foldl (fun (s : State) l =>
      if isPeer (l * 64) then s else s.homeLine v c o q l (cells.filter fun c => c.1 / 64 == l)) s).mem = true := by
  induction ls generalizing s with
  | nil => exact h
  | cons l ls ih =>
    rw [List.foldl_cons]
    refine ih _ ?_
    split
    · exact h
    · exact State.homeLine_wf s v c q l o _ h

theorem State.homeCells_wf (s : State) (v c q : Nat) (o : Bool) (cells : List Host.Cell) (h : Memory.wf s.mem = true) :
    Memory.wf (s.homeCells v c o q cells).mem = true := by
  unfold State.homeCells
  dsimp only
  refine State.homeLines_wf _ v c q o cells _ ?_
  split <;> exact h

/-- A write at the home keeps the canonical form. -/
theorem State.homeWrite_wf (s : State) (v c : Nat) (o : Bool) (p : Nat) (bs : List Byte) (h : Memory.wf s.mem = true) :
    Memory.wf (s.homeWrite v c o p bs).mem = true := State.homeCells_wf s v c 1 o _ h

/-- Zeroing ranges keeps the canonical form. -/
theorem State.zeroRanges_wf (s : State) (rs : List (Nat × Nat)) (h : Memory.wf s.mem = true) :
    Memory.wf (s.zeroRanges rs).mem = true := filter_wf s.mem _ h

/-- Filling a frame keeps the canonical form. -/
theorem State.setFrame_wf (s : State) (f : Nat) (p : Page) (poison : List Nat) (h : Memory.wf s.mem = true) :
    Memory.wf (s.setFrame f p poison).mem = true := by
  have h1 : Memory.wf (s.zeroRanges [(f, 65536)]).mem = true := State.zeroRanges_wf s _ h
  unfold State.setFrame
  dsimp only
  generalize (s.zeroRanges [(f, 65536)]).mem = m at h1 ⊢
  induction p generalizing m with
  | nil => exact h1
  | cons c cs ih =>
    rw [List.foldl_cons]
    refine ih _ ?_
    split
    · exact memPut_wf m _ _ h1
    · exact h1

/-- Garbling a line keeps the canonical form. -/
theorem State.garble_wf (s : State) (l : Nat) (d : Bool) (h : Memory.wf s.mem = true) : Memory.wf (s.garble l d).mem = true :=
  memWrite_wf _ s.mem _ h

theorem State.reset_wf : Memory.wf State.reset.mem = true := rfl

end Sys2Proof.Machine
end

