-- ==== Sys2Proof/Laws/PerInstr.lean ====
section
/-! SUPPORT. Reading the fields of every word's encoding gives the word back: one lemma for each constructor of
Instr. -/

set_option linter.unusedSimpArgs false

namespace Sys2Proof.Laws

/-! ### Fields of concatenated bits -/

theorem extract_high {v w : Nat} (x : BitVec v) (y : BitVec w) (s n : Nat) (h : w ≤ s) :
    (x ++ y).extractLsb' s n = x.extractLsb' (s - w) n := by
  apply BitVec.eq_of_getLsbD_eq
  intro i hi
  have h1 : ¬ s + i < w := by omega
  have h2 : s + i - w = s - w + i := by omega
  simp only [BitVec.getLsbD_extractLsb', BitVec.getLsbD_append, hi, decide_true, Bool.true_and, if_neg h1, h2]

theorem extract_low {v w : Nat} (x : BitVec v) (y : BitVec w) (s n : Nat) (h : s + n ≤ w) :
    (x ++ y).extractLsb' s n = y.extractLsb' s n := by
  apply BitVec.eq_of_getLsbD_eq
  intro i hi
  have h1 : s + i < w := by omega
  simp only [BitVec.getLsbD_extractLsb', BitVec.getLsbD_append, hi, decide_true, Bool.true_and, if_pos h1]

theorem extract_all {w : Nat} (x : BitVec w) : x.extractLsb' 0 w = x := by
  apply BitVec.eq_of_getLsbD_eq
  intro i hi
  simp [hi]

theorem bit_high {v w : Nat} (x : BitVec v) (y : BitVec w) (s : Nat) (h : w ≤ s) :
    (x ++ y).getLsbD s = x.getLsbD (s - w) := by
  rw [BitVec.getLsbD_append, if_neg (by omega)]

theorem bit_low {v w : Nat} (x : BitVec v) (y : BitVec w) (s : Nat) (h : s < w) :
    (x ++ y).getLsbD s = y.getLsbD s := by
  rw [BitVec.getLsbD_append, if_pos h]

/-- Two adjacent parts of a field, joined. -/
theorem extract_join {w : Nat} (x : BitVec w) (s n m : Nat) :
    x.extractLsb' (s + m) n ++ x.extractLsb' s m = x.extractLsb' s (n + m) := by
  apply BitVec.eq_of_getLsbD_eq
  intro i hi
  rw [BitVec.getLsbD_append]
  split
  · simp only [BitVec.getLsbD_extractLsb', hi, *, decide_true, Bool.true_and]
  · have h1 : i - m < n := by omega
    have h2 : s + m + (i - m) = s + i := by omega
    simp only [BitVec.getLsbD_extractLsb', hi, h1, h2, decide_true, Bool.true_and]

/-- A field that crosses the boundary of two parts. -/
theorem extract_cross {v w : Nat} (x : BitVec v) (y : BitVec w) (s n m k : Nat) (h : s + m = w) (hk : n + m = k) :
    (x ++ y).extractLsb' s k = (x.extractLsb' 0 n ++ y.extractLsb' s m).cast hk := by
  apply BitVec.eq_of_getLsbD_eq
  intro i hi
  rw [BitVec.getLsbD_cast, BitVec.getLsbD_append, BitVec.getLsbD_extractLsb', BitVec.getLsbD_append]
  by_cases h1 : i < m
  · have h2 : s + i < w := by omega
    simp only [hi, h1, h2, if_true, BitVec.getLsbD_extractLsb', decide_true, Bool.true_and]
  · have h2 : ¬ s + i < w := by omega
    have h3 : i - m < n := by omega
    have h4 : s + i - w = i - m := by omega
    simp only [hi, h1, h2, h3, h4, if_false, BitVec.getLsbD_extractLsb', decide_true, Bool.true_and, Nat.zero_add]

/-- A register number widened to a field and read back. -/
theorem wide {w v : Nat} (x : BitVec w) (h : w ≤ v) : (x.setWidth v).setWidth w = x := by
  apply BitVec.eq_of_getLsbD_eq
  intro i hi
  have : i < v := by omega
  simp [hi, this]

theorem join20 (x : BitVec 20) : x.extractLsb' 10 10 ++ x.extractLsb' 0 10 = x :=
  (extract_join x 0 10 10).trans (extract_all x)

theorem join30 (x : BitVec 30) : x.extractLsb' 20 10 ++ x.extractLsb' 10 10 ++ x.extractLsb' 0 10 = x :=
  ((congrArg (· ++ x.extractLsb' 0 10) (extract_join x 10 10 10)).trans (extract_join x 0 20 10)).trans (extract_all x)

theorem join39 (x : BitVec 39) :
    x.extractLsb' 30 9 ++ x.extractLsb' 20 10 ++ x.extractLsb' 10 10 ++ x.extractLsb' 0 10 = x :=
  ((congrArg (fun y => y ++ x.extractLsb' 10 10 ++ x.extractLsb' 0 10) (extract_join x 20 9 10)).trans
    ((congrArg (· ++ x.extractLsb' 0 10) (extract_join x 10 19 10)).trans (extract_join x 0 29 10))).trans (extract_all x)

theorem joinReg (x : BitVec 10) : x.extractLsb' 9 1 ++ x.extractLsb' 3 6 ++ x.extractLsb' 0 3 = x :=
  ((congrArg (· ++ x.extractLsb' 0 3) (extract_join x 3 1 6)).trans (extract_join x 0 7 3)).trans (extract_all x)

/-- The length of an immediate bit field lies across B and C. -/
theorem joinLen (y : BitVec 4) (x z : BitVec 8) :
    ((y ++ x.extractLsb' 2 6 : BitVec 10) ++ (x.extractLsb' 0 2 ++ z : BitVec 10)).extractLsb' 8 8 = x := by
  rw [extract_cross (n := 6) (m := 2) _ _ _ _ rfl rfl, extract_low _ _ _ _ (by decide), extract_high _ _ _ _ (by decide),
    extract_all, Nat.sub_self, extract_all]
  exact (extract_join x 0 6 2).trans (extract_all x)

theorem joinLenSigned (s : BitVec 1) (x z : BitVec 8) :
    ((0#3 ++ s ++ x.extractLsb' 2 6 : BitVec 10) ++ (x.extractLsb' 0 2 ++ z : BitVec 10)).extractLsb' 8 8 = x :=
  joinLen (0#3 ++ s) x z

/-- The mask register of shfl with an immediate lies across B and C. -/
theorem joinMask (x : BitVec 4) (y : BitVec 2) (z : BitVec 5) :
    ((0#9 ++ x.extractLsb' 3 1 : BitVec 10) ++ (x.extractLsb' 0 3 ++ y ++ z : BitVec 10)).extractLsb' 7 4 = x := by
  rw [extract_cross (n := 1) (m := 3) _ _ _ _ rfl rfl, extract_low _ _ _ _ (by decide), extract_high _ _ _ _ (by decide),
    extract_high _ _ _ _ (by decide), extract_all, show (7 - 5 - 2 : Nat) = 0 from rfl, extract_all]
  exact (extract_join x 0 1 3).trans (extract_all x)

theorem bit_zero (x : Bool) : (bit x).getLsbD 0 = x := by cases x <;> rfl

/-! ### Codes -/

theorem sgn_of (x : Sgn) : Sgn.of x.code = x := by cases x <;> rfl
theorem imad_of (x : ImadMode) : ImadMode.of? x.code = some x := by cases x <;> rfl
theorem icond_of (x : ICond) : ICond.of x.code = x := by cases x <;> rfl
theorem shfl_of (x : ShflMode) : ShflMode.of x.code = x := by cases x <;> rfl
theorem vote_of (x : VoteKind) : VoteKind.of? x.code = some x := by cases x <;> rfl
theorem cred_of (x : CredOp) : CredOp.of x.code = x := by cases x <;> rfl
theorem special_of (x : Special) : Special.of? x.code = some x := by cases x <;> rfl
theorem mfromp_of (x : MfrompMode) : MfrompMode.of? x.code = some x := by cases x <;> rfl
theorem mset_of (x : MsetOp) : MsetOp.of? x.code = some x := by cases x <;> rfl
theorem rnd_of (x : Rnd) : Rnd.of x.code = x := by cases x <;> rfl
theorem rnd5_of (x : Rnd5) : Rnd5.of? x.code = some x := by cases x <;> rfl
theorem fcond_of (x : FCond) : FCond.of x.code = x := by cases x <;> rfl
theorem cmp_of (x : FTy) : FTy.ofCmp x.cmpCode = x := by cases x <;> rfl
theorem class_of (x : FTy) : FTy.ofClass? x.classCode = some x := by cases x <;> rfl
theorem elem_of (x : ElemTy) : ElemTy.of? x.code = some x := by cases x <;> rfl
theorem mx_of (x : MxFmt) : MxFmt.of? x.code = some x := by cases x <;> rfl
theorem acc_of (x : AccFmt) : AccFmt.of? x.code = some x := by cases x <;> rfl
theorem size_of (x : MSize) : MSize.of? x.code = some x := by cases x <;> rfl
theorem atom_of (x : AtomTy) : AtomTy.of? x.code = some x := by cases x <;> rfl
theorem pf_of (x : PfLevel) : PfLevel.of? x.code = some x := by cases x <;> rfl
theorem cache_of (x : CacheOp) : CacheOp.of? x.code = some x := by cases x <;> rfl
theorem msend_of (x : MsendKind) : MsendKind.of? x.code = some x := by cases x <;> rfl
theorem tlb_of (x : TlbForm) : TlbForm.of? x.code = some x := by cases x <;> rfl
theorem kvx_of (x : KvxForm) : KvxForm.of? x.code = some x := by cases x <;> rfl
theorem arrive_of (x : ArriveForm) : ArriveForm.of? x.code = some x := by cases x <;> rfl
theorem csrw_of (x : CsrwMode) : CsrwMode.of? x.code = some x := by cases x <;> rfl
theorem short_of (x : ShortOp) : ShortOp.of? x.code = some x := by cases x <;> rfl
theorem mq_of (q : Mq) : Mq.of? q.code = some q := by
  obtain ⟨o, s, f, e, h⟩ := q
  cases o <;> cases s <;> cases f <;> cases e <;> cases h <;> rfl

/-! ### Words -/

theorem unpack_pack (f : Fields) : Fields.unpack f.pack = f := by
  obtain ⟨pd, ta, wm, op, gn, gp, d, a, b, c, m⟩ := f
  simp (disch := decide) only [Fields.unpack, Fields.pack, extract_high, extract_low, extract_all, Nat.reduceSub]

theorem pack_full (f : Fields) : f.pack.getLsbD 60 = false := by
  simp (disch := decide) only [Fields.pack, bit_high, bit_low, Nat.reduceSub]
  rfl

theorem parse_pack (f : Fields) : parseWord f.pack = parseFull f := by
  rw [parseWord, pack_full, unpack_pack]; rfl

theorem hd_word (h : Hd) (op d a b c : BitVec 10) (m : BitVec 3) : (Instr.fields?.word h op d a b c m).hd = h := by
  obtain ⟨⟨pd, ta, wm⟩, ⟨neg, gp⟩⟩ := h
  cases neg <;> rfl

theorem half_pack (h : Half) : Half.unpack? h.pack = some h := by
  obtain ⟨o, d, a, b⟩ := h
  simp (disch := decide) only [Half.unpack?, Half.pack, extract_high, extract_low, extract_all, Nat.reduceSub, short_of]

section
variable (h : Hd) (op d a b c : BitVec 10) (m : BitVec 3)
theorem word_op : (Instr.fields?.word h op d a b c m).op = op := rfl
theorem word_d : (Instr.fields?.word h op d a b c m).d = d := rfl
theorem word_a : (Instr.fields?.word h op d a b c m).a = a := rfl
theorem word_b : (Instr.fields?.word h op d a b c m).b = b := rfl
theorem word_c : (Instr.fields?.word h op d a b c m).c = c := rfl
theorem word_m : (Instr.fields?.word h op d a b c m).m = m := rfl
end

end Sys2Proof.Laws

namespace Sys2Proof.Laws.Encoding

/-- No bit of the instruction's encoding is dropped: reading the fields of its word gives it back. -/
def Statement (i : Instr) : Prop := ∀ w, encode i = some w → parseWord w = some i

theorem of_fields (i : Instr) (f : Fields) (he : encode i = some f.pack) (h : parseFull f = some i) : Statement i := by
  intro w hw
  rw [he] at hw
  cases hw
  rw [parse_pack, h]

theorem of_act (i : Instr) (he : encode i = none) : Statement i := by
  intro w hw
  rw [he] at hw
  cases hw

theorem iadd (h : Hd) (ty : Sgn) (sat : Bool) (d a b : VReg) : Statement (.iadd h ty sat d a b) := by
  refine of_fields _ _ rfl ?_
  simp (disch := decide) only [parseFull, word_op, BitVec.reduceEq, BitVec.reduceToNat, Nat.reduceDiv, reduceIte,
    parseInteger, word_d, word_a, word_b, word_c, word_m, hd_word, tb, pOf, mOf, wide, bit_high, bit_low,
    extract_high, extract_low, extract_all, Nat.reduceSub, bit_zero, sgn_of, Option.map_some, Option.orElse_some]

theorem isub (h : Hd) (ty : Sgn) (sat : Bool) (d a b : VReg) : Statement (.isub h ty sat d a b) := by
  refine of_fields _ _ rfl ?_
  simp (disch := decide) only [parseFull, word_op, BitVec.reduceEq, BitVec.reduceToNat, Nat.reduceDiv, reduceIte,
    parseInteger, word_d, word_a, word_b, word_c, word_m, hd_word, tb, pOf, mOf, wide, bit_high, bit_low,
    extract_high, extract_low, extract_all, Nat.reduceSub, bit_zero, sgn_of, Option.map_some, Option.orElse_some]

theorem imul (h : Hd) (ty : Sgn) (sat : Bool) (d a b : VReg) : Statement (.imul h ty sat d a b) := by
  refine of_fields _ _ rfl ?_
  simp (disch := decide) only [parseFull, word_op, BitVec.reduceEq, BitVec.reduceToNat, Nat.reduceDiv, reduceIte,
    parseInteger, word_d, word_a, word_b, word_c, word_m, hd_word, tb, pOf, mOf, wide, bit_high, bit_low,
    extract_high, extract_low, extract_all, Nat.reduceSub, bit_zero, sgn_of, Option.map_some, Option.orElse_some]

theorem imulhi (h : Hd) (ty : Sgn) (d a b : VReg) : Statement (.imulhi h ty d a b) := by
  refine of_fields _ _ rfl ?_
  simp (disch := decide) only [parseFull, word_op, BitVec.reduceEq, BitVec.reduceToNat, Nat.reduceDiv, reduceIte,
    parseInteger, word_d, word_a, word_b, word_c, word_m, hd_word, tb, pOf, mOf, wide, bit_high, bit_low,
    extract_high, extract_low, extract_all, Nat.reduceSub, bit_zero, sgn_of, Option.map_some, Option.orElse_some]

theorem imad (h : Hd) (ty : Sgn) (mode : ImadMode) (d a b c : VReg) : Statement (.imad h ty mode d a b c) := by
  refine of_fields _ _ rfl ?_
  simp (disch := decide) only [parseFull, word_op, BitVec.reduceEq, BitVec.reduceToNat, Nat.reduceDiv, reduceIte,
    parseInteger, word_d, word_a, word_b, word_c, word_m, hd_word, tb, pOf, mOf, wide, bit_high, bit_low,
    extract_high, extract_low, extract_all, Nat.reduceSub, bit_zero, sgn_of, imad_of, Option.map_some,
    Option.orElse_some]

theorem iadd64 (h : Hd) (ty : Sgn) (sat x32 : Bool) (d a b : VReg) : Statement (.iadd64 h ty sat x32 d a b) := by
  refine of_fields _ _ rfl ?_
  simp (disch := decide) only [parseFull, word_op, BitVec.reduceEq, BitVec.reduceToNat, Nat.reduceDiv, reduceIte,
    parseInteger, word_d, word_a, word_b, word_c, word_m, hd_word, tb, pOf, mOf, wide, bit_high, bit_low,
    extract_high, extract_low, extract_all, Nat.reduceSub, bit_zero, sgn_of, Option.map_some, Option.orElse_some]

theorem imin (h : Hd) (ty : Sgn) (d a b : VReg) : Statement (.imin h ty d a b) := by
  refine of_fields _ _ rfl ?_
  simp (disch := decide) only [parseFull, word_op, BitVec.reduceEq, BitVec.reduceToNat, Nat.reduceDiv, reduceIte,
    parseInteger, word_d, word_a, word_b, word_c, word_m, hd_word, tb, pOf, mOf, wide, bit_high, bit_low,
    extract_high, extract_low, extract_all, Nat.reduceSub, bit_zero, sgn_of, Option.map_some, Option.orElse_some]

theorem imax (h : Hd) (ty : Sgn) (d a b : VReg) : Statement (.imax h ty d a b) := by
  refine of_fields _ _ rfl ?_
  simp (disch := decide) only [parseFull, word_op, BitVec.reduceEq, BitVec.reduceToNat, Nat.reduceDiv, reduceIte,
    parseInteger, word_d, word_a, word_b, word_c, word_m, hd_word, tb, pOf, mOf, wide, bit_high, bit_low,
    extract_high, extract_low, extract_all, Nat.reduceSub, bit_zero, sgn_of, Option.map_some, Option.orElse_some]

theorem iabs (h : Hd) (sat : Bool) (d a : VReg) : Statement (.iabs h sat d a) := by
  refine of_fields _ _ rfl ?_
  simp (disch := decide) only [parseFull, word_op, BitVec.reduceEq, BitVec.reduceToNat, Nat.reduceDiv, reduceIte,
    parseInteger, word_d, word_a, word_b, word_c, word_m, hd_word, tb, pOf, mOf, wide, bit_high, bit_low,
    extract_high, extract_low, extract_all, Nat.reduceSub, bit_zero, Option.map_some, Option.orElse_some]

theorem ineg (h : Hd) (sat : Bool) (d a : VReg) : Statement (.ineg h sat d a) := by
  refine of_fields _ _ rfl ?_
  simp (disch := decide) only [parseFull, word_op, BitVec.reduceEq, BitVec.reduceToNat, Nat.reduceDiv, reduceIte,
    parseInteger, word_d, word_a, word_b, word_c, word_m, hd_word, tb, pOf, mOf, wide, bit_high, bit_low,
    extract_high, extract_low, extract_all, Nat.reduceSub, bit_zero, Option.map_some, Option.orElse_some]

theorem iand (h : Hd) (w64 nb : Bool) (d a b : VReg) : Statement (.iand h w64 nb d a b) := by
  refine of_fields _ _ rfl ?_
  simp (disch := decide) only [parseFull, word_op, BitVec.reduceEq, BitVec.reduceToNat, Nat.reduceDiv, reduceIte,
    parseInteger, word_d, word_a, word_b, word_c, word_m, hd_word, tb, pOf, mOf, wide, bit_high, bit_low,
    extract_high, extract_low, extract_all, Nat.reduceSub, bit_zero, Option.map_some, Option.orElse_some]

theorem ior (h : Hd) (w64 nb : Bool) (d a b : VReg) : Statement (.ior h w64 nb d a b) := by
  refine of_fields _ _ rfl ?_
  simp (disch := decide) only [parseFull, word_op, BitVec.reduceEq, BitVec.reduceToNat, Nat.reduceDiv, reduceIte,
    parseInteger, word_d, word_a, word_b, word_c, word_m, hd_word, tb, pOf, mOf, wide, bit_high, bit_low,
    extract_high, extract_low, extract_all, Nat.reduceSub, bit_zero, Option.map_some, Option.orElse_some]

theorem ixor (h : Hd) (w64 nb : Bool) (d a b : VReg) : Statement (.ixor h w64 nb d a b) := by
  refine of_fields _ _ rfl ?_
  simp (disch := decide) only [parseFull, word_op, BitVec.reduceEq, BitVec.reduceToNat, Nat.reduceDiv, reduceIte,
    parseInteger, word_d, word_a, word_b, word_c, word_m, hd_word, tb, pOf, mOf, wide, bit_high, bit_low,
    extract_high, extract_low, extract_all, Nat.reduceSub, bit_zero, Option.map_some, Option.orElse_some]

theorem inot (h : Hd) (w64 : Bool) (d a : VReg) : Statement (.inot h w64 d a) := by
  refine of_fields _ _ rfl ?_
  simp (disch := decide) only [parseFull, word_op, BitVec.reduceEq, BitVec.reduceToNat, Nat.reduceDiv, reduceIte,
    parseInteger, word_d, word_a, word_b, word_c, word_m, hd_word, tb, pOf, mOf, wide, bit_high, bit_low,
    extract_high, extract_low, extract_all, Nat.reduceSub, bit_zero, Option.map_some, Option.orElse_some]

theorem ishl (h : Hd) (w64 wrap : Bool) (d a b : VReg) : Statement (.ishl h w64 wrap d a b) := by
  refine of_fields _ _ rfl ?_
  simp (disch := decide) only [parseFull, word_op, BitVec.reduceEq, BitVec.reduceToNat, Nat.reduceDiv, reduceIte,
    parseInteger, word_d, word_a, word_b, word_c, word_m, hd_word, tb, pOf, mOf, wide, bit_high, bit_low,
    extract_high, extract_low, extract_all, Nat.reduceSub, bit_zero, Option.map_some, Option.orElse_some]

theorem ishr (h : Hd) (w64 wrap : Bool) (d a b : VReg) : Statement (.ishr h w64 wrap d a b) := by
  refine of_fields _ _ rfl ?_
  simp (disch := decide) only [parseFull, word_op, BitVec.reduceEq, BitVec.reduceToNat, Nat.reduceDiv, reduceIte,
    parseInteger, word_d, word_a, word_b, word_c, word_m, hd_word, tb, pOf, mOf, wide, bit_high, bit_low,
    extract_high, extract_low, extract_all, Nat.reduceSub, bit_zero, Option.map_some, Option.orElse_some]

theorem isar (h : Hd) (w64 wrap : Bool) (d a b : VReg) : Statement (.isar h w64 wrap d a b) := by
  refine of_fields _ _ rfl ?_
  simp (disch := decide) only [parseFull, word_op, BitVec.reduceEq, BitVec.reduceToNat, Nat.reduceDiv, reduceIte,
    parseInteger, word_d, word_a, word_b, word_c, word_m, hd_word, tb, pOf, mOf, wide, bit_high, bit_low,
    extract_high, extract_low, extract_all, Nat.reduceSub, bit_zero, Option.map_some, Option.orElse_some]

theorem irot (h : Hd) (w64 right : Bool) (d a b : VReg) : Statement (.irot h w64 right d a b) := by
  refine of_fields _ _ rfl ?_
  simp (disch := decide) only [parseFull, word_op, BitVec.reduceEq, BitVec.reduceToNat, Nat.reduceDiv, reduceIte,
    parseInteger, word_d, word_a, word_b, word_c, word_m, hd_word, tb, pOf, mOf, wide, bit_high, bit_low,
    extract_high, extract_low, extract_all, Nat.reduceSub, bit_zero, Option.map_some, Option.orElse_some]

theorem bfx (h : Hd) (signed : Bool) (d a b : VReg) : Statement (.bfx h signed d a b) := by
  refine of_fields _ _ rfl ?_
  simp (disch := decide) only [parseFull, word_op, BitVec.reduceEq, BitVec.reduceToNat, Nat.reduceDiv, reduceIte,
    parseInteger, word_d, word_a, word_b, word_c, word_m, hd_word, tb, pOf, mOf, wide, bit_high, bit_low,
    extract_high, extract_low, extract_all, Nat.reduceSub, bit_zero, Option.map_some, Option.orElse_some]

theorem bfi (h : Hd) (d a b c : VReg) : Statement (.bfi h d a b c) := by
  refine of_fields _ _ rfl ?_
  simp (disch := decide) only [parseFull, word_op, BitVec.reduceEq, BitVec.reduceToNat, Nat.reduceDiv, reduceIte,
    parseInteger, word_d, word_a, word_b, word_c, word_m, hd_word, tb, pOf, mOf, wide, bit_high, bit_low,
    extract_high, extract_low, extract_all, Nat.reduceSub, bit_zero, Option.map_some, Option.orElse_some]

theorem popc (h : Hd) (w64 : Bool) (d a : VReg) : Statement (.popc h w64 d a) := by
  refine of_fields _ _ rfl ?_
  simp (disch := decide) only [parseFull, word_op, BitVec.reduceEq, BitVec.reduceToNat, Nat.reduceDiv, reduceIte,
    parseInteger, word_d, word_a, word_b, word_c, word_m, hd_word, tb, pOf, mOf, wide, bit_high, bit_low,
    extract_high, extract_low, extract_all, Nat.reduceSub, bit_zero, Option.map_some, Option.orElse_some]

theorem clz (h : Hd) (w64 : Bool) (d a : VReg) : Statement (.clz h w64 d a) := by
  refine of_fields _ _ rfl ?_
  simp (disch := decide) only [parseFull, word_op, BitVec.reduceEq, BitVec.reduceToNat, Nat.reduceDiv, reduceIte,
    parseInteger, word_d, word_a, word_b, word_c, word_m, hd_word, tb, pOf, mOf, wide, bit_high, bit_low,
    extract_high, extract_low, extract_all, Nat.reduceSub, bit_zero, Option.map_some, Option.orElse_some]

theorem ctz (h : Hd) (w64 : Bool) (d a : VReg) : Statement (.ctz h w64 d a) := by
  refine of_fields _ _ rfl ?_
  simp (disch := decide) only [parseFull, word_op, BitVec.reduceEq, BitVec.reduceToNat, Nat.reduceDiv, reduceIte,
    parseInteger, word_d, word_a, word_b, word_c, word_m, hd_word, tb, pOf, mOf, wide, bit_high, bit_low,
    extract_high, extract_low, extract_all, Nat.reduceSub, bit_zero, Option.map_some, Option.orElse_some]

theorem brev (h : Hd) (w64 : Bool) (d a : VReg) : Statement (.brev h w64 d a) := by
  refine of_fields _ _ rfl ?_
  simp (disch := decide) only [parseFull, word_op, BitVec.reduceEq, BitVec.reduceToNat, Nat.reduceDiv, reduceIte,
    parseInteger, word_d, word_a, word_b, word_c, word_m, hd_word, tb, pOf, mOf, wide, bit_high, bit_low,
    extract_high, extract_low, extract_all, Nat.reduceSub, bit_zero, Option.map_some, Option.orElse_some]

theorem prmt (h : Hd) (d a b c : VReg) : Statement (.prmt h d a b c) := by
  refine of_fields _ _ rfl ?_
  simp (disch := decide) only [parseFull, word_op, BitVec.reduceEq, BitVec.reduceToNat, Nat.reduceDiv, reduceIte,
    parseInteger, word_d, word_a, word_b, word_c, word_m, hd_word, tb, pOf, mOf, wide, bit_high, bit_low,
    extract_high, extract_low, extract_all, Nat.reduceSub, bit_zero, Option.map_some, Option.orElse_some]

theorem icmp (h : Hd) (cond : ICond) (w64 : Bool) (d : PReg) (a b : VReg) : Statement (.icmp h cond w64 d a b) := by
  refine of_fields _ _ rfl ?_
  simp (disch := decide) only [parseFull, word_op, BitVec.reduceEq, BitVec.reduceToNat, Nat.reduceDiv, reduceIte,
    parseInteger, word_d, word_a, word_b, word_c, word_m, hd_word, tb, pOf, mOf, wide, bit_high, bit_low,
    extract_high, extract_low, extract_all, Nat.reduceSub, bit_zero, icond_of, Option.map_some, Option.orElse_some]

theorem isel (h : Hd) (w64 : Bool) (d a b : VReg) (c : PReg) : Statement (.isel h w64 d a b c) := by
  refine of_fields _ _ rfl ?_
  simp (disch := decide) only [parseFull, word_op, BitVec.reduceEq, BitVec.reduceToNat, Nat.reduceDiv, reduceIte,
    parseInteger, word_d, word_a, word_b, word_c, word_m, hd_word, tb, pOf, mOf, wide, bit_high, bit_low,
    extract_high, extract_low, extract_all, Nat.reduceSub, bit_zero, Option.map_some, Option.orElse_some]

theorem mov (h : Hd) (w64 : Bool) (d a : VReg) : Statement (.mov h w64 d a) := by
  refine of_fields _ _ rfl ?_
  simp (disch := decide) only [parseFull, word_op, BitVec.reduceEq, BitVec.reduceToNat, Nat.reduceDiv, reduceIte,
    parseInteger, word_d, word_a, word_b, word_c, word_m, hd_word, tb, pOf, mOf, wide, bit_high, bit_low,
    extract_high, extract_low, extract_all, Nat.reduceSub, bit_zero, Option.map_some, Option.orElse_some]

theorem lea (h : Hd) (signed : Bool) (scale : BitVec 2) (d a b : VReg) : Statement (.lea h signed scale d a b) := by
  refine of_fields _ _ rfl ?_
  simp (disch := decide) only [parseFull, word_op, BitVec.reduceEq, BitVec.reduceToNat, Nat.reduceDiv, reduceIte,
    parseInteger, word_d, word_a, word_b, word_c, word_m, hd_word, tb, pOf, mOf, wide, bit_high, bit_low,
    extract_high, extract_low, extract_all, Nat.reduceSub, bit_zero, Option.map_some, Option.orElse_some]

theorem shfl (h : Hd) (mode : ShflMode) (d a b : VReg) (m : MReg) : Statement (.shfl h mode d a b m) := by
  refine of_fields _ _ rfl ?_
  simp (disch := decide) only [parseFull, word_op, BitVec.reduceEq, BitVec.reduceToNat, Nat.reduceDiv, reduceIte,
    parseInteger, word_d, word_a, word_b, word_c, word_m, hd_word, tb, pOf, mOf, wide, bit_high, bit_low,
    extract_high, extract_low, extract_all, Nat.reduceSub, bit_zero, shfl_of, Option.map_some, Option.orElse_some]

theorem vote (h : Hd) (kind : VoteKind) (inv : Bool) (d : BitVec 10) (a : PReg) (m : MReg) :
    Statement (.vote h kind inv d a m) := by
  refine of_fields _ _ rfl ?_
  simp (disch := decide) only [parseFull, word_op, BitVec.reduceEq, BitVec.reduceToNat, Nat.reduceDiv, reduceIte,
    parseInteger, word_d, word_a, word_b, word_c, word_m, hd_word, tb, pOf, mOf, wide, bit_high, bit_low,
    extract_high, extract_low, extract_all, Nat.reduceSub, bit_zero, vote_of, Option.map_some, Option.orElse_some]

theorem cred (h : Hd) (op : CredOp) (d a : VReg) (m : MReg) : Statement (.cred h op d a m) := by
  refine of_fields _ _ rfl ?_
  simp (disch := decide) only [parseFull, word_op, BitVec.reduceEq, BitVec.reduceToNat, Nat.reduceDiv, reduceIte,
    parseInteger, word_d, word_a, word_b, word_c, word_m, hd_word, tb, pOf, mOf, wide, bit_high, bit_low,
    extract_high, extract_low, extract_all, Nat.reduceSub, bit_zero, cred_of, Option.map_some, Option.orElse_some]

theorem srd (h : Hd) (d : VReg) (sp : Special) : Statement (.srd h d sp) := by
  refine of_fields _ _ rfl ?_
  simp (disch := decide) only [parseFull, word_op, BitVec.reduceEq, BitVec.reduceToNat, Nat.reduceDiv, reduceIte,
    parseInteger, word_d, word_a, word_b, word_c, word_m, hd_word, tb, pOf, mOf, wide, bit_high, bit_low,
    extract_high, extract_low, extract_all, Nat.reduceSub, bit_zero, special_of, Option.map_some, Option.orElse_some]

theorem iaddI (h : Hd) (d a : VReg) (imm : BitVec 20) : Statement (.iaddI h d a imm) := by
  refine of_fields _ _ rfl ?_
  simp (disch := decide) only [parseFull, word_op, BitVec.reduceEq, BitVec.reduceToNat, Nat.reduceDiv, reduceIte,
    parseImm, Fields.i20, join20, word_d, word_a, word_b, word_c, word_m, hd_word, tb, pOf, mOf, wide, bit_high,
    bit_low, extract_high, extract_low, extract_all, Nat.reduceSub, bit_zero, Option.map_some, Option.orElse_some]

theorem imulI (h : Hd) (d a : VReg) (imm : BitVec 20) : Statement (.imulI h d a imm) := by
  refine of_fields _ _ rfl ?_
  simp (disch := decide) only [parseFull, word_op, BitVec.reduceEq, BitVec.reduceToNat, Nat.reduceDiv, reduceIte,
    parseImm, Fields.i20, join20, word_d, word_a, word_b, word_c, word_m, hd_word, tb, pOf, mOf, wide, bit_high,
    bit_low, extract_high, extract_low, extract_all, Nat.reduceSub, bit_zero, Option.map_some, Option.orElse_some]

theorem iminI (h : Hd) (d a : VReg) (imm : BitVec 20) : Statement (.iminI h d a imm) := by
  refine of_fields _ _ rfl ?_
  simp (disch := decide) only [parseFull, word_op, BitVec.reduceEq, BitVec.reduceToNat, Nat.reduceDiv, reduceIte,
    parseImm, Fields.i20, join20, word_d, word_a, word_b, word_c, word_m, hd_word, tb, pOf, mOf, wide, bit_high,
    bit_low, extract_high, extract_low, extract_all, Nat.reduceSub, bit_zero, Option.map_some, Option.orElse_some]

theorem imaxI (h : Hd) (d a : VReg) (imm : BitVec 20) : Statement (.imaxI h d a imm) := by
  refine of_fields _ _ rfl ?_
  simp (disch := decide) only [parseFull, word_op, BitVec.reduceEq, BitVec.reduceToNat, Nat.reduceDiv, reduceIte,
    parseImm, Fields.i20, join20, word_d, word_a, word_b, word_c, word_m, hd_word, tb, pOf, mOf, wide, bit_high,
    bit_low, extract_high, extract_low, extract_all, Nat.reduceSub, bit_zero, Option.map_some, Option.orElse_some]

theorem iandI (h : Hd) (d a : VReg) (imm : BitVec 20) : Statement (.iandI h d a imm) := by
  refine of_fields _ _ rfl ?_
  simp (disch := decide) only [parseFull, word_op, BitVec.reduceEq, BitVec.reduceToNat, Nat.reduceDiv, reduceIte,
    parseImm, Fields.i20, join20, word_d, word_a, word_b, word_c, word_m, hd_word, tb, pOf, mOf, wide, bit_high,
    bit_low, extract_high, extract_low, extract_all, Nat.reduceSub, bit_zero, Option.map_some, Option.orElse_some]

theorem iorI (h : Hd) (d a : VReg) (imm : BitVec 20) : Statement (.iorI h d a imm) := by
  refine of_fields _ _ rfl ?_
  simp (disch := decide) only [parseFull, word_op, BitVec.reduceEq, BitVec.reduceToNat, Nat.reduceDiv, reduceIte,
    parseImm, Fields.i20, join20, word_d, word_a, word_b, word_c, word_m, hd_word, tb, pOf, mOf, wide, bit_high,
    bit_low, extract_high, extract_low, extract_all, Nat.reduceSub, bit_zero, Option.map_some, Option.orElse_some]

theorem ixorI (h : Hd) (d a : VReg) (imm : BitVec 20) : Statement (.ixorI h d a imm) := by
  refine of_fields _ _ rfl ?_
  simp (disch := decide) only [parseFull, word_op, BitVec.reduceEq, BitVec.reduceToNat, Nat.reduceDiv, reduceIte,
    parseImm, Fields.i20, join20, word_d, word_a, word_b, word_c, word_m, hd_word, tb, pOf, mOf, wide, bit_high,
    bit_low, extract_high, extract_low, extract_all, Nat.reduceSub, bit_zero, Option.map_some, Option.orElse_some]

theorem ishlI (h : Hd) (d a : VReg) (n : BitVec 8) : Statement (.ishlI h d a n) := by
  refine of_fields _ _ rfl ?_
  simp (disch := decide) only [parseFull, word_op, BitVec.reduceEq, BitVec.reduceToNat, Nat.reduceDiv, reduceIte,
    parseImm, word_d, word_a, word_b, word_c, word_m, hd_word, tb, pOf, mOf, wide, bit_high, bit_low, extract_high,
    extract_low, extract_all, Nat.reduceSub, bit_zero, Option.map_some, Option.orElse_some]

theorem ishrI (h : Hd) (d a : VReg) (n : BitVec 8) : Statement (.ishrI h d a n) := by
  refine of_fields _ _ rfl ?_
  simp (disch := decide) only [parseFull, word_op, BitVec.reduceEq, BitVec.reduceToNat, Nat.reduceDiv, reduceIte,
    parseImm, word_d, word_a, word_b, word_c, word_m, hd_word, tb, pOf, mOf, wide, bit_high, bit_low, extract_high,
    extract_low, extract_all, Nat.reduceSub, bit_zero, Option.map_some, Option.orElse_some]

theorem isarI (h : Hd) (d a : VReg) (n : BitVec 8) : Statement (.isarI h d a n) := by
  refine of_fields _ _ rfl ?_
  simp (disch := decide) only [parseFull, word_op, BitVec.reduceEq, BitVec.reduceToNat, Nat.reduceDiv, reduceIte,
    parseImm, word_d, word_a, word_b, word_c, word_m, hd_word, tb, pOf, mOf, wide, bit_high, bit_low, extract_high,
    extract_low, extract_all, Nat.reduceSub, bit_zero, Option.map_some, Option.orElse_some]

theorem irotI (h : Hd) (d a : VReg) (n : BitVec 8) : Statement (.irotI h d a n) := by
  refine of_fields _ _ rfl ?_
  simp (disch := decide) only [parseFull, word_op, BitVec.reduceEq, BitVec.reduceToNat, Nat.reduceDiv, reduceIte,
    parseImm, word_d, word_a, word_b, word_c, word_m, hd_word, tb, pOf, mOf, wide, bit_high, bit_low, extract_high,
    extract_low, extract_all, Nat.reduceSub, bit_zero, Option.map_some, Option.orElse_some]

theorem bfxI (h : Hd) (signed : Bool) (len pos : BitVec 8) (d a : VReg) : Statement (.bfxI h signed len pos d a) := by
  refine of_fields _ _ rfl ?_
  simp (disch := decide) only [parseFull, word_op, BitVec.reduceEq, BitVec.reduceToNat, Nat.reduceDiv, reduceIte,
    parseImm, Fields.i20, joinLen, joinLenSigned, word_d, word_a, word_b, word_c, word_m, hd_word, tb, pOf, mOf,
    wide, bit_high, bit_low, extract_high, extract_low, extract_all, Nat.reduceSub, bit_zero, Option.map_some,
    Option.orElse_some]

theorem bfiI (h : Hd) (len pos : BitVec 8) (d a : VReg) : Statement (.bfiI h len pos d a) := by
  refine of_fields _ _ rfl ?_
  simp (disch := decide) only [parseFull, word_op, BitVec.reduceEq, BitVec.reduceToNat, Nat.reduceDiv, reduceIte,
    parseImm, Fields.i20, joinLen, joinLenSigned, word_d, word_a, word_b, word_c, word_m, hd_word, tb, pOf, mOf,
    wide, bit_high, bit_low, extract_high, extract_low, extract_all, Nat.reduceSub, bit_zero, Option.map_some,
    Option.orElse_some]

theorem prmtI (h : Hd) (d a : VReg) (sel : BitVec 20) : Statement (.prmtI h d a sel) := by
  refine of_fields _ _ rfl ?_
  simp (disch := decide) only [parseFull, word_op, BitVec.reduceEq, BitVec.reduceToNat, Nat.reduceDiv, reduceIte,
    parseImm, Fields.i20, join20, word_d, word_a, word_b, word_c, word_m, hd_word, tb, pOf, mOf, wide, bit_high,
    bit_low, extract_high, extract_low, extract_all, Nat.reduceSub, bit_zero, Option.map_some, Option.orElse_some]

theorem leaI (h : Hd) (d a : VReg) (off : BitVec 20) : Statement (.leaI h d a off) := by
  refine of_fields _ _ rfl ?_
  simp (disch := decide) only [parseFull, word_op, BitVec.reduceEq, BitVec.reduceToNat, Nat.reduceDiv, reduceIte,
    parseImm, Fields.i20, join20, word_d, word_a, word_b, word_c, word_m, hd_word, tb, pOf, mOf, wide, bit_high,
    bit_low, extract_high, extract_low, extract_all, Nat.reduceSub, bit_zero, Option.map_some, Option.orElse_some]

theorem shflI (h : Hd) (mode : ShflMode) (n : BitVec 5) (m : MReg) (d a : VReg) :
    Statement (.shflI h mode n m d a) := by
  refine of_fields _ _ rfl ?_
  simp (disch := decide) only [parseFull, word_op, BitVec.reduceEq, BitVec.reduceToNat, Nat.reduceDiv, reduceIte,
    parseImm, Fields.i20, joinMask, word_d, word_a, word_b, word_c, word_m, hd_word, tb, pOf, mOf, wide, bit_high,
    bit_low, extract_high, extract_low, extract_all, Nat.reduceSub, bit_zero, shfl_of, Option.map_some,
    Option.orElse_some]

theorem movi (c : Ctl) (w64 : Bool) (d : VReg) (imm : BitVec 39) : Statement (.movi c w64 d imm) := by
  obtain ⟨pd, ta, wm⟩ := c
  refine of_fields _ _ rfl ?_
  simp (disch := decide) only [parseFull, reduceIte, parseMovi, tb, bit_high, extract_low, extract_all, Nat.reduceSub,
    bit_zero, joinReg, join39]

theorem pand (h : Hd) (na nb : Bool) (d a b : PReg) : Statement (.pand h na nb d a b) := by
  refine of_fields _ _ rfl ?_
  simp (disch := decide) only [parseFull, word_op, BitVec.reduceEq, BitVec.reduceToNat, Nat.reduceDiv, reduceIte,
    parseControl, word_d, word_a, word_b, word_c, word_m, hd_word, tb, pOf, mOf, wide, bit_high, bit_low,
    extract_high, extract_low, extract_all, Nat.reduceSub, bit_zero, Option.map_some, Option.orElse_some]

theorem por (h : Hd) (na nb : Bool) (d a b : PReg) : Statement (.por h na nb d a b) := by
  refine of_fields _ _ rfl ?_
  simp (disch := decide) only [parseFull, word_op, BitVec.reduceEq, BitVec.reduceToNat, Nat.reduceDiv, reduceIte,
    parseControl, word_d, word_a, word_b, word_c, word_m, hd_word, tb, pOf, mOf, wide, bit_high, bit_low,
    extract_high, extract_low, extract_all, Nat.reduceSub, bit_zero, Option.map_some, Option.orElse_some]

theorem pxor (h : Hd) (na nb : Bool) (d a b : PReg) : Statement (.pxor h na nb d a b) := by
  refine of_fields _ _ rfl ?_
  simp (disch := decide) only [parseFull, word_op, BitVec.reduceEq, BitVec.reduceToNat, Nat.reduceDiv, reduceIte,
    parseControl, word_d, word_a, word_b, word_c, word_m, hd_word, tb, pOf, mOf, wide, bit_high, bit_low,
    extract_high, extract_low, extract_all, Nat.reduceSub, bit_zero, Option.map_some, Option.orElse_some]

theorem pnot (h : Hd) (d a : PReg) : Statement (.pnot h d a) := by
  refine of_fields _ _ rfl ?_
  simp (disch := decide) only [parseFull, word_op, BitVec.reduceEq, BitVec.reduceToNat, Nat.reduceDiv, reduceIte,
    parseControl, word_d, word_a, word_b, word_c, word_m, hd_word, tb, pOf, mOf, wide, bit_high, bit_low,
    extract_high, extract_low, extract_all, Nat.reduceSub, bit_zero, Option.map_some, Option.orElse_some]

theorem pmov (h : Hd) (d a : PReg) : Statement (.pmov h d a) := by
  refine of_fields _ _ rfl ?_
  simp (disch := decide) only [parseFull, word_op, BitVec.reduceEq, BitVec.reduceToNat, Nat.reduceDiv, reduceIte,
    parseControl, word_d, word_a, word_b, word_c, word_m, hd_word, tb, pOf, mOf, wide, bit_high, bit_low,
    extract_high, extract_low, extract_all, Nat.reduceSub, bit_zero, Option.map_some, Option.orElse_some]

theorem psetm (h : Hd) (inv : Bool) (d : PReg) (a : MReg) : Statement (.psetm h inv d a) := by
  refine of_fields _ _ rfl ?_
  simp (disch := decide) only [parseFull, word_op, BitVec.reduceEq, BitVec.reduceToNat, Nat.reduceDiv, reduceIte,
    parseControl, word_d, word_a, word_b, word_c, word_m, hd_word, tb, pOf, mOf, wide, bit_high, bit_low,
    extract_high, extract_low, extract_all, Nat.reduceSub, bit_zero, Option.map_some, Option.orElse_some]

theorem mfromp (h : Hd) (mode : MfrompMode) (d : MReg) (a : PReg) : Statement (.mfromp h mode d a) := by
  refine of_fields _ _ rfl ?_
  simp (disch := decide) only [parseFull, word_op, BitVec.reduceEq, BitVec.reduceToNat, Nat.reduceDiv, reduceIte,
    parseControl, word_d, word_a, word_b, word_c, word_m, hd_word, tb, pOf, mOf, wide, bit_high, bit_low,
    extract_high, extract_low, extract_all, Nat.reduceSub, bit_zero, mfromp_of, Option.map_some, Option.orElse_some]

theorem mset (h : Hd) (op : MsetOp) (d a b : MReg) : Statement (.mset h op d a b) := by
  refine of_fields _ _ rfl ?_
  simp (disch := decide) only [parseFull, word_op, BitVec.reduceEq, BitVec.reduceToNat, Nat.reduceDiv, reduceIte,
    parseControl, word_d, word_a, word_b, word_c, word_m, hd_word, tb, pOf, mOf, wide, bit_high, bit_low,
    extract_high, extract_low, extract_all, Nat.reduceSub, bit_zero, mset_of, Option.map_some, Option.orElse_some]

theorem mget (h : Hd) (lt : Bool) (d : VReg) (a : MReg) : Statement (.mget h lt d a) := by
  refine of_fields _ _ rfl ?_
  simp (disch := decide) only [parseFull, word_op, BitVec.reduceEq, BitVec.reduceToNat, Nat.reduceDiv, reduceIte,
    parseControl, word_d, word_a, word_b, word_c, word_m, hd_word, tb, pOf, mOf, wide, bit_high, bit_low,
    extract_high, extract_low, extract_all, Nat.reduceSub, bit_zero, Option.map_some, Option.orElse_some]

theorem bra (h : Hd) (disp : BitVec 30) : Statement (.bra h disp) := by
  refine of_fields _ _ rfl ?_
  simp (disch := decide) only [parseFull, word_op, BitVec.reduceEq, BitVec.reduceToNat, Nat.reduceDiv, reduceIte,
    parseControl, Fields.i30, join30, word_d, word_a, word_b, word_c, word_m, hd_word, tb, pOf, mOf, wide, bit_high,
    bit_low, extract_high, extract_low, extract_all, Nat.reduceSub, bit_zero, Option.map_some, Option.orElse_some]

theorem brx (h : Hd) (a : VReg) : Statement (.brx h a) := by
  refine of_fields _ _ rfl ?_
  simp (disch := decide) only [parseFull, word_op, BitVec.reduceEq, BitVec.reduceToNat, Nat.reduceDiv, reduceIte,
    parseControl, word_d, word_a, word_b, word_c, word_m, hd_word, tb, pOf, mOf, wide, bit_high, bit_low,
    extract_high, extract_low, extract_all, Nat.reduceSub, bit_zero, Option.map_some, Option.orElse_some]

theorem call (h : Hd) (disp : BitVec 30) : Statement (.call h disp) := by
  refine of_fields _ _ rfl ?_
  simp (disch := decide) only [parseFull, word_op, BitVec.reduceEq, BitVec.reduceToNat, Nat.reduceDiv, reduceIte,
    parseControl, Fields.i30, join30, word_d, word_a, word_b, word_c, word_m, hd_word, tb, pOf, mOf, wide, bit_high,
    bit_low, extract_high, extract_low, extract_all, Nat.reduceSub, bit_zero, Option.map_some, Option.orElse_some]

theorem callx (h : Hd) (a : VReg) : Statement (.callx h a) := by
  refine of_fields _ _ rfl ?_
  simp (disch := decide) only [parseFull, word_op, BitVec.reduceEq, BitVec.reduceToNat, Nat.reduceDiv, reduceIte,
    parseControl, word_d, word_a, word_b, word_c, word_m, hd_word, tb, pOf, mOf, wide, bit_high, bit_low,
    extract_high, extract_low, extract_all, Nat.reduceSub, bit_zero, Option.map_some, Option.orElse_some]

theorem ret (h : Hd) : Statement (.ret h) := by
  refine of_fields _ _ rfl ?_
  simp (disch := decide) only [parseFull, word_op, BitVec.reduceEq, BitVec.reduceToNat, Nat.reduceDiv, reduceIte,
    parseControl, word_d, word_a, word_b, word_c, word_m, hd_word, tb, pOf, mOf, wide, bit_high, bit_low,
    extract_high, extract_low, extract_all, Nat.reduceSub, bit_zero, Option.map_some, Option.orElse_some]

theorem exit (h : Hd) : Statement (.exit h) := by
  refine of_fields _ _ rfl ?_
  simp (disch := decide) only [parseFull, word_op, BitVec.reduceEq, BitVec.reduceToNat, Nat.reduceDiv, reduceIte,
    parseControl, word_d, word_a, word_b, word_c, word_m, hd_word, tb, pOf, mOf, wide, bit_high, bit_low,
    extract_high, extract_low, extract_all, Nat.reduceSub, bit_zero, Option.map_some, Option.orElse_some]

theorem yield (h : Hd) : Statement (.yield h) := by
  refine of_fields _ _ rfl ?_
  simp (disch := decide) only [parseFull, word_op, BitVec.reduceEq, BitVec.reduceToNat, Nat.reduceDiv, reduceIte,
    parseControl, word_d, word_a, word_b, word_c, word_m, hd_word, tb, pOf, mOf, wide, bit_high, bit_low,
    extract_high, extract_low, extract_all, Nat.reduceSub, bit_zero, Option.map_some, Option.orElse_some]

theorem nop (h : Hd) : Statement (.nop h) := by
  refine of_fields _ _ rfl ?_
  simp (disch := decide) only [parseFull, word_op, BitVec.reduceEq, BitVec.reduceToNat, Nat.reduceDiv, reduceIte,
    parseControl, word_d, word_a, word_b, word_c, word_m, hd_word, tb, pOf, mOf, wide, bit_high, bit_low,
    extract_high, extract_low, extract_all, Nat.reduceSub, bit_zero, Option.map_some, Option.orElse_some]

theorem mjoin (h : Hd) (d : MReg) : Statement (.mjoin h d) := by
  refine of_fields _ _ rfl ?_
  simp (disch := decide) only [parseFull, word_op, BitVec.reduceEq, BitVec.reduceToNat, Nat.reduceDiv, reduceIte,
    parseControl, word_d, word_a, word_b, word_c, word_m, hd_word, tb, pOf, mOf, wide, bit_high, bit_low,
    extract_high, extract_low, extract_all, Nat.reduceSub, bit_zero, Option.map_some, Option.orElse_some]

theorem mleave (h : Hd) (d : MReg) : Statement (.mleave h d) := by
  refine of_fields _ _ rfl ?_
  simp (disch := decide) only [parseFull, word_op, BitVec.reduceEq, BitVec.reduceToNat, Nat.reduceDiv, reduceIte,
    parseControl, word_d, word_a, word_b, word_c, word_m, hd_word, tb, pOf, mOf, wide, bit_high, bit_low,
    extract_high, extract_low, extract_all, Nat.reduceSub, bit_zero, Option.map_some, Option.orElse_some]

theorem mwait (h : Hd) (a : MReg) : Statement (.mwait h a) := by
  refine of_fields _ _ rfl ?_
  simp (disch := decide) only [parseFull, word_op, BitVec.reduceEq, BitVec.reduceToNat, Nat.reduceDiv, reduceIte,
    parseControl, word_d, word_a, word_b, word_c, word_m, hd_word, tb, pOf, mOf, wide, bit_high, bit_low,
    extract_high, extract_low, extract_all, Nat.reduceSub, bit_zero, Option.map_some, Option.orElse_some]

theorem svc (h : Hd) (code : BitVec 10) : Statement (.svc h code) := by
  refine of_fields _ _ rfl ?_
  simp (disch := decide) only [parseFull, word_op, BitVec.reduceEq, BitVec.reduceToNat, Nat.reduceDiv, reduceIte,
    parseControl, word_d, word_a, word_b, word_c, word_m, hd_word, tb, pOf, mOf, wide, bit_high, bit_low,
    extract_high, extract_low, extract_all, Nat.reduceSub, bit_zero, Option.map_some, Option.orElse_some]

theorem brk (h : Hd) (code : BitVec 10) : Statement (.brk h code) := by
  refine of_fields _ _ rfl ?_
  simp (disch := decide) only [parseFull, word_op, BitVec.reduceEq, BitVec.reduceToNat, Nat.reduceDiv, reduceIte,
    parseControl, word_d, word_a, word_b, word_c, word_m, hd_word, tb, pOf, mOf, wide, bit_high, bit_low,
    extract_high, extract_low, extract_all, Nat.reduceSub, bit_zero, Option.map_some, Option.orElse_some]

theorem fadd (h : Hd) (rnd : Rnd) (ftz : Bool) (d a b : VReg) : Statement (.fadd h rnd ftz d a b) := by
  refine of_fields _ _ rfl ?_
  simp (disch := decide) only [parseFull, word_op, BitVec.reduceEq, BitVec.reduceToNat, Nat.reduceDiv, reduceIte,
    parseFloat, word_d, word_a, word_b, word_c, word_m, hd_word, tb, pOf, mOf, wide, bit_high, bit_low, extract_high,
    extract_low, extract_all, Nat.reduceSub, bit_zero, rnd_of, Option.map_some, Option.orElse_some]

theorem fsub (h : Hd) (rnd : Rnd) (ftz : Bool) (d a b : VReg) : Statement (.fsub h rnd ftz d a b) := by
  refine of_fields _ _ rfl ?_
  simp (disch := decide) only [parseFull, word_op, BitVec.reduceEq, BitVec.reduceToNat, Nat.reduceDiv, reduceIte,
    parseFloat, word_d, word_a, word_b, word_c, word_m, hd_word, tb, pOf, mOf, wide, bit_high, bit_low, extract_high,
    extract_low, extract_all, Nat.reduceSub, bit_zero, rnd_of, Option.map_some, Option.orElse_some]

theorem fmul (h : Hd) (rnd : Rnd) (ftz : Bool) (d a b : VReg) : Statement (.fmul h rnd ftz d a b) := by
  refine of_fields _ _ rfl ?_
  simp (disch := decide) only [parseFull, word_op, BitVec.reduceEq, BitVec.reduceToNat, Nat.reduceDiv, reduceIte,
    parseFloat, word_d, word_a, word_b, word_c, word_m, hd_word, tb, pOf, mOf, wide, bit_high, bit_low, extract_high,
    extract_low, extract_all, Nat.reduceSub, bit_zero, rnd_of, Option.map_some, Option.orElse_some]

theorem ffma (h : Hd) (rnd : Rnd) (ftz : Bool) (d a b c : VReg) : Statement (.ffma h rnd ftz d a b c) := by
  refine of_fields _ _ rfl ?_
  simp (disch := decide) only [parseFull, word_op, BitVec.reduceEq, BitVec.reduceToNat, Nat.reduceDiv, reduceIte,
    parseFloat, word_d, word_a, word_b, word_c, word_m, hd_word, tb, pOf, mOf, wide, bit_high, bit_low, extract_high,
    extract_low, extract_all, Nat.reduceSub, bit_zero, rnd_of, Option.map_some, Option.orElse_some]

theorem fmin (h : Hd) (ftz : Bool) (d a b : VReg) : Statement (.fmin h ftz d a b) := by
  refine of_fields _ _ rfl ?_
  simp (disch := decide) only [parseFull, word_op, BitVec.reduceEq, BitVec.reduceToNat, Nat.reduceDiv, reduceIte,
    parseFloat, word_d, word_a, word_b, word_c, word_m, hd_word, tb, pOf, mOf, wide, bit_high, bit_low, extract_high,
    extract_low, extract_all, Nat.reduceSub, bit_zero, Option.map_some, Option.orElse_some]

theorem fmax (h : Hd) (ftz : Bool) (d a b : VReg) : Statement (.fmax h ftz d a b) := by
  refine of_fields _ _ rfl ?_
  simp (disch := decide) only [parseFull, word_op, BitVec.reduceEq, BitVec.reduceToNat, Nat.reduceDiv, reduceIte,
    parseFloat, word_d, word_a, word_b, word_c, word_m, hd_word, tb, pOf, mOf, wide, bit_high, bit_low, extract_high,
    extract_low, extract_all, Nat.reduceSub, bit_zero, Option.map_some, Option.orElse_some]

theorem fcmp (h : Hd) (cond : FCond) (ty : FTy) (ftz : Bool) (d : PReg) (a b : VReg) :
    Statement (.fcmp h cond ty ftz d a b) := by
  refine of_fields _ _ rfl ?_
  simp (disch := decide) only [parseFull, word_op, BitVec.reduceEq, BitVec.reduceToNat, Nat.reduceDiv, reduceIte,
    parseFloat, word_d, word_a, word_b, word_c, word_m, hd_word, tb, pOf, mOf, wide, bit_high, bit_low, extract_high,
    extract_low, extract_all, Nat.reduceSub, bit_zero, fcond_of, cmp_of, class_of, Option.map_some,
    Option.orElse_some]

theorem fsel (h : Hd) (w64 : Bool) (d a b : VReg) (c : PReg) : Statement (.fsel h w64 d a b c) := by
  refine of_fields _ _ rfl ?_
  simp (disch := decide) only [parseFull, word_op, BitVec.reduceEq, BitVec.reduceToNat, Nat.reduceDiv, reduceIte,
    parseFloat, word_d, word_a, word_b, word_c, word_m, hd_word, tb, pOf, mOf, wide, bit_high, bit_low, extract_high,
    extract_low, extract_all, Nat.reduceSub, bit_zero, Option.map_some, Option.orElse_some]

theorem frnd (h : Hd) (rnd : Rnd) (ftz : Bool) (d a : VReg) : Statement (.frnd h rnd ftz d a) := by
  refine of_fields _ _ rfl ?_
  simp (disch := decide) only [parseFull, word_op, BitVec.reduceEq, BitVec.reduceToNat, Nat.reduceDiv, reduceIte,
    parseFloat, word_d, word_a, word_b, word_c, word_m, hd_word, tb, pOf, mOf, wide, bit_high, bit_low, extract_high,
    extract_low, extract_all, Nat.reduceSub, bit_zero, rnd_of, Option.map_some, Option.orElse_some]

theorem fclass (h : Hd) (ty : FTy) (set : BitVec 10) (d : PReg) (a : VReg) : Statement (.fclass h ty set d a) := by
  refine of_fields _ _ rfl ?_
  simp (disch := decide) only [parseFull, word_op, BitVec.reduceEq, BitVec.reduceToNat, Nat.reduceDiv, reduceIte,
    parseFloat, word_d, word_a, word_b, word_c, word_m, hd_word, tb, pOf, mOf, wide, bit_high, bit_low, extract_high,
    extract_low, extract_all, Nat.reduceSub, bit_zero, cmp_of, class_of, Option.map_some, Option.orElse_some]

theorem xins (h : Hd) (rnd : Rnd) (ftz : Bool) (d a b : VReg) : Statement (.xins h rnd ftz d a b) := by
  refine of_fields _ _ rfl ?_
  simp (disch := decide) only [parseFull, word_op, BitVec.reduceEq, BitVec.reduceToNat, Nat.reduceDiv, reduceIte,
    parseFloat, word_d, word_a, word_b, word_c, word_m, hd_word, tb, pOf, mOf, wide, bit_high, bit_low, extract_high,
    extract_low, extract_all, Nat.reduceSub, bit_zero, rnd_of, Option.map_some, Option.orElse_some]

theorem xget (h : Hd) (man : Bool) (d a : VReg) : Statement (.xget h man d a) := by
  refine of_fields _ _ rfl ?_
  simp (disch := decide) only [parseFull, word_op, BitVec.reduceEq, BitVec.reduceToNat, Nat.reduceDiv, reduceIte,
    parseFloat, word_d, word_a, word_b, word_c, word_m, hd_word, tb, pOf, mOf, wide, bit_high, bit_low, extract_high,
    extract_low, extract_all, Nat.reduceSub, bit_zero, Option.map_some, Option.orElse_some]

theorem frcp (h : Hd) (rnd : Rnd) (ftz : Bool) (d a : VReg) : Statement (.frcp h rnd ftz d a) := by
  refine of_fields _ _ rfl ?_
  simp (disch := decide) only [parseFull, word_op, BitVec.reduceEq, BitVec.reduceToNat, Nat.reduceDiv, reduceIte,
    parseFloat, word_d, word_a, word_b, word_c, word_m, hd_word, tb, pOf, mOf, wide, bit_high, bit_low, extract_high,
    extract_low, extract_all, Nat.reduceSub, bit_zero, rnd_of, Option.map_some, Option.orElse_some]

theorem frsq (h : Hd) (ftz : Bool) (d a : VReg) : Statement (.frsq h ftz d a) := by
  refine of_fields _ _ rfl ?_
  simp (disch := decide) only [parseFull, word_op, BitVec.reduceEq, BitVec.reduceToNat, Nat.reduceDiv, reduceIte,
    parseFloat, word_d, word_a, word_b, word_c, word_m, hd_word, tb, pOf, mOf, wide, bit_high, bit_low, extract_high,
    extract_low, extract_all, Nat.reduceSub, bit_zero, Option.map_some, Option.orElse_some]

theorem fsqrt (h : Hd) (rnd : Rnd) (ftz : Bool) (d a : VReg) : Statement (.fsqrt h rnd ftz d a) := by
  refine of_fields _ _ rfl ?_
  simp (disch := decide) only [parseFull, word_op, BitVec.reduceEq, BitVec.reduceToNat, Nat.reduceDiv, reduceIte,
    parseFloat, word_d, word_a, word_b, word_c, word_m, hd_word, tb, pOf, mOf, wide, bit_high, bit_low, extract_high,
    extract_low, extract_all, Nat.reduceSub, bit_zero, rnd_of, Option.map_some, Option.orElse_some]

theorem fexp2 (h : Hd) (ftz : Bool) (d a : VReg) : Statement (.fexp2 h ftz d a) := by
  refine of_fields _ _ rfl ?_
  simp (disch := decide) only [parseFull, word_op, BitVec.reduceEq, BitVec.reduceToNat, Nat.reduceDiv, reduceIte,
    parseFloat, word_d, word_a, word_b, word_c, word_m, hd_word, tb, pOf, mOf, wide, bit_high, bit_low, extract_high,
    extract_low, extract_all, Nat.reduceSub, bit_zero, Option.map_some, Option.orElse_some]

theorem flog2 (h : Hd) (ftz : Bool) (d a : VReg) : Statement (.flog2 h ftz d a) := by
  refine of_fields _ _ rfl ?_
  simp (disch := decide) only [parseFull, word_op, BitVec.reduceEq, BitVec.reduceToNat, Nat.reduceDiv, reduceIte,
    parseFloat, word_d, word_a, word_b, word_c, word_m, hd_word, tb, pOf, mOf, wide, bit_high, bit_low, extract_high,
    extract_low, extract_all, Nat.reduceSub, bit_zero, Option.map_some, Option.orElse_some]

theorem fsinp (h : Hd) (ftz : Bool) (d a : VReg) : Statement (.fsinp h ftz d a) := by
  refine of_fields _ _ rfl ?_
  simp (disch := decide) only [parseFull, word_op, BitVec.reduceEq, BitVec.reduceToNat, Nat.reduceDiv, reduceIte,
    parseFloat, word_d, word_a, word_b, word_c, word_m, hd_word, tb, pOf, mOf, wide, bit_high, bit_low, extract_high,
    extract_low, extract_all, Nat.reduceSub, bit_zero, Option.map_some, Option.orElse_some]

theorem fcosp (h : Hd) (ftz : Bool) (d a : VReg) : Statement (.fcosp h ftz d a) := by
  refine of_fields _ _ rfl ?_
  simp (disch := decide) only [parseFull, word_op, BitVec.reduceEq, BitVec.reduceToNat, Nat.reduceDiv, reduceIte,
    parseFloat, word_d, word_a, word_b, word_c, word_m, hd_word, tb, pOf, mOf, wide, bit_high, bit_low, extract_high,
    extract_low, extract_all, Nat.reduceSub, bit_zero, Option.map_some, Option.orElse_some]

theorem hadd2 (h : Hd) (bf : Bool) (rnd : Rnd) (d a b : VReg) : Statement (.hadd2 h bf rnd d a b) := by
  refine of_fields _ _ rfl ?_
  simp (disch := decide) only [parseFull, word_op, BitVec.reduceEq, BitVec.reduceToNat, Nat.reduceDiv, reduceIte,
    parseFloat, word_d, word_a, word_b, word_c, word_m, hd_word, tb, pOf, mOf, wide, bit_high, bit_low, extract_high,
    extract_low, extract_all, Nat.reduceSub, bit_zero, rnd_of, Option.map_some, Option.orElse_some]

theorem hmul2 (h : Hd) (bf : Bool) (rnd : Rnd) (d a b : VReg) : Statement (.hmul2 h bf rnd d a b) := by
  refine of_fields _ _ rfl ?_
  simp (disch := decide) only [parseFull, word_op, BitVec.reduceEq, BitVec.reduceToNat, Nat.reduceDiv, reduceIte,
    parseFloat, word_d, word_a, word_b, word_c, word_m, hd_word, tb, pOf, mOf, wide, bit_high, bit_low, extract_high,
    extract_low, extract_all, Nat.reduceSub, bit_zero, rnd_of, Option.map_some, Option.orElse_some]

theorem hfma2 (h : Hd) (bf : Bool) (rnd : Rnd) (d a b c : VReg) : Statement (.hfma2 h bf rnd d a b c) := by
  refine of_fields _ _ rfl ?_
  simp (disch := decide) only [parseFull, word_op, BitVec.reduceEq, BitVec.reduceToNat, Nat.reduceDiv, reduceIte,
    parseFloat, word_d, word_a, word_b, word_c, word_m, hd_word, tb, pOf, mOf, wide, bit_high, bit_low, extract_high,
    extract_low, extract_all, Nat.reduceSub, bit_zero, rnd_of, Option.map_some, Option.orElse_some]

theorem dadd (h : Hd) (rnd : Rnd) (d a b : VReg) : Statement (.dadd h rnd d a b) := by
  refine of_fields _ _ rfl ?_
  simp (disch := decide) only [parseFull, word_op, BitVec.reduceEq, BitVec.reduceToNat, Nat.reduceDiv, reduceIte,
    parseFloat, word_d, word_a, word_b, word_c, word_m, hd_word, tb, pOf, mOf, wide, bit_high, bit_low, extract_high,
    extract_low, extract_all, Nat.reduceSub, bit_zero, rnd_of, Option.map_some, Option.orElse_some]

theorem dmul (h : Hd) (rnd : Rnd) (d a b : VReg) : Statement (.dmul h rnd d a b) := by
  refine of_fields _ _ rfl ?_
  simp (disch := decide) only [parseFull, word_op, BitVec.reduceEq, BitVec.reduceToNat, Nat.reduceDiv, reduceIte,
    parseFloat, word_d, word_a, word_b, word_c, word_m, hd_word, tb, pOf, mOf, wide, bit_high, bit_low, extract_high,
    extract_low, extract_all, Nat.reduceSub, bit_zero, rnd_of, Option.map_some, Option.orElse_some]

theorem dfma (h : Hd) (rnd : Rnd) (d a b c : VReg) : Statement (.dfma h rnd d a b c) := by
  refine of_fields _ _ rfl ?_
  simp (disch := decide) only [parseFull, word_op, BitVec.reduceEq, BitVec.reduceToNat, Nat.reduceDiv, reduceIte,
    parseFloat, word_d, word_a, word_b, word_c, word_m, hd_word, tb, pOf, mOf, wide, bit_high, bit_low, extract_high,
    extract_low, extract_all, Nat.reduceSub, bit_zero, rnd_of, Option.map_some, Option.orElse_some]

theorem faddI (h : Hd) (d a : VReg) (imm : BitVec 20) : Statement (.faddI h d a imm) := by
  refine of_fields _ _ rfl ?_
  simp (disch := decide) only [parseFull, word_op, BitVec.reduceEq, BitVec.reduceToNat, Nat.reduceDiv, reduceIte,
    parseFloat, Fields.i20, join20, word_d, word_a, word_b, word_c, word_m, hd_word, tb, pOf, mOf, wide, bit_high,
    bit_low, extract_high, extract_low, extract_all, Nat.reduceSub, bit_zero, Option.map_some, Option.orElse_some]

theorem fmulI (h : Hd) (d a : VReg) (imm : BitVec 20) : Statement (.fmulI h d a imm) := by
  refine of_fields _ _ rfl ?_
  simp (disch := decide) only [parseFull, word_op, BitVec.reduceEq, BitVec.reduceToNat, Nat.reduceDiv, reduceIte,
    parseFloat, Fields.i20, join20, word_d, word_a, word_b, word_c, word_m, hd_word, tb, pOf, mOf, wide, bit_high,
    bit_low, extract_high, extract_low, extract_all, Nat.reduceSub, bit_zero, Option.map_some, Option.orElse_some]

theorem fminI (h : Hd) (d a : VReg) (imm : BitVec 20) : Statement (.fminI h d a imm) := by
  refine of_fields _ _ rfl ?_
  simp (disch := decide) only [parseFull, word_op, BitVec.reduceEq, BitVec.reduceToNat, Nat.reduceDiv, reduceIte,
    parseFloat, Fields.i20, join20, word_d, word_a, word_b, word_c, word_m, hd_word, tb, pOf, mOf, wide, bit_high,
    bit_low, extract_high, extract_low, extract_all, Nat.reduceSub, bit_zero, Option.map_some, Option.orElse_some]

theorem fmaxI (h : Hd) (d a : VReg) (imm : BitVec 20) : Statement (.fmaxI h d a imm) := by
  refine of_fields _ _ rfl ?_
  simp (disch := decide) only [parseFull, word_op, BitVec.reduceEq, BitVec.reduceToNat, Nat.reduceDiv, reduceIte,
    parseFloat, Fields.i20, join20, word_d, word_a, word_b, word_c, word_m, hd_word, tb, pOf, mOf, wide, bit_high,
    bit_low, extract_high, extract_low, extract_all, Nat.reduceSub, bit_zero, Option.map_some, Option.orElse_some]

theorem cvt (h : Hd) (dst src : ElemTy) (rnd : Rnd5) (sat ftz : Bool) (d a : VReg) :
    Statement (.cvt h dst src rnd sat ftz d a) := by
  refine of_fields _ _ rfl ?_
  simp (disch := decide) only [parseFull, word_op, BitVec.reduceEq, BitVec.reduceToNat, Nat.reduceDiv, reduceIte,
    parseConvert, word_d, word_a, word_b, word_c, word_m, hd_word, tb, pOf, mOf, wide, bit_high, bit_low,
    extract_high, extract_low, extract_all, Nat.reduceSub, bit_zero, elem_of, rnd5_of, Option.map_some,
    Option.orElse_some]

theorem qcvt (h : Hd) (dst src : ElemTy) (rnd : Rnd) (sat : Bool) (d a b : VReg) :
    Statement (.qcvt h dst src rnd sat d a b) := by
  refine of_fields _ _ rfl ?_
  simp (disch := decide) only [parseFull, word_op, BitVec.reduceEq, BitVec.reduceToNat, Nat.reduceDiv, reduceIte,
    parseConvert, word_d, word_a, word_b, word_c, word_m, hd_word, tb, pOf, mOf, wide, bit_high, bit_low,
    extract_high, extract_low, extract_all, Nat.reduceSub, bit_zero, elem_of, rnd_of, Option.map_some,
    Option.orElse_some]

theorem dqcvt (h : Hd) (dst src : ElemTy) (rnd : Rnd) (sat : Bool) (d a b : VReg) :
    Statement (.dqcvt h dst src rnd sat d a b) := by
  refine of_fields _ _ rfl ?_
  simp (disch := decide) only [parseFull, word_op, BitVec.reduceEq, BitVec.reduceToNat, Nat.reduceDiv, reduceIte,
    parseConvert, word_d, word_a, word_b, word_c, word_m, hd_word, tb, pOf, mOf, wide, bit_high, bit_low,
    extract_high, extract_low, extract_all, Nat.reduceSub, bit_zero, elem_of, rnd_of, Option.map_some,
    Option.orElse_some]

theorem ldmx (h : Hd) (fmt : MxFmt) (mq : Mq) (d a b : VReg) : Statement (.ldmx h fmt mq d a b) := by
  refine of_fields _ _ rfl ?_
  simp (disch := decide) only [parseFull, word_op, BitVec.reduceEq, BitVec.reduceToNat, Nat.reduceDiv, reduceIte,
    parseConvert, word_d, word_a, word_b, word_c, word_m, hd_word, tb, pOf, mOf, wide, bit_high, bit_low,
    extract_high, extract_low, extract_all, Nat.reduceSub, bit_zero, mx_of, mq_of, Option.map_some,
    Option.orElse_some]

theorem stmx (h : Hd) (fmt : MxFmt) (mq : Mq) (d a b : VReg) : Statement (.stmx h fmt mq d a b) := by
  refine of_fields _ _ rfl ?_
  simp (disch := decide) only [parseFull, word_op, BitVec.reduceEq, BitVec.reduceToNat, Nat.reduceDiv, reduceIte,
    parseConvert, word_d, word_a, word_b, word_c, word_m, hd_word, tb, pOf, mOf, wide, bit_high, bit_low,
    extract_high, extract_low, extract_all, Nat.reduceSub, bit_zero, mx_of, mq_of, Option.map_some,
    Option.orElse_some]

theorem pairedWord (c : Ctl) (h0 h1 : Half) : Statement (.pairedWord c h0 h1) := by
  intro w hw
  cases hw
  obtain ⟨pd, ta, wm⟩ := c
  simp (disch := decide) only [parseWord, bit_high, bit_low, extract_high, extract_low, extract_all, Nat.reduceSub,
    half_pack]
  rfl

theorem mma (h : Hd) (fmt : ElemTy) (mx reuse : Bool) (t : Tile) (a b c : VReg) :
    Statement (.mma h fmt mx reuse t a b c) := by
  refine of_fields _ _ rfl ?_
  simp (disch := decide) only [parseFull, word_op, BitVec.reduceEq, BitVec.reduceToNat, Nat.reduceDiv, reduceIte,
    parseMatrix, word_d, word_a, word_b, word_c, word_m, hd_word, tb, pOf, mOf, wide, bit_high, bit_low,
    extract_high, extract_low, extract_all, Nat.reduceSub, bit_zero, elem_of, Option.map_some, Option.orElse_some]

theorem acczero (h : Hd) (t : Tile) : Statement (.acczero h t) := by
  refine of_fields _ _ rfl ?_
  simp (disch := decide) only [parseFull, word_op, BitVec.reduceEq, BitVec.reduceToNat, Nat.reduceDiv, reduceIte,
    parseMatrix, word_d, word_a, word_b, word_c, word_m, hd_word, tb, pOf, mOf, wide, bit_high, bit_low,
    extract_high, extract_low, extract_all, Nat.reduceSub, bit_zero, Option.map_some, Option.orElse_some]

theorem accld (h : Hd) (fmt : AccFmt) (mq : Mq) (t : Tile) (a : VReg) : Statement (.accld h fmt mq t a) := by
  refine of_fields _ _ rfl ?_
  simp (disch := decide) only [parseFull, word_op, BitVec.reduceEq, BitVec.reduceToNat, Nat.reduceDiv, reduceIte,
    parseMatrix, word_d, word_a, word_b, word_c, word_m, hd_word, tb, pOf, mOf, wide, bit_high, bit_low,
    extract_high, extract_low, extract_all, Nat.reduceSub, bit_zero, acc_of, mq_of, Option.map_some,
    Option.orElse_some]

theorem accst (h : Hd) (fmt : AccFmt) (mq : Mq) (t : Tile) (a : VReg) : Statement (.accst h fmt mq t a) := by
  refine of_fields _ _ rfl ?_
  simp (disch := decide) only [parseFull, word_op, BitVec.reduceEq, BitVec.reduceToNat, Nat.reduceDiv, reduceIte,
    parseMatrix, word_d, word_a, word_b, word_c, word_m, hd_word, tb, pOf, mOf, wide, bit_high, bit_low,
    extract_high, extract_low, extract_all, Nat.reduceSub, bit_zero, acc_of, mq_of, Option.map_some,
    Option.orElse_some]

theorem accchk (h : Hd) (d : VReg) (t : Tile) : Statement (.accchk h d t) := by
  refine of_fields _ _ rfl ?_
  simp (disch := decide) only [parseFull, word_op, BitVec.reduceEq, BitVec.reduceToNat, Nat.reduceDiv, reduceIte,
    parseMatrix, word_d, word_a, word_b, word_c, word_m, hd_word, tb, pOf, mOf, wide, bit_high, bit_low,
    extract_high, extract_low, extract_all, Nat.reduceSub, bit_zero, Option.map_some, Option.orElse_some]

theorem ld (h : Hd) (sz : MSize) (mq : Mq) (d a : VReg) (off : BitVec 10) : Statement (.ld h sz mq d a off) := by
  refine of_fields _ _ rfl ?_
  simp (disch := decide) only [parseFull, word_op, BitVec.reduceEq, BitVec.reduceToNat, Nat.reduceDiv, reduceIte,
    parseMemory, word_d, word_a, word_b, word_c, word_m, hd_word, tb, pOf, mOf, wide, bit_high, bit_low,
    extract_high, extract_low, extract_all, Nat.reduceSub, bit_zero, size_of, mq_of, Option.map_some,
    Option.orElse_some]

theorem st (h : Hd) (sz : MSize) (mq : Mq) (d a : VReg) (off : BitVec 10) : Statement (.st h sz mq d a off) := by
  refine of_fields _ _ rfl ?_
  simp (disch := decide) only [parseFull, word_op, BitVec.reduceEq, BitVec.reduceToNat, Nat.reduceDiv, reduceIte,
    parseMemory, word_d, word_a, word_b, word_c, word_m, hd_word, tb, pOf, mOf, wide, bit_high, bit_low,
    extract_high, extract_low, extract_all, Nat.reduceSub, bit_zero, size_of, mq_of, Option.map_some,
    Option.orElse_some]

theorem ldg (h : Hd) (sz : MSize) (mq : Mq) (d : VReg) (k : KReg) (b : VReg) : Statement (.ldg h sz mq d k b) := by
  refine of_fields _ _ rfl ?_
  simp (disch := decide) only [parseFull, word_op, BitVec.reduceEq, BitVec.reduceToNat, Nat.reduceDiv, reduceIte,
    parseMemory, word_d, word_a, word_b, word_c, word_m, hd_word, tb, pOf, mOf, wide, bit_high, bit_low,
    extract_high, extract_low, extract_all, Nat.reduceSub, bit_zero, size_of, mq_of, Option.map_some,
    Option.orElse_some]

theorem stg (h : Hd) (sz : MSize) (mq : Mq) (d : VReg) (k : KReg) (b : VReg) : Statement (.stg h sz mq d k b) := by
  refine of_fields _ _ rfl ?_
  simp (disch := decide) only [parseFull, word_op, BitVec.reduceEq, BitVec.reduceToNat, Nat.reduceDiv, reduceIte,
    parseMemory, word_d, word_a, word_b, word_c, word_m, hd_word, tb, pOf, mOf, wide, bit_high, bit_low,
    extract_high, extract_low, extract_all, Nat.reduceSub, bit_zero, size_of, mq_of, Option.map_some,
    Option.orElse_some]

theorem fence (h : Hd) (mq : Mq) : Statement (.fence h mq) := by
  refine of_fields _ _ rfl ?_
  simp (disch := decide) only [parseFull, word_op, BitVec.reduceEq, BitVec.reduceToNat, Nat.reduceDiv, reduceIte,
    parseMemory, word_d, word_a, word_b, word_c, word_m, hd_word, tb, pOf, mOf, wide, bit_high, bit_low,
    extract_high, extract_low, extract_all, Nat.reduceSub, bit_zero, mq_of, Option.map_some, Option.orElse_some]

theorem prefetch (h : Hd) (lvl : PfLevel) (a : VReg) (off : BitVec 10) : Statement (.prefetch h lvl a off) := by
  refine of_fields _ _ rfl ?_
  simp (disch := decide) only [parseFull, word_op, BitVec.reduceEq, BitVec.reduceToNat, Nat.reduceDiv, reduceIte,
    parseMemory, word_d, word_a, word_b, word_c, word_m, hd_word, tb, pOf, mOf, wide, bit_high, bit_low,
    extract_high, extract_low, extract_all, Nat.reduceSub, bit_zero, pf_of, Option.map_some, Option.orElse_some]

theorem cachectl (h : Hd) (op : CacheOp) (a : VReg) : Statement (.cachectl h op a) := by
  refine of_fields _ _ rfl ?_
  simp (disch := decide) only [parseFull, word_op, BitVec.reduceEq, BitVec.reduceToNat, Nat.reduceDiv, reduceIte,
    parseMemory, word_d, word_a, word_b, word_c, word_m, hd_word, tb, pOf, mOf, wide, bit_high, bit_low,
    extract_high, extract_low, extract_all, Nat.reduceSub, bit_zero, cache_of, Option.map_some, Option.orElse_some]

theorem salloc (h : Hd) (quad dflt : Bool) (d a b : VReg) : Statement (.salloc h quad dflt d a b) := by
  refine of_fields _ _ rfl ?_
  simp (disch := decide) only [parseFull, word_op, BitVec.reduceEq, BitVec.reduceToNat, Nat.reduceDiv, reduceIte,
    parseMemory, word_d, word_a, word_b, word_c, word_m, hd_word, tb, pOf, mOf, wide, bit_high, bit_low,
    extract_high, extract_low, extract_all, Nat.reduceSub, bit_zero, Option.map_some, Option.orElse_some]

theorem sfree (h : Hd) (a : VReg) : Statement (.sfree h a) := by
  refine of_fields _ _ rfl ?_
  simp (disch := decide) only [parseFull, word_op, BitVec.reduceEq, BitVec.reduceToNat, Nat.reduceDiv, reduceIte,
    parseMemory, word_d, word_a, word_b, word_c, word_m, hd_word, tb, pOf, mOf, wide, bit_high, bit_low,
    extract_high, extract_low, extract_all, Nat.reduceSub, bit_zero, Option.map_some, Option.orElse_some]

theorem srenew (h : Hd) (a b : VReg) : Statement (.srenew h a b) := by
  refine of_fields _ _ rfl ?_
  simp (disch := decide) only [parseFull, word_op, BitVec.reduceEq, BitVec.reduceToNat, Nat.reduceDiv, reduceIte,
    parseMemory, word_d, word_a, word_b, word_c, word_m, hd_word, tb, pOf, mOf, wide, bit_high, bit_low,
    extract_high, extract_low, extract_all, Nat.reduceSub, bit_zero, Option.map_some, Option.orElse_some]

theorem poison (h : Hd) (a : VReg) : Statement (.poison h a) := by
  refine of_fields _ _ rfl ?_
  simp (disch := decide) only [parseFull, word_op, BitVec.reduceEq, BitVec.reduceToNat, Nat.reduceDiv, reduceIte,
    parseMemory, word_d, word_a, word_b, word_c, word_m, hd_word, tb, pOf, mOf, wide, bit_high, bit_low,
    extract_high, extract_low, extract_all, Nat.reduceSub, bit_zero, Option.map_some, Option.orElse_some]

theorem winpub (h : Hd) : Statement (.winpub h) := by
  refine of_fields _ _ rfl ?_
  simp (disch := decide) only [parseFull, word_op, BitVec.reduceEq, BitVec.reduceToNat, Nat.reduceDiv, reduceIte,
    parseMemory, word_d, word_a, word_b, word_c, word_m, hd_word, tb, pOf, mOf, wide, bit_high, bit_low,
    extract_high, extract_low, extract_all, Nat.reduceSub, bit_zero, Option.map_some, Option.orElse_some]

theorem winacq (h : Hd) : Statement (.winacq h) := by
  refine of_fields _ _ rfl ?_
  simp (disch := decide) only [parseFull, word_op, BitVec.reduceEq, BitVec.reduceToNat, Nat.reduceDiv, reduceIte,
    parseMemory, word_d, word_a, word_b, word_c, word_m, hd_word, tb, pOf, mOf, wide, bit_high, bit_low,
    extract_high, extract_low, extract_all, Nat.reduceSub, bit_zero, Option.map_some, Option.orElse_some]

theorem tcommit (h : Hd) : Statement (.tcommit h) := by
  refine of_fields _ _ rfl ?_
  simp (disch := decide) only [parseFull, word_op, BitVec.reduceEq, BitVec.reduceToNat, Nat.reduceDiv, reduceIte,
    parseMemory, word_d, word_a, word_b, word_c, word_m, hd_word, tb, pOf, mOf, wide, bit_high, bit_low,
    extract_high, extract_low, extract_all, Nat.reduceSub, bit_zero, Option.map_some, Option.orElse_some]

theorem tcopy (h : Hd) (bar : Bool) (d a b : VReg) : Statement (.tcopy h bar d a b) := by
  refine of_fields _ _ rfl ?_
  simp (disch := decide) only [parseFull, word_op, BitVec.reduceEq, BitVec.reduceToNat, Nat.reduceDiv, reduceIte,
    parseMemory, word_d, word_a, word_b, word_c, word_m, hd_word, tb, pOf, mOf, wide, bit_high, bit_low,
    extract_high, extract_low, extract_all, Nat.reduceSub, bit_zero, Option.map_some, Option.orElse_some]

theorem tcopyq (h : Hd) (bar : Bool) (d a b : VReg) : Statement (.tcopyq h bar d a b) := by
  refine of_fields _ _ rfl ?_
  simp (disch := decide) only [parseFull, word_op, BitVec.reduceEq, BitVec.reduceToNat, Nat.reduceDiv, reduceIte,
    parseMemory, word_d, word_a, word_b, word_c, word_m, hd_word, tb, pOf, mOf, wide, bit_high, bit_low,
    extract_high, extract_low, extract_all, Nat.reduceSub, bit_zero, Option.map_some, Option.orElse_some]

theorem tmcast (h : Hd) (bar : Bool) (d a b : VReg) : Statement (.tmcast h bar d a b) := by
  refine of_fields _ _ rfl ?_
  simp (disch := decide) only [parseFull, word_op, BitVec.reduceEq, BitVec.reduceToNat, Nat.reduceDiv, reduceIte,
    parseMemory, word_d, word_a, word_b, word_c, word_m, hd_word, tb, pOf, mOf, wide, bit_high, bit_low,
    extract_high, extract_low, extract_all, Nat.reduceSub, bit_zero, Option.map_some, Option.orElse_some]

theorem tcancel (h : Hd) (a : VReg) : Statement (.tcancel h a) := by
  refine of_fields _ _ rfl ?_
  simp (disch := decide) only [parseFull, word_op, BitVec.reduceEq, BitVec.reduceToNat, Nat.reduceDiv, reduceIte,
    parseMemory, word_d, word_a, word_b, word_c, word_m, hd_word, tb, pOf, mOf, wide, bit_high, bit_low,
    extract_high, extract_low, extract_all, Nat.reduceSub, bit_zero, Option.map_some, Option.orElse_some]

theorem atomAdd (h : Hd) (ty : AtomTy) (mq : Mq) (d a b : VReg) : Statement (.atomAdd h ty mq d a b) := by
  refine of_fields _ _ rfl ?_
  simp (disch := decide) only [parseFull, word_op, BitVec.reduceEq, BitVec.reduceToNat, Nat.reduceDiv, reduceIte,
    parseAtomic, parseMemory, Option.orElse_none, word_d, word_a, word_b, word_c, word_m, hd_word, tb, pOf, mOf,
    wide, bit_high, bit_low, extract_high, extract_low, extract_all, Nat.reduceSub, bit_zero, atom_of, mq_of,
    Option.map_some, Option.orElse_some]

theorem atomSub (h : Hd) (ty : AtomTy) (mq : Mq) (d a b : VReg) : Statement (.atomSub h ty mq d a b) := by
  refine of_fields _ _ rfl ?_
  simp (disch := decide) only [parseFull, word_op, BitVec.reduceEq, BitVec.reduceToNat, Nat.reduceDiv, reduceIte,
    parseAtomic, parseMemory, Option.orElse_none, word_d, word_a, word_b, word_c, word_m, hd_word, tb, pOf, mOf,
    wide, bit_high, bit_low, extract_high, extract_low, extract_all, Nat.reduceSub, bit_zero, atom_of, mq_of,
    Option.map_some, Option.orElse_some]

theorem atomMin (h : Hd) (ty : AtomTy) (mq : Mq) (d a b : VReg) : Statement (.atomMin h ty mq d a b) := by
  refine of_fields _ _ rfl ?_
  simp (disch := decide) only [parseFull, word_op, BitVec.reduceEq, BitVec.reduceToNat, Nat.reduceDiv, reduceIte,
    parseAtomic, parseMemory, Option.orElse_none, word_d, word_a, word_b, word_c, word_m, hd_word, tb, pOf, mOf,
    wide, bit_high, bit_low, extract_high, extract_low, extract_all, Nat.reduceSub, bit_zero, atom_of, mq_of,
    Option.map_some, Option.orElse_some]

theorem atomMax (h : Hd) (ty : AtomTy) (mq : Mq) (d a b : VReg) : Statement (.atomMax h ty mq d a b) := by
  refine of_fields _ _ rfl ?_
  simp (disch := decide) only [parseFull, word_op, BitVec.reduceEq, BitVec.reduceToNat, Nat.reduceDiv, reduceIte,
    parseAtomic, parseMemory, Option.orElse_none, word_d, word_a, word_b, word_c, word_m, hd_word, tb, pOf, mOf,
    wide, bit_high, bit_low, extract_high, extract_low, extract_all, Nat.reduceSub, bit_zero, atom_of, mq_of,
    Option.map_some, Option.orElse_some]

theorem atomAnd (h : Hd) (ty : AtomTy) (mq : Mq) (d a b : VReg) : Statement (.atomAnd h ty mq d a b) := by
  refine of_fields _ _ rfl ?_
  simp (disch := decide) only [parseFull, word_op, BitVec.reduceEq, BitVec.reduceToNat, Nat.reduceDiv, reduceIte,
    parseAtomic, parseMemory, Option.orElse_none, word_d, word_a, word_b, word_c, word_m, hd_word, tb, pOf, mOf,
    wide, bit_high, bit_low, extract_high, extract_low, extract_all, Nat.reduceSub, bit_zero, atom_of, mq_of,
    Option.map_some, Option.orElse_some]

theorem atomOr (h : Hd) (ty : AtomTy) (mq : Mq) (d a b : VReg) : Statement (.atomOr h ty mq d a b) := by
  refine of_fields _ _ rfl ?_
  simp (disch := decide) only [parseFull, word_op, BitVec.reduceEq, BitVec.reduceToNat, Nat.reduceDiv, reduceIte,
    parseAtomic, parseMemory, Option.orElse_none, word_d, word_a, word_b, word_c, word_m, hd_word, tb, pOf, mOf,
    wide, bit_high, bit_low, extract_high, extract_low, extract_all, Nat.reduceSub, bit_zero, atom_of, mq_of,
    Option.map_some, Option.orElse_some]

theorem atomXor (h : Hd) (ty : AtomTy) (mq : Mq) (d a b : VReg) : Statement (.atomXor h ty mq d a b) := by
  refine of_fields _ _ rfl ?_
  simp (disch := decide) only [parseFull, word_op, BitVec.reduceEq, BitVec.reduceToNat, Nat.reduceDiv, reduceIte,
    parseAtomic, parseMemory, Option.orElse_none, word_d, word_a, word_b, word_c, word_m, hd_word, tb, pOf, mOf,
    wide, bit_high, bit_low, extract_high, extract_low, extract_all, Nat.reduceSub, bit_zero, atom_of, mq_of,
    Option.map_some, Option.orElse_some]

theorem atomExch (h : Hd) (ty : AtomTy) (mq : Mq) (d a b : VReg) : Statement (.atomExch h ty mq d a b) := by
  refine of_fields _ _ rfl ?_
  simp (disch := decide) only [parseFull, word_op, BitVec.reduceEq, BitVec.reduceToNat, Nat.reduceDiv, reduceIte,
    parseAtomic, parseMemory, Option.orElse_none, word_d, word_a, word_b, word_c, word_m, hd_word, tb, pOf, mOf,
    wide, bit_high, bit_low, extract_high, extract_low, extract_all, Nat.reduceSub, bit_zero, atom_of, mq_of,
    Option.map_some, Option.orElse_some]

theorem atomCas (h : Hd) (ty : AtomTy) (mq : Mq) (d a b : VReg) : Statement (.atomCas h ty mq d a b) := by
  refine of_fields _ _ rfl ?_
  simp (disch := decide) only [parseFull, word_op, BitVec.reduceEq, BitVec.reduceToNat, Nat.reduceDiv, reduceIte,
    parseAtomic, parseMemory, Option.orElse_none, word_d, word_a, word_b, word_c, word_m, hd_word, tb, pOf, mOf,
    wide, bit_high, bit_low, extract_high, extract_low, extract_all, Nat.reduceSub, bit_zero, atom_of, mq_of,
    Option.map_some, Option.orElse_some]

theorem redAdd (h : Hd) (ty : AtomTy) (mq : Mq) (a b : VReg) : Statement (.redAdd h ty mq a b) := by
  refine of_fields _ _ rfl ?_
  simp (disch := decide) only [parseFull, word_op, BitVec.reduceEq, BitVec.reduceToNat, Nat.reduceDiv, reduceIte,
    parseAtomic, parseMemory, Option.orElse_none, word_d, word_a, word_b, word_c, word_m, hd_word, tb, pOf, mOf,
    wide, bit_high, bit_low, extract_high, extract_low, extract_all, Nat.reduceSub, bit_zero, atom_of, mq_of,
    Option.map_some, Option.orElse_some]

theorem redSub (h : Hd) (ty : AtomTy) (mq : Mq) (a b : VReg) : Statement (.redSub h ty mq a b) := by
  refine of_fields _ _ rfl ?_
  simp (disch := decide) only [parseFull, word_op, BitVec.reduceEq, BitVec.reduceToNat, Nat.reduceDiv, reduceIte,
    parseAtomic, parseMemory, Option.orElse_none, word_d, word_a, word_b, word_c, word_m, hd_word, tb, pOf, mOf,
    wide, bit_high, bit_low, extract_high, extract_low, extract_all, Nat.reduceSub, bit_zero, atom_of, mq_of,
    Option.map_some, Option.orElse_some]

theorem redMin (h : Hd) (ty : AtomTy) (mq : Mq) (a b : VReg) : Statement (.redMin h ty mq a b) := by
  refine of_fields _ _ rfl ?_
  simp (disch := decide) only [parseFull, word_op, BitVec.reduceEq, BitVec.reduceToNat, Nat.reduceDiv, reduceIte,
    parseAtomic, parseMemory, Option.orElse_none, word_d, word_a, word_b, word_c, word_m, hd_word, tb, pOf, mOf,
    wide, bit_high, bit_low, extract_high, extract_low, extract_all, Nat.reduceSub, bit_zero, atom_of, mq_of,
    Option.map_some, Option.orElse_some]

theorem redMax (h : Hd) (ty : AtomTy) (mq : Mq) (a b : VReg) : Statement (.redMax h ty mq a b) := by
  refine of_fields _ _ rfl ?_
  simp (disch := decide) only [parseFull, word_op, BitVec.reduceEq, BitVec.reduceToNat, Nat.reduceDiv, reduceIte,
    parseAtomic, parseMemory, Option.orElse_none, word_d, word_a, word_b, word_c, word_m, hd_word, tb, pOf, mOf,
    wide, bit_high, bit_low, extract_high, extract_low, extract_all, Nat.reduceSub, bit_zero, atom_of, mq_of,
    Option.map_some, Option.orElse_some]

theorem redAnd (h : Hd) (ty : AtomTy) (mq : Mq) (a b : VReg) : Statement (.redAnd h ty mq a b) := by
  refine of_fields _ _ rfl ?_
  simp (disch := decide) only [parseFull, word_op, BitVec.reduceEq, BitVec.reduceToNat, Nat.reduceDiv, reduceIte,
    parseAtomic, parseMemory, Option.orElse_none, word_d, word_a, word_b, word_c, word_m, hd_word, tb, pOf, mOf,
    wide, bit_high, bit_low, extract_high, extract_low, extract_all, Nat.reduceSub, bit_zero, atom_of, mq_of,
    Option.map_some, Option.orElse_some]

theorem redOr (h : Hd) (ty : AtomTy) (mq : Mq) (a b : VReg) : Statement (.redOr h ty mq a b) := by
  refine of_fields _ _ rfl ?_
  simp (disch := decide) only [parseFull, word_op, BitVec.reduceEq, BitVec.reduceToNat, Nat.reduceDiv, reduceIte,
    parseAtomic, parseMemory, Option.orElse_none, word_d, word_a, word_b, word_c, word_m, hd_word, tb, pOf, mOf,
    wide, bit_high, bit_low, extract_high, extract_low, extract_all, Nat.reduceSub, bit_zero, atom_of, mq_of,
    Option.map_some, Option.orElse_some]

theorem redXor (h : Hd) (ty : AtomTy) (mq : Mq) (a b : VReg) : Statement (.redXor h ty mq a b) := by
  refine of_fields _ _ rfl ?_
  simp (disch := decide) only [parseFull, word_op, BitVec.reduceEq, BitVec.reduceToNat, Nat.reduceDiv, reduceIte,
    parseAtomic, parseMemory, Option.orElse_none, word_d, word_a, word_b, word_c, word_m, hd_word, tb, pOf, mOf,
    wide, bit_high, bit_low, extract_high, extract_low, extract_all, Nat.reduceSub, bit_zero, atom_of, mq_of,
    Option.map_some, Option.orElse_some]

theorem wpost (h : Hd) (a b : VReg) : Statement (.wpost h a b) := by
  refine of_fields _ _ rfl ?_
  simp (disch := decide) only [parseFull, word_op, BitVec.reduceEq, BitVec.reduceToNat, Nat.reduceDiv, reduceIte,
    parseQueue, word_d, word_a, word_b, word_c, word_m, hd_word, tb, pOf, mOf, wide, bit_high, bit_low, extract_high,
    extract_low, extract_all, Nat.reduceSub, bit_zero, Option.map_some, Option.orElse_some]

theorem qpush (h : Hd) (q : BitVec 3) (a : VReg) : Statement (.qpush h q a) := by
  refine of_fields _ _ rfl ?_
  simp (disch := decide) only [parseFull, word_op, BitVec.reduceEq, BitVec.reduceToNat, Nat.reduceDiv, reduceIte,
    parseQueue, word_d, word_a, word_b, word_c, word_m, hd_word, tb, pOf, mOf, wide, bit_high, bit_low, extract_high,
    extract_low, extract_all, Nat.reduceSub, bit_zero, Option.map_some, Option.orElse_some]

theorem qpop (h : Hd) (d : VReg) (q : BitVec 3) : Statement (.qpop h d q) := by
  refine of_fields _ _ rfl ?_
  simp (disch := decide) only [parseFull, word_op, BitVec.reduceEq, BitVec.reduceToNat, Nat.reduceDiv, reduceIte,
    parseQueue, word_d, word_a, word_b, word_c, word_m, hd_word, tb, pOf, mOf, wide, bit_high, bit_low, extract_high,
    extract_low, extract_all, Nat.reduceSub, bit_zero, Option.map_some, Option.orElse_some]

theorem fpush (h : Hd) (f : BitVec 4) (a : VReg) : Statement (.fpush h f a) := by
  refine of_fields _ _ rfl ?_
  simp (disch := decide) only [parseFull, word_op, BitVec.reduceEq, BitVec.reduceToNat, Nat.reduceDiv, reduceIte,
    parseQueue, word_d, word_a, word_b, word_c, word_m, hd_word, tb, pOf, mOf, wide, bit_high, bit_low, extract_high,
    extract_low, extract_all, Nat.reduceSub, bit_zero, Option.map_some, Option.orElse_some]

theorem fpop (h : Hd) (d : VReg) (f : BitVec 4) : Statement (.fpop h d f) := by
  refine of_fields _ _ rfl ?_
  simp (disch := decide) only [parseFull, word_op, BitVec.reduceEq, BitVec.reduceToNat, Nat.reduceDiv, reduceIte,
    parseQueue, word_d, word_a, word_b, word_c, word_m, hd_word, tb, pOf, mOf, wide, bit_high, bit_low, extract_high,
    extract_low, extract_all, Nat.reduceSub, bit_zero, Option.map_some, Option.orElse_some]

theorem msend (h : Hd) (kind : MsendKind) (a b c : VReg) : Statement (.msend h kind a b c) := by
  refine of_fields _ _ rfl ?_
  simp (disch := decide) only [parseFull, word_op, BitVec.reduceEq, BitVec.reduceToNat, Nat.reduceDiv, reduceIte,
    parseQueue, word_d, word_a, word_b, word_c, word_m, hd_word, tb, pOf, mOf, wide, bit_high, bit_low, extract_high,
    extract_low, extract_all, Nat.reduceSub, bit_zero, msend_of, Option.map_some, Option.orElse_some]

theorem glaunch (h : Hd) (d a : VReg) : Statement (.glaunch h d a) := by
  refine of_fields _ _ rfl ?_
  simp (disch := decide) only [parseFull, word_op, BitVec.reduceEq, BitVec.reduceToNat, Nat.reduceDiv, reduceIte,
    parseQueue, word_d, word_a, word_b, word_c, word_m, hd_word, tb, pOf, mOf, wide, bit_high, bit_low, extract_high,
    extract_low, extract_all, Nat.reduceSub, bit_zero, Option.map_some, Option.orElse_some]

theorem gwait (h : Hd) (d a : VReg) : Statement (.gwait h d a) := by
  refine of_fields _ _ rfl ?_
  simp (disch := decide) only [parseFull, word_op, BitVec.reduceEq, BitVec.reduceToNat, Nat.reduceDiv, reduceIte,
    parseQueue, word_d, word_a, word_b, word_c, word_m, hd_word, tb, pOf, mOf, wide, bit_high, bit_low, extract_high,
    extract_low, extract_all, Nat.reduceSub, bit_zero, Option.map_some, Option.orElse_some]

theorem tlbinv (h : Hd) (form : TlbForm) (a b : VReg) : Statement (.tlbinv h form a b) := by
  refine of_fields _ _ rfl ?_
  simp (disch := decide) only [parseFull, word_op, BitVec.reduceEq, BitVec.reduceToNat, Nat.reduceDiv, reduceIte,
    parseTable, word_d, word_a, word_b, word_c, word_m, hd_word, tb, pOf, mOf, wide, bit_high, bit_low, extract_high,
    extract_low, extract_all, Nat.reduceSub, bit_zero, tlb_of, Option.map_some, Option.orElse_some]

theorem pgprobe (h : Hd) (d a : VReg) : Statement (.pgprobe h d a) := by
  refine of_fields _ _ rfl ?_
  simp (disch := decide) only [parseFull, word_op, BitVec.reduceEq, BitVec.reduceToNat, Nat.reduceDiv, reduceIte,
    parseTable, word_d, word_a, word_b, word_c, word_m, hd_word, tb, pOf, mOf, wide, bit_high, bit_low, extract_high,
    extract_low, extract_all, Nat.reduceSub, bit_zero, Option.map_some, Option.orElse_some]

theorem kvx (h : Hd) (form : KvxForm) (d a b : VReg) (c : PReg) : Statement (.kvx h form d a b c) := by
  refine of_fields _ _ rfl ?_
  simp (disch := decide) only [parseFull, word_op, BitVec.reduceEq, BitVec.reduceToNat, Nat.reduceDiv, reduceIte,
    parseTable, word_d, word_a, word_b, word_c, word_m, hd_word, tb, pOf, mOf, wide, bit_high, bit_low, extract_high,
    extract_low, extract_all, Nat.reduceSub, bit_zero, kvx_of, Option.map_some, Option.orElse_some]

theorem winctl (h : Hd) (close : Bool) (a b : VReg) : Statement (.winctl h close a b) := by
  refine of_fields _ _ rfl ?_
  simp (disch := decide) only [parseFull, word_op, BitVec.reduceEq, BitVec.reduceToNat, Nat.reduceDiv, reduceIte,
    parseTable, word_d, word_a, word_b, word_c, word_m, hd_word, tb, pOf, mOf, wide, bit_high, bit_low, extract_high,
    extract_low, extract_all, Nat.reduceSub, bit_zero, Option.map_some, Option.orElse_some]

theorem gatectl (h : Hd) (close : Bool) (a b : VReg) : Statement (.gatectl h close a b) := by
  refine of_fields _ _ rfl ?_
  simp (disch := decide) only [parseFull, word_op, BitVec.reduceEq, BitVec.reduceToNat, Nat.reduceDiv, reduceIte,
    parseTable, word_d, word_a, word_b, word_c, word_m, hd_word, tb, pOf, mOf, wide, bit_high, bit_low, extract_high,
    extract_low, extract_all, Nat.reduceSub, bit_zero, Option.map_some, Option.orElse_some]

theorem barInit (h : Hd) (a b : VReg) : Statement (.barInit h a b) := by
  refine of_fields _ _ rfl ?_
  simp (disch := decide) only [parseFull, word_op, BitVec.reduceEq, BitVec.reduceToNat, Nat.reduceDiv, reduceIte,
    parseCounter, word_d, word_a, word_b, word_c, word_m, hd_word, tb, pOf, mOf, wide, bit_high, bit_low,
    extract_high, extract_low, extract_all, Nat.reduceSub, bit_zero, Option.map_some, Option.orElse_some]

theorem barArrive (h : Hd) (leave : Bool) (form : ArriveForm) (d a b : VReg) :
    Statement (.barArrive h leave form d a b) := by
  refine of_fields _ _ rfl ?_
  simp (disch := decide) only [parseFull, word_op, BitVec.reduceEq, BitVec.reduceToNat, Nat.reduceDiv, reduceIte,
    parseCounter, word_d, word_a, word_b, word_c, word_m, hd_word, tb, pOf, mOf, wide, bit_high, bit_low,
    extract_high, extract_low, extract_all, Nat.reduceSub, bit_zero, arrive_of, Option.map_some, Option.orElse_some]

theorem barExpect (h : Hd) (a b : VReg) : Statement (.barExpect h a b) := by
  refine of_fields _ _ rfl ?_
  simp (disch := decide) only [parseFull, word_op, BitVec.reduceEq, BitVec.reduceToNat, Nat.reduceDiv, reduceIte,
    parseCounter, word_d, word_a, word_b, word_c, word_m, hd_word, tb, pOf, mOf, wide, bit_high, bit_low,
    extract_high, extract_low, extract_all, Nat.reduceSub, bit_zero, Option.map_some, Option.orElse_some]

theorem barWait (h : Hd) (reach : Bool) (a b : VReg) : Statement (.barWait h reach a b) := by
  refine of_fields _ _ rfl ?_
  simp (disch := decide) only [parseFull, word_op, BitVec.reduceEq, BitVec.reduceToNat, Nat.reduceDiv, reduceIte,
    parseCounter, word_d, word_a, word_b, word_c, word_m, hd_word, tb, pOf, mOf, wide, bit_high, bit_low,
    extract_high, extract_low, extract_all, Nat.reduceSub, bit_zero, Option.map_some, Option.orElse_some]

theorem barTry (h : Hd) (reach : Bool) (d a b : VReg) : Statement (.barTry h reach d a b) := by
  refine of_fields _ _ rfl ?_
  simp (disch := decide) only [parseFull, word_op, BitVec.reduceEq, BitVec.reduceToNat, Nat.reduceDiv, reduceIte,
    parseCounter, word_d, word_a, word_b, word_c, word_m, hd_word, tb, pOf, mOf, wide, bit_high, bit_low,
    extract_high, extract_low, extract_all, Nat.reduceSub, bit_zero, Option.map_some, Option.orElse_some]

theorem barInval (h : Hd) (a : VReg) : Statement (.barInval h a) := by
  refine of_fields _ _ rfl ?_
  simp (disch := decide) only [parseFull, word_op, BitVec.reduceEq, BitVec.reduceToNat, Nat.reduceDiv, reduceIte,
    parseCounter, word_d, word_a, word_b, word_c, word_m, hd_word, tb, pOf, mOf, wide, bit_high, bit_low,
    extract_high, extract_low, extract_all, Nat.reduceSub, bit_zero, Option.map_some, Option.orElse_some]

theorem semSig (h : Hd) (a b : VReg) : Statement (.semSig h a b) := by
  refine of_fields _ _ rfl ?_
  simp (disch := decide) only [parseFull, word_op, BitVec.reduceEq, BitVec.reduceToNat, Nat.reduceDiv, reduceIte,
    parseCounter, word_d, word_a, word_b, word_c, word_m, hd_word, tb, pOf, mOf, wide, bit_high, bit_low,
    extract_high, extract_low, extract_all, Nat.reduceSub, bit_zero, Option.map_some, Option.orElse_some]

theorem semWait (h : Hd) (a b : VReg) : Statement (.semWait h a b) := by
  refine of_fields _ _ rfl ?_
  simp (disch := decide) only [parseFull, word_op, BitVec.reduceEq, BitVec.reduceToNat, Nat.reduceDiv, reduceIte,
    parseCounter, word_d, word_a, word_b, word_c, word_m, hd_word, tb, pOf, mOf, wide, bit_high, bit_low,
    extract_high, extract_low, extract_all, Nat.reduceSub, bit_zero, Option.map_some, Option.orElse_some]

theorem rdclk (h : Hd) (us : Bool) (d : VReg) : Statement (.rdclk h us d) := by
  refine of_fields _ _ rfl ?_
  simp (disch := decide) only [parseFull, word_op, BitVec.reduceEq, BitVec.reduceToNat, Nat.reduceDiv, reduceIte,
    parseCounter, word_d, word_a, word_b, word_c, word_m, hd_word, tb, pOf, mOf, wide, bit_high, bit_low,
    extract_high, extract_low, extract_all, Nat.reduceSub, bit_zero, Option.map_some, Option.orElse_some]

theorem rdperf (h : Hd) (d : VReg) (n : BitVec 3) : Statement (.rdperf h d n) := by
  refine of_fields _ _ rfl ?_
  simp (disch := decide) only [parseFull, word_op, BitVec.reduceEq, BitVec.reduceToNat, Nat.reduceDiv, reduceIte,
    parseCounter, word_d, word_a, word_b, word_c, word_m, hd_word, tb, pOf, mOf, wide, bit_high, bit_low,
    extract_high, extract_low, extract_all, Nat.reduceSub, bit_zero, Option.map_some, Option.orElse_some]

theorem csrr (h : Hd) (d : VReg) (n : BitVec 10) : Statement (.csrr h d n) := by
  refine of_fields _ _ rfl ?_
  simp (disch := decide) only [parseFull, word_op, BitVec.reduceEq, BitVec.reduceToNat, Nat.reduceDiv, reduceIte,
    parseSystem, word_d, word_a, word_b, word_c, word_m, hd_word, tb, pOf, mOf, wide, bit_high, bit_low,
    extract_high, extract_low, extract_all, Nat.reduceSub, bit_zero, Option.map_some, Option.orElse_some]

theorem csrw (h : Hd) (mode : CsrwMode) (n : BitVec 10) (a : VReg) : Statement (.csrw h mode n a) := by
  refine of_fields _ _ rfl ?_
  simp (disch := decide) only [parseFull, word_op, BitVec.reduceEq, BitVec.reduceToNat, Nat.reduceDiv, reduceIte,
    parseSystem, word_d, word_a, word_b, word_c, word_m, hd_word, tb, pOf, mOf, wide, bit_high, bit_low,
    extract_high, extract_low, extract_all, Nat.reduceSub, bit_zero, csrw_of, Option.map_some, Option.orElse_some]

theorem sread (h : Hd) (d a : VReg) : Statement (.sread h d a) := by
  refine of_fields _ _ rfl ?_
  simp (disch := decide) only [parseFull, word_op, BitVec.reduceEq, BitVec.reduceToNat, Nat.reduceDiv, reduceIte,
    parseSystem, word_d, word_a, word_b, word_c, word_m, hd_word, tb, pOf, mOf, wide, bit_high, bit_low,
    extract_high, extract_low, extract_all, Nat.reduceSub, bit_zero, Option.map_some, Option.orElse_some]

theorem eret (h : Hd) (a : VReg) : Statement (.eret h a) := by
  refine of_fields _ _ rfl ?_
  simp (disch := decide) only [parseFull, word_op, BitVec.reduceEq, BitVec.reduceToNat, Nat.reduceDiv, reduceIte,
    parseSystem, word_d, word_a, word_b, word_c, word_m, hd_word, tb, pOf, mOf, wide, bit_high, bit_low,
    extract_high, extract_low, extract_all, Nat.reduceSub, bit_zero, Option.map_some, Option.orElse_some]

theorem halt (h : Hd) : Statement (.halt h) := by
  refine of_fields _ _ rfl ?_
  simp (disch := decide) only [parseFull, word_op, BitVec.reduceEq, BitVec.reduceToNat, Nat.reduceDiv, reduceIte,
    parseSystem, word_d, word_a, word_b, word_c, word_m, hd_word, tb, pOf, mOf, wide, bit_high, bit_low,
    extract_high, extract_low, extract_all, Nat.reduceSub, bit_zero, Option.map_some, Option.orElse_some]

theorem pdExpiry (t : Tid) : Statement (.pdExpiry t) := of_act _ rfl

theorem overdue (t : Tid) : Statement (.overdue t) := of_act _ rfl

theorem resultArrival (t : Tid) (tag : Nat) : Statement (.resultArrival t tag) := of_act _ rfl

theorem icacheFill (core vf : Nat) (line : Nat) : Statement (.icacheFill core vf line) := of_act _ rfl

theorem pageWalkComplete (core vf : Nat) (va : Nat) (forFetch : Bool) :
    Statement (.pageWalkComplete core vf va forFetch) := of_act _ rfl

theorem mauOpComplete (core sector : Nat) : Statement (.mauOpComplete core sector) := of_act _ rfl

theorem workToken (vf port : Nat) (src : TokenSource) (aligned : Bool) (bytes : List Byte) :
    Statement (.workToken vf port src aligned bytes) := of_act _ rfl

theorem c1Landing (vf roster : Nat) (dest : DWord) (bytes : List Byte) :
    Statement (.c1Landing vf roster dest bytes) := of_act _ rfl

theorem c2Signal (vf roster : Nat) (dest : DWord) : Statement (.c2Signal vf roster dest) := of_act _ rfl

theorem c2wWrite (vf roster : Nat) (dest : DWord) (value : DWord) :
    Statement (.c2wWrite vf roster dest value) := of_act _ rfl

theorem c3Atomic (vf roster : Nat) (dest : DWord) (value : DWord) :
    Statement (.c3Atomic vf roster dest value) := of_act _ rfl

theorem messageAck (id : Nat) : Statement (.messageAck id) := of_act _ rfl

theorem queueRoomDeposit (vf queue : Nat) : Statement (.queueRoomDeposit vf queue) := of_act _ rfl

theorem teamBind (partition : Nat) (anyCore : Nat) (base : Nat) :
    Statement (.teamBind partition anyCore base) := of_act _ rfl

theorem bindRecordDispatch (core slot : Nat) (record : List Byte) :
    Statement (.bindRecordDispatch core slot record) := of_act _ rfl

theorem slotFree (core slot : Nat) : Statement (.slotFree core slot) := of_act _ rfl

theorem gridRetire (vf grid : Nat) : Statement (.gridRetire vf grid) := of_act _ rfl

theorem blockedCheck (partition : Nat) : Statement (.blockedCheck partition) := of_act _ rfl

theorem donationTest (partition : Nat) : Statement (.donationTest partition) := of_act _ rfl

theorem schedulerRecordClaim (partition : Nat) : Statement (.schedulerRecordClaim partition) := of_act _ rfl

theorem hostRecordMove (partition : Nat) : Statement (.hostRecordMove partition) := of_act _ rfl

theorem wakeRecord (partition : Nat) (rec : WakeRec) (viaEret : Bool) :
    Statement (.wakeRecord partition rec viaEret) := of_act _ rfl

theorem replay (core slot : Nat) (access : Bool) (cohort log : Nat) (lanes : LaneMask) :
    Statement (.replay core slot access cohort log lanes) := of_act _ rfl

theorem recordClaim (partition : Nat) : Statement (.recordClaim partition) := of_act _ rfl

theorem directoryEntryReceived (hub vf : Nat) (key : DWord) (entry : Option DirEntry) :
    Statement (.directoryEntryReceived hub vf key entry) := of_act _ rfl

theorem directoryUpdate (hub : Nat) (entry : DirEntry) : Statement (.directoryUpdate hub entry) := of_act _ rfl

theorem directoryWaitTimeout (hub vf : Nat) (key : DWord) : Statement (.directoryWaitTimeout hub vf key) := of_act _ rfl

theorem frameWaitTimeout (hub vf : Nat) (key : DWord) : Statement (.frameWaitTimeout hub vf key) := of_act _ rfl

theorem pageReceived (hub vf : Nat) (key : DWord) (version : BitVec 32) (page : List (Nat × Byte)) (poison : List Nat) :
    Statement (.pageReceived hub vf key version page poison) := of_act _ rfl

theorem retryTimeout (hub vf : Nat) (key : DWord) : Statement (.retryTimeout hub vf key) := of_act _ rfl

theorem replicaTimeout (hub vf : Nat) (key : DWord) : Statement (.replicaTimeout hub vf key) := of_act _ rfl

theorem declineTimeout (hub vf : Nat) (key : DWord) : Statement (.declineTimeout hub vf key) := of_act _ rfl

theorem remoteTimeout (partition : Nat) (seq : BitVec 32) : Statement (.remoteTimeout partition seq) := of_act _ rfl

theorem ownershipRequest (hub vf : Nat) (key : DWord) (requester requesterVf : Nat) :
    Statement (.ownershipRequest hub vf key requester requesterVf) := of_act _ rfl

theorem invalidate (hub vf : Nat) (key : DWord) (version : BitVec 32) :
    Statement (.invalidate hub vf key version) := of_act _ rfl

theorem checkIn (hub : Nat) (key : DWord) (page : PageImage) (clean : Bool) :
    Statement (.checkIn hub key page clean) := of_act _ rfl

theorem pinExpiry (vf : Nat) (page : Nat) : Statement (.pinExpiry vf page) := of_act _ rfl

theorem windowRekeyComplete (window : Nat) : Statement (.windowRekeyComplete window) := of_act _ rfl

theorem preemptStart (partition : Nat) : Statement (.preemptStart partition) := of_act _ rfl

theorem engineStopAck (partition : Nat) (engine : Engine) (unit : Nat) :
    Statement (.engineStopAck partition engine unit) := of_act _ rfl

theorem clusterSave (partition cluster : Nat) : Statement (.clusterSave partition cluster) := of_act _ rfl

theorem restore (partition vf : Nat) : Statement (.restore partition vf) := of_act _ rfl

theorem tceDeadline (partition cluster : Nat) : Statement (.tceDeadline partition cluster) := of_act _ rfl

theorem deadlineMiss (partition : Nat) (engine : Engine) (unit : Nat) :
    Statement (.deadlineMiss partition engine unit) := of_act _ rfl

theorem preemptTimeout (partition : Nat) : Statement (.preemptTimeout partition) := of_act _ rfl

theorem tceCommandStart (cluster : Nat) : Statement (.tceCommandStart cluster) := of_act _ rfl

theorem tceBoxComplete (cluster cmd box : Nat) : Statement (.tceBoxComplete cluster cmd box) := of_act _ rfl

theorem forcedPublish (cluster vf : Nat) (line : Nat) : Statement (.forcedPublish cluster vf line) := of_act _ rfl

theorem publishAck (line : Nat) : Statement (.publishAck line) := of_act _ rfl

theorem storePerformed (id : Nat) : Statement (.storePerformed id) := of_act _ rfl

theorem retnUpdate (cluster : Nat) (ns : BitVec 32) (tj : BitVec 16) :
    Statement (.retnUpdate cluster ns tj) := of_act _ rfl

theorem agingScan (cluster : Nat) : Statement (.agingScan cluster) := of_act _ rfl

theorem sweeperVisit (cluster line : Nat) : Statement (.sweeperVisit cluster line) := of_act _ rfl

theorem retentionLoss (cluster line : Nat) : Statement (.retentionLoss cluster line) := of_act _ rfl

theorem bankModeDrainComplete (cluster bank : Nat) : Statement (.bankModeDrainComplete cluster bank) := of_act _ rfl

theorem reencryptComplete (leaf : Nat) : Statement (.reencryptComplete leaf) := of_act _ rfl

theorem powerGrant (demand drawn : List (BitVec 32)) (hot : List Nat) (inlet : Nat) :
    Statement (.powerGrant demand drawn hot inlet) := of_act _ rfl

theorem frequencyLoop (island : Nat) : Statement (.frequencyLoop island) := of_act _ rfl

theorem droopLoop (island : Nat) (millivolts : Nat) : Statement (.droopLoop island millivolts) := of_act _ rfl

theorem powerOn : Statement .powerOn := of_act _ rfl

theorem moduleReset : Statement .moduleReset := of_act _ rfl

theorem vfReset (vf : Nat) : Statement (.vfReset vf) := of_act _ rfl

theorem almanacStep (passed : Bool) (altPassed : Bool) : Statement (.almanacStep passed altPassed) := of_act _ rfl

theorem stateRead (r : Reader) (target : DWord) (len : Nat) : Statement (.stateRead r target len) := of_act _ rfl

theorem inventoryRead (r : Reader) : Statement (.inventoryRead r) := of_act _ rfl

theorem tableWrite (r : Reader) (req : TableWriteReq) : Statement (.tableWrite r req) := of_act _ rfl

theorem wake (r : Reader) (partition : Nat) (rec : WakeRec) : Statement (.wake r partition rec) := of_act _ rfl

theorem shootDown (r : Reader) (vf : Nat) (va : Nat) (pages : Nat) :
    Statement (.shootDown r vf va pages) := of_act _ rfl

theorem powerBudget (r : Reader) (watts : Nat) : Statement (.powerBudget r watts) := of_act _ rfl

theorem unfreeze (r : Reader) (vf : Nat) : Statement (.unfreeze r vf) := of_act _ rfl

theorem kill (r : Reader) (vf : Nat) : Statement (.kill r vf) := of_act _ rfl

theorem hallmarkLogRead (r : Reader) (first : Nat) : Statement (.hallmarkLogRead r first) := of_act _ rfl

theorem almanacRecordsClear (r : Reader) : Statement (.almanacRecordsClear r) := of_act _ rfl

theorem coldReset (r : Reader) : Statement (.coldReset r) := of_act _ rfl

theorem spdm (r : Reader) (req : SpdmReq) : Statement (.spdm r req) := of_act _ rfl

theorem launchDeposit (vf queue : Nat) (byScheduler : Bool) (req : LaunchReq) :
    Statement (.launchDeposit vf queue byScheduler req) := of_act _ rfl

theorem hostFaultQueueConsume : Statement .hostFaultQueueConsume := of_act _ rfl

theorem hostComplexAccess (vf : Nat) (phys : Nat) (write : Option (List Byte)) (len : Nat) :
    Statement (.hostComplexAccess vf phys write len) := of_act _ rfl

theorem openFrameAccess (phys : Nat) (write : Option (List Byte)) (len : Nat) :
    Statement (.openFrameAccess phys write len) := of_act _ rfl

theorem peerAccess (device : Nat) (phys : Nat) (op : PeerOp) (len : Nat) (sync : Bool) :
    Statement (.peerAccess device phys op len sync) := of_act _ rfl

theorem directoryQuery (hub : Nat) (key : DWord) (node : Nat) : Statement (.directoryQuery hub key node) := of_act _ rfl

theorem pageRequest (hub : Nat) (key : DWord) (node : Nat) : Statement (.pageRequest hub key node) := of_act _ rfl

theorem pageWriteBack (hub : Nat) (key : DWord) (page : PageImage) :
    Statement (.pageWriteBack hub key page) := of_act _ rfl

theorem storageErrorReport (hub vf : Nat) (key : DWord) : Statement (.storageErrorReport hub vf key) := of_act _ rfl

theorem softError (site : SoftSite) (double : Bool) : Statement (.softError site double) := of_act _ rfl

end Sys2Proof.Laws.Encoding
end

