-- ==== Sys2Proof/Laws/Words.lean ====
section
/-! SUPPORT. What the shared operations for whole families of words answer for one thread: fixed-latency words,
collectives, words of the X pipe, lane-mask words, plain words and lane-by-lane words. -/

namespace Sys2Proof.Machine

/-! ### Registers -/

theorem Thread.rv_wv (t : Thread) (a b : Nat) (x : Word) : (t.wv a x).rv b = if a = b then x else t.rv b := by
  unfold Thread.rv Thread.wv
  split
  · subst_vars; exact FMap.getD_set_self _ _ _ _
  · exact FMap.getD_set_ne _ _ _ _ ‹_›

theorem Thread.rp_wp (t : Thread) (a b : Nat) (x : Bool) (ha : a ≠ 63) :
    (t.wp a x).rp b = if a = b then x else t.rp b := by
  unfold Thread.rp Thread.wp
  rw [if_neg ha]
  by_cases e : a = b
  · subst e
    rw [if_neg ha, if_pos rfl]
    exact FMap.getD_set_self _ _ _ _
  · rw [if_neg e]
    by_cases hb : b = 63
    · rw [if_pos hb, if_pos hb]
    · rw [if_neg hb, if_neg hb]
      exact FMap.getD_set_ne _ _ _ _ e

@[simp] theorem Thread.rp_wv (t : Thread) (a b : Nat) (x : Word) : (t.wv a x).rp b = t.rp b := rfl

@[simp] theorem Thread.rv_wp (t : Thread) (a b : Nat) (x : Bool) : (t.wp a x).rv b = t.rv b := by
  unfold Thread.wp; split <;> rfl

@[simp] theorem Thread.wps_nil (t : Thread) : t.wps [] = t := rfl
@[simp] theorem Thread.wvs_nil (t : Thread) : t.wvs [] = t := rfl
@[simp] theorem Thread.wvs_cons (t : Thread) (w : Nat × Word) (ws : List (Nat × Word)) :
    t.wvs (w :: ws) = (t.wv w.1 w.2).wvs ws := rfl
@[simp] theorem Thread.wps_cons (t : Thread) (w : Nat × Bool) (ws : List (Nat × Bool)) :
    t.wps (w :: ws) = (t.wp w.1 w.2).wps ws := rfl

theorem Thread.rv_wvs_ne (t : Thread) (ws : List (Nat × Word)) (b : Nat) (h : ∀ w ∈ ws, w.1 ≠ b) :
    (t.wvs ws).rv b = t.rv b := by
  induction ws generalizing t with
  | nil => rfl
  | cons w ws ih =>
    rw [Thread.wvs_cons, ih _ fun w hw => h w (List.mem_cons_of_mem _ hw), Thread.rv_wv,
      if_neg (h w List.mem_cons_self)]

theorem Thread.rv_wvs (t : Thread) (ws : List (Nat × Word)) (hn : (ws.map Prod.fst).Nodup) (w : Nat × Word) (hw : w ∈ ws) :
    (t.wvs ws).rv w.1 = w.2 := by
  induction ws generalizing t with
  | nil => cases hw
  | cons v ws ih =>
    simp only [List.map_cons, List.nodup_cons, List.mem_map, not_exists, not_and] at hn
    rw [Thread.wvs_cons]
    rcases List.mem_cons.1 hw with rfl | hw
    · rw [Thread.rv_wvs_ne _ _ _ fun z hz e => hn.1 z hz e, Thread.rv_wv, if_pos rfl]
    · exact ih _ hn.2 hw

theorem Thread.rp_wvs (t : Thread) (ws : List (Nat × Word)) (b : Nat) : (t.wvs ws).rp b = t.rp b := by
  induction ws generalizing t with
  | nil => rfl
  | cons w ws ih => rw [Thread.wvs_cons, ih, Thread.rp_wv]

theorem Thread.rv_wps (t : Thread) (ws : List (Nat × Bool)) (b : Nat) : (t.wps ws).rv b = t.rv b := by
  induction ws generalizing t with
  | nil => rfl
  | cons w ws ih => rw [Thread.wps_cons, ih, Thread.rv_wp]

theorem Thread.rp_wps_ne (t : Thread) (ws : List (Nat × Bool)) (b : Nat) (h63 : ∀ w ∈ ws, w.1 ≠ 63)
    (h : ∀ w ∈ ws, w.1 ≠ b) : (t.wps ws).rp b = t.rp b := by
  induction ws generalizing t with
  | nil => rfl
  | cons w ws ih =>
    rw [Thread.wps_cons, ih _ (fun w hw => h63 w (List.mem_cons_of_mem _ hw)) fun w hw => h w (List.mem_cons_of_mem _ hw),
      Thread.rp_wp _ _ _ _ (h63 w List.mem_cons_self), if_neg (h w List.mem_cons_self)]

theorem Thread.rp_wps (t : Thread) (ws : List (Nat × Bool)) (hn : (ws.map Prod.fst).Nodup) (h63 : ∀ w ∈ ws, w.1 ≠ 63)
    (w : Nat × Bool) (hw : w ∈ ws) : (t.wps ws).rp w.1 = w.2 := by
  induction ws generalizing t with
  | nil => cases hw
  | cons v ws ih =>
    simp only [List.map_cons, List.nodup_cons, List.mem_map, not_exists, not_and] at hn
    have h63' : ∀ w ∈ ws, w.1 ≠ 63 := fun w hw => h63 w (List.mem_cons_of_mem _ hw)
    rw [Thread.wps_cons]
    rcases List.mem_cons.1 hw with rfl | hw
    · rw [Thread.rp_wps_ne _ _ _ h63' fun z hz e => hn.1 z hz e, Thread.rp_wp _ _ _ _ (h63 _ List.mem_cons_self), if_pos rfl]
    · exact ih _ hn.2 h63' hw

/-- The registers and the predicates of a result are each named once, and p63 is not among them. -/
def Res.ok (r : Res) : Prop :=
  (r.vs.map Prod.fst).Nodup ∧ (r.ps.map Prod.fst).Nodup ∧ ∀ w ∈ r.ps, w.1 ≠ 63

theorem Res.ok_v (d : VReg) (x : Word) : (Res.v d x).ok := by simp [Res.ok, Res.v]
theorem Res.ok_vf (d : VReg) (x : Word × BitVec 6) : (Res.vf d x).ok := by simp [Res.ok, Res.vf]
theorem Res.ok_v64 (d : VReg) (x : DWord) : (Res.v64 d x).ok := by simp [Res.ok, Res.v64, pairWrite]
theorem Res.ok_p (d : PReg) (b : Bool) (h : d.toNat ≠ 63) : (Res.p d b).ok := by simp [Res.ok, Res.p, h]

theorem Thread.shows_raise (t : Thread) (r : Res) (h : r.ok) : (((t.wvs r.vs).wps r.ps).raise r.flags).shows r := by
  refine ⟨fun w hw => ?_, fun w hw => ?_, ?_⟩
  · exact (Thread.rv_wps _ _ _).trans (Thread.rv_wvs _ _ h.1 w hw)
  · exact Thread.rp_wps _ _ h.2.1 h.2.2 w hw
  · simp only [Thread.raise]
    ext i
    simp
    tauto

/-- A result at the end of the queue is visible when it is due. -/
theorem Thread.settle_shows (y : Thread) (l : List PendWrite) (n now : Nat) (r : Res) (hr : r.ok) (hn : n ≤ now)
    (h : y.pend = l ++ [⟨n, r.vs, r.ps, r.flags⟩]) : (y.settle now).shows r := by
  unfold Thread.settle
  simp only [h, List.filter_append, List.foldl_append]
  have e : List.filter (fun w : PendWrite => decide (w.due ≤ now)) [⟨n, r.vs, r.ps, r.flags⟩] = [⟨n, r.vs, r.ps, r.flags⟩] := by
    simp [hn]
  rw [e]
  exact Thread.shows_raise _ r hr

/-! ### Fixed-latency words -/

theorem State.runs_active {s : State} {i : Instr} {u : Tid} {x : Thread} (h : s.runs i u x) : u ∈ (s.control i).active i := by
  rw [State.active_mem]
  exact ⟨by rw [(State.control_same s i).1]; exact h.1, x, h.2.1, h.2.2⟩

theorem State.active_ok {s : State} {i : Instr} (h : s.mayIssue i = true) :
    (∀ t ∈ (s.control i).active i, tidOk t) ∧ ((s.control i).active i).Nodup := by
  have hg := State.mayIssue_gang h
  constructor
  · intro t ht
    rw [State.active_mem, (State.control_same s i).1] at ht
    exact Gang.ok_tid hg ht.1
  · unfold State.active
    rw [(State.control_same s i).1]
    exact (Gang.ok_nodup hg).filter _

/-- The threads of a word that changes only threads. -/
theorem State.issue_threads (s : State) (i : Instr) (extra : Bool) (f : Tid → Thread → Thread) (h : s.mayIssue i = true)
    (he : extraOk i s = true → extra = true) (act : State → List Tid → State → State)
    (ha : ∀ s0 ts s1, act s0 ts s1 = s1.modThreads ts f) (u : Tid) (x : Thread) (hu : s.runs i u x) :
    ∃ y, (s.issue i extra act).thread? u = some y ∧ (f u x).agrees y := by
  rw [State.issue_eq s i extra act h he, ha]
  refine State.flowEnd_agrees _ i u _ ?_
  rw [State.thread?_modThreads_mem _ _ _ _ (State.active_ok h).1 (State.active_ok h).2 (State.runs_active hu), hu.2.1]
  rfl

/-- A FIXED-LATENCY WORD: once its latency has passed the thread shows its result. -/
theorem State.fixedWord_shows (s : State) (i : Instr) (f : Thread → Res) (h : s.mayIssue i = true) (u : Tid) (x : Thread)
    (hu : s.runs i u x) (hr : (f x).ok) :
    ∃ y, (s.fixedWord i f).thread? u = some y ∧ (y.settle (s.cycle u.core + i.latency)).shows (f x) := by
  obtain ⟨y, hy, e⟩ := State.issue_threads s i true (fun t x => x.produce (s.cycle t.core) i.latency (f x)) h (fun _ => rfl)
    _ (fun _ _ _ => rfl) u x hu
  exact ⟨y, hy, Thread.settle_shows y _ _ _ _ hr le_rfl e.2.2.2.1.symm⟩

/-! ### Lane-by-lane words -/

theorem byLane_one (u : Tid) (h : u.lane < 32) : byLane [u] = [u] := by
  unfold byLane
  have : ∀ n, n ≤ 32 → (List.range n).flatMap (fun l => [u].filter (·.lane == l)) = if u.lane < n then [u] else [] := by
    intro n hn
    induction n with
    | zero => rfl
    | succ n ih =>
      rw [List.range_succ, List.flatMap_append, ih (by omega)]
      simp only [List.flatMap_cons, List.flatMap_nil, List.append_nil, List.filter_cons, List.filter_nil]
      by_cases h1 : u.lane < n
      · simp [h1, Nat.ne_of_lt h1, Nat.lt_succ_of_lt h1]
      · by_cases h2 : u.lane = n
        · simp [h2]
        · simp [h1, h2, show ¬ u.lane < n + 1 by omega]
  rw [this 32 le_rfl, if_pos h]

/-- One thread runs the word: the operands it captures, and what its lane does, decide. -/
theorem State.laneJobs_one (s : State) (i : Instr) (u : Tid) (x : Thread) (h : s.mayIssue i = true) (hu : s.runs i u x)
    (ha : (s.control i).active i = [u]) (cap : Tid → Thread → LaneOps) :
    (byLane ((s.control i).active i)).filterMap (fun t => ((s.control i).thread? t).map fun x => (t, cap t x)) =
      [(u, cap u x)] := by
  have hk : tidOk u := (State.active_ok h).1 u (State.runs_active hu)
  rw [ha, byLane_one u hk.2.2]
  simp [hu.2.1]

theorem nodup_eraseDups {α : Type} [DecidableEq α] : ∀ (n : Nat) (l : List α), l.length ≤ n → l.eraseDups.Nodup
  | _, [], _ => by simp
  | 0, _ :: _, h => by simp at h
  | n + 1, a :: l, h => by
    rw [List.eraseDups_cons, List.nodup_cons]
    refine ⟨by simp [List.mem_eraseDups], nodup_eraseDups n _ ?_⟩
    exact le_trans (List.length_filter_le _ _) (by simpa using h)

theorem State.logGang_nil (s : State) (g : Gang) (i : Instr) (age : Nat → Nat) : s.logGang g i age [] = s := by
  unfold State.logGang
  generalize g.cohorts = cs
  induction cs with
  | nil => rfl
  | cons c cs ih => simp [State.logLanes]

theorem State.foldl_logOne (s : State) (g : Gang) (i : Instr) (age : Nat → Nat) (u : Unfinished) (cs : List Nat)
    (hn : cs.Nodup) : cs.foldl (fun s c => s.logLanes i g.pc (age c) ([u].filter fun u => u.t.cohort == c)) s =
      if u.t.cohort ∈ cs then s.logLanes i g.pc (age u.t.cohort) [u] else s := by
  induction cs generalizing s with
  | nil => rfl
  | cons c cs ih =>
    rw [List.nodup_cons] at hn
    rw [List.foldl_cons, ih _ hn.2]
    by_cases h : u.t.cohort = c
    · subst h
      simp [hn.1]
    · simp [h, State.logLanes]

/-- One unfinished lane of a gang's cohort joins its cohort's log. -/
theorem State.logGang_one (s : State) (g : Gang) (i : Instr) (age : Nat → Nat) (u : Unfinished) (h : u.t ∈ g.tids) :
    s.logGang g i age [u] = s.logLanes i g.pc (age u.t.cohort) [u] := by
  unfold State.logGang Gang.cohorts
  rw [State.foldl_logOne _ _ _ _ _ _ (nodup_eraseDups _ _ le_rfl), if_pos]
  simp only [Gang.tids, List.mem_map] at h
  obtain ⟨m, hm, e⟩ := h
  simp only [List.mem_eraseDups, List.mem_map]
  exact ⟨m, hm, by rw [← e]⟩

/-- A LANE-BY-LANE WORD that one thread runs comes to what its lane comes to. -/
theorem State.laneWord_one (s : State) (i : Instr) (cap : Tid → Thread → LaneOps) (f : LaneStep) (u : Tid) (x : Thread)
    (h : s.mayIssue i = true) (hu : s.runs i u x) (ha : s.alone i u (cap u x)) :
    s.laneWord i cap f = s.laneEnd i u (cap u x) (f u (cap u x) (s.control i)) := by
  unfold State.laneWord
  rw [State.issue_eq s i true _ h fun _ => rfl]
  simp only
  rw [State.laneJobs_one s i u x h hu ha.1]
  simp only [State.runLanes, State.oneLane, ha.2, Bool.false_eq_true, if_false, List.append_nil]
  cases hf : f u (cap u x) (s.control i) with
  | event k d a s' =>
    simp only [Option.toList_some]
    rw [State.logGang_one _ _ _ _ _ hu.1]
    rfl
  | done r s' =>
    simp only [State.laneEnd]
    split <;> simp only [Option.toList_none, State.logGang_nil] <;> rfl
  | later s' =>
    simp only [State.laneEnd]
    split <;> simp only [Option.toList_none, State.logGang_nil] <;> rfl
  | wait c held s' =>
    simp only [State.laneEnd]
    split <;> simp only [Option.toList_none, State.logGang_nil] <;> rfl

/-! ### Words without lane events -/

/-- A PLAIN WORD that one thread runs. -/
theorem State.plainWord_one (s : State) (i : Instr) (extra : Bool) (f : Tid → Thread → State → State) (u : Tid) (x : Thread)
    (h : s.mayIssue i = true) (he : extraOk i s = true → extra = true) (hu : s.runs i u x)
    (ha : (s.control i).active i = [u]) :
    s.plainWord i extra f = (f u x (s.control i)).over i u ⟨[], 0, none⟩ := by
  have hk : tidOk u := (State.active_ok h).1 u (State.runs_active hu)
  unfold State.plainWord
  rw [State.issue_eq s i extra _ h he]
  simp only
  rw [ha, byLane_one u hk.2.2]
  simp [hu.2.1, State.deliverAll, State.over]

/-- A plain word that one thread runs for a value. -/
theorem State.valueWord_one (s : State) (i : Instr) (extra : Bool) (f : Tid → Thread → State → State × Late) (u : Tid)
    (x : Thread) (h : s.mayIssue i = true) (he : extraOk i s = true → extra = true) (hu : s.runs i u x)
    (ha : (s.control i).active i = [u]) :
    s.valueWord i extra f = (f u x (s.control i)).1.over i u (f u x (s.control i)).2 := by
  have hk : tidOk u := (State.active_ok h).1 u (State.runs_active hu)
  unfold State.valueWord
  rw [State.issue_eq s i extra _ h he]
  simp only
  rw [ha, byLane_one u hk.2.2]
  simp [hu.2.1, State.over]

end Sys2Proof.Machine
end

