-- ==== Sys2Proof/Tests/Slice0.lean ====
section
/-! SUPPORT. Small tests of single steps, words written out from the spec's encodings, an ill-formed term for each check of
WellFormed, and a witness for the hypotheses of every statement. A `witness_<Name>` shows a concrete state that meets the
hypotheses of `Obligations.<Name>` or `Claims.<Name>`, clause by clause. -/

namespace Sys2Proof.Tests
open Sys2Proof Sys2Proof.Machine Sys2Proof.Claims

set_option Elab.async false

/-! ### A small machine -/

/-- A word without a guard or a tag, and one that allocates t2. -/
def plain : Hd := ⟨⟨0, 15, 0⟩, ⟨false, 63⟩⟩
def tagged : Hd := ⟨⟨0, 2, 0⟩, ⟨false, 63⟩⟩

/-- The one thread. -/
def t0 : Tid := ⟨0, 0, false, 0, 0⟩

/-- One thread of a resident team of system privilege, gathered at word 0, with these registers. -/
def solo (v : FMap Word) : State :=
  (State.reset.withFetchWord 80 0).modThread t0 fun x => { x with v := v }

/-- The thread as the word sees it. -/
def xOf (s : State) (i : Instr) : Thread := ((s.control i).thread? t0).getD (.launch 0 0)

/-- The thread may issue the word and runs it. -/
def runsB (s : State) (i : Instr) (u : Tid) : Bool :=
  s.mayIssue i && s.gang.tids.contains u &&
  match (s.control i).thread? u with
  | some x => x.guardOf i
  | none => false

theorem runs_of {s : State} {i : Instr} (h : runsB s i t0 = true) : s.mayIssue i = true ∧ s.runs i t0 (xOf s i) := by
  simp only [runsB, Bool.and_eq_true] at h
  obtain ⟨⟨h1, h2⟩, h3⟩ := h
  refine ⟨h1, by simpa using h2, ?_⟩
  unfold xOf
  split at h3
  · next x hx => rw [hx]; exact ⟨rfl, h3⟩
  · cases h3

/-- It is the only one. -/
def soleB (s : State) (i : Instr) : Bool := runsB s i t0 && (s.control i).active i == [t0]

theorem sole_of {s : State} {i : Instr} (h : soleB s i = true) : runsSole s i t0 (xOf s i) := by
  simp only [soleB, Bool.and_eq_true, beq_iff_eq] at h
  exact ⟨(runs_of h.1).1, (runs_of h.1).2, h.2⟩

/-- No older access of it to the same page is unfinished. -/
def aloneB (s : State) (i : Instr) (ops : LaneOps) : Bool :=
  soleB s i && !(s.control i).behind t0 i ops (s.wordAge t0)

theorem alone_of {s : State} {i : Instr} {ops : LaneOps} (h : aloneB s i ops = true) : runsAlone s i t0 (xOf s i) ops := by
  simp only [aloneB, Bool.and_eq_true, Bool.not_eq_true'] at h
  exact ⟨(sole_of h.1).1, (sole_of h.1).2.1, (sole_of h.1).2.2, h.2⟩

/-! ### Decoding -/

def dec (w : Nat) : Option Instr := (decode (BitVec.ofNat 80 w)).toOption
def ctl15 : Ctl := ⟨3, 15, 0x0A5⟩
def hd15 : Hd := ⟨ctl15, ⟨true, 9⟩⟩
def hd2 : Hd := ⟨⟨3, 2, 0x0A5⟩, ⟨true, 9⟩⟩

theorem test_decode_integer_a :
      dec 0x7E14A002481A0701E003 = some (.iadd hd15 .n true 13 14 15)
    ∧ dec 0x7E14A0064F0802FFE002 = some (.isub hd15 .s true 900 5 1023)
    ∧ dec 0x7E14A00A480601002001 = some (.imul hd15 .n false 3 2 1)
    ∧ dec 0x7E14A00E480E04012001 = some (.imulhi hd15 .n 7 8 9)
    ∧ dec 0x7E14A012480C03812055 = some (.imad hd15 .n .wide 6 7 9 10)
    ∧ dec 0x7E14A01248020100602A = some (.imad hd15 .s .sat 1 2 3 5)
    ∧ dec 0x7E14A016480C04006004 = some (.iadd64 hd15 .s false true 6 8 3)
    ∧ dec 0x7E14A01A48080280C001 = some (.imin hd15 .n 4 5 6)
    ∧ dec 0x7E14A01E48080280C000 = some (.imax hd15 .s 4 5 6)
    ∧ dec 0x7E14A022480802800002 = some (.iabs hd15 true 4 5)
    ∧ dec 0x7E14A026480802800000 = some (.ineg hd15 false 4 5) := by
  decide

theorem test_decode_integer_b :
      dec 0x7E14A02A480803010003 = some (.iand hd15 true true 4 6 8)
    ∧ dec 0x7E14A02E480A03812002 = some (.ior hd15 false true 5 7 9)
    ∧ dec 0x7E14A032480803010001 = some (.ixor hd15 true false 4 6 8)
    ∧ dec 0x7E14A036480803000001 = some (.inot hd15 true 4 6)
    ∧ dec 0x7E14A03A480803012001 = some (.ishl hd15 true false 4 6 9)
    ∧ dec 0x7E14A03E480A03812002 = some (.ishr hd15 false true 5 7 9)
    ∧ dec 0x7E14A042480803012003 = some (.isar hd15 true true 4 6 9)
    ∧ dec 0x7E14A046480803012002 = some (.irot hd15 false true 4 6 9)
    ∧ dec 0x7E14A04A480803012001 = some (.bfx hd15 true 4 6 9)
    ∧ dec 0x7E14A04E480803012058 = some (.bfi hd15 4 6 9 11)
    ∧ dec 0x7E14A052480A03000001 = some (.popc hd15 true 5 6) := by
  decide

theorem test_decode_integer_c :
      dec 0x7E14A056480A03800000 = some (.clz hd15 false 5 7)
    ∧ dec 0x7E14A05A480A03000001 = some (.ctz hd15 true 5 6)
    ∧ dec 0x7E14A05E480803000001 = some (.brev hd15 true 4 6)
    ∧ dec 0x7E14A062480803012058 = some (.prmt hd15 4 6 9 11)
    ∧ dec 0x7E14A066487C0301000C = some (.icmp hd15 .ltu true 62 6 8)
    ∧ dec 0x7E14A06A4808030101F9 = some (.isel hd15 true 4 6 8 63)
    ∧ dec 0x7E14A06E480A03800000 = some (.mov hd15 false 5 7)
    ∧ dec 0x7E14A072480803012007 = some (.lea hd15 true 3 4 6 9)
    ∧ dec 0x7E14A076480A0300E05A = some (.shfl hd15 .rot 5 6 7 11)
    ∧ dec 0x7E14A07A4D781F00201D = some (.vote hd15 .first true 700 62 3)
    ∧ dec 0x7E14A07E480A03800014 = some (.cred hd15 .maxN 5 7 2)
    ∧ dec 0x7E14A082480A03800000 = some (.srd hd15 5 .quad) := by
  decide

theorem test_decode_immediate :
      dec 0x7E14A102480802FFFFE8 = some (.iaddI hd15 4 5 0xFFFFD)
    ∧ dec 0x7E14A10A480802FFFFE8 = some (.imulI hd15 4 5 0xFFFFD)
    ∧ dec 0x7E14A11A480802FFFFE8 = some (.iminI hd15 4 5 0xFFFFD)
    ∧ dec 0x7E14A11E480802FFFFE8 = some (.imaxI hd15 4 5 0xFFFFD)
    ∧ dec 0x7E14A12A480802FFFFE8 = some (.iandI hd15 4 5 0xFFFFD)
    ∧ dec 0x7E14A12E480802FFFFE8 = some (.iorI hd15 4 5 0xFFFFD)
    ∧ dec 0x7E14A132480802FFFFE8 = some (.ixorI hd15 4 5 0xFFFFD)
    ∧ dec 0x7E14A13A480802800478 = some (.ishlI hd15 4 5 0x8F)
    ∧ dec 0x7E14A13E480802800478 = some (.ishrI hd15 4 5 0x8F)
    ∧ dec 0x7E14A142480802800478 = some (.isarI hd15 4 5 0x8F)
    ∧ dec 0x7E14A146480802800478 = some (.irotI hd15 4 5 0x8F) := by
  decide

theorem test_decode_immediate_fields :
      dec 0x7E14A14A480802890C18 = some (.bfxI hd15 true 0x21 0x83 4 5)
    ∧ dec 0x7E14A14E480802810C18 = some (.bfiI hd15 0x21 0x83 4 5)
    ∧ dec 0x7E14A162480802C210F8 = some (.prmtI hd15 4 5 0x8421F)
    ∧ dec 0x7E14A1724808037FFFC0 = some (.leaI hd15 4 6 0xFFFF8)
    ∧ dec 0x7E14A176480802802DF8 = some (.shflI hd15 .shift 0x1F 11 4 5)
    ∧ dec 0x7E14A1FD5006F56DF77D = some (.movi ctl15 false 0x155 0xDEADBEEF)
    ∧ dec 0x7E14A1FEAED6DF77E57A = some (.movi ctl15 true 0x2AA 0x5ADBEEFCAF) := by
  decide

theorem test_decode_predicate :
      dec 0x7E14A20248060207E001 = some (.pand hd15 true false 3 4 63)
    ∧ dec 0x7E14A20648060200A002 = some (.por hd15 false true 3 4 5)
    ∧ dec 0x7E14A20A48060200A003 = some (.pxor hd15 true true 3 4 5)
    ∧ dec 0x7E14A20E480602000000 = some (.pnot hd15 3 4)
    ∧ dec 0x7E14A212480602000000 = some (.pmov hd15 3 4)
    ∧ dec 0x7E14A216480605800001 = some (.psetm hd15 true 3 11)
    ∧ dec 0x7E14A21A48061F000002 = some (.mfromp hd15 .andn 3 62)
    ∧ dec 0x7E14A21E48060200A004 = some (.mset hd15 .andn 3 4 5)
    ∧ dec 0x7E14A21E480600000005 = some (.mset hd15 .gang 3 0 0)
    ∧ dec 0x7E14A222483C02000001 = some (.mget hd15 true 30 4) := by
  decide

theorem test_decode_control :
      dec 0x7E14A2424801FFFFFFE0 = some (.bra hd15 0x3FFFFFFC)
    ∧ dec 0x7E14A246480004000000 = some (.brx hd15 8)
    ∧ dec 0x7E14A24A480091A2B3C0 = some (.call hd15 0x12345678)
    ∧ dec 0x7E14A24E480004000000 = some (.callx hd15 8)
    ∧ dec 0x7E14A252480000000000 = some (.ret hd15)
    ∧ dec 0x7E14A256480000000000 = some (.exit hd15)
    ∧ dec 0x7E14A25A480000000000 = some (.yield hd15)
    ∧ dec 0x7E14A25E480000000000 = some (.nop hd15)
    ∧ dec 0x7E14A262480A00000000 = some (.mjoin hd15 5)
    ∧ dec 0x7E14A266480A00000000 = some (.mleave hd15 5)
    ∧ dec 0x7E14A26A480002800000 = some (.mwait hd15 5)
    ∧ dec 0x7E14A26E4801FF800000 = some (.svc hd15 1023)
    ∧ dec 0x7E14A272480003800000 = some (.brk hd15 7) := by
  decide

theorem test_decode_float_a :
      dec 0x7E14A40248080280C005 = some (.fadd hd15 .rz true 4 5 6)
    ∧ dec 0x7E14A40648080280C002 = some (.fsub hd15 .rm false 4 5 6)
    ∧ dec 0x7E14A40A48080280C007 = some (.fmul hd15 .rp true 4 5 6)
    ∧ dec 0x7E14A40E48080280C03C = some (.ffma hd15 .rn true 4 5 6 7)
    ∧ dec 0x7E14A41248080280C004 = some (.fmin hd15 true 4 5 6)
    ∧ dec 0x7E14A41648080280C000 = some (.fmax hd15 false 4 5 6)
    ∧ dec 0x7E14A41A48080280C024 = some (.fcmp hd15 .gt .f32 true 4 5 6)
    ∧ dec 0x7E14A41A48080301000F = some (.fcmp hd15 .nan .f64 false 4 6 8)
    ∧ dec 0x7E14A41E480803010049 = some (.fsel hd15 true 4 6 8 9)
    ∧ dec 0x7E14A422480802800006 = some (.frnd hd15 .rm true 4 5)
    ∧ dec 0x7E14A42648080300103B = some (.fclass hd15 .f64 0x207 4 6)
    ∧ dec 0x7E14A42A48080280C001 = some (.xins hd15 .rz false 4 5 6)
    ∧ dec 0x7E14A42E480802800001 = some (.xget hd15 true 4 5) := by
  decide

theorem test_decode_float_b :
      dec 0x6414A442480802800007 = some (.frcp hd2 .rp true 4 5)
    ∧ dec 0x6414A446480802800004 = some (.frsq hd2 true 4 5)
    ∧ dec 0x6414A44A480802800001 = some (.fsqrt hd2 .rz false 4 5)
    ∧ dec 0x6414A44E480802800004 = some (.fexp2 hd2 true 4 5)
    ∧ dec 0x6414A452480802800004 = some (.flog2 hd2 true 4 5)
    ∧ dec 0x6414A456480802800004 = some (.fsinp hd2 true 4 5)
    ∧ dec 0x6414A45A480802800004 = some (.fcosp hd2 true 4 5)
    ∧ dec 0x7E14A48248080280C005 = some (.hadd2 hd15 true .rz 4 5 6)
    ∧ dec 0x7E14A48648080280C003 = some (.hmul2 hd15 false .rp 4 5 6)
    ∧ dec 0x7E14A48A48080280C03C = some (.hfma2 hd15 true .rn 4 5 6 7) := by
  decide

theorem test_decode_float_c :
      dec 0x6414A4C2480803010001 = some (.dadd hd2 .rz 4 6 8)
    ∧ dec 0x6414A4C6480803010002 = some (.dmul hd2 .rm 4 6 8)
    ∧ dec 0x6414A4CA480803010053 = some (.dfma hd2 .rp 4 6 8 10)
    ∧ dec 0x7E14A5024808029FC000 = some (.faddI hd15 4 5 0x3F800)
    ∧ dec 0x7E14A50A4808029FC000 = some (.fmulI hd15 4 5 0x3F800)
    ∧ dec 0x7E14A5124808029FC000 = some (.fminI hd15 4 5 0x3F800)
    ∧ dec 0x7E14A5164808029FC000 = some (.fmaxI hd15 4 5 0x3F800) := by
  decide

theorem test_decode_convert :
      dec 0x7E14A702480A0335400C = some (.cvt hd15 .e5m2 .f32 .rna true false 5 6)
    ∧ dec 0x7E14A702480803AC4010 = some (.cvt hd15 .f64 .s32 .rn false true 4 7)
    ∧ dec 0x6414A70648080280D04D = some (.qcvt hd2 .e2m1 .bf16 .rz true 4 5 6)
    ∧ dec 0x6414A70A48080280CA7B = some (.dqcvt hd2 .f32 .e3m2 .rp false 4 5 6)
    ∧ dec 0x6414A70E480803010B94 = some (.ldmx hd2 .e2m1 ⟨.acquire, .quad, true, .none, .keep⟩ 4 6 8)
    ∧ dec 0x6414A712480A0300160D = some (.stmx hd2 .dxb6 ⟨.release, .system, false, .none, .stream⟩ 5 6 0) := by
  decide

theorem test_decode_matrix :
      dec 0x7E14A8024D8420050241 = some (.mma hd15 .e4m3 true true 2 64 40 72)
    ∧ dec 0x6414A8024A3E20050248 = some (.mma hd2 .dxb6 false false 15 64 40 73)
    ∧ dec 0x7E14A806481200000000 = some (.acczero hd15 9)
    ∧ dec 0x6414A80A481203000402 = some (.accld hd2 .f16 ⟨.relaxed, .device, false, .none, .normal⟩ 9 6)
    ∧ dec 0x7E14A80E481203001221 = some (.accst hd15 .bf16 ⟨.release, .cluster, false, .fe, .normal⟩ 9 6)
    ∧ dec 0x6414A812480A04800000 = some (.accchk hd2 5 9) := by
  decide

theorem test_decode_memory :
      dec 0x6414A9024818147FE484 = some (.ld hd2 .n32 ⟨.relaxed, .device, true, .none, .normal⟩ 12 40 0x3FF)
    ∧ dec 0x6414A902481A14002D49 = some (.ld hd2 .s8 ⟨.acquire, .domain, false, .fec, .stream⟩ 13 40 1)
    ∧ dec 0x7E14A906481814005136 = some (.st hd15 .n128 ⟨.release, .team, false, .fe, .keep⟩ 12 40 2)
    ∧ dec 0x6414A90A48183F012025 = some (.ldg hd2 .n64 ⟨.relaxed, .cohort, false, .fe, .normal⟩ 12 0x7E 9)
    ∧ dec 0x6414A90E481A02012602 = some (.stg hd2 .n16 ⟨.relaxed, .system, false, .none, .normal⟩ 13 4 9)
    ∧ dec 0x6414A912480000001B00 = some (.fence hd2 ⟨.acqrel, .quad, false, .none, .normal⟩)
    ∧ dec 0x7E14A916480014400002 = some (.prefetch hd15 .page 40 0x200)
    ∧ dec 0x7E14A91A480014000002 = some (.cachectl hd15 .ccinv 40)
    ∧ dec 0x7E14A91A480000000004 = some (.cachectl hd15 .icall 0) := by
  decide

theorem test_decode_scratch_copy :
      dec 0x6414A91E48080280C001 = some (.salloc hd2 true false 4 5 6)
    ∧ dec 0x6414A91E480802800002 = some (.salloc hd2 false true 4 5 0)
    ∧ dec 0x7E14A922480014000000 = some (.sfree hd15 40)
    ∧ dec 0x7E14A92648001400E000 = some (.srenew hd15 40 7)
    ∧ dec 0x7E14A92A480014000000 = some (.poison hd15 40)
    ∧ dec 0x7E14A92E480000000000 = some (.winpub hd15)
    ∧ dec 0x7E14A932480000000000 = some (.winacq hd15)
    ∧ dec 0x7E14A936480000000000 = some (.tcommit hd15)
    ∧ dec 0x6414A942480A14054001 = some (.tcopy hd2 true 5 40 42)
    ∧ dec 0x6414A946480A14000000 = some (.tcopyq hd2 false 5 40 0)
    ∧ dec 0x6414A94A480A14054001 = some (.tmcast hd2 true 5 40 42)
    ∧ dec 0x7E14A94E480014800000 = some (.tcancel hd15 41) := by
  decide

theorem test_decode_atomic :
      dec 0x6414A982480A1400FC04 = some (.atomAdd hd2 .f32 ⟨.acqrel, .device, false, .none, .normal⟩ 5 40 7)
    ∧ dec 0x6414A986480C14011003 = some (.atomSub hd2 .n64 ⟨.release, .cohort, false, .none, .normal⟩ 6 40 8)
    ∧ dec 0x6414A98A480A1400FC00 = some (.atomMin hd2 .s32 ⟨.acqrel, .device, false, .none, .normal⟩ 5 40 7)
    ∧ dec 0x6414A98E480C14011002 = some (.atomMax hd2 .s64 ⟨.release, .cohort, false, .none, .normal⟩ 6 40 8)
    ∧ dec 0x6414A992480C14011C03 = some (.atomAnd hd2 .n64 ⟨.acqrel, .device, false, .none, .normal⟩ 6 40 8)
    ∧ dec 0x6414A996480A1400F001 = some (.atomOr hd2 .n32 ⟨.release, .cohort, false, .none, .normal⟩ 5 40 7)
    ∧ dec 0x6414A99A480C14011C03 = some (.atomXor hd2 .n64 ⟨.acqrel, .device, false, .none, .normal⟩ 6 40 8)
    ∧ dec 0x6414A99E480A1400F001 = some (.atomExch hd2 .n32 ⟨.release, .cohort, false, .none, .normal⟩ 5 40 7)
    ∧ dec 0x6414A9A2480C14011C03 = some (.atomCas hd2 .n64 ⟨.acqrel, .device, false, .none, .normal⟩ 6 40 8) := by
  decide

theorem test_decode_reduction :
      dec 0x7E14A9C248001400E30C = some (.redAdd hd15 .f32 ⟨.relaxed, .quad, false, .none, .stream⟩ 40 7)
    ∧ dec 0x7E14A9C6480014010602 = some (.redSub hd15 .s64 ⟨.relaxed, .system, false, .none, .normal⟩ 40 8)
    ∧ dec 0x7E14A9CA48001400E309 = some (.redMin hd15 .n32 ⟨.relaxed, .quad, false, .none, .stream⟩ 40 7)
    ∧ dec 0x7E14A9CE480014010603 = some (.redMax hd15 .n64 ⟨.relaxed, .system, false, .none, .normal⟩ 40 8)
    ∧ dec 0x7E14A9D248001400E309 = some (.redAnd hd15 .n32 ⟨.relaxed, .quad, false, .none, .stream⟩ 40 7)
    ∧ dec 0x7E14A9D6480014010603 = some (.redOr hd15 .n64 ⟨.relaxed, .system, false, .none, .normal⟩ 40 8)
    ∧ dec 0x7E14A9DA48001400E309 = some (.redXor hd15 .n32 ⟨.relaxed, .quad, false, .none, .stream⟩ 40 7) := by
  decide

theorem test_decode_queue :
      dec 0x7E14AC0248001400E000 = some (.wpost hd15 40 7)
    ∧ dec 0x7E14AC06480A03800000 = some (.qpush hd15 5 7)
    ∧ dec 0x6414AC0A481801000000 = some (.qpop hd2 12 2)
    ∧ dec 0x7E14AC0E481A04000000 = some (.fpush hd15 13 8)
    ∧ dec 0x6414AC12481006800000 = some (.fpop hd2 8 13)
    ∧ dec 0x7E14AC1648001405403A = some (.msend hd15 .c2w 40 42 7)
    ∧ dec 0x7E14AC16480000054039 = some (.msend hd15 .c2a 0 42 7)
    ∧ dec 0x6414AC1A480E14000000 = some (.glaunch hd2 7 40)
    ∧ dec 0x6414AC1E480E04800000 = some (.gwait hd2 7 9) := by
  decide

theorem test_decode_table :
      dec 0x7E14AD0248001400E001 = some (.tlbinv hd15 .range 40 7)
    ∧ dec 0x7E14AD02480000000002 = some (.tlbinv hd15 .vf 0 0)
    ∧ dec 0x6414AD06481014000000 = some (.pgprobe hd2 8 40)
    ∧ dec 0x6414AD0A48281400C018 = some (.kvx hd2 .addr 20 40 6 3)
    ∧ dec 0x6414AD0A48281400001A = some (.kvx hd2 .last 20 40 0 3)
    ∧ dec 0x7E14AD0E48001400E000 = some (.winctl hd15 false 40 7)
    ∧ dec 0x7E14AD1248000000E001 = some (.gatectl hd15 true 0 7) := by
  decide

theorem test_decode_counter :
      dec 0x7E14AE0248001400E000 = some (.barInit hd15 40 7)
    ∧ dec 0x6414AE0648140F018005 = some (.barArrive hd2 true .pledge 10 30 12)
    ∧ dec 0x6414AE0648140F018002 = some (.barArrive hd2 false .many 10 30 12)
    ∧ dec 0x7E14AE0A48001400E000 = some (.barExpect hd15 40 7)
    ∧ dec 0x7E14AE0E48001400E001 = some (.barWait hd15 true 40 7)
    ∧ dec 0x6414AE12480A1400E000 = some (.barTry hd2 false 5 40 7)
    ∧ dec 0x7E14AE16480014000000 = some (.barInval hd15 40)
    ∧ dec 0x7E14AE1A48000480E000 = some (.semSig hd15 9 7)
    ∧ dec 0x7E14AE1E48000480E000 = some (.semWait hd15 9 7)
    ∧ dec 0x6414AE22480A00000001 = some (.rdclk hd2 true 5)
    ∧ dec 0x6414AE26480803800000 = some (.rdperf hd2 4 7) := by
  decide

theorem test_decode_system :
      dec 0x6414AF02480C20000000 = some (.csrr hd2 6 0x040)
    ∧ dec 0x7E14AF06484E02800002 = some (.csrw hd15 .clr 0x027 5)
    ∧ dec 0x6414AF0A482814000000 = some (.sread hd2 20 40)
    ∧ dec 0x7E14AF0E480014000000 = some (.eret hd15 40)
    ∧ dec 0x7E14AF12480000000000 = some (.halt hd15) := by
  decide

theorem test_decode_paired :
      dec 0x9E0018020242810D0E0F = some (.pairedWord ⟨4, 15, 0⟩ ⟨.fadd, 8, 9, 10⟩ ⟨.iadd, 13, 14, 15⟩)
    ∧ dec 0x9E00174040BF68FF0407 = some (.pairedWord ⟨4, 15, 0⟩ ⟨.isarI, 1, 2, 0xFD⟩ ⟨.hmul2B, 255, 4, 7⟩) := by
  decide

theorem witness_IntegerResults : ∃ (i : Instr) (f : Thread → Res) (s : State) (x : Thread),
    Claims.intResult i = some f ∧ s.mayIssue i = true ∧ s.runs i t0 x :=
  ⟨.iadd plain .s true 3 4 1023, _, solo [(4, 0x7FFFFFFF), (1023, 1)], _, rfl, runs_of (by decide)⟩

theorem witness_PredicateResults : ∃ (i : Instr) (f : Thread → Res) (s : State) (x : Thread),
    predResult s t0 i = some f ∧ s.mayIssue i = true ∧ s.runs i t0 x :=
  ⟨.srd plain 3 .vf, _, solo [], _, rfl, runs_of (by decide)⟩

theorem witness_FloatResults : ∃ (i : Instr) (f : Thread → Res) (s : State) (x : Thread),
    floatResult i = some f ∧ s.mayIssue i = true ∧ s.runs i t0 x :=
  ⟨.fcmp plain .lt .f64 false 62 4 6, _, solo [(4, 1)], _, rfl, runs_of (by decide)⟩

theorem witness_PairedResults : ∃ (c : Ctl) (h0 h1 : Half) (s : State) (x : Thread),
    s.mayIssue (.pairedWord c h0 h1) = true ∧ s.runs (.pairedWord c h0 h1) t0 x :=
  ⟨⟨4, 15, 0⟩, ⟨.fadd, 8, 9, 10⟩, ⟨.iadd, 13, 14, 15⟩, solo [], _, runs_of (by decide)⟩

theorem witness_FunctionResults : ∃ (i : Instr) (f : Thread → List Word × BitVec 6) (s : State) (x : Thread),
    functionResult i = some f ∧ s.mayIssue i = true ∧ s.runs i t0 x :=
  ⟨.frcp tagged .rz true 3 4, _, solo [], _, rfl, runs_of (by decide)⟩

/-- Lanes 0 and 1 of one cohort, gathered; m1 holds a mask. -/
def duo (m : Word) : State :=
  let s := (State.reset.withFetchWord 80 0).setThread ⟨0, 0, false, 0, 1⟩ (.launch 0 0)
  { s with gang := ⟨0, 0, false, 0, [(0, 0), (0, 1)]⟩
           cohorts := [(0, { Cohort.launch 3 with m := [(0, 3), (1, m)] })] }

/-- In the mask, and outside it. -/
theorem witness_CollectiveResults : ∃ (i : Instr) (f : List (Nat × Thread) → Nat → Thread → Res),
    collectiveResult i = some f ∧
    (∃ (s : State) (x : Thread), s.mayIssue i = true ∧ s.gang.cohorts = [0] ∧ s.runs i t0 x ∧
      (s.collectiveMask i 0).getLsbD 0 = true) ∧
    ∃ (s : State) (x : Thread), s.mayIssue i = true ∧ s.gang.cohorts = [0] ∧ s.runs i t0 x ∧
      (s.collectiveMask i 0).getLsbD 0 = false :=
  ⟨.shfl plain .rot 3 4 5 1, _, rfl,
    ⟨duo 3, _, (runs_of (by decide)).1, by decide, (runs_of (by decide)).2, by decide⟩,
    ⟨duo 0, _, (runs_of (by decide)).1, by decide, (runs_of (by decide)).2, by decide⟩⟩

theorem witness_MaskWords_written : ∃ (i : Instr) (s : State) (x : Thread) (k : Cohort) (r : MReg × LaneMask × Word),
    s.mayIssue i = true ∧ s.runs i t0 x ∧ s.cohort? s.gang.core s.gang.slot s.gang.access 0 = some k ∧
    maskResult s k 0 i = some r :=
  ⟨.mfromp plain .andn 11 62, duo 3, _, _, _, (runs_of (by decide)).1, (runs_of (by decide)).2, rfl, rfl⟩

theorem witness_MaskWords_mwait : (duo 3).mayIssue (.mwait plain 1) = true := by decide

/-- The gang stands at word `pc`. -/
def soloAt (pc : Nat) (v : FMap Word) : State :=
  let s := (solo v).modThread t0 fun x => { x with pc := pc }
  { s with gang := { s.gang with pc := pc } }

/-- bra to the first word of the code space, to its last, and past each end. -/
theorem witness_Branches_bra :
    (∃ x, (soloAt 3 []).mayIssue (.bra plain 0x3FFFFFFD) = true ∧ (soloAt 3 []).runs (.bra plain 0x3FFFFFFD) t0 x ∧
      (3 : Int) + (0x3FFFFFFD#30).toInt = 0) ∧
    (∃ x, (soloAt 3 []).mayIssue (.bra plain 0x3FFFFFFC) = true ∧ (soloAt 3 []).runs (.bra plain 0x3FFFFFFC) t0 x ∧
      (3 : Int) + (0x3FFFFFFC#30).toInt < 0) ∧
    (∃ x, (soloAt (6 * 2 ^ 50 - 2) []).mayIssue (.bra plain 1) = true ∧
      (soloAt (6 * 2 ^ 50 - 2) []).runs (.bra plain 1) t0 x) ∧
    ∃ x, (soloAt (6 * 2 ^ 50 - 2) []).mayIssue (.bra plain 2) = true ∧
      (soloAt (6 * 2 ^ 50 - 2) []).runs (.bra plain 2) t0 x :=
  ⟨⟨_, (runs_of (by decide)).1, (runs_of (by decide)).2, by decide⟩,
    ⟨_, (runs_of (by decide)).1, (runs_of (by decide)).2, by decide⟩,
    ⟨_, runs_of (by decide)⟩, ⟨_, runs_of (by decide)⟩⟩

/-- brx to slot 5 of line 1, and to offset 6 of it, which is no slot. -/
theorem witness_Branches_brx :
    (∃ x, (solo [(4, 0x45)]).mayIssue (.brx plain 4) = true ∧ (solo [(4, 0x45)]).runs (.brx plain 4) t0 x) ∧
    codeMisaligned (((xOf (solo [(4, 0x45)]) (.brx plain 4)).rv64 4)) = false ∧
    (∃ x, (solo [(4, 0x46)]).mayIssue (.brx plain 4) = true ∧ (solo [(4, 0x46)]).runs (.brx plain 4) t0 x) ∧
    codeMisaligned (((xOf (solo [(4, 0x46)]) (.brx plain 4)).rv64 4)) = true :=
  ⟨⟨_, runs_of (by decide)⟩, by decide, ⟨_, runs_of (by decide)⟩, by decide⟩

theorem pair_of {α β : Type} {x : α × β} {a : α} (h : x.1 = a) : x = (a, x.2) := by rw [← h]
/-- A read-write page of 64 KiB: virtual page, frame. -/
def page (n frame : Nat) : TlbEntry := ⟨0, n, false, 2 + 2 ^ 8 + 2 ^ 9 + 2 ^ 12 + frame * 2 ^ 64, 0, none⟩

/-- The thread with pages 0 and 16 in the TLB, and an allocation of two live lines of cluster memory; v4 names page 16,
v6 the second line. -/
def based (v : FMap Word) : State :=
  let s := solo ([(4, 0x100000), (6, 0x200), (7, 0x01000000)] ++ v)
  let s := s.modCore 0 fun c => { c with dtlb := [page 0 0x40000, page 16 0x20000] }
  let s := s.modTeam 0 0 fun t => { t with allocs := [⟨false, 0, 1024⟩] }
  let l : ScrLine := { ScrLine.reset with valid := true, written := true, lifetime := 100 }
  { s with scratch := [(0, l), (1, l)] }

/-- What a read gave: bytes, poison, or a publish on its way. -/
def gotB : Got → Nat × List Byte
  | .bytes bs _ => (0, bs)
  | .poison _ => (1, [])
  | .publish n _ => (2 + n, [])

theorem got_bytes {g : Got} {bs : List Byte} (h : gotB g = (0, bs)) : ∃ s, g = .bytes bs s := by
  cases g with
  | bytes b s => exact ⟨s, by simp only [gotB, Prod.mk.injEq] at h; rw [h.2]⟩
  | poison s => simp [gotB] at h
  | publish n s => simp [gotB] at h

theorem got_poison {g : Got} (h : gotB g = (1, [])) : ∃ s, g = .poison s := by
  cases g with
  | bytes b s => simp [gotB] at h
  | poison s => exact ⟨s, rfl⟩
  | publish n s => simp only [gotB, Prod.mk.injEq] at h; omega

theorem got_publish {g : Got} {n : Nat} (h : gotB g = (2 + n, [])) : ∃ s, g = .publish n s := by
  cases g with
  | bytes b s => simp only [gotB, Prod.mk.injEq] at h; omega
  | poison s => simp only [gotB, Prod.mk.injEq] at h; omega
  | publish m s => simp only [gotB, Prod.mk.injEq] at h; exact ⟨s, by rw [show m = n by omega]⟩

/-- The checks answer as given, and go on from some state. -/
theorem answers {α : Type} {x : α × State} {a : α} (h : x.1 = a) : ∃ s, x = (a, s) := ⟨x.2, by rw [← h]⟩

/-- A call with an empty stack. -/
theorem witness_Calls_call : ∃ (x : Thread) (g : Target) (va : Nat) (s2 : State),
    runsSole (based []) (.call plain 5) t0 x ∧ (0x10000 - x.sp) / 8 < 512 ∧
    ((based []).control (.call plain 5)).check t0 (Acc.store 8 .none) (privateWindow (x.sp - 8)) = (.mem g va, s2) := by
  obtain ⟨s2, h⟩ := answers (x := ((based []).control (.call plain 5)).check t0 (Acc.store 8 .none)
    (privateWindow ((xOf (based []) (.call plain 5)).sp - 8))) (a := .mem ⟨0x4FFF8, 0, 0, false, false, 0, none⟩ 0xFFF8) (by decide +kernel)
  exact ⟨_, _, _, s2, sole_of (by decide +kernel), by decide +kernel, h⟩

theorem witness_Calls_callx : ∃ (s : State) (x : Thread) (g : Target) (va : Nat) (s2 : State),
    runsSole s (.callx plain 8) t0 x ∧ codeMisaligned (x.rv64 8) = false ∧ (0x10000 - x.sp) / 8 < 512 ∧
    (s.control (.callx plain 8)).check t0 (Acc.store 8 .none) (privateWindow (x.sp - 8)) = (.mem g va, s2) := by
  obtain ⟨s2, h⟩ := answers (x := ((based [(8, 0x41)]).control (.callx plain 8)).check t0 (Acc.store 8 .none)
    (privateWindow ((xOf (based [(8, 0x41)]) (.callx plain 8)).sp - 8))) (a := .mem ⟨0x4FFF8, 0, 0, false, false, 0, none⟩ 0xFFF8) (by decide +kernel)
  exact ⟨based [(8, 0x41)], _, _, _, s2, sole_of (by decide +kernel), by decide +kernel, by decide +kernel, h⟩

/-- The stack pointer at `sp`. -/
def stacked (sp : Nat) : State := (based []).modThread t0 fun x => { x with sp := sp }

/-- 512 entries are one too many; 511 leave room. -/
theorem witness_Calls_full :
    runsSole (stacked 0xF000) (.call plain 5) t0 (xOf (stacked 0xF000) (.call plain 5)) ∧
    512 ≤ (0x10000 - (xOf (stacked 0xF000) (.call plain 5)).sp) / 8 ∧
    runsSole (stacked 0xF008) (.call plain 5) t0 (xOf (stacked 0xF008) (.call plain 5)) ∧
    (0x10000 - (xOf (stacked 0xF008) (.call plain 5)).sp) / 8 < 512 :=
  ⟨sole_of (by decide +kernel), by decide +kernel, sole_of (by decide +kernel), by decide +kernel⟩

/-- The check of an access by the thread. -/
def chk (s : State) (i : Instr) (c : Acc) (a : DWord) : Check × State := (s.control i).check t0 c a

/-- The frame of page 0 at the top of its stack. -/
def stackPlace : Target := ⟨0x4FFF8, 0, 0, false, false, 0, none⟩

/-- The state after the check of a return. -/
def popped : State := (chk (stacked 0xFFF8) (.ret plain) (Acc.load 8 .none) (privateWindow 0xFFF8)).2

theorem witness_Returns_ret : ∃ (s3 : State) (bs : List Byte),
    runsSole (stacked 0xFFF8) (.ret plain) t0 (xOf (stacked 0xFFF8) (.ret plain)) ∧
    (xOf (stacked 0xFFF8) (.ret plain)).sp = 0xFFF8 ∧
    chk (stacked 0xFFF8) (.ret plain) (Acc.load 8 .none) (privateWindow 0xFFF8) = (.mem stackPlace 0xFFF8, popped) ∧
    popped.readMem t0 stackPlace 8 stackMq = .bytes bs s3 ∧ codeMisaligned (BitVec.ofNat 64 (natLE bs)) = false := by
  have h2 : gotB (popped.readMem t0 stackPlace 8 stackMq) = (0, List.replicate 8 0) := by decide +kernel
  obtain ⟨s3, h3⟩ := got_bytes h2
  exact ⟨s3, _, sole_of (by decide +kernel), by decide +kernel, pair_of (by decide +kernel), h3, by decide +kernel⟩

theorem witness_Returns_empty : runsSole (based []) (.ret plain) t0 (xOf (based []) (.ret plain)) ∧
    (xOf (based []) (.ret plain)).sp = 0x10000 := ⟨sole_of (by decide +kernel), by decide +kernel⟩

/-- An entry of lane 0 that is unfinished. -/
def logged0 (i : Instr) : State :=
  (based []).modCohort 0 0 false 0 fun c =>
    { c with log := [(0, ⟨0, i, 0, [(0, ⟨0x100000, 0, 0, [7]⟩)], 1, 1, none, 0, 0⟩)], logAge := 1 }

theorem witness_ExitLeaves :
    ((based []).mayIssue (.exit plain) = true ∧ (based []).runs (.exit plain) t0 (xOf (based []) (.exit plain)) ∧
      ((based []).control (.exit plain)).unresolved t0 = false) ∧
    ∃ s : State, s.mayIssue (.exit plain) = true ∧ s.runs (.exit plain) t0 (xOf s (.exit plain)) ∧
      (s.control (.exit plain)).unresolved t0 = true :=
  ⟨⟨(runs_of (by decide +kernel)).1, (runs_of (by decide +kernel)).2, by decide +kernel⟩,
    logged0 (.st plain .n32 stackMq 8 4 0), (runs_of (by decide +kernel)).1, (runs_of (by decide +kernel)).2, by decide +kernel⟩

theorem witness_RaisedOnPurpose : ∃ tm, (based []).gangTeam = some tm ∧
    (∀ i ∈ [Instr.svc plain 1023, .brk plain 0], (based []).mayIssue i = true ∧ (based []).runs i t0 (xOf (based []) i)) := by
  refine ⟨_, rfl, ?_⟩
  intro i hi
  simp only [List.mem_cons, List.not_mem_nil, or_false] at hi
  rcases hi with rfl | rfl
  · exact runs_of (by decide +kernel)
  · exact runs_of (by decide +kernel)

/-! ### Memory words -/

def mqDev : Mq := ⟨.relaxed, .device, false, .none, .normal⟩
def mqAcq : Mq := ⟨.acquire, .device, false, .none, .normal⟩
def mqRel : Mq := ⟨.release, .device, false, .none, .normal⟩
def mqFe : Mq := ⟨.relaxed, .device, false, .fe, .normal⟩

/-- Page 16 of the thread's VF, at an offset. -/
def place16 (o : Nat) : Target := ⟨0x20000 + o, 0, 0, false, false, 0, none⟩

/-- What a load captures. -/
def opsOf (s : State) (i : Instr) : LaneOps := ⟨addressOf s (xOf s i) i, 0, 0, []⟩

/-- The 16 bytes at the end of the second scratch line. -/
def ldScr : Instr := .ld tagged .n128 mqDev 8 6 31

theorem witness_LoadsAnswer_scratch : runsAlone (based []) ldScr t0 (xOf (based []) ldScr) (opsOf (based []) ldScr) ∧
    (chk (based []) ldScr (Acc.load 16 .none) (opsOf (based []) ldScr).a).1 = .scratch 0 1008 false ∧
    ∃ s3, (chk (based []) ldScr (Acc.load 16 .none) (opsOf (based []) ldScr).a).2.readScr t0 0 0 1008 16 mqDev =
      .bytes (List.replicate 16 0) s3 :=
  ⟨alone_of (by decide +kernel), by decide +kernel, got_bytes (by decide +kernel)⟩

/-- The first word of page 16. -/
def ldMem (q : Mq) : Instr := .ld tagged .n32 q 8 4 0

theorem witness_LoadsAnswer_memory :
    runsAlone (based []) (ldMem mqDev) t0 (xOf (based []) (ldMem mqDev)) (opsOf (based []) (ldMem mqDev)) ∧
    (chk (based []) (ldMem mqDev) (Acc.load 4 .none) 0x100000).1 = .mem (place16 0) 0x100000 ∧
    ∃ s3, (chk (based []) (ldMem mqDev) (Acc.load 4 .none) 0x100000).2.readMem t0 (place16 0) 4 mqDev =
      .bytes (List.replicate 4 0) s3 :=
  ⟨alone_of (by decide +kernel), by decide +kernel, got_bytes (by decide +kernel)⟩

/-- The page's first line is poisoned, or carries the writer record of a core of another cluster. -/
def spoiled : State := { based [] with poison := [(0x800, true)] }
def held : State := { based [] with writers := [(0x800, ⟨9, 0, 0, .cluster, 0, false⟩)] }

theorem witness_LoadsAnswer_poison :
    runsAlone spoiled (ldMem mqDev) t0 (xOf spoiled (ldMem mqDev)) (opsOf spoiled (ldMem mqDev)) ∧
    (chk spoiled (ldMem mqDev) (Acc.load 4 .none) 0x100000).1 = .mem (place16 0) 0x100000 ∧
    ∃ s3, (chk spoiled (ldMem mqDev) (Acc.load 4 .none) 0x100000).2.readMem t0 (place16 0) 4 mqDev = .poison s3 :=
  ⟨alone_of (by decide +kernel), by decide +kernel, got_poison (by decide +kernel)⟩

theorem witness_LoadsAnswer_publish :
    runsAlone held (ldMem mqAcq) t0 (xOf held (ldMem mqAcq)) (opsOf held (ldMem mqAcq)) ∧
    (chk held (ldMem mqAcq) (Acc.load 4 .none) 0x100000).1 = .mem (place16 0) 0x100000 ∧
    ∃ s3, (chk held (ldMem mqAcq) (Acc.load 4 .none) 0x100000).2.readMem t0 (place16 0) 4 mqAcq = .publish 0x800 s3 :=
  ⟨alone_of (by decide +kernel), by decide +kernel, got_publish (by decide +kernel)⟩

/-- An empty granule under .fe, and a byte past the last allocated line. -/
theorem witness_LoadsAnswer_rest :
    (runsAlone (based []) (.ld tagged .n32 mqFe 8 6 0) t0 (xOf (based []) (.ld tagged .n32 mqFe 8 6 0))
        (opsOf (based []) (.ld tagged .n32 mqFe 8 6 0)) ∧
      (chk (based []) (.ld tagged .n32 mqFe 8 6 0) (Acc.load 4 .fe) 0x0100000000000200).1 = .waits 0 1) ∧
    runsAlone (based []) (.ld tagged .n128 mqDev 8 6 32) t0 (xOf (based []) (.ld tagged .n128 mqDev 8 6 32))
        (opsOf (based []) (.ld tagged .n128 mqDev 8 6 32)) ∧
      (chk (based []) (.ld tagged .n128 mqDev 8 6 32) (Acc.load 16 .none) 0x0100000000000400).1 =
        .event 0x17 0 0x0100000000000400 :=
  ⟨⟨alone_of (by decide +kernel), by decide +kernel⟩, alone_of (by decide +kernel), by decide +kernel⟩

/-- What a store captures. -/
def opsSt (s : State) (i : Instr) (d : VReg) (sz : MSize) : LaneOps :=
  ⟨addressOf s (xOf s i) i, 0, 0, (xOf s i).group d.toNat sz.regs⟩

def stScr : Instr := .st plain .n64 mqDev 8 6 63
def stMem (q : Mq) : Instr := .st tagged .n64 q 8 4 0x1FF

theorem witness_StoresAct_scratch : runsAlone (based []) stScr t0 (xOf (based []) stScr) (opsSt (based []) stScr 8 .n64) ∧
    (chk (based []) stScr (Acc.store 8 .none) (opsSt (based []) stScr 8 .n64).a).1 = .scratch 0 1016 false :=
  ⟨alone_of (by decide +kernel), by decide +kernel⟩

theorem witness_StoresAct_memory :
    runsAlone (based []) (stMem mqDev) t0 (xOf (based []) (stMem mqDev)) (opsSt (based []) (stMem mqDev) 8 .n64) ∧
    (chk (based []) (stMem mqDev) (Acc.store 8 .none) 0x100FF8).1 = .mem (place16 0xFF8) 0x100FF8 ∧
    ((chk (based []) (stMem mqDev) (Acc.store 8 .none) 0x100FF8).2.writeMem t0 (place16 0xFF8)
      (stored .n64 (xOf (based []) (stMem mqDev)) 8) mqDev (some 2)).1 = true :=
  ⟨alone_of (by decide +kernel), by decide +kernel, by decide +kernel⟩

theorem witness_StoresAct_release :
    runsAlone (based []) (stMem mqRel) t0 (xOf (based []) (stMem mqRel)) (opsSt (based []) (stMem mqRel) 8 .n64) ∧
    (chk (based []) (stMem mqRel) (Acc.store 8 .none) 0x100FF8).1 = .mem (place16 0xFF8) 0x100FF8 ∧
    ((chk (based []) (stMem mqRel) (Acc.store 8 .none) 0x100FF8).2.writeMem t0 (place16 0xFF8)
      (stored .n64 (xOf (based []) (stMem mqRel)) 8) mqRel (some 2)).1 = false :=
  ⟨alone_of (by decide +kernel), by decide +kernel, by decide +kernel⟩

/-- An address outside every window. -/
theorem witness_StoresAct_event :
    runsAlone (based [(8, 0), (9, 0x02000000)]) (.st plain .n32 mqDev 3 8 0) t0
      (xOf (based [(8, 0), (9, 0x02000000)]) (.st plain .n32 mqDev 3 8 0))
      (opsSt (based [(8, 0), (9, 0x02000000)]) (.st plain .n32 mqDev 3 8 0) 3 .n32) ∧
    (chk (based [(8, 0), (9, 0x02000000)]) (.st plain .n32 mqDev 3 8 0) (Acc.store 4 .none) 0x0200000000000000).1 =
      .event 0x14 0 0x0200000000000000 :=
  ⟨alone_of (by decide +kernel), by decide +kernel⟩

/-- A cas whose comparison succeeds at a bank; one in memory. -/
theorem witness_AtomicWords_bank :
    runsAlone (based []) (.atomCas tagged .n64 mqDev 8 6 12) t0 (xOf (based []) (.atomCas tagged .n64 mqDev 8 6 12))
      (atomicOps .cas .n64 (xOf (based []) (.atomCas tagged .n64 mqDev 8 6 12)) 6 12) ∧
    (chk (based []) (.atomCas tagged .n64 mqDev 8 6 12) (Acc.rmw 8 true) 0x0100000000000200).1 = .scratch 0 512 false ∧
    ∃ s3, (chk (based []) (.atomCas tagged .n64 mqDev 8 6 12) (Acc.rmw 8 true) 0x0100000000000200).2.readScr t0 0 0 512 8
      mqDev = .bytes (List.replicate 8 0) s3 :=
  ⟨alone_of (by decide +kernel), by decide +kernel, got_bytes (by decide +kernel)⟩

/-- What became of an atomic step: done, or an event. -/
def laneB : LaneOut → Nat
  | .done .. => 0
  | .event k .. => k + 3
  | .later _ => 1
  | .wait .. => 2

theorem lane_done {o : LaneOut} (h : laneB o = 0) : ∃ r s, o = .done r s := by
  cases o with
  | done r s => exact ⟨r, s, rfl⟩
  | event k d a s => simp [laneB] at h
  | later s => simp [laneB] at h
  | wait c b s => simp [laneB] at h

theorem lane_later {o : LaneOut} (h : laneB o = 1) : ∃ s, o = .later s := by
  cases o with
  | later s => exact ⟨s, rfl⟩
  | event k d a s => simp [laneB] at h
  | done r s => simp [laneB] at h
  | wait c b s => simp [laneB] at h

theorem lane_event {o : LaneOut} {k : Nat} (h : laneB o = k + 3) : ∃ d a s, o = .event k d a s := by
  cases o with
  | done r s => simp [laneB] at h
  | event n d a s => exact ⟨d, a, s, by simp only [laneB] at h; rw [show n = k by omega]⟩
  | later s => simp only [laneB] at h; omega
  | wait c b s => simp only [laneB] at h; omega

def redF : Instr := .redAdd plain .f32 mqDev 4 9
def atomM : Instr := .atomMin tagged .s32 mqDev 8 4 9

theorem witness_AtomicWords_memory :
    runsAlone (based []) redF t0 (xOf (based []) redF) (atomicOps .add .f32 (xOf (based []) redF) 4 9) ∧
    (chk (based []) redF (Acc.rmw 4 false) 0x100000).1 = .mem (place16 0) 0x100000 ∧
    ∃ r s, (chk (based []) redF (Acc.rmw 4 false) 0x100000).2.rmwMem t0 .add .f32 mqDev false (place16 0) 0x100000
      (atomicOps .add .f32 (xOf (based []) redF) 4 9) = .done r s :=
  ⟨alone_of (by decide +kernel), by decide +kernel, lane_done (by decide +kernel)⟩

theorem witness_AtomicWords_poison :
    runsAlone spoiled atomM t0 (xOf spoiled atomM) (atomicOps .min .s32 (xOf spoiled atomM) 4 9) ∧
    (chk spoiled atomM (Acc.rmw 4 true) 0x100000).1 = .mem (place16 0) 0x100000 ∧
    ∃ d a s, (chk spoiled atomM (Acc.rmw 4 true) 0x100000).2.rmwMem t0 .min .s32 mqDev true (place16 0) 0x100000
      (atomicOps .min .s32 (xOf spoiled atomM) 4 9) = .event 0x1E d a s :=
  ⟨alone_of (by decide +kernel), by decide +kernel, lane_event (by decide +kernel)⟩

theorem witness_AtomicWords_event :
    runsAlone (based []) (.atomExch tagged .n32 mqDev 8 10 9) t0 (xOf (based []) (.atomExch tagged .n32 mqDev 8 10 9))
      (atomicOps .exch .n32 (xOf (based []) (.atomExch tagged .n32 mqDev 8 10 9)) 10 9) ∧
    (chk (based [(10, 2)]) (.atomExch tagged .n32 mqDev 8 10 9) (Acc.rmw 4 true) 2).1 = .event 0x15 0 2 :=
  ⟨alone_of (by decide +kernel), by decide +kernel⟩

theorem witness_AtomicStep : (based []).stores = [] ∧ (based []).ccLine? 0 0 0x20000 = none ∧
    (∀ tm, (based []).teamOf t0 = some tm → tm.relaunchable = false) ∧ (place16 0).phys < 2 ^ 52 ∧
    (place16 0).phys % typeBytes .n64 = 0 ∧ (based []).poisoned (place16 0).phys 8 = false := by
  refine ⟨by decide +kernel, by decide +kernel, ?_, by decide +kernel, by decide +kernel, by decide +kernel⟩
  intro tm h
  have : ((based []).teamOf t0).map (·.relaunchable) = some false := by decide +kernel
  rw [h] at this
  simpa using this

/-! ### Order, caches, scratch -/

theorem witness_OrderWords :
    (∀ q ∈ [(⟨.acqrel, .system, false, .none, .normal⟩ : Mq), ⟨.acquire, .cohort, false, .none, .normal⟩],
      soleB (based []) (.fence plain q) = true) ∧
    runsSole (based []) (.winpub tagged) t0 (xOf (based []) (.winpub tagged)) ∧
    runsSole (based []) (.winacq tagged) t0 (xOf (based []) (.winacq tagged)) ∧
    runsSole (based []) (.tcommit tagged) t0 (xOf (based []) (.tcommit tagged)) ∧
    (((based []).control (.tcommit tagged)).teamOf t0).isSome = true :=
  ⟨by decide +kernel, sole_of (by decide +kernel), sole_of (by decide +kernel), sole_of (by decide +kernel),
    by decide +kernel⟩

/-- A prefetch of a page that is absent, and one of a page that is there. -/
theorem witness_CacheWords_prefetch :
    runsSole (based []) (.prefetch plain .page 8 0x1FF) t0 (xOf (based []) (.prefetch plain .page 8 0x1FF)) ∧
    (chk (based [(8, 0x500000)]) (.prefetch plain .page 8 0) (Acc.load 1 .none) 0x500000).1 = .event 0x11 0 0x500000 ∧
    runsSole (based []) (.prefetch plain .cluster 4 0x1FF) t0 (xOf (based []) (.prefetch plain .cluster 4 0x1FF)) ∧
    (chk (based []) (.prefetch plain .cluster 4 0x1FF) (Acc.load 1 .none) 0x107FC0).1 = .mem (place16 0x7FC0) 0x107FC0 :=
  ⟨sole_of (by decide +kernel), by decide +kernel, sole_of (by decide +kernel), by decide +kernel⟩

/-- The cluster cache holds the page's first line. -/
def filled : State := (based []).ccFill 0 (place16 0) .normal

theorem witness_CacheWords_cachectl :
    (∀ op ∈ [CacheOp.l1inv, .ccwb, .ccinv, .icinv], soleB filled (.cachectl plain op 4) = true ∧
      ((filled.control (.cachectl plain op 4)).place t0 0x100000).1 = some (place16 0) ∧
      (((filled.control (.cachectl plain op 4)).place t0 0x100000).2.ccLine? 0 0 0x20000).isSome = true) ∧
    soleB filled (.cachectl plain .icall 0) = true := by decide +kernel

theorem witness_PoisonMarks :
    runsAlone (based []) (.poison plain 6) t0 (xOf (based []) (.poison plain 6)) ⟨0x0100000000000200, 0, 0, []⟩ ∧
    (chk (based []) (.poison plain 6) ⟨1, false, false, true, .none, true⟩ 0x0100000000000200).1 = .scratch 0 512 false ∧
    runsAlone (based []) (.poison plain 4) t0 (xOf (based []) (.poison plain 4)) ⟨0x100000, 0, 0, []⟩ ∧
    (chk (based []) (.poison plain 4) ⟨1, false, false, true, .none, true⟩ 0x100000).1 = .mem (place16 0) 0x100000 ∧
    (chk (based []) (.poison plain 4) ⟨1, false, false, true, .none, true⟩ 0x0100000000000400).1 =
      .event 0x17 0 0x0100000000000400 :=
  ⟨alone_of (by decide +kernel), by decide +kernel, alone_of (by decide +kernel), by decide +kernel, by decide +kernel⟩

/-- The team has a reserve of three lines of cluster memory, of which two are allocated. -/
def reserved (n life : Word) : State :=
  (based [(8, n), (9, life)]).modTeam 0 0 fun t => { t with kern := { t.kern with scratchCluster := 1536 } }

def alc : Instr := .salloc tagged false false 10 8 9

/-- The team of a state's thread after issue. -/
def teamQ (s : State) (i : Instr) (p : Team → Bool) : Bool := (((s.control i).teamOf t0).map p).getD false

/-- A request of no whole line, one line too many, and the last free line for the longest lifetime. -/
theorem witness_AllocationAnswers :
    soleB (reserved 100 5) alc = true ∧ teamQ (reserved 100 5) alc (fun tm => tm.mayAlloc false 100 5 == false) = true ∧
    soleB (reserved 1024 5) alc = true ∧ teamQ (reserved 1024 5) alc (fun tm => tm.freeRun false 2 == none) = true ∧
    soleB (reserved 512 4095) alc = true ∧
    teamQ (reserved 512 4095) alc (fun tm => tm.mayAlloc false 512 4095 && tm.freeRun false 1 == some 2) = true := by
  decide +kernel

theorem witness_AllocationEnds_sfree :
    runsAlone (based [(8, 0), (9, 0x01000000)]) (.sfree plain 8) t0 (xOf (based [(8, 0), (9, 0x01000000)]) (.sfree plain 8))
      ⟨0x0100000000000000, 0, 0, []⟩ ∧
    ((based []).control (.sfree plain 8)).region t0 0x0100000000000000 = .scratch 0 0 false ∧
    teamQ (based []) (.sfree plain 8) (fun tm => tm.allocs.find? (fun e => e.off == 0) == some ⟨false, 0, 1024⟩) = true ∧
    ((based []).control (.sfree plain 8)).lockedScr 0 0 0 1024 false = false ∧
    ((based []).control (.sfree plain 8)).lockedScr 0 0 0 1024 true = false ∧ (based []).waits = [] :=
  ⟨alone_of (by decide +kernel), by decide +kernel, by decide +kernel, by decide +kernel, by decide +kernel, rfl⟩

/-- A count of 0; all bytes of the allocation from the second line on, live and stale. -/
theorem witness_AllocationEnds_srenew :
    runsAlone (based []) (.srenew plain 6 8) t0 (xOf (based []) (.srenew plain 6 8)) ⟨0x0100000000000200, 0, 0, [0]⟩ ∧
    runsAlone (based [(8, 512)]) (.srenew plain 6 8) t0 (xOf (based [(8, 512)]) (.srenew plain 6 8))
      ⟨0x0100000000000200, 0, 0, [512]⟩ ∧
    ((based [(8, 512)]).control (.srenew plain 6 8)).region t0 0x0100000000000200 = .scratch 0 512 false ∧
    (((based [(8, 512)]).control (.srenew plain 6 8)).allocOf 0 0 0 512 512).isSome = true ∧
    (((based [(8, 512)]).control (.srenew plain 6 8)).renewLines 0 0 [512]).2 = false ∧
    (({ based [(8, 512)] with pkg := { Package.reset with clk := 101000 } }.control (.srenew plain 6 8)).renewLines 0 0
      [512]).2 = true :=
  ⟨alone_of (by decide +kernel), alone_of (by decide +kernel), by decide +kernel, by decide +kernel, by decide +kernel,
    by decide +kernel⟩

/-- Two lines of the allocation, one of them stale. -/
def renewable : State := { based [] with
  scratch := [(0, { ScrLine.reset with valid := true, written := true, lifetime := 100 }),
    (1, { ScrLine.reset with valid := true, written := true, lifetime := 5 })]
  pkg := { Package.reset with clk := 20000 } }

theorem witness_AllocationEnds_lines : [0, 512].Nodup ∧ (∀ o ∈ [0, 512], o % 512 = 0) ∧
    (∀ o ∈ [0, 512], (renewable.scrLine 0 o).written = true ∧ renewable.lockedScr 0 0 o 512 true = false) ∧
    renewable.stale 0 (renewable.scrLine 0 0) = false ∧ renewable.stale 0 (renewable.scrLine 0 512) = true := by decide +kernel

/-! ### Blocks -/

def blocks (s : State) (t : Tid) (q : Mq) (acc : List Byte) : List (Check × Nat) → Option (List Byte × State)
  | [] => some (acc, s)
  | (.mem g _, n) :: rest =>
    match s.readMem t g n q with
    | .bytes bs s => blocks s t q (acc ++ bs) rest
    | _ => none
  | _ => none

theorem blocks_of {s : State} {t : Tid} {q : Mq} {acc : List Byte} {cs : List (Check × Nat)} {r : List Byte × State}
    (h : blocks s t q acc cs = some r) : ∀ k, s.readPieces t q acc k cs = k r.1 (.ok r.2) := by
  induction cs generalizing s acc with
  | nil => intro k; simp only [blocks, Option.some.injEq] at h; rw [← h]; rfl
  | cons c cs ih =>
    obtain ⟨c, n⟩ := c
    cases c with
    | mem g va =>
      simp only [blocks] at h
      simp only [State.readPieces]
      split at h
      · next bs s1 hb => rw [hb]; exact ih h
      · cases h
    | scratch => cases h
    | waits => cases h
    | event => cases h

theorem reads_of {s : State} {q : Mq} {cs : List (Check × Nat)} {bs : List Byte}
    (h : (blocks s t0 q [] cs).map Prod.fst = some bs) : ∃ s', readsBlock s t0 q cs bs s' := by
  obtain ⟨r, hr, rfl⟩ := Option.map_eq_some_iff.mp h
  exact ⟨r.2, blocks_of hr⟩

def ldBlock : Instr := .ldmx tagged .e2m1 mqDev 8 4 10
def stBlock : Instr := .stmx plain .dxb6 mqDev 8 4 0
def ldBlockOps : LaneOps := ⟨0x100000, 0x100000, 0, []⟩
def blockBase : State := based [(10, 0x100000)]
/-- The pieces of a block: its 16 bytes and its scale. -/
def ldPieces : List (Check × Nat) := [(.mem (place16 0) 0x100000, 16), (.mem (place16 0) 0x100000, 1)]
def ldChecked : Except LaneEvent (List (Check × Nat)) × State :=
  (blockBase.control ldBlock).checkBlock t0 (fun n => Acc.load n .none) .e2m1 ldBlockOps

theorem witness_BlockWords_ldmx : runsAlone blockBase ldBlock t0 (xOf blockBase ldBlock) ldBlockOps ∧
    (∃ s2, ldChecked = (.ok ldPieces, s2)) ∧ oneLine ldPieces = true ∧
    ∃ s3, readsBlock ldChecked.2 t0 mqDev ldPieces (List.replicate 17 0) s3 :=
  ⟨alone_of (by decide +kernel), ⟨_, pair_of (by decide +kernel)⟩, by decide +kernel, reads_of (by decide +kernel)⟩

/-- A cluster cache of one bank that holds dirty lines alone. -/
def stuck : State := { blockBase.modCluster 0 fun c => { c with banks := (List.range 63).map fun b => (b + 1, ⟨1, false, 0⟩) } with
  cc := (List.range 256).map fun k => (k, ⟨0, 0, List.replicate 512 0, 1, 0, false, false⟩) }
def stuckChecked : Except LaneEvent (List (Check × Nat)) × State :=
  (stuck.control ldBlock).checkBlock t0 (fun n => Acc.load n .none) .e2m1 ldBlockOps

theorem witness_BlockWords_waits : (∃ s2, stuckChecked = (.ok ldPieces, s2)) ∧
    ldPieces.any (pieceWaits stuckChecked.2 t0 mqDev) = true ∧ ldPieces.any (pieceWaits ldChecked.2 t0 mqDev) = false :=
  ⟨⟨_, pair_of (by decide +kernel)⟩, by decide +kernel, by decide +kernel⟩

def stBlockOps : LaneOps :=
  ⟨0x100000, 0, 1, bytesWords (stmxBlock .dxb6 [(0, (xOf blockBase stBlock).rv 8)])⟩
def stPieces : List (Check × Nat) := [(.mem (place16 0) 0x100000, 26)]
def stChecked : Except LaneEvent (List (Check × Nat)) × State :=
  (blockBase.control stBlock).checkBlock t0 (fun n => Acc.store n .none) .dxb6 stBlockOps

theorem witness_BlockWords_stmx : runsAlone blockBase stBlock t0 (xOf blockBase stBlock) stBlockOps ∧
    (∃ s2, stChecked = (.ok stPieces, s2)) ∧
    (stChecked.2.writePieces t0 mqDev none (wordsBytes stBlockOps.data) stPieces).1 = true :=
  ⟨alone_of (by decide +kernel), ⟨_, pair_of (by decide +kernel)⟩, by decide +kernel⟩

/-! ### Copies, tiles -/

def cpy : Instr := .tcopy tagged true 10 4 6

theorem witness_CopiesQueue : runsSole (based []) cpy t0 (xOf (based []) cpy) ∧
    ((((based []).control cpy).teamOf t0).isSome = true ∧ cpy.tag? = some 2) :=
  ⟨sole_of (by decide +kernel), by decide +kernel⟩

/-- A command of the thread's that has been accepted. -/
def copying : State := (based []).modCluster 0 fun c =>
  { c with tce := [(0, ⟨0, t0, 2, 0, 0x250, 0, 0, 0x100000, none, List.replicate 64 0, [], true, [], [], false, false, none⟩)]
           tceNext := 1 }

theorem witness_CancelEnds :
    (runsSole (based []) (.tcancel plain 8) t0 (xOf (based []) (.tcancel plain 8)) ∧
      ((based []).control (.tcancel plain 8)).teamCmds t0 = []) ∧
    runsSole copying (.tcancel plain 8) t0 (xOf copying (.tcancel plain 8)) ∧
      (copying.control (.tcancel plain 8)).teamCmds t0 = [0] ∧
      (FMap.find? ((copying.control (.tcancel plain 8)).cluster 0).tce 0).isSome = true :=
  ⟨⟨sole_of (by decide +kernel), by decide +kernel⟩, sole_of (by decide +kernel), by decide +kernel, by decide +kernel⟩

theorem witness_TileWords_queue : (based []).mayIssue (.acczero plain 15) = true ∧
    ((based []).control (.acczero plain 15)).active (.acczero plain 15) = [t0] ∧
    (based []).mayIssue (.accchk tagged 8 15) = true ∧
    ((based []).control (.accchk tagged 8 15)).active (.accchk tagged 8 15) = [t0] := by decide +kernel

def ldTile : Instr := .accld tagged .bf16 mqDev 3 4
def stTile (q : Mq) : Instr := .accst tagged .f16 q 3 4
def ldTileAfter : State := queueTile (based []) ((based []).control ldTile) ldTile (.load 3 []) []

theorem witness_TileWords_accld : runsSole (based []) ldTile t0 (xOf (based []) ldTile) ∧
    ldTileAfter.behind t0 ldTile ⟨0x100000, 0, 0, []⟩ ((based []).wordAge t0) = false ∧
    ∃ r s3, ldTileAfter.laneRead t0 0x100000 64 mqDev (fun bs => ⟨accWiden .bf16 bs, 0, none⟩) = .done r s3 :=
  ⟨sole_of (by decide +kernel), by decide +kernel, lane_done (by decide +kernel)⟩

/-- A stored row goes its way at once, or with a release of device scope later. -/
theorem witness_TileWords_accst :
    (∀ q ∈ [mqDev, mqRel], soleB (based []) (stTile q) = true ∧
      (((based []).control (stTile q)).checkTile 0 (based []).sectorOfGang 3).1 = 0) ∧
    (∃ r s3, (((based []).control (stTile mqDev)).checkTile 0 (based []).sectorOfGang 3).2.laneWrite t0 0x100000
      (List.replicate 64 0) mqDev (some 2) = .done r s3) ∧
    ∃ s3, (((based []).control (stTile mqRel)).checkTile 0 (based []).sectorOfGang 3).2.laneWrite t0 0x100000
      (List.replicate 64 0) mqRel (some 2) = .later s3 :=
  ⟨by decide +kernel, lane_done (by decide +kernel), lane_later (by decide +kernel)⟩

/-- A tile with four wrong elements. -/
def broken : State := (based []).modSector 0 0 fun x => { x with tiles := [(3, { TileState.zero with
  rows := [0x3F800000#32, 0x40000000] :: [0x40400000, 0x40800000] :: List.replicate 30 [] })] }

theorem witness_TileWords_accst_issue : soleB broken (stTile mqDev) = true ∧
    ((broken.control (stTile mqDev)).checkTile 0 broken.sectorOfGang 3).1 = 3 ∧
    ∀ q ∈ [mqDev, mqRel], (((based []).control (stTile q)).checkTile 0 (based []).sectorOfGang 3).2.behind t0 (stTile q)
      ⟨0x100000, 0, 0, List.replicate 16 0⟩ ((based []).wordAge t0) = false := by decide +kernel

/-- An mma whose B tile stands in two live lines, and one whose tile is not allocated. -/
def mmaWord : Instr := .mma plain .e2m1 false true 7 8 6 0
def mmaState (lines : Nat) : State :=
  let l : ScrLine := { ScrLine.reset with valid := true, written := true, lifetime := 100 }
  { (based []).modTeam 0 0 (fun t => { t with allocs := [⟨false, 0, 512 * lines⟩] }) with
    scratch := (List.range lines).map fun k => (k, l) }

def mmaTiles (s : State) : Bool :=
  match (s.control mmaWord).readOctets .e2m1 false 6 [t0] (octetsOf [t0]) with
  | .ok l => l.length == 1
  | .error _ => false

theorem witness_MatrixQueues : (mmaState 8).mayIssue mmaWord = true ∧ (mmaState 8).gang.cohorts = [0] ∧
    (((mmaState 8).control mmaWord).cohort? 0 0 false 0).isSome = true ∧
    ((mmaState 8).control mmaWord).active mmaWord = [t0] ∧ mmaTiles (mmaState 8) = true ∧
    (mmaState 1).mayIssue mmaWord = true ∧ mmaTiles (mmaState 1) = false := by decide +kernel

/-! ### Queues -/

/-- The access cohort of a team with an access slice. -/
def access : State :=
  let s := (State.reset.withFetchWord 80 0).modTeam 0 0 fun t => { t with kern := { t.kern with accessEntry := 6 } }
  let u : Tid := { t0 with access := true }
  { s.setThread u (.launch 0 0) with
    cohorts := [(0, .launch 1), (32, .launch 1)], gang := ⟨0, 0, true, 0, [(0, 0)]⟩ }

theorem witness_OperandQueues_qpush : access.mayIssue (.qpush plain 7 3) = true ∧ access.gang.cohorts = [0] := by
  decide +kernel

/-- An execute thread with and without a row to pop. -/
def popper (rows : List (List Word)) : State :=
  ((State.reset.withFetchWord 80 0).modTeam 0 0 fun t => { t with kern := { t.kern with accessEntry := 6 } }).modCohort
    0 0 false 0 fun c => { c with queues := [(7, ⟨3, rows, [(0, 3)]⟩)] }

def popOps : LaneOps := ⟨3, 0, 0, []⟩

theorem witness_OperandQueues_qpop :
    runsAlone (popper []) (.qpop tagged 3 7) t0 (xOf (popper []) (.qpop tagged 3 7)) popOps ∧
    FMap.getD ((popper []).opQueue 0 0 0 7).next 0 0 = 3 ∧
    runsAlone (popper [List.replicate 32 5]) (.qpop tagged 3 7) t0
      (xOf (popper [List.replicate 32 5]) (.qpop tagged 3 7)) popOps ∧
    ((popper [List.replicate 32 5]).opQueue 0 0 0 7).rows.length = 1 :=
  ⟨alone_of (by decide +kernel), by decide +kernel, alone_of (by decide +kernel), by decide +kernel⟩

/-- FIFO 15 of the cluster, with these entries. -/
def fifoed (es : List FifoEntry) : State := (based []).modCluster 0 fun c => { c with fifos := [(15, ⟨0, 63, es⟩)] }

def psh : Instr := .fpush plain 15 4
def pp : Instr := .fpop tagged 8 15

theorem witness_FifoWords_fpush :
    runsAlone (fifoed []) psh t0 (xOf (fifoed []) psh) ⟨0, 0, 0, [0x100000, 0, 0x200, 0x01000000]⟩ ∧
    (((fifoed []).control psh).fifo? 0 15 0).isSome = true ∧
    ((((fifoed []).control psh).fifoRelease t0).fifo? 0 15 0).isSome = true :=
  ⟨alone_of (by decide +kernel), by decide +kernel, by decide +kernel⟩

theorem witness_FifoWords_fpop :
    (runsAlone (based []) pp t0 (xOf (based []) pp) ⟨0, 0, 0, []⟩ ∧ ((based []).control pp).fifo? 0 15 0 = none) ∧
    (runsAlone (fifoed []) pp t0 (xOf (fifoed []) pp) ⟨0, 0, 0, []⟩ ∧
      ((fifoed []).control pp).fifo? 0 15 0 = some ⟨0, 63, []⟩) ∧
    runsAlone (fifoed [⟨[1, 2, 3, 4], 0, 0⟩]) pp t0 (xOf (fifoed [⟨[1, 2, 3, 4], 0, 0⟩]) pp) ⟨0, 0, 0, []⟩ ∧
      ((fifoed [⟨[1, 2, 3, 4], 0, 0⟩]).control pp).fifo? 0 15 0 = some ⟨0, 63, [⟨[1, 2, 3, 4], 0, 0⟩]⟩ ∧
      (((fifoed [⟨[1, 2, 3, 4], 0, 0⟩]).control pp).fifoWaits 0 15).any (fun w => w.2.cause == .fifo 0 15 false) = false :=
  ⟨⟨alone_of (by decide +kernel), by decide +kernel⟩, ⟨alone_of (by decide +kernel), by decide +kernel⟩,
    alone_of (by decide +kernel), by decide +kernel, by decide +kernel⟩

/-! ### Words that read records in memory -/

def homes (s : State) (t : Tid) (acc : List Byte) : List (Check × Nat) → Option (List Byte × State)
  | [] => some (acc, s)
  | (.mem g _, n) :: rest =>
    match s.loadHome t.core g n .normal with
    | (some bs, s) => homes s t (acc ++ ((s.teamOf t).map fun tm => tm.bufferOver g.phys bs).getD bs) rest
    | (none, _) => none
  | _ => none

theorem homes_of {s : State} {t : Tid} {acc : List Byte} {cs : List (Check × Nat)} {r : List Byte × State}
    (h : homes s t acc cs = some r) : ∀ k, s.readHomes t acc k cs = k r.1 r.2 := by
  induction cs generalizing s acc with
  | nil => intro k; simp only [homes, Option.some.injEq] at h; rw [← h]; rfl
  | cons c cs ih =>
    obtain ⟨c, n⟩ := c
    cases c with
    | mem g va =>
      simp only [homes] at h
      simp only [State.readHomes]
      split at h
      · next bs s1 hb => first | exact ih h | (rw [hb]; exact ih h)
      · cases h
    | scratch => cases h
    | waits => cases h
    | event => cases h

def gathered (s : State) (a : DWord) (n align : Nat) : Option (List Byte × State) :=
  if n == 0 then some ([], s)
  else match s.blockFault t0 a align with
  | some _ => none
  | none =>
    match s.checkPieces t0 (fun n => Acc.load n .none) (chunks a n) with
    | (.error _, _) => none
    | (.ok cs, s) => homes s t0 [] cs

theorem gathers_of {s : State} {a : DWord} {n align : Nat} {r : List Byte × State} (h : gathered s a n align = some r) :
    gathers s t0 a n align r.1 r.2 := by
  intro k
  unfold gathered at h
  unfold State.gatherBytes
  split at h
  · next h0 => rw [if_pos h0]; cases h; rfl
  · next h0 =>
    rw [if_neg h0]
    split at h
    · cases h
    · next hb =>
      try rw [hb]
      try dsimp only
      split at h
      · cases h
      · next cs s1 hc => first | exact homes_of h k | (rw [hc]; exact homes_of h k)

theorem gathers_is {s : State} {a : DWord} {n align : Nat} {bs : List Byte}
    (h : (gathered s a n align).map Prod.fst = some bs) : ∃ s', gathers s t0 a n align bs s' := by
  obtain ⟨r, hr, rfl⟩ := Option.map_eq_some_iff.mp h
  exact ⟨r.2, gathers_of hr⟩

/-- The page tables of VF 0, which map page 16 as a pinned local page; these bytes from its frame on; a launch queue, a
grid that the thread's own has launched, and two compartments. -/
def fed (cells : List Host.Cell) : State :=
  { based [] with
    mem := [(0x10000, 1), (0x10009, 0x40), (0x1000A, 1), (0x14000, 1), (0x14009, 0x80), (0x1400A, 1), (0x18000, 1),
      (0x18009, 0xC0), (0x1800A, 1), (0x1C100, 2), (0x1C101, 0x33), (0x1C10A, 2)] ++ cells
    partitions := [(0, { Partition.reset with defined := true, coreMap := [0], resident := some 0 })]
    vfs := [(0, { Vf.reset with
      partition := some 0, root := 0x10000, handleBase := 0x101000, comps := [(0, (true, false)), (1, (true, false))]
      queues := [(0, ⟨true, 0, [], [], none, false, none⟩)]
      grids := [(0, ⟨none, 0, 1, false, false, 0xFFFF, 0⟩), (5, ⟨some 0, 1, 1, false, false, 0xFFFF, 0⟩)] })] }

/-- A first message. -/
theorem witness_MessagesStand : ∀ e ∈ (fed []).messages, e.1 < (fed []).messageNext := by decide +kernel

/-- No byte; a misaligned block of 64; an aligned one that no page maps. -/
theorem witness_BytesGather : (0 < 64 ∧ ((fed []).blockFault t0 0x100008 64).isSome = true) ∧
    (fed []).blockFault t0 0x500000 64 = none ∧
    ((fed []).checkPieces t0 (fun n => Acc.load n .none) (chunks 0x500000 64)).1.isOk = false := by decide +kernel

def wp : Instr := .wpost plain 4 8
def wpOps : LaneOps := ⟨0x100000, 0, 0, [0]⟩

theorem witness_MessagesLeave_wpost : runsAlone (fed []) wp t0 (xOf (fed []) wp) wpOps ∧
    ∃ s2, gathers (((fed []).control wp).outward t0) t0 0x100000 64 64 (List.replicate 64 0) s2 :=
  ⟨alone_of (by decide +kernel), gathers_is (by decide +kernel)⟩

/-- The registers of a message: roster index and length in v8, destination in v10. -/
def sender (c : Word) : State := (fed []).modThread t0 fun x => { x with v := [(4, 0x100000), (8, c), (10, 0x100010)] }
def ms (k : MsendKind) : Instr := .msend plain k 4 10 8
def msOps (c : Word) : LaneOps := ⟨0x100000, 0x100010, 0, [c]⟩

theorem witness_MessagesLeave_msend :
    (runsAlone (sender 0x03000010) (ms .c3) t0 (xOf (sender 0x03000010) (ms .c3)) (msOps 0x03000010) ∧
      ((((sender 0x03000010).control (ms .c3)).msendFault t0 .c3 (msOps 0x03000010)).map (·.1)) = some 0x1C) ∧
    (runsAlone (sender 0xFF000000) (ms .c2w) t0 (xOf (sender 0xFF000000) (ms .c2w)) (msOps 0xFF000000) ∧
      ((sender 0xFF000000).control (ms .c2w)).msendFault t0 .c2w (msOps 0xFF000000) = none) ∧
    (runsAlone (sender 0xFF000010) (ms .c1) t0 (xOf (sender 0xFF000010) (ms .c1)) (msOps 0xFF000010) ∧
      ((sender 0xFF000010).control (ms .c1)).msendFault t0 .c1 (msOps 0xFF000010) = none ∧
      ∃ s2, gathers (((sender 0xFF000010).control (ms .c1)).outward t0) t0 0x100000 16 16 (List.replicate 16 0) s2) :=
  ⟨⟨alone_of (by decide +kernel), by decide +kernel⟩, ⟨alone_of (by decide +kernel), by decide +kernel⟩,
    alone_of (by decide +kernel), by decide +kernel, gathers_is (by decide +kernel)⟩

def gl : Instr := .glaunch tagged 8 4
def glOps : LaneOps := ⟨0x100000, 0, 0, []⟩

/-- A launch block at the page's start, and handle 0 at byte 0x1000 of the page: one team of one thread. -/
def block (queue bad : Byte) : List Host.Cell :=
  [(0x20002, 1), (0x20006, 1), (0x20008, 1), (0x2000A, 0xFF), (0x2000B, 0xFF), (0x2000C, 0xFF), (0x2000D, 0xFF)] ++
  (if queue = 0 then [] else [(0x20010, queue)]) ++ (if bad = 0 then [] else [(0x20014, bad)]) ++
  [(0x21020, 8), (0x21024, 1)]

/-- What the word reads of its block. -/
def blockRead (s : State) : Option (List Byte × State) := gathered ((s.control gl).outward t0) 0x100000 64 64

def blockQ (s : State) (p : List Byte → State → Bool) : Bool := ((blockRead s).map fun r => p r.1 r.2).getD false

/-- A block with a reserved bit, one that names a queue that is not enabled, and one that is launched. -/
theorem witness_ChildGrids_glaunch :
    runsAlone (fed (block 0 1)) gl t0 (xOf (fed (block 0 1)) gl) glOps ∧ blockQ (fed (block 0 1)) (fun b _ => blockBad b) = true ∧
    runsAlone (fed (block 9 0)) gl t0 (xOf (fed (block 9 0)) gl) glOps ∧
    blockQ (fed (block 9 0)) (fun b s => !blockBad b && s.launchError 0 9 .glaunch (headOf b []) == some 5) = true ∧
    runsAlone (fed (block 0 0)) gl t0 (xOf (fed (block 0 0)) gl) glOps ∧
    blockQ (fed (block 0 0)) (fun b s => !blockBad b && fieldLE b 18 2 == 0 &&
      s.launchError 0 0 .glaunch (headOf b []) == none) = true :=
  ⟨alone_of (by decide +kernel), by decide +kernel, alone_of (by decide +kernel), by decide +kernel,
    alone_of (by decide +kernel), by decide +kernel⟩

/-- At depth 10. -/
theorem witness_ChildGrids_nesting : ∃ (s : State) (tm : Team), s.mayIssue gl = true ∧ s.runs gl t0 (xOf s gl) ∧
    s.gangTeam = some tm ∧ tm.depth = 10 :=
  ⟨(fed []).modTeam 0 0 fun t => { t with depth := 10 }, _, (runs_of (by decide +kernel)).1,
    (runs_of (by decide +kernel)).2, rfl, by decide +kernel⟩

theorem witness_ChildGrids_gwait : runsAlone (fed []) (.gwait tagged 8 9) t0 (xOf (fed []) (.gwait tagged 8 9)) ⟨0, 0, 0, []⟩ ∧
    (((fed []).control (.gwait tagged 8 9)).teamOf t0).isSome = true ∧ launchedUnder ((fed []).vf 0).grids 0 5 16 = true ∧
    launchedUnder ((fed []).vf 0).grids 0 0 16 = false :=
  ⟨alone_of (by decide +kernel), by decide +kernel, by decide +kernel, by decide +kernel⟩

/-! ### Tables -/

theorem witness_TableWords_tlbinv :
    ∀ i ∈ [Instr.tlbinv plain .page 4 0, .tlbinv plain .range 4 8, .tlbinv plain .vf 0 0], soleB (fed []) i = true := by
  decide +kernel

theorem witness_TableWords_pgprobe : runsSole (fed []) (.pgprobe tagged 8 4) t0 (xOf (fed []) (.pgprobe tagged 8 4)) ∧
    ((fed []).control (.pgprobe tagged 8 4)).region t0 0x100000 = .translated 0x100000 ∧
    (((fed []).control (.pgprobe tagged 8 4)).translate 0 0 0x100000 false).1 = .leaf (page 16 0x20000) :=
  ⟨sole_of (by decide +kernel), by decide +kernel, by decide +kernel⟩

/-- A sequence table of one token of 16 bytes and one page, whose array stands at 0x100040 with entry 0x110000; with
`bad`, a reserved byte is set. -/
def seqTable (bad : Byte) : List Host.Cell :=
  [(0x20000, 0x40), (0x20002, 0x10), (0x20008, 1), (0x2000C, 16)] ++ (if bad = 0 then [] else [(0x2000F, bad)]) ++
  [(0x20018, 1), (0x20042, 0x11)]

def kvB : KvxForm → Instr
  | .addr => .kvx tagged .addr 8 4 9 62
  | f => .kvx tagged f 8 4 0 62
def kvOps : LaneOps := ⟨0x100000, 0, 0, []⟩
def headB (s : State) (i : Instr) (p : Option SeqHeader → State → Bool) : Bool :=
  ((gathered (s.control i) 0x100000 64 64).map fun r => p (seqHeader r.1) r.2).getD false

theorem witness_TableWords_kvx :
    (runsAlone (fed (seqTable 1)) (kvB .addr) t0 (xOf (fed (seqTable 1)) (kvB .addr)) kvOps ∧
      headB (fed (seqTable 1)) (kvB .addr) (fun h _ => h.isNone) = true) ∧
    (∀ f ∈ [KvxForm.pages, .last], aloneB (fed (seqTable 0)) (kvB f) kvOps = true ∧
      headB (fed (seqTable 0)) (kvB f) (fun h _ => h.isSome) = true) ∧
    ∃ s : State, runsAlone s (kvB .addr) t0 (xOf s (kvB .addr)) ⟨0x100000, 1, 0, []⟩ ∧
      headB s (kvB .addr) (fun h _ => (h.map (·.length)) == some 1) = true :=
  ⟨⟨alone_of (by decide +kernel), by decide +kernel⟩, by decide +kernel,
    (fed (seqTable 0)).modThread t0 (fun x => { x with v := [(4, 0x100000), (9, 1)] }), alone_of (by decide +kernel),
    by decide +kernel⟩

theorem witness_TableEntry : runsAlone (fed (seqTable 0)) (kvB .addr) t0 (xOf (fed (seqTable 0)) (kvB .addr)) kvOps ∧
    headB (fed (seqTable 0)) (kvB .addr) (fun h s => (h.map fun t =>
      decide (0 < t.length) && ((gathered s (t.array + BitVec.ofNat 64 (16 * t.entryOf 0)) 16 16).map fun r =>
        (t.resolve 0 r.1).isSome).getD false).getD false) = true :=
  ⟨alone_of (by decide +kernel), by decide +kernel⟩

/-! ### Gates and windows -/

/-- A descriptor of the whole of page 16: of a gate from compartment 0 to 1, or of a window without members. -/
def gateCells : List Host.Cell := [(0x20002, 1), (0x20003, 2), (0x20012, 0x10), (0x2001A, 1)]
def windowCells : List Host.Cell := [(0x20010, 1), (0x20016, 1), (0x2001A, 0x10)]

def gateB (s : State) (i : Instr) : Bool :=
  ((gathered (s.control i) 0x100000 32 32).map fun r => (gateOf r.1).any fun g =>
    g.srcComp != g.userComp && (r.2.vf 0).compValid g.srcComp && (r.2.vf 0).compValid g.userComp &&
    r.2.pagesAll 0 g.base g.len (fun e => leafKind e == 0 && leafComp e == g.srcComp)).getD false

def windowB (s : State) (i : Instr) : Bool :=
  ((gathered (s.control i) 0x100000 64 64).map fun r => (windowOf r.1).any fun w =>
    (membersIn w.1).isEmpty && r.2.windowState 0 == 0 && r.2.pagesAll 0 w.2.1 w.2.2.1 (fun e => leafKind e == 0 && leafPin e)).getD false

theorem witness_GatesAndWindows_gate :
    runsAlone (fed []) (.gatectl plain true 0 9) t0 (xOf (fed []) (.gatectl plain true 0 9)) ⟨0, 0, 0, []⟩ ∧
    runsAlone (fed gateCells) (.gatectl plain false 4 9) t0 (xOf (fed gateCells) (.gatectl plain false 4 9))
      ⟨0x100000, 0, 0, []⟩ ∧ gateB (fed gateCells) (.gatectl plain false 4 9) = true :=
  ⟨alone_of (by decide +kernel), alone_of (by decide +kernel), by decide +kernel⟩

/-- Window 0 closed, and ready. -/
def ready : State := (fed []).modPkg fun p => { p with windows := [(0, ⟨[], 0x100000, 65536, [0x20000], 0, 2, true, 1, false⟩)] }

theorem witness_GatesAndWindows_window :
    (runsAlone (fed []) (.winctl plain true 0 9) t0 (xOf (fed []) (.winctl plain true 0 9)) ⟨0, 0, 0, []⟩ ∧
      ((fed []).control (.winctl plain true 0 9)).windowState 0 = 0) ∧
    (runsAlone ready (.winctl plain true 0 9) t0 (xOf ready (.winctl plain true 0 9)) ⟨0, 0, 0, []⟩ ∧
      (ready.control (.winctl plain true 0 9)).windowState 0 = 2) ∧
    runsAlone (fed windowCells) (.winctl plain false 4 9) t0 (xOf (fed windowCells) (.winctl plain false 4 9))
      ⟨0x100000, 0, 0, []⟩ ∧ windowB (fed windowCells) (.winctl plain false 4 9) = true :=
  ⟨⟨alone_of (by decide +kernel), by decide +kernel⟩, ⟨alone_of (by decide +kernel), by decide +kernel⟩,
    alone_of (by decide +kernel), by decide +kernel⟩

/-! ### Counters -/

/-- A barrier of count 1 at the second line's last granule, or none. -/
def barred (mark : Bool) : State :=
  let s := solo [(6, 0x3F0), (7, 0x01000000)]
  let s := s.modTeam 0 0 fun t => { t with allocs := [⟨false, 0, 1024⟩] }
  let l : ScrLine := { ScrLine.reset with
    valid := true, written := true, lifetime := 100, barType := if mark then 0x80000000#32 else 0
    bytes := List.replicate 496 0 ++ (Bar.init 1).image }
  { s with scratch := [(1, l)] }

def barOps (i : Instr) : LaneOps := barOperands i (xOf (barred true) i) 6 8

/-- What the check of a barrier's granule answers. -/
def barPasses (s : State) (i : Instr) (fresh : Bool) : Bool :=
  match (s.control i).checkBar t0 0x01000000000003F0 fresh with
  | .ok r => r == (0, 0x3F0, .cluster)
  | .error _ => false

theorem bar_passes {s : State} {i : Instr} {fresh : Bool} (h : barPasses s i fresh = true) :
    (s.control i).checkBar t0 0x01000000000003F0 fresh = .ok (0, 0x3F0, .cluster) := by
  unfold barPasses at h; split at h
  · next r hr => rw [hr, beq_iff_eq.mp h]
  · cases h

def barFails (s : State) (i : Instr) : Bool :=
  match (s.control i).checkBar t0 0x01000000000003F0 false with
  | .ok _ => false
  | .error e => e == (0x16, 0, 0x01000000000003F0)

theorem bar_fails {s : State} {i : Instr} (h : barFails s i = true) :
    (s.control i).checkBar t0 0x01000000000003F0 false = .error (0x16, 0, 0x01000000000003F0) := by
  unfold barFails at h; split at h
  · cases h
  · next e he => rw [he, beq_iff_eq.mp h]

/-- The words on a barrier. -/
def barWords : List Instr := [.barArrive tagged true .pledge 10 6 8, .barArrive tagged false .many 10 6 8,
  .barExpect plain 6 8, .barWait plain true 6 8, .barWait plain false 6 8, .barTry tagged true 10 6 8]

/-- Each word on the barrier; an initialisation of a plain granule; a plain granule for the others. -/
theorem witness_BarrierWords :
    (∀ i ∈ barWords, aloneB (barred true) i (barOps i) = true ∧ barWord i = some (6, 8) ∧
      ((barred true).control i).checkBar t0 0x01000000000003F0 false = .ok (0, 0x3F0, .cluster)) ∧
    (aloneB (barred true) (.barInval plain 6) ⟨0x01000000000003F0, 0, 0, []⟩ = true ∧
      ((barred true).control (.barInval plain 6)).checkBar t0 0x01000000000003F0 false = .ok (0, 0x3F0, .cluster)) ∧
    (aloneB (barred false) (.barInit plain 6 8) (barOps (.barInit plain 6 8)) = true ∧
      ((barred false).control (.barInit plain 6 8)).checkBar t0 0x01000000000003F0 true = .ok (0, 0x3F0, .cluster) ∧
      (((barred false).control (.barInit plain 6 8)).scrLine 0 0x3F0).bytes.length = 512 ∧
      ((barred false).control (.barInit plain 6 8)).waits = []) ∧
    aloneB (barred false) (.barExpect plain 6 8) (barOps (.barExpect plain 6 8)) = true ∧
      ((barred false).control (.barExpect plain 6 8)).checkBar t0 0x01000000000003F0 false =
        .error (0x16, 0, 0x01000000000003F0) := by
  have h : ∀ i ∈ barWords, aloneB (barred true) i (barOps i) = true ∧ barWord i = some (6, 8) ∧
      barPasses (barred true) i false = true := by decide +kernel
  exact ⟨fun i hi => ⟨(h i hi).1, (h i hi).2.1, bar_passes (h i hi).2.2⟩,
    ⟨by decide +kernel, bar_passes (by decide +kernel)⟩,
    ⟨by decide +kernel, bar_passes (by decide +kernel), by decide +kernel, by decide +kernel⟩,
    by decide +kernel, bar_fails (by decide +kernel)⟩

/-- The last semaphore and the first index past it. -/
theorem witness_SemaphoreWords :
    aloneB (solo [(4, 4095), (5, 1)]) (.semSig plain 4 5) ⟨4095, 0, 0, [1]⟩ = true ∧
    aloneB (solo [(4, 4095), (5, 1)]) (.semWait plain 4 5) ⟨4095, 0, 0, [1]⟩ = true ∧
    aloneB (solo [(4, 4096), (5, 1)]) (.semSig plain 4 5) ⟨4096, 0, 0, [1]⟩ = true ∧
    aloneB (solo [(4, 4096), (5, 1)]) (.semWait plain 4 5) ⟨4096, 0, 0, [1]⟩ = true := by decide +kernel

/-! ### Registers -/

theorem witness_RegisterReads :
    (∀ n ∈ [(0x000 : BitVec 10), 0x008, 0x010, 0x011, 0x018, 0x020, 0x027, 0x030, 0x040],
      soleB (based []) (.csrr tagged 8 n) = true) ∧
    soleB (based []) (.rdclk tagged false 8) = true ∧ soleB (based []) (.rdperf tagged 8 7) = true ∧
    FMap.find? ((based []).core 0).perfOld 7 = none ∧
    (((based []).control (.csrr tagged 8 0x008)).teamOf t0).isSome = true := by decide +kernel

theorem witness_RegisterWrites :
    (∀ n ∈ [(0x000 : BitVec 10), 0x008, 0x010, 0x020, 0x027, 0x030, 0x040], soleB (based []) (.csrw plain .clr n 8) = true) ∧
    teamQ (based []) (.csrw plain .clr 0x027 8) (fun tm => tm.kern.system) = true := by decide +kernel

/-- A PERFSEL register at user privilege. -/
def userCsr : State := (based []).modTeam 0 0 fun t => { t with kern := { t.kern with system := false } }
theorem witness_RegisterWrites_user : (∀ n ∈ [(0x020 : BitVec 10), 0x027], soleB userCsr (.csrw plain .write n 8) = true) ∧
    teamQ userCsr (.csrw plain .write 0x027 8) (fun tm => !tm.kern.system) = true := by decide +kernel

/-! ### System words -/

/-- Aligned and not, of a class with items and of one without. -/
theorem witness_SystemWords_sread :
    aloneB (solo [(4, 8), (5, 0x06000000)]) (.sread tagged 8 4) ⟨0x0600000000000008, 0, 0, []⟩ = true ∧
    aloneB (solo [(4, 9), (5, 0x06000000)]) (.sread tagged 8 4) ⟨0x0600000000000009, 0, 0, []⟩ = true ∧
    aloneB (solo [(4, 8), (5, 0x7F000000)]) (.sread tagged 8 4) ⟨0x7F00000000000008, 0, 0, []⟩ = true ∧
    stateBad (stateAddr 0x0600000000000000) 8 = false ∧ stateBad (stateAddr 0x7F00000000000000) 8 = true := by
  decide +kernel

/-- A wake record of the VF, and one of another. -/
def waker (other : Bool) : State :=
  fed ([(0x20004, 1)] ++ (if other then [(0x2000A, 1)] else []))

theorem witness_SystemWords_eret :
    (∀ o ∈ [false, true], aloneB (waker o) (.eret plain 4) ⟨0x100000, 0, 0, []⟩ = true) ∧
    (∃ r s2, ((waker false).control (.eret plain 4)).laneRead t0 0x100000 16 eretMq (fun bs => ⟨bytesWords bs, 0, none⟩) =
      .done r s2) ∧
    ∃ r s2, ((waker true).control (.eret plain 4)).laneRead t0 0x100000 16 eretMq (fun bs => ⟨bytesWords bs, 0, none⟩) =
      .done r s2 :=
  ⟨by decide +kernel, lane_done (by decide +kernel), lane_done (by decide +kernel)⟩

theorem witness_SystemWords_halt : ∃ tm, (fed []).mayIssue (.halt plain) = true ∧
    (fed []).runs (.halt plain) t0 (xOf (fed []) (.halt plain)) ∧ (fed []).gangTeam = some tm ∧
    ((fed []).partition tm.partition).resident = some tm.vf ∧ ((fed []).partition tm.partition).frozen = false ∧
    ((fed []).partition tm.partition).preempt.step = 0 :=
  ⟨_, (runs_of (by decide +kernel)).1, (runs_of (by decide +kernel)).2, rfl, by decide +kernel, by decide +kernel,
    by decide +kernel⟩

/-! ### The issue logic, the walker and the MAU -/

/-- The thread after 3,840 cycles, with a result that has been performed. -/
def late : State := ((solo []).modCore 0 fun c => { c with cycle := 3840 }).modThread t0 fun x =>
  { x with pdRun := true, readyAt := 3840, tags := [(2, ⟨[8], none, .performed ⟨[7], 0, none⟩, false, 0, 0⟩)] }

theorem witness_IssueActs_threads : ∃ x g r c, late.thread? t0 = some x ∧ x.readyAt ≤ late.cycle t0.core ∧
    x.since = some c ∧ c + 3840 ≤ late.cycle t0.core ∧ FMap.find? x.tags 2 = some g ∧ g.stage = .performed r :=
  ⟨_, _, _, _, rfl, by decide +kernel, rfl, by decide +kernel, rfl, rfl⟩

/-- The PD count still runs, and a result is known before the cycle in which it can arrive. -/
def early : State := ((solo []).modCore 0 fun c => { c with cycle := 3840 }).modThread t0 fun x =>
  { x with pdRun := true, readyAt := 3841, tags := [(2, ⟨[8], none, .performed ⟨[7], 0, none⟩, false, 0, 3841⟩)] }

theorem witness_IssueActs_early : ∃ x g r, early.thread? t0 = some x ∧ early.cycle t0.core < x.readyAt ∧
    FMap.find? x.tags 2 = some g ∧ g.stage = .performed r ∧ early.cycle t0.core < g.least :=
  ⟨_, _, _, rfl, by decide +kernel, rfl, rfl, by decide +kernel⟩

/-- A thread at the first word of page 16, which may be executed. -/
def fetching : State :=
  let s := (fed []).modThread t0 fun x => { x with pc := 0x100000 / 64 * 6 }
  { s with mem := s.mem.map fun c => if c.1 = 0x1C101 then (0x1C101, 0x37) else c }

/-- Where the line would come from, or why there is none. -/
def fetchB (s : State) (tm : Team) (line : Nat) : Nat :=
  match s.fetchPlace 0 tm line with
  | (.ok g, s2) => if s2.poisoned (g.phys / 64 * 64) 64 then 1 else 0
  | (.error (k, _, _), _) => k + 2

theorem fetch_ok {s : State} {tm : Team} {line : Nat} (h : fetchB s tm line = 0) :
    ∃ g s2, s.fetchPlace 0 tm line = (.ok g, s2) ∧ s2.poisoned (g.phys / 64 * 64) 64 = false := by
  unfold fetchB at h
  split at h
  · next g s2 hg => exact ⟨g, s2, hg, by revert h; split <;> simp_all⟩
  · omega

theorem fetch_error {s : State} {tm : Team} {line k : Nat} (h : fetchB s tm line = k + 2) :
    ∃ d host s2, s.fetchPlace 0 tm line = (.error (k, d, host), s2) := by
  unfold fetchB at h
  split at h
  · split at h <;> omega
  · next n d b s2 he => exact ⟨d, b, s2, by rw [he, show n = k by omega]⟩

theorem witness_IssueActs_fill : ∃ tm, fetching.iline? 0 0 0 (0x4000 * 6) = none ∧
    fetching.waitersOf 0 0 0x4000 = [t0] ∧ fetching.teamOf t0 = some tm ∧
    ∃ g s2, fetching.fetchPlace 0 tm 0x4000 = (.ok g, s2) ∧ s2.poisoned (g.phys / 64 * 64) 64 = false :=
  ⟨_, by decide +kernel, by decide +kernel, rfl, fetch_ok (by decide +kernel)⟩

theorem fetch_poisoned {s : State} {tm : Team} {line : Nat} (h : fetchB s tm line = 1) :
    ∃ g s2, s.fetchPlace 0 tm line = (.ok g, s2) ∧ s2.poisoned (g.phys / 64 * 64) 64 = true := by
  unfold fetchB at h
  split at h
  · next g s2 hg => exact ⟨g, s2, hg, by revert h; split <;> simp_all⟩
  · omega

/-- The line is cached for another compartment; its home is poisoned. -/
def refilled : State := fetching.modCore 0 fun c =>
  { c with icache := [(icacheKey 0 0x4000, ⟨0, List.replicate 64 0, false, [1]⟩)] }
def fetchSpoiled : State := { fetching with poison := [(0x20000 / 64, true)] }

theorem witness_IssueActs_refill : ∃ tm, (FMap.find? (refilled.core 0).icache (icacheKey 0 0x4000)).isSome = true ∧
    refilled.waitersOf 0 0 0x4000 = [t0] ∧ refilled.teamOf t0 = some tm ∧
    ∃ g s2, refilled.fetchPlace 0 tm 0x4000 = (.ok g, s2) ∧ s2.poisoned (g.phys / 64 * 64) 64 = false :=
  ⟨_, by decide +kernel, by decide +kernel, rfl, fetch_ok (by decide +kernel)⟩

theorem witness_IssueActs_poisoned : ∃ tm, fetchSpoiled.waitersOf 0 0 0x4000 = [t0] ∧ fetchSpoiled.teamOf t0 = some tm ∧
    ∃ g s2, fetchSpoiled.fetchPlace 0 tm 0x4000 = (.ok g, s2) ∧ s2.poisoned (g.phys / 64 * 64) 64 = true :=
  ⟨_, by decide +kernel, rfl, fetch_poisoned (by decide +kernel)⟩

def walked (s : State) : Bool := match (s.translate 0 0 0x100000 false).1 with
  | .leaf e => e.hits 0 0x100000
  | _ => false

theorem witness_IssueActs_walk : (walked (fed []) = true ∧ ∃ e, ((fed []).translate 0 0 0x100000 false).1 = .leaf e) := by
  have h : walked (fed []) = true := by decide +kernel
  refine ⟨h, ?_⟩
  unfold walked at h
  split at h
  · next e he => exact ⟨e, he⟩
  · cases h

/-- The thread at a page that the tables do not map. -/
def lost : State := (fed []).modThread t0 fun x => { x with pc := 0x200000 / 64 * 6 }

theorem witness_IssueActs_lost : ∃ tm, lost.waitersOf 0 0 (0x200000 / 64) = [t0] ∧ lost.teamOf t0 = some tm ∧
    ∃ d host s2, lost.fetchPlace 0 tm (0x200000 / 64) = (.error (0x12, d, host), s2) :=
  ⟨_, by decide +kernel, rfl, fetch_error (by decide +kernel)⟩

/-- A tile of zeros and the head of its queue. -/
def queued (op : MauOp) : State := (solo []).modSector 0 0 fun x =>
  { x with tiles := [(15, TileState.zero)], mau := [⟨op, 0, [0], .acczero plain 15, [t0], none⟩] }

def octet0 : MauOp := .octet 15 .e2m1 false [(0, List.replicate 8 0)] [] (List.replicate 4096 0) 0 0

theorem witness_IssueActs_zero : ((queued (.zero 15 1)).sector 0 0).mau = [⟨.zero 15 1, 0, [0], .acczero plain 15, [t0], none⟩] ∧
    0 < (((queued (.zero 15 1)).sector 0 0).tile 15).rows.length ∧ (1 : LaneMask).getLsbD 0 = true := by decide +kernel

theorem witness_IssueActs_octet : ∃ row xs old,
    ((queued octet0).sector 0 0).mau = [⟨octet0, 0, [0], .acczero plain 15, [t0], none⟩] ∧
    (((queued octet0).sector 0 0).tile 15).rows[0]? = some row ∧ row[31]? = some old ∧
    FMap.find? [((0 : Nat), List.replicate 8 (0 : Word))] 0 = some xs :=
  ⟨_, _, _, rfl, rfl, rfl, rfl⟩

/-- Transfers whose rows have come, or are on their way; a check. -/
def moving (op : MauOp) (fly : Bool) : State := { queued op with
  waits := if fly then [(0, ⟨t0, .acczero plain 15, ⟨0, 0, 0, []⟩, 0, .flight, none, 0⟩)] else [] }
def movingEntry (op : MauOp) : MauEntry := ⟨op, 0, [0], .acczero plain 15, [t0], none⟩

theorem witness_IssueActs_transfers : ∀ op ∈ [MauOp.load 15 [(0, List.replicate 32 1)], .store 15], ∀ fly ∈ [false, true],
    ((moving op fly).sector 0 0).mau = [movingEntry op] ∧ (moving op fly).rowsFlying 0 (movingEntry op) = fly ∧
    ((((moving op fly).sector 0 0).tile 15).rows[0]?).isSome = true := by decide +kernel

def checkEntry : MauEntry := ⟨.check 15, 0, [0], .accchk tagged 8 15, [t0], some 2⟩
def checking : State := ((solo []).modSector 0 0 fun x => { x with tiles := [(15, TileState.zero)], mau := [checkEntry] }).modThread t0
  fun x => { x with tags := [(2, ⟨[8], none, .waiting, false, 0, 0⟩)] }

theorem witness_IssueActs_check : (checking.sector 0 0).mau = [checkEntry] ∧ t0 ∈ checkEntry.tids ∧ checkEntry.tag = some 2 ∧
    (checking.thread? t0).any (fun x => (FMap.find? x.tags 2).isSome) = true := by decide +kernel

/-! ### What arrives from peers -/

/-- Port 0 is enabled, port 1 is not; peer 3 may not send; a trigger watches the start of page 16 for a barrier in the
second line of the VF's first cluster; a pre-emption may be under way. -/
def peered (step : Nat) : State :=
  let s := (fed []).modVf 0 fun v => { v with
    ports := [(0, ⟨true, 0, 0⟩), (1, ⟨false, 0, 0⟩)], roster := [(3, ⟨1, 1, 0, 0, 0, true, false⟩)]
    triggers := [(0, ⟨[], [], 0x80000000000003F0, 0x100000, 0x100, true, false, 0, 0⟩)] }
  let s := s.modPartition 0 fun p => { p with preempt := { p.preempt with step := step } }
  let l : ScrLine := { ScrLine.reset with
    valid := true, written := true, lifetime := 100, barType := 0x80000000
    bytes := List.replicate 496 0 ++ (Bar.init 5).image }
  { s with scratch := [(0, { l with barType := 0 }), (1, l)] }

def pip : DWord := 0x80000000000003F0
def tok : List Byte := List.replicate 64 0

/-- The PCIe port's unit is disabled; an Ultra Ethernet peer whose VF stands in partition 0. -/
def hostless : State := (fed []).modPkg fun k => { k with disabled := [(0x09, 0)] }
def ethernet : State := (fed []).modVf 0 fun v => { v with roster := [(3, ⟨2, 1, 0, 0, 0, true, true⟩)] }

theorem witness_TokensArrive_source : hostless.hostAttached = false ∧ (fed []).hostAttached = true ∧
    (fed []).jobVf 512 0xFF = none ∧ (peered 0).jobVf 0 (sourceIndex .own) = some 0 ∧
    (peered 0).jobVf 0 (sourceIndex (.peer 3)) = some 0 ∧ ([] : List Byte).length ≠ 64 := by decide +kernel

/-- A JobID of the VF's partition and one of another; a peer that may not send; the device's own. -/
theorem witness_PeersRefused : ethernet.jobVf 0 3 = some 0 ∧ ethernet.jobVf 512 3 = none ∧
    FMap.find? (ethernet.vf (512 % 512)).roster 3 = some ⟨2, 1, 0, 0, 0, true, true⟩ ∧
    (peered 0).jobVf 0 3 = some 0 ∧ (peered 0).receiveFail 0 3 = some 3 := by decide +kernel

theorem witness_TokensArrive : tok.length = 64 ∧ (peered 0).receiveFail 0 (sourceIndex (.peer 3)) = some 3 ∧
    (peered 0).receiveFail 0 (sourceIndex (.peer 4)) = some 1 ∧ (peered 0).receiveFail 0 (sourceIndex .own) = none ∧
    FMap.find? ((peered 0).vf 0).ports 0 = some ⟨true, 0, 0⟩ ∧ FMap.find? ((peered 0).vf 0).ports 1 = some ⟨false, 0, 0⟩ := by
  decide +kernel

/-- The arrival log is full, in this step of a pre-emption. -/
def logged1 (step : Nat) : State := (peered step).modVf 0 fun v => { v with arrivals := List.replicate 65536 ⟨0, 0, 0, 0, 0, 0⟩ }

/-- The barrier's line is stale. -/
def staleBar : State := (peered 0).modPkg fun k => { k with clk := 200000000 }

/-- Bytes beside the trigger's range and at its last byte, and bytes on the barrier; a full log; a stale barrier. -/
theorem witness_LandingsArrive_c1 : (peered 0).receiveFail 0 3 = some 3 ∧ (peered 0).receiveFail 0 0xFF = none ∧
    (peered 0).jobVf 0 0xFF = some 0 ∧
    ((peered 0).landingHeld 0 pip 1 = false ∧ (peered 0).landBytes 0 pip [1] = none) ∧
    ((peered 0).landingHeld 0 0x100100 1 = false ∧ (peered 0).countFails 0 0x100100 1 = false ∧
      ((peered 0).landBytes 0 0x100100 [1]).any (fun s => s.landingBarrier 0 0x100100 1 == none) = true) ∧
    ((peered 0).landingHeld 0 0x1000FF 2 = false ∧ (peered 0).countFails 0 0x1000FF 2 = false ∧
      ((peered 0).landBytes 0 0x1000FF [1, 2]).any (fun s => s.landingBarrier 0 0x1000FF 2 == some (pip, 1)) = true) ∧
    (staleBar.landingHeld 0 0x100000 1 = false ∧ staleBar.countFails 0 0x100000 1 = true) := by
  decide +kernel

theorem witness_LandingsArrive_full : ((logged1 2).vf 0).logFull = true ∧ (logged1 2).landingHeld 0 0x100000 1 = true ∧
    (logged1 2).barrierFresh 0 pip = true ∧ (logged1 2).away 0 = true := by decide +kernel

theorem witness_LandingsArrive_c2 : (peered 0).barrierFresh 0 0x8000000000000200 = false ∧
    ((peered 2).barrierFresh 0 pip = true ∧ (peered 2).away 0 = true ∧ ((peered 2).vf 0).logFull = false) ∧
    (peered 0).barrierFresh 0 pip = true ∧ (peered 0).away 0 = false ∧ (peered 0).landPlace 0 pip = some (0, 0, 0x3F0) := by
  decide +kernel

def c3Line (s : State) : Bool := (s.currentLine 0 0 0 8).any fun x => !x.2

/-- Page 17 is mapped behind page 16. -/
def widePage : State := { peered 0 with mem := (fed [(0x1C110, 2), (0x1C111, 0x33), (0x1C11A, 5)]).mem }

theorem witness_LandingsArrive_c3 :
    (destOf 0x100000 = some (.translated 0x100000) ∧
      ((peered 0).pagePieces 0 0x100000 (bytesLE 8 0)).any (fun l => l.length == 1 && l.all (·.2.2.length == 8)) = true) ∧
    (peered 0).pagePieces 0 0x200000 (bytesLE 8 0) = none ∧ destOf 0x0100000000000000 = none ∧
    ((widePage.pagePieces 0 0x10FFFC (bytesLE 8 0)).map (·.map (·.2.2.length)) = some [4, 4]) ∧
    (destOf pip = some (.cluster 0 0x3F0) ∧ ((peered 0).c3Cluster 0 pip 1).isNone = true) ∧
    destOf 0x8000000000000008 = some (.cluster 0 8) ∧ (peered 0).landPlace 0 0x8000000000000008 = some (0, 0, 8) ∧
      c3Line (peered 0) = true ∧ (peered 0).mayLand 0 0 0 8 (bytesLE 8 0) = true := by decide +kernel

/-! ### Acknowledgements and stores -/

def flight (bypass : Bool) (phys : Nat) : InFlight := ⟨0, some t0, 0, 0, 0, phys, [1, 2], bypass, false, .normal, none, none, false, none⟩
def flying (bypass : Bool) : State :=
  { fed [] with stores := [(0, flight bypass 0x20000), (1, flight bypass 0x20001)], storeNext := 2 }

/-- An access of the thread that has issued: a load that finds its page and one that finds none, a device-scope release,
a load of an empty granule. -/
def issued (i : Instr) (a : DWord) : Wait := ⟨t0, i, ⟨a, 0, 0, []⟩, 0, .flight, none, 0⟩
def waiting (i : Instr) (a : DWord) : State := { fed [] with waits := [(0, issued i a)] }

theorem witness_FlightsEnd : ∀ x ∈ [(ldMem mqDev, 0x100000#64), (ldMem mqDev, 0x500000), (stMem mqRel, 0x100000),
      (.ld tagged .n32 mqFe 8 6 0, 0x0100000000000200)],
    FMap.find? (waiting x.1 x.2).waits 0 = some (issued x.1 x.2) ∧ (issued x.1 x.2).cause = .flight ∧
    (waiting x.1 x.2).behind t0 x.1 ⟨x.2, 0, 0, []⟩ 0 = false := by decide +kernel

theorem witness_FlightsEnd_answers :
    (∃ r s, laneStep (ldMem mqDev) t0 ⟨0x100000, 0, 0, []⟩ (waiting (ldMem mqDev) 0x100000) = .done r s) ∧
    ∃ d a s, laneStep (ldMem mqDev) t0 ⟨0x500000, 0, 0, []⟩ (waiting (ldMem mqDev) 0x500000) = .event 0x11 d a s :=
  ⟨lane_done (by decide +kernel), lane_event (by decide +kernel)⟩

/-- The last lane of a block load that is on its way. -/
def blockWait : Wait := ⟨t0, ldBlock, ldBlockOps, 0, .flight, none, 0⟩
def blockFlying : State := { fed [] with waits := [(0, blockWait)] }

theorem witness_FlightsEnd_block : blockInstr ldBlock = true ∧ FMap.find? blockFlying.waits 0 = some blockWait ∧
    blockFlying.behind t0 ldBlock ldBlockOps 0 = false ∧
    blockFlying.waits.filter (fun e => e.2.cause == .flight && e.2.sameGroup blockWait) = [(0, blockWait)] := by decide +kernel

/-- A message that an order holds, and the writer records of two lines. -/
def messaging : State := { fed [] with messages := [(3, ⟨0, 0, 2, 0, 0, [], true, (1, 0, 0, 0), 0, 0, 0⟩)] }
def recordB (published : Bool) : State := { fed [] with writers := [(0x800, ⟨9, 0, 0, .cluster, 0, published⟩)] }

theorem witness_StoreActs : messaging.ackHeld 3 = true ∧ (fed []).ackHeld 0 = false ∧
    (FMap.find? (flying false).stores 1 = some (flight false 0x20001) ∧ (flying false).storeBlocked 1 (flight false 0x20001) = true) ∧
    (FMap.find? (flying false).stores 0 = some (flight false 0x20000) ∧
      (flying false).storeBlocked 0 (flight false 0x20000) = false ∧ (flight false 0x20000).bypass = false ∧
      (flight false 0x20000).writer = none ∧
      (State.ccStore { flying false with stores := FMap.del (flying false).stores 0 } 0 (flight false 0x20000)).isSome = true) ∧
    (FMap.find? (flying true).stores 0 = some (flight true 0x20000) ∧ (flying true).storeBlocked 0 (flight true 0x20000) = false ∧
      (flight true 0x20000).bypass = true ∧ FMap.find? (flying true).cc (ccKey 0 0x20000) = none ∧ 0x20000 + 2 ≤ 2 ^ 52) ∧
    ∀ b ∈ [false, true], 0x800 < 2 ^ 60 ∧ FMap.find? (recordB b).writers 0x800 = some ⟨9, 0, 0, .cluster, 0, b⟩ ∧
      ∀ e ∈ (recordB b).waits, e.2.cause ≠ .publish 0x800 := by
  decide +kernel

/-! ### Launches -/

/-- Handle 0: one thread, 8 registers. -/
def handle0 : List Host.Cell := [(0x21020, 8), (0x21024, 1)]

def req0 : LaunchReq := ⟨0, 1, 1, 1, 0xFFFF, 0xFFFF, 0, false, []⟩
def entry0 (done : Nat) : LaunchEntry := ⟨0, (1, 1, 1), done, 0xFFFF, 0, [], 7, 0, none, 0, false⟩

/-- Queue 0 of the VF, and what the partition maps. -/
def launching (l : LaunchQueue) (mapping : FMap Nat) : State :=
  ((fed handle0).modVf 0 fun v => { v with queues := [(0, l)] }).modPartition 0 fun p => { p with mapping := mapping }

def queue0 : LaunchQueue := ⟨true, 0, [entry0 0xFFFF], [], none, false, none⟩
def waiting0 : LaunchQueue := ⟨true, 0, [entry0 0xFFFF], [(entry0 0xFFFF, some 1)], none, false, none⟩

theorem witness_LaunchActs_deposit : argsOk req0 = true ∧ (launching queue0 []).launchError 0 0 .system req0 = none ∧
    (launching queue0 []).launchError 0 255 .system req0 = some 5 ∧
    argsOk { req0 with args := List.replicate 516 0 } = false := by decide +kernel

theorem witness_LaunchActs_room : FMap.find? ((launching waiting0 []).vf 0).queues 0 = some waiting0 ∧
    waiting0.waiting ≠ [] ∧ waiting0.entries.length < 65536 ∧
    FMap.find? ((launching queue0 []).vf 0).queues 0 = some queue0 ∧ queue0.waiting = [] := by decide +kernel

/-- A winner, with a plan whose banks are in their modes. -/
def planB (s : State) : Bool :=
  match s.queuePlan 0 0 0 0 0 with
  | some (_, k, ps) => ps.all (s.planReady 0 k)
  | none => false

theorem plan_of {s : State} (h : planB s = true) :
    ∃ e k ps, s.queuePlan 0 0 0 0 0 = some (e, k, ps) ∧ ps.all (s.planReady 0 k) = true := by
  unfold planB at h
  split at h
  · next e k ps hp => exact ⟨e, k, ps, hp, h⟩
  · cases h

theorem witness_LaunchActs_bind : (launching queue0 [(15, 0)]).dispatching 0 = some 0 ∧
    ((launching queue0 [(15, 0)]).restoreOne 0 0 0).isNone = true ∧
    (launching queue0 [(15, 0)]).winner 0 0 0 0 = some (15, 0) ∧
    (∃ e k ps, (launching queue0 [(15, 0)]).queuePlan 0 0 0 0 0 = some (e, k, ps) ∧
      ps.all ((launching queue0 [(15, 0)]).planReady 0 k) = true) ∧ State.reset.dispatching 0 = none :=
  ⟨by decide +kernel, by decide +kernel, by decide +kernel, plan_of (by decide +kernel), by decide +kernel⟩

/-- A saved team of a kernel without tiles. -/
def savedTeam : SavedTeam :=
  ⟨true, 3, 2, .resident, { placedTeam with kern := { placedTeam.kern with tiles := 0 }, index := 1 }, [], [], [], [], [], [], none⟩

def donor : State := (launching queue0 []).modVf 0 fun v => { v with save := { v.save with teams := [savedTeam] } }

theorem witness_LaunchActs_restore : donor.dispatching 0 = some 0 ∧ (donor.restoreOne 0 0 0).isSome = true := by
  decide +kernel

theorem witness_LaunchActs_service : (launching queue0 []).pkg.inService = true ∧
    ((launching queue0 []).modPkg fun k => { k with inService := false }).pkg.inService = false := by decide +kernel

/-! ### Dispatch -/

def bind0 : BindRec := ⟨0x101000, 0, 0, 0, 3, false, 0, 0, 1, 0, 0, 0, 0, true⟩

theorem witness_DispatchActs_launch : 7 < 8 ∧ ((fed handle0).slot 1 7).state = .free ∧
    (BindRec.of bind0.image).reservedOk = true ∧ (BindRec.of bind0.image).restore = false ∧
    ((fed handle0).kernelAt (BindRec.of bind0.image).vf (BindRec.of bind0.image).handle).any
      (fun k => (fed handle0).admits 1 [(k, (BindRec.of bind0.image).baseSector)]) = true := by decide +kernel

def slotted (st : SlotState) (q : Option (List Byte)) : State := (fed handle0).modSlot 0 0 fun _ => ⟨st, [], q⟩

/-- A draining team whose store has not been performed. -/
def copyDrain : State := { slotted .draining none with stores := [(0, flight false 0x20000)], storeNext := 1 }

theorem witness_DispatchActs_waits : ((slotted .resident none).slot 0 0).state = .resident ∧
    ((slotted .draining none).slot 0 0).state = .draining ∧ ((slotted .binding none).slot 0 0).state = .binding ∧
    ((slotted .binding none).slot 0 0).record ≠ bind0.image ∧ ((slotted .resident none).team? 0 0).isSome = true ∧
    (FMap.find? copyDrain.teams 0).isSome = true ∧ copyDrain.slotBusy 0 0 = true := by decide +kernel

theorem witness_DispatchActs_free : ((slotted .draining none).team? 0 0).isSome = true ∧
    ((slotted .draining none).slot 0 0).state = .draining ∧ (slotted .draining none).slotBusy 0 0 = false ∧
    ((slotted .draining none).slot 0 0).queued = none ∧ ((slotted .draining (some bind0.image)).team? 0 0).isSome = true ∧
    (slotted .draining (some bind0.image)).slotBusy 0 0 = false ∧
    ((slotted .draining (some bind0.image)).slot 0 0).queued = some bind0.image := by decide +kernel

/-- A saved team of one thread, with a saved line, that a record may restore. -/
def restored : SavedTeam :=
  { savedTeam with
    threads := [(0, Thread.launch 6 0)]
    pdLeft := [(0, 5)]
    team := { savedTeam.team with allocs := [⟨false, 0, 512⟩] } }
def savedLine0 : SavedLine := ⟨0, 0, 7, { ScrLine.reset with valid := true, written := true, lifetime := 100 }⟩
def restoring : State := (fed handle0).modVf 0 fun v => { v with save := { v.save with teams := [restored], lines := [savedLine0] } }
def bindBack : BindRec := { bind0 with team := 1, restore := true }

theorem witness_DispatchActs_restore : (restoring.slot 1 7).state = .free ∧ (BindRec.of bindBack.image).reservedOk = true ∧
    (BindRec.of bindBack.image).restore = true ∧
    (restoring.kernelAt (BindRec.of bindBack.image).vf (BindRec.of bindBack.image).handle).any
      (fun k => restoring.admits 1 [(k, (BindRec.of bindBack.image).baseSector)]) = true ∧
    restoring.savedFor (BindRec.of bindBack.image) = some restored ∧ restored.waits = [] ∧
    (restoring.vf 0).save.tce = [] ∧ FMap.sorted restored.threads = true ∧ restored.owns savedLine0 = true ∧
    FMap.find? restored.threads 0 = some (.launch 6 0) := by decide +kernel

/-- A handle that breaks its rule, and a restore of a team that is not saved. -/
theorem witness_DispatchActs_refused : ((fed []).slot 1 7).state = .free ∧
    (fed []).kernelAt (BindRec.of bind0.image).vf (BindRec.of bind0.image).handle = none ∧
    (fed handle0).savedFor (BindRec.of bindBack.image) = none ∧ (BindRec.of bindBack.image).restore = true := by decide +kernel

/-! ### Grids -/

/-- Grid 0 with a team left, grid 7 done, and grid 8 under it done. -/
def gridded : State := (fed []).modVf 0 fun v => { v with
  grids := [(0, ⟨none, 0, 1, false, false, 0xFFFF, 0⟩), (7, ⟨none, 0, 0, false, false, 0xFFFF, 0⟩),
    (8, ⟨some 0, 1, 0, false, false, 0xFFFF, 0⟩)] }

theorem witness_GridActs_retire : gridded.gridDone 0 0 = false ∧ FMap.sorted (gridded.vf 0).grids = true ∧
    FMap.find? (gridded.vf 0).grids 7 = some ⟨none, 0, 0, false, false, 0xFFFF, 0⟩ ∧ gridded.gridDone 0 7 = true ∧
    FMap.find? (gridded.vf 0).grids 8 = some ⟨some 0, 1, 0, false, false, 0xFFFF, 0⟩ ∧ gridded.gridDone 0 8 = true := by
  decide +kernel

/-- Every slot of the partition's 16 cores holds a team of one parked thread, and queue 0 waits. -/
def blocked : State :=
  let tm := { placedTeam with kern := { placedTeam.kern with tiles := 0 } }
  let x := { Thread.launch 0 0 with parked := true }
  { (launching queue0 [(0, 0)]).modVf 0 fun v => { v with saveArea := 2 ^ 56 } with
    teams := (List.range 128).map fun k => (k, tm)
    threads := (List.range 128).map fun k => (tidKey ⟨k / 8, k % 8, false, 0, 0⟩, x)
    cohorts := (List.range 128).map fun k => (cohortKey (k / 8) (k % 8) false 0, .launch 1)
    cores := (List.range 16).map fun c => (c, { Core.reset with
      vf := some 0, slots := (List.range 8).map fun k => (k, ⟨.resident, [], none⟩) }) }

/-- The test's time is noted. -/
def ticked (s : State) : State := s.modPartition 0 fun x => { x with checked := s.pkg.clk }

/-- Without a page of the save area, a save leaves nothing in memory. -/
theorem fill_none {s : State} {vf : Nat} (h : 2 ^ 56 ≤ (s.vf vf).saveArea) :
    s.fillSaveArea vf = { s with draws := s.draws + 1 + Config.choose s.draws 0 } := by
  have hl : ∀ (l : List Nat) (f : State → Nat → State) (t : State), (∀ i, f t i = t) → l.foldl f t = t := by
    intro l f t hf
    induction l with
    | nil => rfl
    | cons i l ih => rw [List.foldl_cons, hf]; exact ih
  refine hl _ _ _ fun i => ?_
  have hn : ∀ (t : State) (va : Nat), 2 ^ 56 ≤ va → t.savePage vf va = none := by
    intro t va hv; unfold State.savePage; rw [if_pos hv]
  rw [hn]
  exact Nat.le_trans h (Nat.le_add_right _ _)

/-- The state of the victim's save, but for the numbers drawn. -/
def saved0 : State := ((ticked blocked).quietTeam 0 0).saveTeamLines 0
  { placedTeam with kern := { placedTeam.kern with tiles := 0 } } |>.saveTeam 0 0 true

theorem donated : (ticked blocked).donate 0 0 = { saved0 with draws := saved0.draws + 1 + Config.choose saved0.draws 0 } := by
  have hg : (ticked blocked).groupTeams 0 0 = [(0, { placedTeam with kern := { placedTeam.kern with tiles := 0 } })] := by
    decide +kernel
  have hq : ((ticked blocked).slot 0 0).queued = none := by decide +kernel
  unfold State.donate
  rw [hg]
  simp only [List.foldl_cons, List.foldl_nil, Nat.zero_div, Nat.zero_mod, hq, State.obeyQueued]
  rw [show (ticked blocked).modSlot 0 0 (fun x => { x with queued := none }) = ticked blocked by decide +kernel]
  exact fill_none (by decide +kernel)

theorem witness_GridActs_blocked : (ticked blocked).dispatching 0 = some 0 ∧ ((ticked blocked).victim 0).map Prod.fst = some 0 ∧
    (ticked blocked).allIdle 0 = true ∧ ((ticked blocked).donate 0 0).winner 0 0 0 0 = some (0, 0) ∧
    (∃ e k ps, ((ticked blocked).donate 0 0).queuePlan 0 0 0 0 0 = some (e, k, ps) ∧
      ps.all (((ticked blocked).donate 0 0).planReady 0 k) = true) ∧ (ticked (fed [])).allIdle 0 = false ∧
    (((fed []).modPartition 0 fun p => { p with resident := none }).partition 0).resident = none :=
  ⟨by decide +kernel, by decide +kernel, by decide +kernel, by rw [donated]; decide +kernel,
    plan_of (by rw [donated]; decide +kernel), by decide +kernel, by decide +kernel⟩

/-- Queue 0, mapped, has waited for semaphore 4 for 50 µs; queue 3, not mapped, would signal it. -/
def starving : State :=
  let l : LaunchQueue := ⟨true, 0, [{ entry0 0xFFFF with waitSem := 4, waitCount := 1 }], [], none, false, some 0⟩
  let s := (launching queue0 [(2, 0)]).modVf 0 fun v => { v with
    queues := [(0, l), (3, { queue0 with entries := [{ entry0 4 with grid := 9 }] })] }
  s.modPkg fun k => { k with clk := 50000 }

theorem witness_GridActs_donation : ∃ l, (starving.partition 0).resident = some 0 ∧ (starving.partition 0).preempt.step = 0 ∧
    (starving.partition 0).mapping = [(2, 0)] ∧ starving.mapped 0 0 = true ∧
    FMap.find? (starving.vf 0).queues 0 = some l ∧ starving.starved 0 0 l = some (4, 1) ∧
    starving.signaller 0 0 4 = some 3 ∧ starving.spareSlot 0 0 0 = none :=
  ⟨_, rfl, by decide +kernel, by decide +kernel, by decide +kernel, rfl, by decide +kernel, by decide +kernel, by decide +kernel⟩

/-! ### Records, wakes, replays -/

/-- A record of the thread at slot 0 of core 0. -/
def recOf (kind seq : Nat) (detail : DWord) (log : Option Nat) : Record :=
  { State.reset.bareRecord 0 kind 0x100000 detail with seq := seq, lanes := 1, opcode := 6, log := log }

/-- A partition's queue. -/
def recorded (rs : List Record) : State := (fed []).modPartition 0 fun p => { p with queue := rs }

/-- What the scheduler core would do first. -/
def schedB (s : State) : Option (Record × Nat) := (s.nextSched 0).map fun x => (x.1, match x.2 with
  | .kill => 0
  | .inform => 1
  | .refetch => 2
  | .replay => 3
  | .relaunch _ _ => 4
  | .prepare _ _ => 5
  | .later => 6)

theorem sched_of {s : State} {r : Record} {n : Nat} {a : SchedAct} (h : schedB s = some (r, n))
    (ha : match a with | .kill => n = 0 | .inform => n = 1 | .refetch => n = 2 | .replay => n = 3 | _ => False) :
    s.nextSched 0 = some (r, a) := by
  unfold schedB at h
  obtain ⟨⟨r', b⟩, hx, hb⟩ := Option.map_eq_some_iff.mp h
  simp only [Prod.mk.injEq] at hb
  obtain ⟨rfl, hb⟩ := hb
  rw [hx]
  revert hb ha
  cases a <;> cases b <;> simp <;> intros <;> omega

theorem witness_RecordActs_kinds : (fed []).nextSched 0 = none ∧
    (recorded [recOf 0x37 1 0 none]).nextSched 0 = some (recOf 0x37 1 0 none, .inform) ∧
    (recorded [recOf 0x1A 2 0 (some 0)]).nextSched 0 = some (recOf 0x1A 2 0 (some 0), .replay) ∧
    (recorded [recOf 0x04 3 0 none]).nextSched 0 = some (recOf 0x04 3 0 none, .refetch) ∧
    (recorded [recOf 0x1E 4 0 none]).nextSched 0 = some (recOf 0x1E 4 0 none, .kill) :=
  ⟨by decide +kernel, sched_of (n := 1) (by decide +kernel) rfl, sched_of (n := 3) (by decide +kernel) rfl,
    sched_of (n := 2) (by decide +kernel) rfl, sched_of (n := 0) (by decide +kernel) rfl⟩

/-- The same record against a team that may be relaunched, of a kernel with FIFO-mode banks or without. -/
def againTeam (n : Nat) : Team :=
  { placedTeam with
    kern := { placedTeam.kern with
      tiles := 0
      fifoBanks := n }
    relaunchable := true
    allocs := [⟨false, 0, 1024⟩] }
def again (n : Nat) : State := (recorded [recOf 0x1E 4 0 none]).modTeam 0 0 fun _ => againTeam n

/-- The plan from the core numbered `c` and the base sector `b`. -/
def againPlan (n c b : Nat) : Option Plan :=
  (again n).planFirst (againTeam n).kern [] 0 b 0
    (((around c 16).map fun i => ((again n).coresOf 0).getD i 0).filter (· / 4 != 0))

/-- Its cluster's banks are ready without FIFO-mode banks, and must be switched with one. -/
theorem again_plans : ∀ n < 2, ∀ c < 16, ∀ b < 4,
    (againPlan n c b).any (fun x => (again n).planReady 0 (againTeam n).kern x == (n == 0)) = true := by decide +kernel

theorem planOn_mod (s : State) (k : Kernel) (ps : List Plan) (i b d : Nat) :
    s.planOn k ps i b d = s.planOn k ps i (b % 4) d := by
  funext core
  unfold State.planOn
  have : (fun i => (b % 4 + i) % 4) = fun i => (b + i) % 4 := by funext i; omega
  rw [this]

theorem around_mod (n m : Nat) : around n m = around (n % m) m := by
  unfold around
  congr 1
  funext i
  rw [Nat.mod_add_mod]

theorem again_facts : ∀ n < 2, (again n).draws = 0 ∧ ((again n).coresOf 0).length = 16 ∧
    ((again n).partition 0).queue = [recOf 0x1E 4 0 none] ∧ ((again n).dispatching 0).isNone = false ∧
    (again n).recordTeam (recOf 0x1E 4 0 none) = some (againTeam n) ∧ relaunches (againTeam n) = true ∧
    (again n).pkg.hostQueue = [] := by decide +kernel

theorem again_plan {n : Nat} (hn : n < 2) : ∃ x, (again n).relaunchPlan (recOf 0x1E 4 0 none) (againTeam n) = some x ∧
    (again n).planReady 0 (againTeam n).kern x = (n == 0) := by
  obtain ⟨x, hx, hr⟩ := (Option.any_eq_true _ _).mp (again_plans n hn (Config.choose 0 17 % 16) (Nat.mod_lt _ (by decide))
    (Config.choose 0 4 % 4) (Nat.mod_lt _ (by decide)))
  refine ⟨x, ?_, beq_iff_eq.mp hr⟩
  rw [← hx]
  unfold State.relaunchPlan State.planFirst againPlan State.planFirst State.relaunchCores
  obtain ⟨hd, hl, -⟩ := again_facts n hn
  have hp : (againTeam n).partition = 0 := rfl
  simp only [hd, hp, hl]
  rw [planOn_mod, ← around_mod]
  rfl

theorem again_acts {n : Nat} (hn : n < 2) : ∃ x, (again n).nextSched 0 =
    some (recOf 0x1E 4 0 none, if n = 0 then .relaunch (againTeam n) x else .prepare (againTeam n) x) := by
  obtain ⟨x, hx, hr⟩ := again_plan hn
  obtain ⟨-, -, hq, hd, ht, hm, hh⟩ := again_facts n hn
  refine ⟨x, ?_⟩
  have ha : (again n).schedAct 0 (recOf 0x1E 4 0 none) =
      if n = 0 then .relaunch (againTeam n) x else .prepare (againTeam n) x := by
    unfold State.schedAct
    rw [if_neg (by decide), if_neg (by decide), if_neg (by decide), if_pos (by decide), hh, if_neg (by decide), ht]
    dsimp only
    rw [hm, hd, if_neg (by decide), if_neg (by decide), hx]
    dsimp only
    rw [show (againTeam n).vf = 0 from rfl, hr]
    simp
  unfold State.nextSched
  rw [hq, List.findSome?_cons, if_pos (by decide), ha]
  by_cases h : n = 0 <;> simp [h]

theorem witness_RecordActs_relaunch : ∃ x, (again 0).nextSched 0 = some (recOf 0x1E 4 0 none, .relaunch (againTeam 0) x) :=
  again_acts (by decide)

theorem witness_RecordActs_prepare : ∃ x, (again 1).nextSched 0 = some (recOf 0x1E 4 0 none, .prepare (againTeam 1) x) :=
  again_acts (by decide)

theorem witness_RecordActs_host :
    ((recorded [{ recOf 0x14 5 0 none with host := true }, recOf 0x04 3 0 none]).partition 0).queue =
      [{ recOf 0x14 5 0 none with host := true }, recOf 0x04 3 0 none] ∧
    { recOf 0x14 5 0 none with host := true }.host = true ∧
    (recorded [{ recOf 0x14 5 0 none with host := true }, recOf 0x04 3 0 none]).pkg.hostQueue.length < 65536 := by
  decide +kernel

/-- The resident kernel's ring stands at page 16, or nowhere. -/
def ringed (a : Option Nat) : State := (recorded [{ recOf 0x14 5 0 none with host := true }]).modPkg fun k => { k with hostRing := a }

theorem witness_RecordActs_ring : ((ringed none).partition 0).queue = [{ recOf 0x14 5 0 none with host := true }] ∧
    (ringed none).pkg.hostRing = none ∧ (ringed (some 0x20000)).pkg.hostRing = some 0x20000 ∧ 0x20000 + 64 * 65536 ≤ 2 ^ 52 ∧
    (ringed (some 0x20000)).pkg.hostQueue.length < 65536 := by decide +kernel

/-- A standing event; its cohort has stopped, or not. -/
def standing (kind : Nat) (host : Bool) (step : Nat) : State :=
  ((fed []).modPartition 0 fun p => { p with
    standing := [(9, ⟨recOf kind 9 0 none, 1, none, host, false⟩)]
    preempt := { p.preempt with step := step, acks := if step = 0 then [] else [(1, 0)] } }).modThread t0 fun x =>
      { x with parked := true, events := [9] }

def wakeWith (seq : BitVec 32) (a : Option WakeAction) : WakeRec := ⟨seq, 0, 0, 0, 0, a⟩
def stands (kind : Nat) (host : Bool) : Standing := ⟨recOf kind 9 0 none, 1, none, host, false⟩

theorem witness_WakesAnswer_nothing : (standing 0x14 true 0).wokenEvent 0 (wakeWith 8 (some .kill)) = none ∧
    (wakeWith 9 none).action = none ∧
    ((standing 0x04 false 0).wokenEvent 0 (wakeWith 9 (some .resume)) = some (stands 0x04 false) ∧ (stands 0x04 false).host = false) ∧
    (standing 0x02 true 0).wokenEvent 0 (wakeWith 9 (some .resume)) = some (stands 0x02 true) ∧
    allows 0x02 true .resume = false := by decide +kernel

theorem witness_WakesAnswer_acts :
    ((standing 0x14 true 2).wokenEvent 0 (wakeWith 9 (some .resume)) = some (stands 0x14 true) ∧
      allows 0x14 true .resume = true ∧ (standing 0x14 true 2).wakeStored 0 (recOf 0x14 9 0 none) = true) ∧
    ((standing 0x14 true 0).wokenEvent 0 (wakeWith 9 (some .kill)) = some (stands 0x14 true) ∧
      allows 0x14 true .kill = true ∧ (standing 0x14 true 0).wakeStored 0 (recOf 0x14 9 0 none) = false) ∧
    (standing 0x14 true 0).wokenEvent 0 (wakeWith 9 (some .resume)) = some (stands 0x14 true) ∧
      (recOf 0x14 9 0 none).log = none ∧ ((standing 0x14 true 0).thread? t0).isSome = true := by decide +kernel

/-- The thread stands past the last word. -/
def pastLast : State := (standing 0x14 true 0).modThread t0 fun x => { x with pc := wordLimit }

theorem witness_WakesAnswer_pc : (((standing 0x14 true 0).thread? t0).any fun x => decide (x.pc < wordLimit)) = true ∧
    (pastLast.wokenEvent 0 (wakeWith 9 (some .resume)) = some (stands 0x14 true) ∧ allows 0x14 true .resume = true ∧
      pastLast.wakeStored 0 (recOf 0x14 9 0 none) = false ∧ (recOf 0x14 9 0 none).lanes.getLsbD 0 = true) ∧
    ((pastLast.thread? t0).any fun x => decide (wordLimit ≤ x.pc) && x.events == [9] && !x.exited && !x.exitIssued) = true := by
  decide +kernel

/-- A standing event of logged lanes, and one of a copy command that waits for its answer or is saved. -/
def wakingRec (kind : Nat) (log : Option Nat) (host : Bool) : Standing := ⟨recOf kind 9 0 log, 1, none, host, false⟩
def waking (kind : Nat) (log : Option Nat) (host : Bool) : State :=
  (fed []).modPartition 0 fun p => { p with standing := [(9, wakingRec kind log host)] }

theorem witness_WakesAnswer_logged :
    (waking 0x1A (some 0) false).wokenEvent 0 (wakeWith 9 (some .replay)) = some (wakingRec 0x1A (some 0) false) ∧
    (recOf 0x1A 9 0 (some 0)).kind ≠ 0x31 ∧ (waking 0x1A (some 0) false).wakeStored 0 (recOf 0x1A 9 0 (some 0)) = false ∧
    allows 0x1A false .replay = true ∧
    (waking 0x1B (some 0) true).wokenEvent 0 (wakeWith 9 (some .resume)) = some (wakingRec 0x1B (some 0) true) ∧
    (waking 0x1B (some 0) true).wakeStored 0 (recOf 0x1B 9 0 (some 0)) = false ∧ allows 0x1B true .resume = true := by
  decide +kernel

/-- A logged load of page 16, and one of a page that the tables do not map. -/
def relog (a : DWord) : State := (fed []).modCohort 0 0 false 0 fun c =>
  { c with log := [(0, ⟨0, ldMem mqDev, 0, [(0, ⟨a, 0, 0, []⟩)], 1, 1, some 2, 0, 0⟩)], logAge := 1 }
def relogEntry (a : DWord) : LogEntry := ⟨0, ldMem mqDev, 0, [(0, ⟨a, 0, 0, []⟩)], 1, 1, some 2, 0, 0⟩

theorem witness_ReplaysPerform : (relog 0x100000).logEntry ⟨0, 0, false, 0⟩ 1 = none ∧
    ((relog 0x100000).logEntry ⟨0, 0, false, 0⟩ 0 = some (relogEntry 0x100000) ∧
      (relogEntry 0x100000).unfinished.getLsbD 0 = true ∧
      ∃ r s2, laneStep (ldMem mqDev) t0 ⟨0x100000, 0, 0, []⟩ (relog 0x100000) = .done r s2) ∧
    (relog 0x400000).logEntry ⟨0, 0, false, 0⟩ 0 = some (relogEntry 0x400000) ∧
      ∃ d a s2, laneStep (ldMem mqDev) t0 ⟨0x400000, 0, 0, []⟩ (relog 0x400000) = .event 0x11 d a s2 :=
  ⟨by decide +kernel, ⟨by decide +kernel, by decide +kernel, lane_done (by decide +kernel)⟩, by decide +kernel,
    lane_event (by decide +kernel)⟩

/-- A logged load of an empty granule, and one whose condition does not hold; a logged release. -/
def relogged (i : Instr) (a : DWord) : State := (fed []).modCohort 0 0 false 0 fun c =>
  { c with log := [(0, ⟨0, i, 0, [(0, ⟨a, 0, 0, []⟩)], 1, 1, some 2, 0, 0⟩)], logAge := 1 }

theorem lane_wait {o : LaneOut} (h : laneB o = 2) : ∃ c b s, o = .wait c b s := by
  cases o with
  | wait c b s => exact ⟨c, b, s, rfl⟩
  | event k d a s => simp only [laneB] at h; omega
  | later s => simp only [laneB] at h; omega
  | done r s => simp only [laneB] at h; omega

theorem witness_ReplaysPerform_rest : blockInstr (ldMem mqDev) = false ∧
    (∃ c b s2, laneStep (.ld tagged .n32 mqFe 8 6 0) t0 ⟨0x0100000000000200, 0, 0, []⟩
      (relogged (.ld tagged .n32 mqFe 8 6 0) 0x0100000000000200) = .wait c b s2) ∧
    ∃ s2, laneStep (stMem mqRel) t0 ⟨0x100000, 0, 0, [1, 2]⟩ (relogged (stMem mqRel) 0x100000) = .later s2 :=
  ⟨by decide +kernel, lane_wait (by decide +kernel), lane_later (by decide +kernel)⟩

/-! ### The page service -/

/-- An entry of the service for page 32 of the VF under key 5, in a phase, with a claim and a last request. -/
def dir (mode : Nat) : DirEntry := ⟨5, 0x20000, 0, 3, 0, 0xFFFF, 0, 1, [], 1, mode, 2, false⟩
def serving (step claimed sent : Nat) (retried : Bool) (frame : Option Nat) : Service :=
  ⟨0, 5, 0, 0x200000, 0, some (0x1C200, 1), step, claimed, [9], false, retried,
    if step = 5 then some (dir 0) else none, frame, 0, sent⟩

/-- Hub die 0 with an entry in service at a time, and a partition's records. -/
def served (es : List Service) (clk : Nat) (rs : List Record) : State :=
  { recorded rs with hubs := [(0, { Hub.reset with service := es })], pkg := { Package.reset with clk := clk } }

theorem witness_PageClaims_claim : (served [] 0 []).nextClaim 0 = none ∧
    ((served [serving 2 0 0 false none] 0 [recOf 0x10 8 5 (some 0)]).nextClaim 0 = some (recOf 0x10 8 5 (some 0)) ∧
      (served [serving 2 0 0 false none] 0 [recOf 0x10 8 5 (some 0)]).service? 0 0 5 false = some (serving 2 0 0 false none) ∧
      (served [serving 2 0 0 false none] 0 [recOf 0x10 8 5 (some 0)]).hubOf 0 = 0) ∧
    (served [] 0 [recOf 0x10 8 5 (some 0)]).nextClaim 0 = some (recOf 0x10 8 5 (some 0)) ∧
      (served [] 0 [recOf 0x10 8 5 (some 0)]).service? 0 0 5 false = none := by decide +kernel

theorem witness_PageClaims_directory :
    ((served [serving 2 0 0 false none] 20000 []).service? 0 0 5 false = some (serving 2 0 0 false none) ∧
      (serving 2 0 0 false none).step = 2 ∧ (dir 0).key = 5 ∧
      (serving 2 0 0 false none).lastSent + 20000 ≤ (served [serving 2 0 0 false none] 20000 []).pkg.clk) ∧
    (served [] 0 []).waitingOn 0 (dir 0).key = [] := by decide +kernel

/-- The page of key 5 is on its way home: its mode is not known yet, or its version was 2. -/
def back (v : Option (BitVec 32)) : WriteBack := ⟨0, 5, [(0, 1)], [], v, 0, 0⟩
def goingBack (v : Option (BitVec 32)) (es : List Service) (clk : Nat) : State :=
  { served es clk [] with hubs := [(0, { Hub.reset with
    service := es
    writeBacks := [back v] })] }
/-- The state in which the entry acts: the page's is settled first. -/
def settled : State := ((goingBack (some 2) [serving 2 0 0 false none] 0).modHub 0 fun h => h.cache (dir 2)).settleBacks 0 (dir 2)

theorem witness_PageClaims_back : ((goingBack (some 2) [serving 2 0 0 false none] 0).hub 0).goingHome 0 5 = true ∧
    (settled.service? 0 0 5 false = some (serving 2 0 0 false none)) ∧
    ((served [serving 2 0 0 false none] 0 []).hub 0).goingHome 0 5 = false ∧
    (back (some 2) ∈ ((goingBack (some 2) [] 0).hub 0).writeBacks ∧ (2 : BitVec 32) ≠ (dir 2).version) ∧
    (∀ w ∈ ((served [] 0 []).hub 0).writeBacks, w.key ≠ (dir 0).key) := by decide +kernel

/-- What the directory says of a page that nothing here waits for, and of one that is going home in this cycle. -/
theorem witness_PageClaims_learn :
    (∀ w ∈ ((served [] 0 []).hub 0).writeBacks, w.key ≠ (dir 0).key) ∧
    (∀ a ∈ ((served [] 0 []).hub 0).homeActs, a.1 ≠ (dir 0).key) ∧ FMap.find? (served [] 0 []).twins (dir 0).key.toNat = none ∧
    (back (some 2)).lastSent = (goingBack (some 2) [] 0).pkg.clk ∧
    (∀ x ∈ ((goingBack (some 2) [] 0).hub 0).writeBacks, x.key = (dir 0).key → x.version ≠ none) ∧
    (((goingBack (some 2) [serving 2 0 0 false none] 0).learn 0 (dir 2)).service? 0 0 5 false = some (serving 2 0 0 false none)) := by
  decide +kernel

theorem witness_PageClaims_page : ∀ retried ∈ [false, true],
    (served [serving 5 0 0 retried (some 0x30000)] 0 []).service? 0 0 5 false = some (serving 5 0 0 retried (some 0x30000)) ∧
    (serving 5 0 0 retried (some 0x30000)).step = 5 ∧ (serving 5 0 0 retried (some 0x30000)).entry = some (dir 0) ∧
    (serving 5 0 0 retried (some 0x30000)).frame = some 0x30000 ∧ (3 : BitVec 32) = (dir 0).version ∧
    (4 : BitVec 32) ≠ (dir 0).version ∧ (serving 5 0 0 retried (some 0x30000)).retried = retried := by decide +kernel

theorem witness_PagesInstall : (serving 5 0 0 false (some 0x30000)).leaf = some (0x1C200, 1) ∧
    (served [] 0 []).entryAt 0x1C200 = 0 ∧
    State.entryAt { served [] 0 [] with mem := memPut (served [] 0 []).mem 0x1C200 1 } 0x1C200 = 1 ∧
    0x30000 % 65536 = 0 ∧ 0x30000 + 65536 ≤ 2 ^ 52 ∧ 0x1C200 + 16 ≤ 2 ^ 52 ∧ 0x1C200 + 16 ≤ 0x30000 ∧
    FMap.sorted [((0 : Nat), (1 : Byte)), (65535, 2)] = true := by decide +kernel

/-- Page 16 may be a victim: local, clean, in a remote region, or not. -/
def placedPage : State :=
  let s := fed []
  { s with mem := s.mem.map fun c => if c.1 = 0x10000 then (0x10000, 5) else if c.1 = 0x1C101 then (0x1C101, 3) else c }

/-- The entry in service over that page. -/
def framingEntry : Service := { serving 3 0 0 false none with entry := some (dir 0) }
def framing : State :=
  { placedPage with
    hubs := [(0, { Hub.reset with service := [framingEntry] })]
    pkg := { Package.reset with clk := 20000 } }

theorem witness_PageTimeouts_frame :
    (served [serving 3 0 0 false none] 20000 []).service? 0 0 5 false = some (serving 3 0 0 false none) ∧
    (serving 3 0 0 false none).lastSent + 20000 ≤ (served [serving 3 0 0 false none] 20000 []).pkg.clk ∧
    (served [serving 3 0 0 false none] 20000 []).freeFrame 0 = none ∧
    (served [serving 3 0 0 false none] 20000 []).victims 0 0 = [] ∧
    framing.service? 0 0 5 false = some framingEntry ∧ framingEntry.step = 3 ∧ framingEntry.entry = some (dir 0) ∧
    framing.victims 0 0 ≠ [] := by decide +kernel

/-- Just due and not due; before 200 µs and at 200 µs. -/
theorem witness_PageTimeouts_entry :
    (∀ clk ∈ [19999, 20000, 199999, 200000, 2000000], (served [serving 5 0 0 false none] clk []).service? 0 0 5 false =
      some (serving 5 0 0 false none)) ∧
    (serving 5 0 0 false none).entry = some (dir 0) ∧
    (serving 5 0 0 false none).claimed + (((serving 5 0 0 false none).lastSent - (serving 5 0 0 false none).claimed) / 20000 + 1) *
      20000 = 20000 ∧
    (serving 5 0 0 false none).claimed + 200000 = 200000 ∧
    ((fed []).hub 0).goingHome 0 5 = false ∧ back (some 2) ∈ ((goingBack (some 2) [] 20000).hub 0).writeBacks := by
  decide +kernel

/-- A descriptor that is none; a window that is not closed; pages that are not pinned. -/
theorem witness_GatesAndWindows_open : windowOf [1] = none ∧ ready.windowState 0 = 2 ∧ (fed []).windowState 0 = 0 ∧
    (fed []).pagesAll (0 : Nat) 0x100000 65536 (fun e => leafKind e == 0 && leafPin e) = true ∧
    placedPage.pagesAll (0 : Nat) 0x100000 65536 (fun e => leafKind e == 0 && leafPin e) = false := by decide +kernel

/-- An event that has been in service for 50 ms, and a page that has been pinned for 1 ms. -/
def overdue50 : State := { (served [] 50000000 []).modPartition 0 fun p => { p with
    standing := [(9, ⟨recOf 0x10 9 5 (some 0), 1, some 0, false, false⟩)] } with pinned := [⟨0, 16, 49000000, [9]⟩, ⟨7, 16, 49000000, [9]⟩] }

theorem witness_PageTimeouts_rest : overdue50.remoteLate 0 9 = true ∧
    FMap.find? (overdue50.partition 0).standing 9 = some ⟨recOf 0x10 9 5 (some 0), 1, some 0, false, false⟩ ∧
    (∀ v ∈ [0, 7], (⟨v, 16, 49000000, [9]⟩ : PinnedPage) ∈ overdue50.pinned) ∧ 49000000 + 1000000 ≤ overdue50.pkg.clk ∧
    overdue50.partOf 7 = none ∧ overdue50.partOf 0 = some 0 ∧ (fed []).remoteLate 0 9 = false := by decide +kernel

/-- Page 16 as a held page, its leaf pinned or not, with its directory entry; and a window in a state. -/
def holding (pin : Bool) (mode win : Nat) : State :=
  let s := served [] 0 []
  { s with
    mem := if pin then s.mem else s.mem.map fun c => if c.1 = 0x1C101 then (0x1C101, 0x13) else c
    hubs := [(0, { Hub.reset with held := [⟨0, 16, 5, 0x20000, some 3, false⟩], owned := [dir mode] })]
    pkg := { s.pkg with windows := [(3, ⟨[], 0x100000, 0x10000, [0x30000], 0, win, true, 0, false⟩)] } }

/-- The page of key 5, held in its version 3. -/
def held5 : HeldPage := ⟨0, 16, 5, 0x20000, some 3, false⟩

theorem witness_PagesTravel_held : (∀ pin ∈ [false, true], (holding pin 1 0).heldUnder 0 5 (some 0) = some held5 ∧
      (holding pin 1 0).pageLocked 0 held5 = pin) ∧
    (holding true 1 0).heldUnder 0 6 (some 0) = none ∧ held5.version = some 3 ∧ held5.version ≠ some 4 := by decide +kernel

/-- An entry whose home is this device, of state `st`. -/
def homed (pin : Bool) (mode st : Nat) : State := (holding pin mode 0).modHub 0 fun h => { h with owned := [{ dir mode with state := st }] }

theorem witness_PagesTravel_home :
    (((holding true 2 0).hub 0).known 5 = some (dir 2) ∧ ((holding true 2 0).hub 0).homeFrame (dir 2) = some 0x20000) ∧
    (((holding true 2 0).hub 0).known 6).bind ((holding true 2 0).hub 0).homeFrame = none ∧
    (((homed true 2 0).hub 0).known 5).any (fun d => d.state == 0 && ((homed true 2 0).hub 0).homeFrame d == some 0x20000) = true ∧
    ((dir 2).state = 1 ∧ (dir 2).mode ≠ 0) ∧
    (∀ pin ∈ [false, true], ((holding pin 0 0).hub 0).known 5 = some (dir 0) ∧ (dir 0).mode = 0 ∧
      ((holding pin 0 0).hub 0).homeFrame (dir 0) = some 0x20000 ∧ (holding pin 0 0).heldUnder 0 5 none = some held5 ∧
      (holding pin 0 0).pageLocked 0 held5 = pin) ∧
    0x20000 % 65536 = 0 ∧ FMap.sorted [((0 : Nat), (1 : Byte)), (65535, 2)] = true := by decide +kernel

/-- A key whose entry is not known, and one of a page whose home is another node. -/
def abroad : State := (holding true 2 0).modHub 0 fun h => { h with owned := [{ dir 2 with node := 1 }] }

theorem witness_PagesTravel_acts : (holding true 2 0).known 0 6 = none ∧ (holding true 2 0).known 0 5 = some (dir 2) ∧
    abroad.known 0 5 = some { dir 2 with node := 1 } ∧ (abroad.hub 0).homeFrame { dir 2 with node := 1 } = none := by decide +kernel

theorem witness_PagesTravel_window : (∀ n ∈ [0, 1, 2, 3],
      FMap.find? (holding true 0 n).pkg.windows 3 = some ⟨[], 0x100000, 0x10000, [0x30000], 0, n, true, 0, false⟩) ∧
    FMap.find? ((holding true 0 1).modWindow 3 fun w => { w with closeNext := true }).pkg.windows 3 =
      some ⟨[], 0x100000, 0x10000, [0x30000], 0, 1, true, 0, true⟩ := by
  decide +kernel

/-- A clean local page that lies in a remote region and that Hukotil did not install may be a victim (R330), under the
region's key; its first use makes it one of the held pages. -/
theorem test_placed_page_is_victim : (placedPage.victims 0 0).map (fun x => (x.page, x.key)) = [(16, 16)] ∧
    ((fed []).victims 0 0).length = 0 ∧
    ((placedPage.translate 4 0 0x100000 false).2.hub 0).held = [⟨0, 16, 16, 0x20000, none, false⟩] := by decide +kernel

/-! ### Pre-emption -/

/-- A stop that has begun, with some engines that have acknowledged and some clusters saved. -/
def stopping (halt : Bool) (clk : Nat) (acks : List (Nat × Nat)) (saved : List Nat) : State :=
  ((fed []).modPartition 0 fun p => { p with preempt := ⟨2, 0, halt, 0, acks, saved⟩ }).modPkg fun k => { k with clk := clk }

def all0 : List (Nat × Nat) := (fed []).enginesOf 0

theorem witness_PreemptActs_stop : (fed []).dispatching 0 = some 0 ∧
    (stopping false 0 [] []).ackOk 0 (engineCode .mau) 0 = false ∧
    (stopping false 0 [] []).ackOk 0 (engineCode .sector) 63 = true ∧
    (stopping false 0 (clusterEngines 3) []).ackOk 0 6 3 = true := by decide +kernel

theorem witness_PreemptActs_save : (stopping false 0 (clusterEngines 0) []).saveOk 0 0 = true ∧
    (stopping false (10 ^ 9) [] []).tceLate 0 0 = true ∧ (stopping false (10 ^ 9) [] []).missOk 0 (engineCode .walker) 3 = true ∧
    (stopping false 100000000 [] []).preemptLate 0 = true := by decide +kernel

theorem witness_PreemptActs_idle : State.reset.dispatching 0 = none ∧ (fed []).ackOk 0 6 3 = false ∧ (fed []).saveOk 0 0 = false ∧
    (fed []).tceLate 0 0 = false ∧ (fed []).missOk 0 (engineCode .walker) 3 = false ∧ (fed []).preemptLate 0 = false := by
  decide +kernel

def empty0 : State := (fed []).modPartition 0 fun p => { p with resident := none }

theorem witness_PreemptActs_restore : empty0.restoreOk 0 0 = true ∧ (fed []).restoreOk 0 0 = false := by decide +kernel

theorem witness_StopsFinish :
    (((stopping true 0 all0 []).partition 0).preempt.stopping = true ∧
      ((stopping true 0 all0 []).partition 0).preempt.acked ((stopping true 0 all0 []).enginesOf 0) = true ∧
      ((stopping true 0 all0 []).partition 0).preempt.halt = true) ∧
    ((stopping false 0 all0 [0, 1, 2, 3]).partition 0).preempt.stopping = true ∧
      ((stopping false 0 all0 [0, 1, 2, 3]).partition 0).preempt.acked ((stopping false 0 all0 [0, 1, 2, 3]).enginesOf 0) = true ∧
      ((stopping false 0 all0 [0, 1, 2, 3]).partition 0).preempt.halt = false ∧
      ∀ c ∈ (stopping false 0 all0 [0, 1, 2, 3]).clustersOf 0,
        c ∈ ((stopping false 0 all0 [0, 1, 2, 3]).partition 0).preempt.saved := by decide +kernel

/-! ### The copy engine -/

/-- A descriptor of boxes of one line of 16 bytes, from 0x100100; the destination's bytes 1 and 2 of its address, and byte
7; `bad` is a reserved byte. -/
def descCells (boxes d1 d2 d7 bad : Byte) : List Host.Cell :=
  [(0x20001, 1), (0x20002, 0x10)] ++ (if d1 = 0 then [] else [(0x20009, d1)]) ++ (if d2 = 0 then [] else [(0x2000A, d2)]) ++
  (if d7 = 0 then [] else [(0x2000F, d7)]) ++ [(0x2002C, 1), (0x2002E, 16), (0x20030, boxes)] ++
  (if bad = 0 then [] else [(0x20038, bad)])

def command (bar : Option Nat) (cells : List Host.Cell) (on : Bool) : TceCmd :=
  ⟨0, t0, 2, 0, 0x250, 0, 0, 0x100000, bar,
    if on then (List.range 64).map fun k => memByte cells (0x20000 + k) else [], [], on, [], if on then [⟨0, [], [], []⟩, ⟨1, [], [], []⟩] else [], false, false, none⟩

def copyState (bar : Option Nat) (cells : List Host.Cell) (on : Bool) : State :=
  ((fed cells).modCluster 0 fun c => { c with tce := [(0, command bar cells on)], tceNext := 1 }).modThread t0 fun x =>
    { x with tags := [(2, ⟨[8], none, .waiting, true, 0, 0⟩)] }

/-- What the engine finds at the start of its command. -/
def startB (bar : Option Nat) (cells : List Host.Cell) : Nat :=
  match (copyState bar cells false).readRecord (command bar cells false) 0x100000 with
  | (.ok bs, s2) =>
    let d := Desc.of bs
    if !d.ok .copy then 2
    else if (s2.barPlaces (command bar cells false) d).isNone then 7
    else if !s2.rangesOk (command bar cells false) d then 3
    else if !d.hadamard && ((s2.unlock 0 0).lockAll (s2.locksOf (command bar cells false) 0 d)).isSome then 0
    else 1
  | (.error _, _) => 8

/-- A copy within page 16; a reserved byte; a barrier that is none; a destination past the team's allocation. -/
theorem witness_CopyEngineActs_start :
    ∀ x ∈ [((none : Option Nat), descCells 1 2 0x10 0 0, 0), (none, descCells 1 2 0x10 0 1, 2),
      (some 0x100200, descCells 1 2 0x10 0 0, 7), (none, descCells 1 4 0 1 0, 3)],
      (copyState x.1 x.2.1 false).tceStartable 0 = some (0, command x.1 x.2.1 false) ∧
      (copyState x.1 x.2.1 false).tceStopped 0 0 true = false ∧ startB x.1 x.2.1 = x.2.2 := by decide +kernel

/-- A full lock table. -/
def lockFull : State := (copyState none (descCells 1 2 0x10 0 0) false).modCluster 0 fun c =>
  { c with locks := List.replicate 32 ⟨9, true, false, 0, 0x900000, 16, 0, 0⟩ }

/-- A quantisation of a line of 32 .f16 elements into .e4m3 with a Hadamard header at 0x101000. -/
def quantCells : List Host.Cell :=
  [(0x20001, 2), (0x20007, 1), (0x20009, 4), (0x2000A, 0x10), (0x20011, 8), (0x20012, 0x10), (0x20019, 0x10), (0x2001A, 0x10),
    (0x2002C, 1), (0x2002E, 32), (0x20030, 1), (0x20032, 12), (0x20033, 8), (0x20034, 18)]
def quantCmd : TceCmd := { command none quantCells false with kind := 1 }
def quantState : State := (copyState none quantCells false).modCluster 0 fun c => { c with tce := [(0, quantCmd)] }

/-- The header record that is read once the locks stand. -/
def headerB : Bool :=
  match quantState.readRecord quantCmd 0x100000 with
  | (.ok bs, s2) =>
    let d := Desc.of bs
    d.ok .quant && (s2.barPlaces quantCmd d).isSome && s2.rangesOk quantCmd d && d.hadamard &&
    match (s2.unlock 0 0).lockAll (s2.locksOf quantCmd 0 d) with
    | some s3 => match s3.readRecord quantCmd d.header with
      | (.ok h, _) => h.length == 64
      | (.error _, _) => false
    | none => false
  | (.error _, _) => false

theorem witness_CopyEngineActs_locks : lockFull.tceStartable 0 = some (0, command none (descCells 1 2 0x10 0 0) false) ∧
    lockFull.tceStopped 0 0 true = false ∧
    ((lockFull.unlock 0 0).lockAll (lockFull.locksOf (command none (descCells 1 2 0x10 0 0) false) 0
      (Desc.of ((List.range 64).map fun k => memByte (descCells 1 2 0x10 0 0) (0x20000 + k))))).isNone = true ∧
    quantState.tceStartable 0 = some (0, quantCmd) ∧ quantState.tceStopped 0 0 true = false ∧ headerB = true := by decide +kernel

def boxB (cells : List Host.Cell) : Bool :=
  match (copyState none cells true).boxWrites (command none cells true) (Desc.of (command none cells true).desc) ((command none cells true).flight 0) with
  | (.ok _, _) => true
  | (.error _, _) => false

/-- The only box of a command, and the first of two; a box whose destination the tables do not map. -/
theorem witness_CopyEngineActs_box : ∀ x ∈ [(descCells 1 2 0x10 0 0, true, 1), (descCells 2 2 0x10 0 0, true, 2),
      (descCells 1 2 0x40 0 0, false, 1)],
    FMap.find? ((copyState none x.1 true).cluster 0).tce 0 = some (command none x.1 true) ∧
    (command none x.1 true).accepted = true ∧ (command none x.1 true).waitSeq = none ∧ 0 ∈ (command none x.1 true).flying ∧
    (copyState none x.1 true).tceStopped 0 0 false = false ∧ boxB x.1 = x.2.1 ∧
    (Desc.of (command none x.1 true).desc).boxes = x.2.2 := by decide +kernel

theorem witness_CopyEngineActs_none : (fed []).tceStartable 0 = none := by decide +kernel

theorem witness_CommandsEnd : FMap.find? ((copyState none [] true).cluster 0).tce 0 = some (command none [] true) ∧
    ((copyState none [] true).thread? (command none [] true).tid).any (fun x => (FMap.find? x.tags 2).isSome) = true := by
  decide +kernel

/-- The command of cluster 0 waits for the record. -/
def wakingCmd : State := (waking 0x31 none true).modCluster 0 fun c =>
  { c with tce := [(0, { command none [] true with waitSeq := some 9 })] }

theorem witness_WakesAnswer_engine :
    (∀ s ∈ [waking 0x31 none true, wakingCmd], s.wokenEvent 0 (wakeWith 9 (some .replay)) = some (wakingRec 0x31 none true)) ∧
    (∀ a ∈ [WakeAction.replay, .resume], allows 0x31 true a = true) ∧
    (waking 0x31 none true).waitingCmd 0 9 = none ∧ wakingCmd.waitingCmd 0 9 = some (0, 0) := by decide +kernel

/-- Cluster 0 at its save: a scratch line, a bank in scratch mode, a FIFO, a copy command and a team. -/
def saving : State :=
  let s := (stopping false 100000 (clusterEngines 0) []).modCluster 0 fun c => { c with
    banks := [(3, ⟨1, false, 0⟩)]
    fifos := [(2, ⟨0, 3, [⟨[1, 2, 3, 4], 0, 90⟩]⟩)]
    tce := [(0, command none [] true)] }
  { s with
    threads := FMap.mapV (fun _ x => { x with readyAt := 9 }) s.threads
    scratch := [(0, { ScrLine.reset with valid := true, written := true, lifetime := 4095, stamp := 99 }),
      (1, { ScrLine.reset with valid := true, written := true, lifetime := 5, stamp := 10 })] }

theorem witness_ClusterSaves : saving.saveOk 0 0 = true ∧ (∃ e ∈ saving.scratch, e.1 / 16384 = 0 ∧ e.2.valid = true ∧
      saving.stale 0 e.2 = true) ∧
    (∃ e ∈ saving.scratch, e.1 / 16384 = 0 ∧ e.2.valid = true ∧ saving.stale 0 e.2 = false) ∧
    ((3, ⟨1, false, 0⟩) ∈ (saving.cluster 0).banks) ∧ ((saving.cluster 0).fifos.map Prod.fst = [2]) ∧
    (saving.team? 0 0).any (fun tm => tm.vf == (saving.partition 0).preempt.vf) = true ∧ saving.stores = [] ∧
    FMap.sorted (saving.cluster 0).tce = true ∧ (saving.slotCmds 0 0).length = 1 ∧ (saving.slot 0 0).state ≠ .draining ∧
    (saving.threads.any fun e => decide (e.1 / 2048 = teamKey 0 0) && decide (saving.cycle 0 < e.2.readyAt)) = true ∧
    ∀ j < 8, j ≠ 0 → saving.team? 0 j = none := by decide +kernel

/-- The VF that returns: a team with a line, a bank in scratch mode and a FIFO. -/
def returns : State :=
  let s := State.modVf (fed []) 0 fun v => { v with save := { v.save with
    teams := [{ restored with donated := false }], lines := [savedLine0]
    banks := [(0, 3, 1)], fifos := [(0, 2, ⟨0, 3, [⟨[1, 2, 3, 4], 0, 7⟩]⟩)] } }
  { s.modPartition 0 fun p => { p with resident := none } with teams := [], threads := [], cohorts := [], cores := [] }

theorem witness_TeamsReturn : returns.restoreOk 0 0 = true ∧ returns.waits = [] ∧ (returns.vf 0).heldLaunches = [] ∧
    (returns.vf 0).arrivals = [] ∧ (returns.vf 0).save.wakes = [] ∧ (returns.vf 0).save.tce = [] ∧
    (entered returns 0 0).returning 0 0 = [({ restored with donated := false }, 3)] ∧
    (restored.waits = [] ∧ restored.slot < 8 ∧ FMap.sorted restored.threads = true ∧ ∀ e ∈ restored.threads, e.1 < 2048) ∧
    savedLine0.line < 16384 ∧ returns.clusterOf 0 0 = some 0 ∧ (returns.bank 0 3).mode ≠ 3 := by decide +kernel

/-- A command whose one box goes to the second scratch line, without a barrier or with one in the first line that its bytes
do not complete. -/
def barAddress : Nat := 0x0100000000000000
def scrCmd (bar : Bool) : TceCmd := command (if bar then some barAddress else none) (descCells 1 2 0 1 0) true
def scrState (bar : Bool) : State :=
  let s := copyState (if bar then some barAddress else none) (descCells 1 2 0 1 0) true
  let l : ScrLine := { ScrLine.reset with valid := true, written := true, lifetime := 100 }
  { s with scratch := [(0, { l with barType := 1, bytes := (Bar.init 5).image ++ List.replicate 496 0 }), (1, l)] }

/-- What the box writes, and the state behind its reads. -/
def scrWrites (bar : Bool) : Option (List (Place × NBytes) × State) :=
  match (scrState bar).boxWrites (scrCmd bar) (Desc.of (scrCmd bar).desc) ((scrCmd bar).flight 0) with
  | (.ok (ws, _), s2) => some (ws, s2)
  | (.error _, _) => none

theorem witness_CopyEngineActs_lands : (∀ bar ∈ [false, true],
      FMap.find? ((scrState bar).cluster 0).tce 0 = some (scrCmd bar) ∧ (scrState bar).tceStopped 0 0 false = false) ∧
    ((scrCmd false).barrier = none ∧ ((scrCmd false).flight 0).written = [] ∧ (scrWrites false).any (fun x =>
      picked (fun _ => true) x.1 == [(.scr 0 512, List.replicate 16 (0, false))] &&
      (x.2.scrLine 0 512).bytes.length == 512 && x.2.waits.isEmpty) = true) ∧
    (scrCmd true).barrier = some barAddress ∧ (scrCmd true).word ≠ .mcast ∧ (scrWrites true).any (fun x =>
      let s3 := x.2.boxLands (scrCmd true) ((scrCmd true).flight 0) x.1 false
      s3.region t0 (BitVec.ofNat 64 barAddress) == .scratch 0 0 false && (s3.scrLine 0 0).bytes.length == 512 &&
      s3.barrierAt 0 0 && !s3.stale 0 (s3.scrLine 0 0) &&
      !((s3.barAt 0 0).apply 0 ((Desc.of (scrCmd true).desc).count (scrCmd true).word) 0 false).completed) = true := by
  decide +kernel

/-! ### Hardware loops, resets, management -/

/-- A dirty line of cluster 0's cache, filled at CLK 0. -/
def agedLine : CcLine := ⟨0, 0, List.replicate 512 0, 1, 0, false, false⟩
def aged (clk : Nat) : State :=
  { fed [] with
    cc := [(0x100, agedLine)]
    pkg := { Package.reset with clk := clk } }

/-- Younger than half of RETN, just as old, just under the limit, and at it. -/
theorem witness_LoopActs :
    (0 < 16384 ∧ (FMap.find? (based []).scratch 0).any (·.valid) = true) ∧ 0x100 < 2 ^ 43 ∧
    (∀ x ∈ [(19999, false, false), (20000, true, false), (39999, true, false), (40000, true, true)],
      FMap.find? (aged x.1).cc 0x100 = some agedLine ∧
      decide (((aged x.1).cluster 0).retn / 2000 ≤ (aged x.1).us - agedLine.stamp / 1000) = x.2.1 ∧
      decide ((aged x.1).retnLow 0 agedLine.stamp / 1000 ≤ (aged x.1).us - agedLine.stamp / 1000) = x.2.2) ∧
    agedLine.dirty.extractLsb' (64 * 0) 64 ≠ 0 ∧ ((fed []).bank 0 63).switching = false ∧
    (((fed []).modCluster 0 fun c => { c with banks := [(63, ⟨0, true, 1⟩)] }).bank 0 63).switching = true ∧
    (FMap.find? { fed [] with tree := [(5, ⟨1, [], true⟩)] }.tree 5).isSome = true ∧ 31 < 32 ∧ 23 < 24 := by decide +kernel

/-- A cluster above 100 °C; a line with a byte that is written and one that is not. -/
def heated : State := (fed []).modCluster 0 fun c => { c with tj := 801 }

theorem witness_LoopActs_rest : (∃ e ∈ heated.clusters, 800 < e.2.tj.toInt) ∧ heated.hotIslands ≠ [] ∧
    (agedLine.dirty.getLsbD 0 = true ∧ 0 < agedLine.bytes.length ∧ agedLine.dirty.getLsbD 1 = false) := by decide +kernel

theorem witness_ResetActs : stepAt State.reset.pkg.almanacAt almanacSteps = some (1, 0) ∧
    State.reset.pkg.inService = true ∧ (State.reset.almRecord 1 0).outcome = 0 ∧
    (State.reset.modPkg fun k => { k with inService := false }).pkg.inService = false := by decide +kernel

/-- A VF with a team, a ready window of its own and one of another VF. -/
def leavingVf : State := (fed []).modPkg fun p => { p with
  windows := [(0, ⟨[], 0x100000, 65536, [0x20000], 0, 2, true, 1, false⟩), (3, ⟨[], 0x100000, 65536, [0x30000], 7, 2, true, 1, false⟩)] }

theorem witness_ResetActs_vf : (leavingVf.team? 0 0).any (fun tm => tm.vf == 0) = true ∧ FMap.sorted leavingVf.pkg.windows = true ∧
    (FMap.find? leavingVf.pkg.windows 0).any (fun w => w.ownerVf == 0 && w.state != 0) = true := by decide +kernel

theorem witness_ManagementActs :
    ((State.reset.modMgmt fun m => { m with bound := some (0, 0, []) }).pkg.mgmt.bound.isSome = true) ∧
    (State.reset.pkg.mgmt.bound = none ∧ State.reset.pkg.mgmt.external = false) ∧
    (32768 ≤ 32768 ∧ stateBad (stateAddr 0x0600000000000000) 8 = false) ∧
    (hostless.hostAttached = false ∧ hears State.reset (.external 7) ∧ hears hostless (.hostComplex 7) ∧ 32768 < 32769 ∧
      stateBad (stateAddr 0x7F00000000000000) 8 = true) ∧
    ((fed []).partOf 0 = some 0 ∧ (fed []).partOf 7 = none ∧ State.reset.pkg.hallLog.length < 65536) ∧
    (State.reset.modMgmt fun m => { m with external := true }).pkg.mgmt.external = true := by
  refine ⟨by decide +kernel, by decide +kernel, by decide +kernel, ⟨by decide +kernel, ⟨by decide +kernel, fun _ => by decide +kernel⟩,
    ⟨by decide +kernel, fun h => by cases h⟩, by decide, by decide +kernel⟩, by decide +kernel, by decide +kernel⟩

/-- A trigger entry whose barrier is in the VF's first cluster. -/
def triggerBytes : List Byte := List.replicate 55 0 ++ [0x80] ++ List.replicate 72 0

theorem witness_TablesTake : (511 < 512 ∧ 63 < 64 ∧ 7 ≤ 7) ∧ (4095 < 4096 ∧ (fed []).semRequests 511 4095 = []) ∧
    (255 < 256 ∧ (triggerOf triggerBytes).isSome = true) ∧
    (((fed []).partOf 0).map fun p => ((fed []).partition p).isProtected).getD true = true ∧
    (fed []).suspended 0 = false := by decide +kernel

/-- A VF that no protection covers; a full log; a shard of this node, to whose keys an entry belongs. -/
def unguarded : State := (fed []).modPartition 0 fun p => { p with isProtected := false }
def sharded : State := (fed []).modHub 0 fun h => { h with
  nodes := [(0, (1, 0)), (1, (2, 1))], selfNode := 0, shards := [(fold12 5, 0)] }
theorem witness_TablesTake_rest : unguarded.partOf 0 = some 0 ∧ (unguarded.partition 0).isProtected = false ∧
    unguarded.pkg.hallLog.length < 65536 ∧ ((fed []).partition 0).isProtected = true ∧ (fed []).partOf 0 = some 0 ∧
    ((sharded.hub 0).entryOk { dir 0 with state := 1 } = true ∧ (dir 0).key.toNat / 2 ^ 41 % 128 = 0 ∧
      (sharded.hub 0).shardNode (dir 0).key = (sharded.hub 0).selfNode ∧ sharded.ownedEntry 0 (dir 0).key = none) := by decide +kernel

theorem witness_TablesTake_full :
    65536 ≤ (unguarded.modPkg fun k => { k with hallLog := List.replicate 65536 ⟨[], 0, 0, 0⟩ }).pkg.hallLog.length :=
  Nat.le_of_eq List.length_replicate.symm

theorem witness_SpdmActs_hears : (∀ r : Reader, hears State.reset r) ∧ (State.cert State.reset 3).generation = 0 :=
  ⟨fun _ => ⟨by decide +kernel, fun _ => by decide +kernel⟩, by decide +kernel⟩

theorem witness_SpdmActs :
    (State.cert { fed [] with pkg := { Package.reset with certs := [(7, ⟨true, 0, 1, [5]⟩)] } } 7).valid = true ∧
    (7 < 8 ∧ [(5 : Byte)].length ≤ 65536 ∧ 255 < 256 ∧ State.reset.pkg.hallLog.length < 65536) ∧
    ∀ g ∈ [0, 1], (State.reset.modMgmt fun m => { m with bound := some (3, BitVec.ofNat 32 g, []) }).pkg.mgmt.bound =
      some (3, BitVec.ofNat 32 g, []) := by decide +kernel

/-- A certificate read in parts, whose slot has kept its Generation or changed. -/
def readingCert (g : BitVec 32) : State := { fed [] with pkg := { Package.reset with
  certs := [(7, ⟨true, 0, 1, [5, 6]⟩)], mgmt := { Mgmt.reset with reading := [(7, g)] } } }

theorem witness_SpdmActs_parts : (FMap.find? (readingCert 1).pkg.mgmt.reading 7 = some 1 ∧
      (State.cert (readingCert 1) 7).valid = true ∧ (State.cert (readingCert 1) 7).generation = 1) ∧
    FMap.find? (readingCert 2).pkg.mgmt.reading 7 = some 2 ∧ (State.cert (readingCert 2) 7).generation ≠ 2 ∧
    (readingCert 2).pkg.mgmt.bound = none := by decide +kernel

/-- Page 16 as a page that the external host may use. -/
def opened : State := { fed [] with mem := (fed []).mem.map fun c => if c.1 = 0x1C100 then (0x1C100, 0x62) else c }

/-- No UALink port is up. -/
def portless : State := (fed []).modPkg fun k => { k with disabled := (List.range 32).map fun p => (0x07, p) }

/-- A window over page 16's frame, whose one member is device 4. -/
def memberOnly : State := (fed []).modPkg fun p => { p with windows := [(0, ⟨[0x80000004], 0x100000, 65536, [0x20000], 0, 2, true, 1, false⟩)] }

theorem witness_OutsideAccesses : (0x20000 + 2 ≤ 2 ^ 52 ∧ (fed []).framesOk 0x20000 2 = true) ∧
    (fed []).framesOk (2 ^ 33 - 16) 16 = false ∧ opened.openRange 0x2FFFE 2 = true ∧ opened.openRange 0x2FFFE 3 = false ∧
    opened.hostAttached = true ∧ hostless.hostAttached = false ∧
    (0x20000 + 2 ≤ portBase ∧ (fed []).peerMay 3 0x20000 = true ∧ memberOnly.peerMay 3 0x20000 = false) ∧
    ((fed []).deviceReachable 3 = true ∧ portless.deviceReachable 3 = false) ∧
    ((FMap.find? ((fed []).vf 511).roster ((fed []).rosterOfDevice 511 3)).map (·.kind)) ≠ some 2 := by decide +kernel

/-- The window's slot and buffer at the ends of their ranges, and commands that are malformed. -/
def slotState (b : List Byte) : State := (fed []).modMgmt fun m => { m with slot := b }
def codeBytes (lo hi r len : Byte) : List Byte := [lo, hi, r] ++ List.replicate 14 0 ++ [len] ++ List.replicate 46 0

theorem witness_OutsideAccesses_window : (0xFFFF < windowBytes ∧ windowBase ≤ windowBase + windowBytes) ∧
    (0x8000 ≤ 0xFFFE ∧ 0xFFFE + 2 ≤ 0x10000) ∧ 55 + 1 ≤ 56 ∧ 56 < 56 + 8 ∧ 56 + 8 ≤ 64 := by decide +kernel

theorem witness_OutsideAccesses_malformed : (slotState (codeBytes 0 0 0 0)).pkg.mgmt.bound = none ∧
    fieldLE (slotState (codeBytes 0 0 0 0)).pkg.mgmt.slot 0 2 = 0 ∧
    0x000B < fieldLE (slotState (codeBytes 12 0 0 0)).pkg.mgmt.slot 0 2 ∧
    fieldLE (slotState (codeBytes 1 0 1 0)).pkg.mgmt.slot 2 6 ≠ 0 ∧
    32768 < fieldLE (slotState (codeBytes 1 0 0 0x81)).pkg.mgmt.slot 16 8 := by decide +kernel

/-- A peer's write, and an atomic of it that writes and one that does not. -/
theorem witness_OutsideAccesses_peer : (0x20000 + 256 ≤ portBase ∧ (fed []).pkg.inService = true ∧
      (fed []).deviceReachable 3 = true ∧ (fed []).framesOk 0x20000 256 = true ∧ (fed []).peerMay 3 0x20000 = true) ∧
    (0x20000 % 8 = 0 ∧ (fed []).framesOk 0x20000 8 = true ∧ (fed []).poisonedLine (0x20000 / 64) = false) ∧
    rmwWrites .cas 0 0 = true ∧ rmwWrites .cas 0 1 = false ∧ 256 < (List.replicate 257 (0 : Byte)).length ∧
    (FMap.find? (recordB false).writers 0x800).isSome = true := by decide +kernel

/-- The slice's partition in an EccMode. -/
def eccState (mode : Nat) (s : State) : State := s.modPartition 0 fun p =>
  { p with
    slices := [0]
    eccMode := mode }

theorem witness_SoftErrors : (FMap.find? (based []).scratch 1).isSome = true ∧
    (FMap.find? (((fed []).modCore 0 fun c => { c with l1 := [(9, ⟨0, [], false⟩)] }).core 0).l1 9).isSome = true ∧
    (∀ m ∈ [0, 1, 2], 0x800 < 2 ^ 34 ∧ (eccState m (fed [])).eccAt (0x800 / 2 ^ 27) = m ∧
      (eccState m (fed [])).openLine 0x800 = false ∧ (eccState m opened).openLine 0x800 = true ∧
      (eccState m (fed [])).openLine (2 ^ 27 - 1) = false) ∧
    inTree 0x800 = false ∧ inTree (2 ^ 27 - 1) = true := by decide +kernel

theorem witness_PacketsFail : (fed []).travels (.store 0) = false ∧
    (∀ n ∈ [0, 2, 3], ((flying true).modPkg fun k => { k with netFails := if n = 0 then [] else [(.store 0, n)] }).failsOf (.store 0) = n ∧
      ((flying true).modPkg fun k => { k with netFails := if n = 0 then [] else [(.store 0, n)] }).travels (.store 0) = true) ∧
    (FMap.find? (flying true).stores 0 = some (flight true 0x20000) ∧ 0x800 ∈ lineSpan 0x20000 2 ∧ 0x20000 + 2 ≤ 2 ^ 52) ∧
    (FMap.find? ((copyState none [] true).cluster 0).tce 0).isSome = true ∧
    (copyState none [] true).travels (.box 0 0 1) = true ∧ fetching.travels (.fetch 0 0 0x4000) = true ∧
    (waiting (ldMem mqDev) 0x100000).travels (.access 0) = true ∧ (aged 0).travels (.line 0 0x100) = true := by decide +kernel

/-- A relaunchable team's buffer that commits; a reply. -/
def committing : State := (based []).modTeam 0 0 fun t =>
  { t with relaunchable := true, storeBuf := [⟨t0, 0x20000, 0, 0, false, [1, 2], none⟩] }

theorem witness_PacketsFail_rest : committing.travels (.commit 0 0) = true ∧ (based []).travels (.commit 0 0) = false ∧
    (∃ tm, committing.team? 0 0 = some tm ∧ (⟨t0, 0x20000, 0, 0, false, [1, 2], none⟩ : BufStore) ∈ tm.storeBuf) ∧
    (based []).travels (.reply 0x800) = true :=
  ⟨by decide +kernel, by decide +kernel, ⟨_, rfl, by decide +kernel⟩, by decide +kernel⟩

/-! ### The whole machine -/

/-- The fill word of spec/03 at word 0, and a word of no assigned opcode. -/
def fillState : State := State.reset.withFetchWord 80 0x1E000003F80000000000
def fillWord : Instr := .iadd ⟨⟨0, 15, 0⟩, ⟨true, 63⟩⟩ .s false 0 0 0

def fetchedOk (s : State) : Option Instr := (s.gangTeam.bind fun tm => s.iline? s.gang.core tm.vf tm.kern.compartment s.gang.pc).bind fun l =>
  if l.intact then (decode (wordOfBytes ((l.bytes.drop (10 * (s.gang.pc % 6))).take 10))).toOption else none

/-- The line fails its check; it is not cached. -/
def damaged : State := fillState.modCore 0 fun c => { c with icache := FMap.mapV (fun _ l => { l with intact := false }) c.icache }
def uncached : State := fillState.modCore 0 fun c => { c with icache := [] }

theorem witness_StepRunsDecoded_line : damaged.turn.isSome = true ∧
    (damaged.gangTeam.bind fun tm => damaged.iline? damaged.gang.core tm.vf tm.kern.compartment damaged.gang.pc).any
      (fun l => !l.intact) = true ∧
    uncached.turn.isSome = true ∧
    (uncached.gangTeam.any fun tm => (uncached.iline? uncached.gang.core tm.vf tm.kern.compartment uncached.gang.pc).isNone) = true := by
  decide +kernel

theorem witness_StepRunsDecoded : fillState.turn = some ⟨0, 0, false, []⟩ ∧ fillState.gangTeam.isSome = true ∧
    fetchedOk fillState = some fillWord ∧ fetchedOk (State.reset.withFetchWord 80 (2 ^ 80 - 1)) = none ∧
    ({ late with turn := none } : State).clockwork = some (.pdExpiry t0) ∧
    State.reset.turn = none ∧ State.reset.clockwork = none := by decide +kernel

/-- An outcome is a next state. -/
def isNext (o : Out) : Bool := match o with
  | .next _ => true
  | _ => false

theorem next_of {o : Out} (h : isNext o = true) : ∃ s, o = .next s := by
  cases o with
  | next s => exact ⟨s, rfl⟩
  | fault r => cases h
  | refused r => cases h

theorem witness_StepKeepsForm : fillState.memOk = true ∧ (∀ cl, 40000 ≤ (fillState.cluster cl).retn) ∧
    ∃ s', step fillState = .next s' := ⟨by decide +kernel, fun _ => Nat.le_refl _, next_of (by decide +kernel)⟩

theorem witness_ArgumentsStay : (Instr.nop plain).ctl?.isSome = true ∧ (∃ s', exec (.nop plain) (based []) = .next s') ∧
    ((based []).team? 0 0).isSome = true := ⟨by decide, next_of (by decide +kernel), by decide +kernel⟩

/-- The team at user privilege with few registers. -/
def user : State := (solo []).modTeam 0 0 fun t => { t with kern := { t.kern with system := false, regs := 8 } }

theorem witness_DecodeFaultsPark : user.gang.ok = true ∧
    (∀ x ∈ [(Instr.iadd tagged .s false 0 1 2, 1), (.halt plain, 2), (.iadd plain .s false 8 1 2, 3)],
      x.1.ctl?.isSome = true ∧ user.gangTeam.bind (·.decodeEvent x.1 user.gang.access) = some x.2) := by decide +kernel

theorem witness_PrivilegedWords : privileged (.halt plain) = true ∧ wellFormed (.halt plain) ∧
    user.gangTeam.any (fun tm => !sliceIllegal (.halt plain) user.gang.access (tm.kern.accessEntry != 0) && !tm.kern.system) = true ∧
    privileged (.nop plain) = false ∧ (solo []).gangTeam.any (·.kern.system) = true := by decide +kernel

/-- Equal destinations; bank 0 read three times; TA 2. -/
theorem witness_PairedRules : ∀ x ∈ [(Instr.pairedWord ⟨0, 15, 0⟩ ⟨.iadd, 8, 1, 2⟩ ⟨.iadd, 8, 3, 5⟩),
      .pairedWord ⟨0, 15, 0⟩ ⟨.iadd, 8, 0, 4⟩ ⟨.iadd, 9, 12, 5⟩, .pairedWord ⟨0, 2, 0⟩ ⟨.iadd, 8, 1, 2⟩ ⟨.iadd, 9, 3, 5⟩],
    (encode x).isSome = true ∧ (solo []).gang.ok = true ∧ (solo []).gangTeam.isSome = true := by decide +kernel

theorem witness_YieldAndNop : ((solo []).mayIssue (.yield plain) = true ∧
    (solo []).runs (.yield plain) t0 (xOf (solo []) (.yield plain))) ∧ (solo []).mayIssue (.nop plain) = true :=
  ⟨runs_of (by decide +kernel), by decide +kernel⟩

def addWord : Instr := .iadd plain .s false 4 5 6

theorem witness_RegisterFrame : registerWord addWord = true ∧ (solo []).gang.ok = true ∧
    (∃ s', exec addWord (solo []) = .next s') ∧ (intResult addWord).isSome = true ∧
    ((solo []).mayIssue addWord = true ∧ (solo []).runs addWord t0 (xOf (solo []) addWord)) :=
  ⟨by decide, by decide +kernel, next_of (by decide +kernel), by decide, runs_of (by decide +kernel)⟩

theorem witness_MemoryFrame :
    (loadForm (ldMem mqDev) = some (.n32, mqDev) ∧ mqDev.order = .relaxed ∧ mqDev.fresh = false ∧ (based []).gang.ok = true ∧
      ∃ s', exec (ldMem mqDev) (based []) = .next s') ∧
    (storeForm stScr = some (.n64, mqDev, 8) ∧ (based []).waits = [] ∧ ((based []).scrLine 0 1016).bytes.length = 512) ∧
    storeForm (stMem mqDev) = some (.n64, mqDev, 8) ∧
      ((chk (based []) (stMem mqDev) (Acc.store 8 .none) 0x100FF8).2.teamOf t0).any (fun tm => !tm.relaunchable) = true :=
  ⟨⟨rfl, rfl, rfl, by decide +kernel, next_of (by decide +kernel)⟩, ⟨rfl, by decide +kernel, by decide +kernel⟩, rfl,
    by decide +kernel⟩

/-- Nothing in the cluster cache and no writer record. -/
theorem witness_MemoryFrame_still : (based []).writers = [] ∧ (based []).cc = [] ∧ mqDev.fe ≠ .fec := by decide +kernel

/-- Relaxed accesses are performed after their issue. -/
def slowly : State := { based [] with prompt := false }
def mqFresh : Mq := ⟨.relaxed, .device, true, .none, .normal⟩

/-- An acquire and a fresh load; a release, and stores that fly. -/
theorem witness_MemoryFrame_orders : (∀ q ∈ [mqAcq, mqFresh], loadForm (ldMem q) = some (.n32, q) ∧
      isNext (exec (ldMem q) (based [])) = true) ∧
    ((slowly.control stScr).flying t0 stScr = true ∧ (slowly.control (stMem mqDev)).flying t0 (stMem mqDev) = true) ∧
    ((based []).control stScr).flying t0 stScr = false ∧
    (aloneB (based []) (stMem mqRel) (opsSt (based []) (stMem mqRel) 8 .n64) = true ∧ storeForm (stMem mqRel) = some (.n64, mqRel, 8) ∧
      (chk (based []) (stMem mqRel) (Acc.store 8 .none) 0x100FF8).1 = .mem (place16 0xFF8) 0x100FF8 ∧
      ((based []).control (stMem mqRel)).flying t0 (stMem mqRel) = false) ∧
    aloneB slowly stScr (opsSt slowly stScr 8 .n64) = true ∧
      (chk slowly stScr (Acc.store 8 .none) (opsSt slowly stScr 8 .n64).a).1 = .scratch 0 1016 false := by decide +kernel

/-- A word that waits for tag 2, whose result has arrived. -/
def commitWord : Instr := .nop ⟨⟨3, 15, 4⟩, ⟨false, 63⟩⟩
def arrivedAt2 : State := ((solo []).modCore 0 fun c => { c with cycle := 4 }).modThread t0 fun x => { x with tags := [(2, ⟨[8], some 5, .arrived 0 ⟨[7], 0, some true⟩, false, 0, 0⟩)] }

theorem witness_ControlFields : commitWord.ctl? = some ⟨3, 15, 4⟩ ∧ arrivedAt2.mayIssue commitWord = true ∧
    t0 ∈ arrivedAt2.gang.tids ∧ (4 : BitVec 12) = 1#12 <<< 2 ∧
    (arrivedAt2.thread? t0).any (fun x => (FMap.find? x.tags 2).any fun g => g.dests == [8]) = true ∧ [8].Nodup ∧
    (Instr.rdclk tagged true 8).tag? = some 2 := by decide +kernel

/-- Two threads of one cohort, one of them parked: the other makes a gang alone, and none may go beside it. -/
theorem witness_TurnGathersGang_plan : (({ duo 3 with turn := none } : State).openPlace 0 0).turn = some ⟨0, 0, false, []⟩ ∧
    ({ duo 3 with turn := none } : State).turn = none := by decide +kernel

theorem witness_TurnGathersGang : ({ fillState with turn := none } : State).turn = none ∧
    (({ fillState with turn := none } : State).openPlace 0 0).turn = some ⟨0, 0, false, []⟩ := by decide +kernel

/-- Lane 1 stands at the next word, whose pipe can go with the first one's. -/
def beside : State :=
  let s := (State.reset.withFetchWord 80 0x1E000401F80802818000).setThread ⟨0, 0, false, 0, 1⟩ (.launch 1 0)
  { s with
    turn := none
    cohorts := [(0, Cohort.launch 3)] }

theorem witness_TurnGathersGang_beside : beside.turn = none ∧
    (beside.openPlace 0 0).turn = some ⟨0, 0, false, [⟨0, 0, false, 1, [(0, 1)]⟩]⟩ := by decide +kernel

theorem witness_EncodeDecode : wellFormed fillWord ∧ (decode 0x1E000003F80000000000).toOption = some fillWord := by decide

/-! ### An ill-formed term for each check of WellFormed -/

theorem test_illformed :
    wfError (.iadd tagged .s false 4 5 6) = some .badTag ∧
    wfError (.mfromp plain .set 12 5) = some .maskRegister ∧
    wfError (.bra plain 3) = none ∧
    wfError (.brx plain 5) = some .oddRegister ∧
    wfError (.pmov plain 63 1) = some .predicateDestination ∧
    wfError (.csrr tagged 8 0x041) = some .badModifier ∧
    wfError (.fence plain mqDev) = some .badQualifier ∧
    wfError (.mset plain .mov 1 2 3) = some .unusedField ∧
    wfError (.pairedWord ⟨0, 15, 0⟩ ⟨.iadd, 8, 1, 2⟩ ⟨.iadd, 8, 3, 5⟩) = some .pairedDestination ∧
    wfError (.pairedWord ⟨0, 15, 0⟩ ⟨.iadd, 8, 0, 4⟩ ⟨.iadd, 9, 12, 5⟩) = some .pairedBanks ∧
    wfError (.movi ⟨0, 15, 0⟩ false 4 (2 ^ 32)) = some .reservedBits ∧
    wfError (.moduleReset) = some .notAWord ∧
    (match decode (2 ^ 80 - 1) with | .error e => some e | .ok _ => none) = some .unassignedOpcode := by decide +kernel

/-! ### Worked words and results -/

/-- The words of saxpy4 as R393 writes them out. -/
theorem test_saxpy4_words :
    (decode 0x1E000081F80C00800000).toOption = some (.srd plain 6 .laneid) ∧
    (decode 0x1E0001FC000200000002).toOption = some (.movi ⟨0, 15, 0⟩ false 2 0x40000000) ∧
    (decode 0x1E0001FC000000000027).toOption = some (.movi ⟨0, 15, 0⟩ false 7 4) ∧
    (decode 0x00000909F8080000C404).toOption = some (.ldg ⟨⟨0, 0, 0⟩, ⟨false, 63⟩⟩ .n32 mqDev 4 0 6) ∧
    (decode 0x02000909F80A0100C404).toOption = some (.ldg ⟨⟨0, 1, 0⟩, ⟨false, 63⟩⟩ .n32 mqDev 5 2 6) ∧
    (decode 0x1E000101F80E03FFFFF8).toOption = some (.iaddI plain 7 7 0xFFFFF) ∧
    (decode 0x7E00640DF80A01008028).toOption = some (.ffma ⟨⟨3, 15, 3⟩, ⟨false, 63⟩⟩ .rn false 5 2 4 5) ∧
    (decode 0x1E00090DF80A0100C404).toOption = some (.stg plain .n32 mqDev 5 2 6) ∧
    (decode 0x1E000101F80C03000100).toOption = some (.iaddI plain 6 6 0x20) ∧
    (decode 0x3E000065F80203810001).toOption = some (.icmp ⟨⟨1, 15, 0⟩, ⟨false, 63⟩⟩ .ne false 1 7 8) ∧
    (decode 0x1E0002400801FFFFFFC8).toOption = some (.bra ⟨⟨0, 15, 0⟩, ⟨false, 1⟩⟩ 0x3FFFFFF9) ∧
    (decode 0x1E000255F80000000000).toOption = some (.exit plain) := by decide +kernel

/-- Line 0 of saxpy4 with its check byte 0xDE (R393), and with another. -/
def saxpyLine (check : Byte) : List Byte :=
  ([0x1E000081F80C00800000, 0x1E0001FC000200000002, 0x1E0001FC000000000027, 0x00000909F8080000C404, 0x02000909F80A0100C404,
    0x1E000101F80E03FFFFF8] : List (BitVec 80)).flatMap bytesOfWord ++ [0, check, 0, 0]

theorem test_saxpy4_line : trailerOk (saxpyLine 0xDE) = true ∧ trailerOk (saxpyLine 0xDF) = false := by decide +kernel

/-- Register `n` of the thread some cycles after the word. -/
def regAfter (s : State) (i : Instr) (n : Nat) : Option Word :=
  match exec i s with
  | .next t => (t.thread? t0).map fun y => (y.settle 8).rv n
  | _ => none

/-- v4 and v5 as given. -/
def two (a b : Word) : State := solo [(4, a), (5, b)]

/-- Sums that wrap and that saturate, the high half of −2, an arithmetic shift by more than the width, a count. -/
theorem test_integer_results :
    regAfter (two 0xFFFFFFFF 2) (.iadd plain .s false 8 4 5) 8 = some 1 ∧
    regAfter (two 0x7FFFFFFF 1) (.iadd plain .s true 8 4 5) 8 = some 0x7FFFFFFF ∧
    regAfter (two 0xFFFFFFFF 2) (.imulhi plain .s 8 4 5) 8 = some 0xFFFFFFFF ∧
    regAfter (two 0x80000000 40) (.isar plain false false 8 4 5) 8 = some 0xFFFFFFFF ∧
    regAfter (two 0xF0F00001 0) (.popc plain false 8 4) 8 = some 9 := by decide +kernel

/-- The first ffma of saxpy4, a tie to even, and a conversion towards zero. -/
theorem test_float_results :
    regAfter (solo [(2, 0x40000000), (4, 0x3F800000), (5, 0x42C00000)]) (.ffma plain .rn false 5 2 4 5) 5 = some 0x42C40000 ∧
    regAfter (two 0x3F800000 0x33800000) (.fadd plain .rn false 8 4 5) 8 = some 0x3F800000 ∧
    regAfter (two 0x3F800001 0x33800000) (.fadd plain .rn false 8 4 5) 8 = some 0x3F800002 ∧
    regAfter (two 0xBFC00000 0) (.cvt plain .s32 .f32 .rz false false 8 4) 8 = some 0xFFFFFFFF := by decide +kernel

/-- A source that is also the destination: lea adds a scaled index to a 64-bit base, with a carry across the pair. -/
theorem test_lea_carries : regAfter (solo [(4, 0xFFFFFFFC), (5, 0), (6, 2)]) (.lea plain false 2 4 4 6) 5 = some 1 := by
  decide +kernel

end Sys2Proof.Tests
end

/-! PROOFS. Parking under a decode fault (R76), and the words reserved to system privilege (R91). -/

namespace Sys2Proof.Machine

/-! ### Lane masks -/

/-- A lane stands in a mask or is added to it. -/
theorem getLsbD_foldl_laneBit (ls : List Nat) (m : LaneMask) {l : Nat} (hl : l < 32) :
    (ls.foldl (fun m l => m ||| laneBit l) m).getLsbD l = (m.getLsbD l || decide (l ∈ ls)) := by
  induction ls generalizing m with
  | nil => simp
  | cons k ls ih =>
    have hbit : (laneBit k).getLsbD l = decide (l = k) := by
      simp only [laneBit, BitVec.getLsbD_shiftLeft, BitVec.getLsbD_one, hl]
      rcases eq_or_ne l k with rfl | hne
      · simp
      · simpa [hne] using fun hle : k ≤ l => Nat.sub_ne_zero_of_lt (lt_of_le_of_ne hle hne.symm)
    rw [List.foldl_cons, ih]
    simp [hbit, Bool.or_assoc]

/-- The mask of a list names the lanes of the list. -/
theorem getLsbD_maskOf (ls : List Nat) {l : Nat} (hl : l < 32) : (maskOf ls).getLsbD l = decide (l ∈ ls) := by
  rw [maskOf, getLsbD_foldl_laneBit ls 0 hl, BitVec.ofNat_eq_ofNat, BitVec.getLsbD_zero, Bool.false_or]

theorem mem_lanesOf {m : LaneMask} {l : Nat} : l ∈ lanesOf m ↔ l < 32 ∧ m.getLsbD l = true := by
  simp [lanesOf]

theorem nodup_lanesOf (m : LaneMask) : (lanesOf m).Nodup := List.nodup_range.filter _

/-! ### The gang's cohorts -/

theorem Gang.cohort_mem {g : Gang} {t : Tid} (ht : t ∈ g.tids) : t.cohort ∈ g.cohorts := by
  obtain ⟨m, hm, rfl⟩ := List.mem_map.1 ht
  exact List.mem_eraseDups.2 (List.mem_map_of_mem hm)

theorem Gang.cohorts_lt {g : Gang} (h : g.ok = true) {c : Nat} (hc : c ∈ g.cohorts) : c < 32 := by
  obtain ⟨m, hm, rfl⟩ := List.mem_map.1 (List.mem_eraseDups.1 hc)
  exact (Gang.ok_tid h (List.mem_map_of_mem hm)).2.1

/-- A thread of the gang is among its cohort's lanes. -/
theorem Gang.lanes_of_tid {g : Gang} (h : g.ok = true) {t : Tid} (ht : t ∈ g.tids) :
    (g.lanes t.cohort).getLsbD t.lane = true := by
  have hl : t.lane < 32 := (Gang.ok_tid h ht).2.2
  obtain ⟨m, hm, rfl⟩ := List.mem_map.1 ht
  rw [Gang.lanes, getLsbD_maskOf _ hl, decide_eq_true_eq]
  exact List.mem_map_of_mem (List.mem_filter.2 ⟨hm, by simp⟩)

/-! ### A record joins its partition's queue (R316, R318) -/

@[simp] theorem State.count_partition (s : State) (c e n p : Nat) : (s.count c e n).partition p = s.partition p := by
  unfold State.count; simp only; split <;> rfl

theorem State.partition_modPartition (s : State) (p q : Nat) (f : Partition → Partition) :
    (s.modPartition p f).partition q = if p = q then f (s.partition p) else s.partition q := by
  unfold State.partition State.modPartition FMap.getD
  rw [FMap.find?_put]
  split <;> rfl

/-- The record as its queue holds it: under the next Seq, marked where the host complex handles its kind. -/
def State.stamped (s : State) (p : Nat) (r : Record) : Record :=
  { r with seq := (s.partition p).seq.toNat, host := r.host || handlerOf r.kind == .host }

/-- The queue of the partition ends in the record; the other queues stay. -/
theorem State.report_queue (s : State) (p q : Nat) (r : Record) :
    ((s.report p r).2.partition q).queue =
      if p = q then (s.partition q).queue ++ [s.stamped p r] else (s.partition q).queue := by
  have hqueue : ∀ f : Partition → Partition, (f (s.partition p)).queue = (s.partition p).queue ++ [s.stamped p r] →
      ((s.modPartition p f).partition q).queue =
        if p = q then (s.partition q).queue ++ [s.stamped p r] else (s.partition q).queue := by
    intro f hf
    rw [State.partition_modPartition]
    split
    · subst_vars; exact hf
    · rfl
  unfold State.report
  dsimp only
  split
  · exact hqueue _ rfl
  · rw [State.count_partition]
    exact hqueue _ rfl

theorem State.count_cores (s : State) (c e n : Nat) : ∃ cores, s.count c e n = { s with cores := cores } := by
  unfold State.count
  dsimp only
  split
  · exact ⟨s.cores, rfl⟩
  · exact ⟨_, rfl⟩

/-- A record changes nothing but its partition and a counter of its core. -/
theorem State.report_eq (s : State) (p : Nat) (r : Record) :
    ∃ parts cores, (s.report p r).2 = { s with partitions := parts, cores := cores } := by
  unfold State.report
  dsimp only
  split
  · exact ⟨_, s.cores, rfl⟩
  · obtain ⟨cores, h⟩ := State.count_cores _ r.core 0x0017 1
    exact ⟨_, cores, h⟩

/-! ### A cohort parks (R45, R321) -/

/-- The thread has parked as it was, under a record of this kind and opcode in the partition's queue that names it. -/
def State.parkedUnder (s : State) (p kind op : Nat) (u : Tid) (x : Thread) : Prop :=
  ∃ y r, s.thread? u = some y ∧ y.parked = true ∧ Claims.asBefore x y ∧ r ∈ (s.partition p).queue ∧ r.kind = kind ∧
    r.opcode = op ∧ r.cohort = u.cohort ∧ r.lanes.getLsbD u.lane = true ∧ r.seq ∈ y.events

section Park

variable (s : State) (core slot : Nat) (a : Bool) (c : Nat) (ls : LaneMask) (kind op : Nat) (ad d : DWord)

/-- The record of a cohort's precise event, before it has its Seq. -/
def State.preciseRecord : Record :=
  { s.teamRecord core slot a c kind ls op ad d with
    host := false
    write := pushes op && 0x10 ≤ kind
    wholeCohort := kind == 0x0A || kind == 0x1F || op == 0x200 || (op == 0x203 && 0x1A ≤ kind) }

/-- The partition of the team in a slot. -/
def State.slotPartition : Nat := ((s.team? core slot).map (·.partition)).getD 0

/-- The state in which the event's record stands in its queue, and no thread has parked yet. -/
def State.preciseReported : State :=
  (s.report (s.slotPartition core slot) (s.preciseRecord core slot a c ls kind op ad d)).2

/-- The record as it stands in the queue. -/
def State.preciseFiled : Record :=
  s.stamped (s.slotPartition core slot) (s.preciseRecord core slot a c ls kind op ad d)

/-- The threads of a cohort's lanes. -/
def laneTids : List Tid := (lanesOf ls).map fun l => ⟨core, slot, a, c, l⟩

theorem mem_laneTids {u : Tid} : u ∈ laneTids core slot a c ls ↔
    u.core = core ∧ u.slot = slot ∧ u.access = a ∧ u.cohort = c ∧ u.lane < 32 ∧ ls.getLsbD u.lane = true := by
  constructor
  · intro h
    obtain ⟨l, hl, rfl⟩ := List.mem_map.1 h
    exact ⟨rfl, rfl, rfl, rfl, mem_lanesOf.1 hl⟩
  · rintro ⟨rfl, rfl, rfl, rfl, hl⟩
    exact List.mem_map_of_mem (mem_lanesOf.2 hl)

theorem nodup_laneTids : (laneTids core slot a c ls).Nodup :=
  (nodup_lanesOf ls).map fun _ _ e => congrArg Tid.lane e

/-- Taking a precise event is a report, and then the lanes park under the record's Seq. -/
theorem State.takePrecise_eq_park : s.takePrecise core slot a c ls kind op ad d =
    (s.preciseReported core slot a c ls kind op ad d).modThreads (laneTids core slot a c ls)
      fun _ t => t.park (s.preciseFiled core slot a c ls kind op ad d).seq := rfl

/-- The lanes' parking changes nothing but threads. -/
theorem State.takePrecise_eq_reported : ∃ threads, s.takePrecise core slot a c ls kind op ad d =
    { s.preciseReported core slot a c ls kind op ad d with threads := threads } := by
  rw [State.takePrecise_eq_park]
  exact State.modThreads_eq _ _ _

/-- A precise event changes nothing but threads, partitions and a counter of its core. -/
theorem State.takePrecise_eq : ∃ threads parts cores, s.takePrecise core slot a c ls kind op ad d =
    { s with threads := threads, partitions := parts, cores := cores } := by
  obtain ⟨threads, ht⟩ := State.takePrecise_eq_reported s core slot a c ls kind op ad d
  obtain ⟨parts, cores, hr⟩ :=
    State.report_eq s (s.slotPartition core slot) (s.preciseRecord core slot a c ls kind op ad d)
  exact ⟨threads, parts, cores, by rw [ht, State.preciseReported, hr]⟩

@[simp] theorem State.takePrecise_team? (i j : Nat) :
    (s.takePrecise core slot a c ls kind op ad d).team? i j = s.team? i j := by
  obtain ⟨_, _, _, h⟩ := State.takePrecise_eq s core slot a c ls kind op ad d
  rw [h]; rfl

theorem State.takePrecise_queue (q : Nat) :
    ((s.takePrecise core slot a c ls kind op ad d).partition q).queue =
      if s.slotPartition core slot = q then
        (s.partition q).queue ++ [s.preciseFiled core slot a c ls kind op ad d]
      else (s.partition q).queue := by
  obtain ⟨_, ht⟩ := State.takePrecise_eq_reported s core slot a c ls kind op ad d
  rw [ht]
  exact State.report_queue s _ q _

/-- The records of earlier events stay in their queues. -/
theorem State.takePrecise_queue_sub (q : Nat) {r : Record} (h : r ∈ (s.partition q).queue) :
    r ∈ ((s.takePrecise core slot a c ls kind op ad d).partition q).queue := by
  rw [State.takePrecise_queue]
  split
  · exact List.mem_append_left _ h
  · exact h

variable (hslot : slot < 8) (hc : c < 32)
include hslot hc

theorem tidOk_of_mem_laneTids : ∀ t ∈ laneTids core slot a c ls, tidOk t := by
  intro t ht
  obtain ⟨-, rfl, -, rfl, hl, -⟩ := (mem_laneTids core slot a c ls).1 ht
  exact ⟨hslot, hc, hl⟩

/-- The threads of other cohorts stay. -/
theorem State.takePrecise_thread_ne {u : Tid} (hu : tidOk u) (hne : u.cohort ≠ c) :
    (s.takePrecise core slot a c ls kind op ad d).thread? u = s.thread? u := by
  have hnot : u ∉ laneTids core slot a c ls := fun h =>
    hne (by obtain ⟨-, -, -, hcohort, -⟩ := (mem_laneTids core slot a c ls).1 h; exact hcohort)
  rw [State.takePrecise_eq_park, State.thread?_modThreads_notMem _ _ _ _
    (tidOk_of_mem_laneTids core slot a c ls hslot hc) hu hnot]
  simp [State.thread?, State.preciseReported]

/-- The lanes that the event names park under its record. -/
theorem State.takePrecise_parkedUnder {u : Tid} (hu : u ∈ laneTids core slot a c ls) {x : Thread}
    (hx : s.thread? u = some x) :
    (s.takePrecise core slot a c ls kind op ad d).parkedUnder (s.slotPartition core slot) kind op u x := by
  have hthread : (s.takePrecise core slot a c ls kind op ad d).thread? u =
      some (x.park (s.preciseFiled core slot a c ls kind op ad d).seq) := by
    rw [State.takePrecise_eq_park, State.thread?_modThreads_mem _ _ _ _
      (tidOk_of_mem_laneTids core slot a c ls hslot hc) (nodup_laneTids core slot a c ls) hu]
    rw [State.thread?, State.preciseReported, State.report_threads, ← State.thread?, hx, Option.map_some]
  have hqueue : s.preciseFiled core slot a c ls kind op ad d ∈
      ((s.takePrecise core slot a c ls kind op ad d).partition (s.slotPartition core slot)).queue := by
    rw [State.takePrecise_queue, if_pos rfl]
    exact List.mem_append_right _ List.mem_cons_self
  obtain ⟨-, -, -, hcohort, -, hlane⟩ := (mem_laneTids core slot a c ls).1 hu
  exact ⟨_, _, hthread, rfl, ⟨rfl, rfl, rfl, rfl, rfl, rfl, rfl⟩, hqueue, rfl, rfl, hcohort.symm, hlane,
    List.mem_append_right _ List.mem_cons_self⟩

/-- A thread of another cohort that has parked stays so. -/
theorem State.takePrecise_keeps_parkedUnder {p kind' op' : Nat} {u : Tid} {x : Thread} (hu : tidOk u)
    (hne : u.cohort ≠ c) (h : s.parkedUnder p kind' op' u x) :
    (s.takePrecise core slot a c ls kind op ad d).parkedUnder p kind' op' u x := by
  obtain ⟨y, r, hy, hpark, hbefore, hr, hrec⟩ := h
  exact ⟨y, r, by rw [State.takePrecise_thread_ne s core slot a c ls kind op ad d hslot hc hu hne, hy], hpark, hbefore,
    State.takePrecise_queue_sub s core slot a c ls kind op ad d p hr, hrec⟩

end Park

/-! ### The whole gang parks (R76) -/

section GangPark

variable (g : Gang) (kind op : Nat) (ad d : DWord)

/-- The precise events of some of the gang's cohorts, one after another. -/
def State.cohortsPrecise (s : State) (cs : List Nat) : State :=
  cs.foldl (fun s' c => s'.takePrecise g.core g.slot g.access c (g.lanes c) kind op ad d) s

theorem State.cohortsPrecise_cons (s : State) (c : Nat) (cs : List Nat) :
    s.cohortsPrecise g kind op ad d (c :: cs) =
      (s.takePrecise g.core g.slot g.access c (g.lanes c) kind op ad d).cohortsPrecise g kind op ad d cs := rfl

theorem State.cohortsPrecise_eq (s : State) (cs : List Nat) : ∃ threads parts cores,
    s.cohortsPrecise g kind op ad d cs = { s with threads := threads, partitions := parts, cores := cores } := by
  induction cs generalizing s with
  | nil => exact ⟨s.threads, s.partitions, s.cores, rfl⟩
  | cons c cs ih =>
    obtain ⟨_, _, _, hone⟩ := State.takePrecise_eq s g.core g.slot g.access c (g.lanes c) kind op ad d
    obtain ⟨threads, parts, cores, hrest⟩ := ih (s.takePrecise g.core g.slot g.access c (g.lanes c) kind op ad d)
    exact ⟨threads, parts, cores, by rw [State.cohortsPrecise_cons, hrest, hone]⟩

variable (hslot : g.slot < 8)
include hslot

/-- The events of other cohorts leave a parked thread as it is. -/
theorem State.cohortsPrecise_keeps_parkedUnder (s : State) (cs : List Nat) (hcs : ∀ c ∈ cs, c < 32) {p kind' op' : Nat}
    {u : Tid} {x : Thread} (hu : tidOk u) (hnot : u.cohort ∉ cs) (h : s.parkedUnder p kind' op' u x) :
    (s.cohortsPrecise g kind op ad d cs).parkedUnder p kind' op' u x := by
  induction cs generalizing s with
  | nil => exact h
  | cons c cs ih =>
    obtain ⟨hne, hnot⟩ := List.ne_and_not_mem_of_not_mem_cons hnot
    obtain ⟨hc, hcs⟩ := List.forall_mem_cons.1 hcs
    exact ih _ hcs hnot
      (State.takePrecise_keeps_parkedUnder s g.core g.slot g.access c (g.lanes c) kind op ad d hslot hc hu hne h)

/-- Each thread that the events name parks, once its cohort's turn has come. -/
theorem State.cohortsPrecise_parkedUnder (s : State) (cs : List Nat) (hcs : ∀ c ∈ cs, c < 32) (hn : cs.Nodup)
    {u : Tid} {x : Thread} (hplace : u.core = g.core ∧ u.slot = g.slot ∧ u.access = g.access) (hu : tidOk u)
    (hmem : u.cohort ∈ cs) (hl : (g.lanes u.cohort).getLsbD u.lane = true) (hx : s.thread? u = some x) :
    (s.cohortsPrecise g kind op ad d cs).parkedUnder (s.slotPartition g.core g.slot) kind op u x := by
  induction cs generalizing s with
  | nil => cases hmem
  | cons c cs ih =>
    obtain ⟨hc, hcs⟩ := List.forall_mem_cons.1 hcs
    obtain ⟨hnot, hn⟩ := List.nodup_cons.1 hn
    rw [State.cohortsPrecise_cons]
    by_cases e : u.cohort = c
    · refine State.cohortsPrecise_keeps_parkedUnder g kind op ad d hslot _ cs hcs hu (e ▸ hnot) ?_
      obtain ⟨hcore, hslot', haccess⟩ := hplace
      exact State.takePrecise_parkedUnder s _ _ _ _ _ kind op ad d hslot hc
        ((mem_laneTids _ _ _ _ _).2 ⟨hcore, hslot', haccess, e, hu.2.2, e ▸ hl⟩) hx
    · have hrest := ih (s.takePrecise g.core g.slot g.access c (g.lanes c) kind op ad d) hcs hn
        (List.mem_of_ne_of_mem e hmem)
        (by rw [State.takePrecise_thread_ne s _ _ _ _ _ kind op ad d hslot hc hu e, hx])
      simpa [State.slotPartition] using hrest

end GangPark

/-- Every thread of the gang parks under the record of its cohort. -/
theorem State.gangPrecise_parkedUnder {s : State} {tm : Team} (hg : s.gang.ok = true) (htm : s.gangTeam = some tm)
    (kind op : Nat) (ad d : DWord) {u : Tid} {x : Thread} (hu : u ∈ s.gang.tids) (hx : s.thread? u = some x) :
    (s.gangPrecise kind op ad d).parkedUnder tm.partition kind op u x := by
  have hpart : s.slotPartition s.gang.core s.gang.slot = tm.partition := by
    rw [State.slotPartition, ← State.gangTeam, htm]; rfl
  have hslot : s.gang.slot < 8 := (Gang.tids_core hu).2.1 ▸ (Gang.ok_tid hg hu).1
  rw [← hpart]
  exact State.cohortsPrecise_parkedUnder s.gang kind op ad d hslot s s.gang.cohorts
    (fun _ hc => Gang.cohorts_lt hg hc) (nodup_eraseDups _ _ le_rfl) (Gang.tids_core hu) (Gang.ok_tid hg hu)
    (Gang.cohort_mem hu) (Gang.lanes_of_tid hg hu) hx

/-- A word that has a decode fault parks its gang and does nothing else. -/
theorem State.issue_decodeEvent {s : State} {i : Instr} {tm : Team} {k : Nat} (htm : s.gangTeam = some tm)
    (hk : tm.decodeEvent i s.gang.access = some k) (extra : Bool) (act : State → List Tid → State → State) :
    s.issue i extra act = s.gangPrecise k i.opcode 0 0 := by
  unfold State.issue
  simp only [htm, hk]

/-- A word whose meaning is an issue parks its gang under the decode fault that it has (R76). -/
theorem parksUnder_of_decodeEvent {s : State} {i : Instr} {tm : Team} {k : Nat}
    (hissue : ∃ extra act, exec i s = .next (s.issue i extra act)) (hg : s.gang.ok = true) (htm : s.gangTeam = some tm)
    (hk : tm.decodeEvent i s.gang.access = some k) : Claims.parksUnder s i tm k := by
  obtain ⟨extra, act, hexec⟩ := hissue
  obtain ⟨threads, parts, cores, hsame⟩ := State.cohortsPrecise_eq s.gang k i.opcode 0 0 s s.gang.cohorts
  have hframe : s.gangPrecise k i.opcode 0 0 = { s with threads := threads, partitions := parts, cores := cores } := hsame
  refine ⟨s.gangPrecise k i.opcode 0 0, by rw [hexec, State.issue_decodeEvent htm hk], by rw [hframe], by rw [hframe],
    by rw [hframe], by rw [hframe], fun u x hu hx => ?_⟩
  exact State.gangPrecise_parkedUnder hg htm k i.opcode 0 0 hu hx

/-! ### Privilege (R91) -/

/-- The privilege fault is the first one exactly of a well-formed word that may stand in its slice, is reserved to
system privilege and runs at user privilege (R76). -/
theorem Team.decodeEvent_privilege_iff (tm : Team) (i : Instr) (access : Bool) :
    tm.decodeEvent i access = some 0x02 ↔ wellFormed i ∧ sliceIllegal i access (tm.kern.accessEntry != 0) = false ∧
      i.system = true ∧ tm.kern.system = false := by
  unfold Team.decodeEvent
  split_ifs with hwf hslice hpriv hbeyond
  · exact iff_of_false (by decide) fun ⟨h, _⟩ => Option.isSome_iff_ne_none.1 hwf h
  · exact iff_of_false (by decide) fun ⟨_, h, _⟩ => Bool.false_ne_true (h.symm.trans hslice)
  · simpa [wellFormed, hslice, Option.not_isSome_iff_eq_none.1 hwf] using hpriv
  · exact iff_of_false (by decide) fun ⟨_, _, hsystem, huser⟩ => hpriv (by simp [hsystem, huser])
  · exact iff_of_false (by decide) fun ⟨_, _, hsystem, huser⟩ => hpriv (by simp [hsystem, huser])

/-- The six words of R91 are those that the check of R76 reserves. -/
theorem privileged_eq_system (i : Instr) : Claims.privileged i = i.system := by
  cases i <;> rfl

/-- The meaning of each of the six words is an issue. -/
theorem exec_privileged_eq_issue {i : Instr} (hp : Claims.privileged i = true) (s : State) :
    ∃ extra act, exec i s = .next (s.issue i extra act) := by
  cases i with
  | tlbinv h form a b => exact ⟨_, _, rfl⟩
  | winctl h close a b => exact ⟨_, _, rfl⟩
  | gatectl h close a b => exact ⟨_, _, rfl⟩
  | sread h d a => exact ⟨_, _, rfl⟩
  | eret h a => exact ⟨_, _, rfl⟩
  | halt h => exact ⟨_, _, rfl⟩
  | _ => cases hp

/-- Settles O54: the privilege check of R76 holds for the six words alone, and a word that it stops parks its gang. -/
theorem privilegedWords : Obligations.PrivilegedWords := by
  unfold Obligations.PrivilegedWords
  constructor
  · intro i s tm hp hwf hg htm hslice huser
    refine parksUnder_of_decodeEvent (exec_privileged_eq_issue hp s) hg htm ?_
    exact (Team.decodeEvent_privilege_iff tm i s.gang.access).2 ⟨hwf, hslice, privileged_eq_system i ▸ hp, huser⟩
  · intro i tm access hlegal hfault
    obtain ⟨-, -, hsystem, huser⟩ := (Team.decodeEvent_privilege_iff tm i access).1 hfault
    rcases hlegal with hother | hkernel
    · rw [privileged_eq_system, hsystem] at hother
      cases hother
    · rw [huser] at hkernel
      cases hkernel

end Sys2Proof.Machine

/-! PROOFS. Yielding and doing nothing (R134). -/

namespace Sys2Proof.Machine

/-! ### What parking keeps, the end of flow keeps (R71) -/

section ParkKeeps

variable {P : Thread → Prop} (hpark : ∀ (x : Thread) (n : Nat), P x → P (x.park n))
include hpark

/-- A thread that is parked, or stands beside one, keeps what parking keeps. -/
theorem State.modThreads_park_keeps (s : State) (ts : List Tid) (n : Nat) {u : Tid} {x : Thread}
    (hx : s.thread? u = some x) (hP : P x) :
    ∃ y, (s.modThreads ts fun _ t => t.park n).thread? u = some y ∧ P y := by
  induction ts generalizing s x with
  | nil => exact ⟨x, hx, hP⟩
  | cons t ts ih =>
    by_cases hkey : tidKey t = tidKey u
    · have hparked : (s.modThread t (·.park n)).thread? u = some (x.park n) := by
        have hself := State.thread?_modThread_self s t (·.park n)
        simp only [State.thread?, hkey] at hself hx ⊢
        rw [hself, hx, Option.map_some]
      exact ih _ hparked (hpark x n hP)
    · exact ih _ ((FMap.find?_mod_ne _ _ hkey).trans hx) hP

/-- Every thread keeps through a precise event what parking keeps. -/
theorem State.takePrecise_keeps (s : State) (core slot : Nat) (a : Bool) (c : Nat) (ls : LaneMask) (kind op : Nat)
    (ad d : DWord) {u : Tid} {x : Thread} (hx : s.thread? u = some x) (hP : P x) :
    ∃ y, (s.takePrecise core slot a c ls kind op ad d).thread? u = some y ∧ P y := by
  rw [State.takePrecise_eq_park]
  refine State.modThreads_park_keeps hpark _ _ _ (x := x) ?_ hP
  rwa [State.thread?, State.preciseReported, State.report_threads]

/-- Every thread keeps through the end of flow what parking keeps. -/
theorem State.flowEnd_keeps (s : State) (i : Instr) {u : Tid} {x : Thread} (hx : s.thread? u = some x) (hP : P x) :
    ∃ y, (s.flowEnd i).thread? u = some y ∧ P y := by
  unfold State.flowEnd
  simp only
  generalize s.gang.cohorts = cs
  generalize s.gang = g
  induction cs generalizing s x with
  | nil => exact ⟨x, hx, hP⟩
  | cons c cs ih =>
    rw [List.foldl_cons]
    split
    · exact ih s hx hP
    · obtain ⟨y, hy, hPy⟩ := State.takePrecise_keeps hpark s _ _ _ _ _ _ _ _ _ hx hP
      exact ih _ hy hPy

end ParkKeeps

/-! ### Waiting for PD cycles (R54) -/

/-- The thread waits until the cycle, and no overdue count of it runs. -/
def Thread.waitsUntil (x : Thread) (cycle : Nat) : Prop :=
  x.readyAt = cycle ∧ x.pdRun = true ∧ x.since = none ∧ x.overdue = false

theorem Thread.waitsUntil_park (cycle : Nat) (x : Thread) (n : Nat) (h : x.waitsUntil cycle) :
    (x.park n).waitsUntil cycle := by
  obtain ⟨hready, hpd, -, -⟩ := h
  exact ⟨hready, hpd, rfl, rfl⟩

theorem Thread.waitsUntil_control (x : Thread) (i : Instr) (c : Ctl) (now : Nat) :
    (x.control i c now).waitsUntil (now + 1 + c.pd.toNat) := ⟨rfl, rfl, rfl, rfl⟩

/-- A thread that runs a word waits for the word's PD. -/
theorem State.runs_waitsUntil {s : State} {i : Instr} {c : Ctl} {u : Tid} {x : Thread} (hctl : i.ctl? = some c)
    (hg : s.gang.ok = true) (hu : s.runs i u x) : x.waitsUntil (s.cycle s.gang.core + 1 + c.pd.toNat) := by
  obtain ⟨hmem, hx, -⟩ := hu
  rw [State.control_thread s i c hctl hg u hmem, Option.map_eq_some_iff] at hx
  obtain ⟨z, -, rfl⟩ := hx
  exact z.waitsUntil_control i c _

/-! ### yield and nop -/

/-- What yield adds to a thread that has issued it. -/
def Thread.yielded (x : Thread) : Thread := { x with readyAt := x.readyAt + 32 }

theorem Thread.waitsUntil_yielded {x : Thread} {cycle : Nat} (h : x.waitsUntil cycle) :
    x.yielded.waitsUntil (cycle + 32) := by
  obtain ⟨hready, hrest⟩ := h
  exact ⟨congrArg (· + 32) hready, hrest⟩

/-- A yield that may issue: the control fields act, each guard-true thread yields, and flow ends. -/
theorem exec_yield_eq (h : Hd) {s : State} (hm : s.mayIssue (.yield h) = true) :
    exec (.yield h) s = .next (((s.control (.yield h)).modThreads ((s.control (.yield h)).active (.yield h))
      fun _ x => x.yielded).flowEnd (.yield h)) :=
  congrArg Host.Outcome.next (State.issue_eq s (.yield h) true _ hm fun _ => rfl)

/-- A nop that may issue: the control fields act, and flow ends. -/
theorem exec_nop_eq (h : Hd) {s : State} (hm : s.mayIssue (.nop h) = true) :
    exec (.nop h) s = .next ((s.control (.nop h)).flowEnd (.nop h)) :=
  congrArg Host.Outcome.next (State.issue_eq s (.nop h) true _ hm fun _ => rfl)

/-- Settles O56: PD is set by the control fields, yield adds its 32 cycles, and the end of flow changes neither; nop is
its control fields and the end of flow. -/
theorem yieldAndNop : Obligations.YieldAndNop := by
  unfold Obligations.YieldAndNop
  refine ⟨fun h s u x hm hu => ?_, fun h s hm => exec_nop_eq h hm⟩
  have hwait := Thread.waitsUntil_yielded (State.runs_waitsUntil (c := h.c) rfl (State.mayIssue_gang hm) hu)
  obtain ⟨hok, hnodup⟩ := State.active_ok hm
  have ⟨_, hx, _⟩ := hu
  have hyield : ((s.control (.yield h)).modThreads ((s.control (.yield h)).active (.yield h))
      fun _ x => x.yielded).thread? u = some x.yielded := by
    rw [State.thread?_modThreads_mem _ _ _ _ hok hnodup (State.runs_active hu), hx, Option.map_some]
  obtain ⟨y, hy, hready⟩ := State.flowEnd_keeps (Thread.waitsUntil_park _) _ (.yield h) hyield hwait
  exact ⟨_, y, exec_yield_eq h hm, hy, hready⟩

end Sys2Proof.Machine
